-- ==== Sys2Proof/Word.lean ====
section
/-! DEFINITION. The word types of the Urtia 2480 and their plainest conversions (R7: little-endian, bit 0 least
significant). -/

namespace Sys2Proof

/-- A 64-bit register value (R19). -/
abbrev W64 := BitVec 64
/-- A 32-bit sub-element (R22). -/
abbrev W32 := BitVec 32
/-- One byte of memory. -/
abbrev Byte := BitVec 8
/-- The 16-bit descriptor of a 64-byte block (R93). -/
abbrev Desc := BitVec 16
/-- The 1,024 data bits of a 128-byte line (R99). -/
abbrev LineData := BitVec 1024
/-- One bit per byte of a 128-byte line (R152). -/
abbrev LineMask := BitVec 128

end Sys2Proof
end

