-- ==== Sys2Proof/Config.lean ====
section
/-! DEFINITION. What one implementation fixes and the spec leaves open: free values with no body. Nothing can
evaluate them, so a theorem that mentions one holds for every value. -/

namespace Sys2Proof.Config

/-- Free value number `n`: each use advances the counter of the state (`State.free`). It stands for every value the
spec does not state: `%clock` distances, TIMER's remaining time, a choice among allowed translations (R71)
or among the versions of a line of code (R35).
Assumption 2 (DESIGN CHOICE). -/
opaque freeNat : Nat → Nat

/-- Free choice number `n` where the spec allows two outcomes (R73, R106). Assumption 2 (DESIGN CHOICE). -/
opaque freeBit : Nat → Bool

/-- A line as the host or a peer that holds it has it: its data and descriptors, by the free-value counter and the line.
Assumption 3 (DESIGN CHOICE). -/
opaque awayLine : Nat → Nat → Nat

/-- The SLH-DSA-SHA2-128s public key of Quinid, held in the boot ROM (R351), lowest byte first.
Assumption 2 (DESIGN CHOICE). -/
opaque quinidKey : BitVec 256

/-- The device identity key (R352, R353): its secret seed, its secret for randomising, and its public seed, lowest byte first.
Assumption 2 (DESIGN CHOICE). -/
opaque identitySeed : BitVec 128
opaque identityPrf : BitVec 128
opaque identityPublicSeed : BitVec 128

/-- The fused minimum firmware VERSION (R351). Assumption 2 (DESIGN CHOICE). -/
opaque fusedMinVersion : Nat

end Sys2Proof.Config
end

