-- ==== Sys2Proof/Machine/Table.lean ====
section
/-! DEFINITION. Tables keyed by numbers, and byte memory in its canonical form. -/

namespace Sys2Proof.Machine

/-- A table from numbers to data, kept in rising order of key. -/
abbrev Table (α : Type) := List (Nat × α)

/-- The entry at a key. -/
def Table.get? {α : Type} : Table α → Nat → Option α
  | [], _ => none
  | (j, x) :: r, k => if j = k then some x else Table.get? r k

/-- The entry at a key, or a default. -/
def Table.getD {α : Type} (t : Table α) (k : Nat) (d : α) : α := (Table.get? t k).getD d

/-- Write the entry at a key. -/
def Table.set {α : Type} : Table α → Nat → α → Table α
  | [], k, x => [(k, x)]
  | (j, y) :: r, k, x =>
    if j = k then (k, x) :: r
    else if k < j then (k, x) :: (j, y) :: r
    else (j, y) :: Table.set r k x

/-- Remove the entry at a key. -/
def Table.del {α : Type} : Table α → Nat → Table α
  | [], _ => []
  | (j, y) :: r, k => if j = k then Table.del r k else (j, y) :: Table.del r k

/-- Write an entry through a function of the old one. -/
def Table.modify {α : Type} (t : Table α) (k : Nat) (d : α) (f : α → α) : Table α := t.set k (f (t.getD k d))

/-- Change an entry only where there is one. -/
def Table.alter {α : Type} (t : Table α) (k : Nat) (f : α → α) : Table α :=
  match t.get? k with
  | some x => t.set k (f x)
  | none => t

/-- Byte memory: the listed bytes, in strictly rising order of address, none of them zero. An unlisted address reads
zero: DRAM because the stage manager's initialisation zeroes it (R95), local store because admission zeroes it
(R150), host memory and stage-manager SRAM by a choice of the model (assumption 1). -/
abbrev Memory := List Host.Cell

/-- What an unlisted address reads as. -/
def Memory.empty : Byte := 0

/-- Read one byte. Assumption 1 (DESIGN CHOICE). -/
def Memory.read : Memory → Nat → Byte
  | [], _ => Memory.empty
  | (j, x) :: r, a => if j = a then x else Memory.read r a

/-- Write one byte, keeping the canonical form. -/
def Memory.write : Memory → Nat → Byte → Memory
  | [], a, x => if x = Memory.empty then [] else [(a, x)]
  | (j, y) :: r, a, x =>
    if j = a then (if x = Memory.empty then r else (a, x) :: r)
    else if a < j then (if x = Memory.empty then (j, y) :: r else (a, x) :: (j, y) :: r)
    else (j, y) :: Memory.write r a x

/-- The canonical form, above a bound: rising addresses and no listed byte that equals what an unlisted one reads. -/
def Memory.wfFrom : Nat → Memory → Bool
  | _, [] => true
  | lo, (j, x) :: r => decide (lo ≤ j) && decide (x ≠ Memory.empty) && Memory.wfFrom (j + 1) r

/-- The canonical form of a memory. -/
def Memory.wf (m : Memory) : Bool := Memory.wfFrom 0 m

/-- Read `n` bytes little-endian (R7). -/
def Memory.readN (m : Memory) : Nat → Nat → Nat
  | _, 0 => 0
  | a, n + 1 => (m.read a).toNat + 256 * Memory.readN m (a + 1) n

/-- Write `n` bytes little-endian (R7). -/
def Memory.writeN (m : Memory) (a : Nat) : Nat → Nat → Memory
  | 0, _ => m
  | n + 1, x => (Memory.writeN m (a + 1) n (x / 256)).write a (BitVec.ofNat 8 x)

/-- Write those of `n` bytes whose mask bit is set. -/
def Memory.writeMasked (m : Memory) (a : Nat) : Nat → Nat → Nat → Memory
  | 0, _, _ => m
  | n + 1, x, k =>
    let m' := Memory.writeMasked m (a + 1) n (x / 256) (k / 2)
    if k % 2 = 1 then m'.write a (BitVec.ofNat 8 x) else m'

/-- Set `n` bytes to the unlisted value. -/
def Memory.clear (m : Memory) (a n : Nat) : Memory := m.filter (fun c => c.1 < a || a + n ≤ c.1)

end Sys2Proof.Machine
end

