-- ==== Sys2Proof/Syntax/Operands.lean ====
section
/-! DEFINITION. The parts of an instruction: operand specifiers, guards, lengths, modifier fields, and the arguments
of the device's own events. -/

namespace Sys2Proof

/-- An operand specifier (R46). The reserved codes 0x1F0-0x1FD have no constructor. -/
inductive Spec where
  /-- Vector register, lane rank. -/
  | v (n : BitVec 8)
  /-- Group register. -/
  | g (n : BitVec 7)
  /-- Team register. -/
  | t (n : BitVec 6)
  /-- Buffer record. -/
  | b (n : BitVec 4)
  /-- Predicate: 0-6 name `p0`-`p6`, 7 names `pt`. -/
  | p (n : BitVec 3)
  /-- Token. -/
  | k (n : BitVec 3)
  /-- Accumulator tile. -/
  | a (n : BitVec 2)
  /-- Special operand 0-11: `%lane` … `%phase` in the order of R46. -/
  | sp (n : Fin 12)
  /-- 0x1FE: reads 0 in every bit; also the value of an unused field. -/
  | zero
  /-- 0x1FF: IMM32. -/
  | imm
  deriving DecidableEq, Repr, Inhabited

/-- The instruction length (R33). -/
inductive Len where
  | b64 | b96 | b128
  deriving DecidableEq, Repr, Inhabited

/-- The guard fields of the base word (R36, R41). -/
structure Guard where
  g0 : BitVec 3
  g1 : BitVec 3
  gop : BitVec 2
  gn : Bool
  deriving DecidableEq, Repr, Inhabited

/-- Issue hints (R45). -/
inductive Sch where
  | none | pass | stay
  deriving DecidableEq, Repr, Inhabited

/-- What every instruction carries beside its operands (R36-R38): length, guard, token waits, hint, and IMM32. -/
structure Hdr where
  len : Len
  grd : Guard
  wt : BitVec 8
  sch : Sch
  imm : BitVec 32
  deriving DecidableEq, Repr, Inhabited

/-- The common integer modifier layout of opcodes 0x000-0x07F (R50). -/
structure IntM where
  w : BitVec 2
  sat : Bool
  sgn : Bool
  var : BitVec 2
  deriving DecidableEq, Repr, Inhabited

/-- The common float modifier layout (R51). -/
structure FltM where
  ft : BitVec 2
  sat : Bool
  rm : BitVec 3
  deriving DecidableEq, Repr, Inhabited

/-- CVT and CVTI modifiers (R213). -/
structure CvtM where
  dty : BitVec 4
  sat : Bool
  sty : BitVec 4
  rm : BitVec 2
  part : BitVec 4
  deriving DecidableEq, Repr, Inhabited

/-- QUANT modifiers (R217). -/
structure QuantM where
  sft : BitVec 2
  dfm : BitVec 4
  nanprop : Bool
  deriving DecidableEq, Repr, Inhabited

/-- DEQ modifiers (R217). -/
structure DeqM where
  flt : FltM
  wc : BitVec 2
  deriving DecidableEq, Repr, Inhabited

/-- Reduction and scan modifiers (R198, R203). -/
structure RedM where
  w : BitVec 2
  op : BitVec 4
  rm : BitVec 2
  excl : Bool
  deriving DecidableEq, Repr, Inhabited

/-- The cache hint fields CH.L2 and CH.L1 (R37, R49). -/
structure Hint where
  l2 : BitVec 2
  l1 : BitVec 2
  deriving DecidableEq, Repr, Inhabited

/-- LD and ST modifiers (R158): `ord` is ACQ of LD and REL of ST. -/
structure MemM where
  ord : Bool
  n : BitVec 2
  ty : BitVec 3
  sc : BitVec 3
  deriving DecidableEq, Repr, Inhabited

/-- ATOM, RED and REDQ modifiers (R158). -/
structure AtomM where
  aty : BitVec 2
  op : BitVec 4
  ord : BitVec 2
  sc : BitVec 3
  deriving DecidableEq, Repr, Inhabited

/-- FENCE modifiers (R250). -/
structure FenceM where
  atK : Bool
  stK : Bool
  ldK : Bool
  eng : Bool
  sc : BitVec 3
  deriving DecidableEq, Repr, Inhabited

/-- MMA and MLOOP modifiers (R229). -/
structure MmaM where
  acls : BitVec 2
  bcls : BitVec 2
  si32 : Bool
  quad : Bool
  kh : Bool
  deriving DecidableEq, Repr, Inhabited

/-- ACCLD and ACCST modifiers (R229). -/
structure AccM where
  sat : Bool
  side : Bool
  norm : Bool
  ty : BitVec 3
  deriving DecidableEq, Repr, Inhabited

/-- MERGE modifiers beside LVL (R271). -/
structure MergeM where
  mode : BitVec 3
  ty : BitVec 3
  rp : BitVec 5
  deriving DecidableEq, Repr, Inhabited

/-- What a home outside this device answers to a request, or what an agent outside it answers to a recall: an input
of the model (R343, R379). `right`: 0 none, 1 S, 2 E, 3 M. `slot` is the script slot of a refusal (R110), `wok` the
reply's WOK (R156); `ord` tells that the agent orders the bytes of its answer after its earlier requests (R377).
Assumption 23 (DESIGN CHOICE). Assumption 65 (DESIGN CHOICE). -/
structure PeerAns where
  nack : Bool
  slot : BitVec 3
  wok : Bool
  ord : Bool
  right : BitVec 2
  data : LineData
  descs : BitVec 32
  old : W64
  dirty : Bool
  deriving DecidableEq, Repr, Inhabited

/-- A request the host or a peer device presents at a home of this device (R102, R340): holder ID, line number
(PA div 128), the bytes and mask it writes or evicts, the descriptors that go with them, and for an atomic or reduction
the element. `ord` tells that it comes after all the agent's earlier requests, as a release does (R377).
Assumption 65 (DESIGN CHOICE). -/
structure ExtReq where
  holder : BitVec 16
  line : Nat
  data : LineData
  mask : LineMask
  descs : BitVec 32
  descW : BitVec 2
  ord : Bool
  elemOff : BitVec 7
  elemOp : BitVec 8
  opnd : W64
  cmp : W64
  deriving DecidableEq, Repr, Inhabited

/-- Where a coherence event comes from: a request in flight inside the package, the same answered by a home outside
it, or a request from the host or a peer. -/
inductive ReqSrc where
  | net (k : Nat)
  | peer (k : Nat) (a : PeerAns)
  | ext (r : ExtReq)
  deriving DecidableEq, Repr, Inhabited

/-- Who makes a register access (R349): the host or the stage manager. Assumption 65 (DESIGN CHOICE). -/
inductive Master where
  | host | mgmt
  deriving DecidableEq, Repr, Inhabited

end Sys2Proof

namespace Sys2Proof

/-- Where an uncorrectable error strikes (R319): a memory block (PA div 64), an L1 block (tile, line, half), a
local-store block (tile, PLA div 64), a register of a group (its specifier), or a physical accumulator tile. -/
inductive ErrPlace where
  | block (blk : Nat)
  | l2 (die line half : Nat)
  | l1 (tile line half : Nat)
  | store (tile blk : Nat)
  | reg (gid : Nat) (spec : Spec)
  | acc (tile sub phys : Nat)
  deriving DecidableEq, Repr, Inhabited

end Sys2Proof
end

