-- ==== Sys2Proof/Syntax.lean ====
section
/-! DEFINITION. Instr: one constructor per row of the table of operations and events. The first 119 have an
encoding (R36-R59); the others are the device's own events, whose arguments say which unit, message or access they
concern. -/

namespace Sys2Proof

/-- The steps of the part. Operand arguments `d`, `a`, `b`, `c`, `e` are the fields D, A, B, C and E of R36-R37. -/
inductive Instr where
  -- moves and integer (R173)
  /-- NOP (R174): No operation; only its WT wait and SCH hint act. -/
  | nop (h : Hdr)
  /-- MOV (R175): Copies a 64-bit source or a predicate into the destination at the destination's rank. -/
  | mov (h : Hdr) (m : IntM) (d : Spec) (a : Spec)
  /-- MOVI (R176): Writes an expanded immediate, or with .hi writes IMM32 into bits 63:32 and keeps the low half. -/
  | movi (h : Hdr) (m : IntM) (d : Spec) (a : Spec)
  /-- MOVP (R177): Writes the parent value of a g or t name and ignores every copy. -/
  | movp (h : Hdr) (d : Spec) (a : Spec)
  /-- SEL (R178): Writes a where the predicate is true and b where it is false. -/
  | sel (h : Hdr) (m : IntM) (d : Spec) (a : Spec) (b : Spec) (c : Spec)
  /-- IADD (R179): Integer add per sub-element, wrapping or saturating. -/
  | iadd (h : Hdr) (m : IntM) (d : Spec) (a : Spec) (b : Spec)
  /-- ISUB (R179): Integer subtract per sub-element, wrapping or saturating. -/
  | isub (h : Hdr) (m : IntM) (d : Spec) (a : Spec) (b : Spec)
  /-- IMUL (R179): Low half of the integer product per sub-element, wrapping or saturating. -/
  | imul (h : Hdr) (m : IntM) (d : Spec) (a : Spec) (b : Spec)
  /-- IMULH (R179): High half of the 2w-bit integer product per sub-element. -/
  | imulh (h : Hdr) (m : IntM) (d : Spec) (a : Spec) (b : Spec)
  /-- IMAD (R179): Integer a*b+c per sub-element with one wrap or clamp. -/
  | imad (h : Hdr) (m : IntM) (d : Spec) (a : Spec) (b : Spec) (c : Spec)
  /-- IMIN (R179): Smaller of two integers per sub-element. -/
  | imin (h : Hdr) (m : IntM) (d : Spec) (a : Spec) (b : Spec)
  /-- IMAX (R179): Larger of two integers per sub-element. -/
  | imax (h : Hdr) (m : IntM) (d : Spec) (a : Spec) (b : Spec)
  /-- IABS (R179): Absolute value of a signed integer per sub-element. -/
  | iabs (h : Hdr) (m : IntM) (d : Spec) (a : Spec)
  /-- AND (R180): Bitwise AND, or A AND NOT B with .n. -/
  | land (h : Hdr) (m : IntM) (d : Spec) (a : Spec) (b : Spec)
  /-- OR (R180): Bitwise OR, or A OR NOT B with .n. -/
  | lor (h : Hdr) (m : IntM) (d : Spec) (a : Spec) (b : Spec)
  /-- XOR (R180): Bitwise XOR, or A XOR NOT B with .n. -/
  | lxor (h : Hdr) (m : IntM) (d : Spec) (a : Spec) (b : Spec)
  /-- NOT (R180): Bitwise complement. -/
  | lnot (h : Hdr) (m : IntM) (d : Spec) (a : Spec)
  /-- SHL (R181): Left shift per sub-element, wrapping or saturating. -/
  | shl (h : Hdr) (m : IntM) (d : Spec) (a : Spec) (b : Spec)
  /-- SHR (R181): Logical right shift per sub-element. -/
  | shr (h : Hdr) (m : IntM) (d : Spec) (a : Spec) (b : Spec)
  /-- SAR (R181): Arithmetic right shift per sub-element. -/
  | sar (h : Hdr) (m : IntM) (d : Spec) (a : Spec) (b : Spec)
  /-- ROT (R181): Rotate left or right per sub-element. -/
  | rot (h : Hdr) (m : IntM) (d : Spec) (a : Spec) (b : Spec)
  /-- BFE (R182): Extracts a bit field, sign- or zero-extended. -/
  | bfe (h : Hdr) (m : IntM) (d : Spec) (a : Spec) (b : Spec) (c : Spec)
  /-- BFI (R183): Inserts a bit field into a base value. -/
  | bfi (h : Hdr) (m : IntM) (d : Spec) (a : Spec) (b : Spec) (c : Spec) (e : Spec)
  /-- POPC (R184): Counts the set bits. -/
  | popc (h : Hdr) (m : IntM) (d : Spec) (a : Spec)
  /-- CLZ (R184): Counts the leading zeros. -/
  | clz (h : Hdr) (m : IntM) (d : Spec) (a : Spec)
  /-- CTZ (R184): Counts the trailing zeros. -/
  | ctz (h : Hdr) (m : IntM) (d : Spec) (a : Spec)
  /-- BREV (R184): Reverses the bits of each sub-element. -/
  | brev (h : Hdr) (m : IntM) (d : Spec) (a : Spec)
  /-- ICMP (R185): Integer compare giving a predicate or per-sub-element masks. -/
  | icmp (h : Hdr) (m : IntM) (d : Spec) (a : Spec) (b : Spec)
  -- floating point (R173)
  /-- FADD (R187): Floating-point add with one rounding. -/
  | fadd (h : Hdr) (m : FltM) (d : Spec) (a : Spec) (b : Spec)
  /-- FSUB (R187): Floating-point subtract with one rounding. -/
  | fsub (h : Hdr) (m : FltM) (d : Spec) (a : Spec) (b : Spec)
  /-- FMUL (R187): Floating-point multiply with one rounding. -/
  | fmul (h : Hdr) (m : FltM) (d : Spec) (a : Spec) (b : Spec)
  /-- FFMA (R187): Fused multiply-add with one rounding. -/
  | ffma (h : Hdr) (m : FltM) (d : Spec) (a : Spec) (b : Spec) (c : Spec)
  /-- FMIN (R188): Floating-point minimum under the .num or .nan NaN rule. -/
  | fmin (h : Hdr) (m : FltM) (d : Spec) (a : Spec) (b : Spec)
  /-- FMAX (R188): Floating-point maximum under the .num or .nan NaN rule. -/
  | fmax (h : Hdr) (m : FltM) (d : Spec) (a : Spec) (b : Spec)
  /-- FNEG (R189): Inverts the sign bit and keeps every other bit. -/
  | fneg (h : Hdr) (m : FltM) (d : Spec) (a : Spec)
  /-- FABS (R189): Clears the sign bit and keeps every other bit. -/
  | fabs (h : Hdr) (m : FltM) (d : Spec) (a : Spec)
  /-- FCMP (R190): Floating-point compare giving a predicate or masks. -/
  | fcmp (h : Hdr) (m : FltM) (d : Spec) (a : Spec) (b : Spec)
  /-- FCLASS (R191): Classifies each sub-element into a class-set bit, or tests it against a mask. -/
  | fclass (h : Hdr) (m : FltM) (d : Spec) (a : Spec) (b : Spec)
  /-- FRND (R192): Rounds to an integral value in the operand's own format. -/
  | frnd (h : Hdr) (m : FltM) (d : Spec) (a : Spec)
  /-- FSCL (R193): Multiplies by two to an integer power with one rounding. -/
  | fscl (h : Hdr) (m : FltM) (d : Spec) (a : Spec) (b : Spec)
  /-- FDOT (R194): Exact packed dot product added to an FP32 value and rounded once. -/
  | fdot (h : Hdr) (m : FltM) (d : Spec) (a : Spec) (b : Spec) (c : Spec)
  -- conversion, special functions, statistics (R208, R210, R213, R217)
  /-- CVT (R215): Converts elements between number formats, by part. -/
  | cvt (h : Hdr) (m : CvtM) (d : Spec) (a : Spec) (b : Spec)
  /-- CVTI (R216): Converts between fixed point and float at a per-lane exponent. -/
  | cvti (h : Hdr) (m : CvtM) (d : Spec) (a : Spec) (b : Spec)
  /-- QUANT (R219): Quantises register values into a described 64-byte block per lane and stores block and descriptor. -/
  | quant (h : Hdr) (m : QuantM) (d : Spec) (a : Spec) (b : Spec) (c : Spec)
  /-- DEQ (R221): Loads a described block per lane and dequantises it by its scale. -/
  | deq (h : Hdr) (m : DeqM) (d : Spec) (a : Spec) (b : Spec)
  /-- AMAX (R222): Folds the largest magnitude over the active lanes into a running maximum. -/
  | amax (h : Hdr) (ft : BitVec 2) (nanprop : Bool) (d : Spec) (a : Spec)
  /-- RCP (R208): Correctly rounded reciprocal. -/
  | rcp (h : Hdr) (m : FltM) (d : Spec) (a : Spec)
  /-- RSQ (R208): Correctly rounded reciprocal square root. -/
  | rsq (h : Hdr) (m : FltM) (d : Spec) (a : Spec)
  /-- SQRT (R208): Correctly rounded square root. -/
  | sqrt (h : Hdr) (m : FltM) (d : Spec) (a : Spec)
  /-- EX2 (R208): Correctly rounded 2^x. -/
  | ex2 (h : Hdr) (m : FltM) (d : Spec) (a : Spec)
  /-- LG2 (R208): Correctly rounded log2 x. -/
  | lg2 (h : Hdr) (m : FltM) (d : Spec) (a : Spec)
  /-- SINR (R208): Correctly rounded sin(2*pi*x). -/
  | sinr (h : Hdr) (m : FltM) (d : Spec) (a : Spec)
  /-- COSR (R208): Correctly rounded cos(2*pi*x). -/
  | cosr (h : Hdr) (m : FltM) (d : Spec) (a : Spec)
  /-- WELF (R211): Adds one sample to a Welford triple. -/
  | welf (h : Hdr) (d : Spec) (a : Spec)
  /-- WMERGE (R212): Combines two Welford triples. -/
  | wmerge (h : Hdr) (d : Spec) (a : Spec)
  -- cross-lane (R198)
  /-- SHFL (R199): Gathers elements across reachable lanes by index, up, down or xor. -/
  | shfl (h : Hdr) (w : BitVec 2) (z : Bool) (mode : BitVec 2) (d : Spec) (a : Spec) (b : Spec)
  /-- PUSH (R200): Scatters elements to indexed elements of reachable lanes, the highest sender winning. -/
  | push (h : Hdr) (w : BitVec 2) (d : Spec) (a : Spec) (b : Spec) (c : Spec)
  /-- READL (R201): Reads one indexed element from across the lanes. -/
  | readl (h : Hdr) (w : BitVec 2) (sgn : Bool) (d : Spec) (a : Spec) (b : Spec)
  /-- WRITEL (R201): Writes the leader lane's element into one indexed element. -/
  | writel (h : Hdr) (w : BitVec 2) (d : Spec) (a : Spec) (b : Spec)
  /-- VOTE (R202): All, any, uniform or ballot vote over the active lanes. -/
  | vote (h : Hdr) (mode : BitVec 2) (d : Spec) (a : Spec)
  /-- REDL (R204): Reduces across the active lanes, float ops in a fixed tree. -/
  | redl (h : Hdr) (m : RedM) (d : Spec) (a : Spec)
  /-- SCANL (R205): Inclusive or exclusive ascending scan across the active lanes. -/
  | scanl (h : Hdr) (m : RedM) (d : Spec) (a : Spec)
  /-- PERM (R206): Rearranges sub-elements within each lane by a selector. -/
  | perm (h : Hdr) (w : BitVec 2) (d : Spec) (a : Spec) (b : Spec) (c : Spec)
  -- memory (R79, R158, R250)
  /-- LD (R161): Per-lane load through a buffer record, with optional acquire. -/
  | ld (h : Hdr) (m : MemM) (ch : Hint) (d : Spec) (a : Spec) (b : Spec)
  /-- ST (R161): Per-lane store through a buffer record, with optional release. -/
  | st (h : Hdr) (m : MemM) (ch : Hint) (d : Spec) (a : Spec) (b : Spec)
  /-- ATOM (R162): Per-lane atomic read-modify-write returning the old value. -/
  | atom (h : Hdr) (m : AtomM) (ch : Hint) (d : Spec) (a : Spec) (b : Spec) (c : Spec) (e : Spec)
  /-- RED (R162): Per-lane atomic reduction without a result. -/
  | red (h : Hdr) (m : AtomM) (ch : Hint) (d : Spec) (a : Spec) (b : Spec)
  /-- REDQ (R163): Per-lane int64 wrapping add of a quantised contribution. -/
  | redq (h : Hdr) (m : AtomM) (ch : Hint) (d : Spec) (a : Spec) (b : Spec) (c : Spec)
  /-- FENCE (R251): Arms a token that is decremented when the covered earlier accesses have performed at the scope. -/
  | fence (h : Hdr) (m : FenceM) (d : Spec)
  /-- WAITT (R252): Holds issue until the named tokens read zero, then orders later accesses. -/
  | waitt (h : Hdr)
  /-- BUFSET (R80): Builds a buffer record: new, copy or sub-view. -/
  | bufset (h : Hdr) (form : BitVec 2) (d : Spec) (a : Spec) (b : Spec) (c : Spec) (e : Spec)
  /-- BUFQ (R81): Reads one field of a buffer record. -/
  | bufq (h : Hdr) (fld : BitVec 2) (d : Spec) (a : Spec)
  /-- PREF (R82): Prefetches in-range lines into L1 or L2 without traps or ordering. -/
  | pref (h : Hdr) (l2 : Bool) (ch : Hint) (d : Spec) (a : Spec)
  /-- LFMR (R83): Reads, and with .clr clears, the lane fault mask. -/
  | lfmr (h : Hdr) (clr : Bool) (d : Spec)
  -- copies and tokens (R142)
  /-- TCOPY (R143): Issues a stagehand copy of a tensor box into local store, reserving its destination blocks. -/
  | tcopy (h : Hdr) (d : Spec) (a : Spec) (b : Spec) (c : Spec)
  /-- TSTORE (R143): Issues a stagehand copy of a local box out to global memory, owning its destination lines. -/
  | tstore (h : Hdr) (d : Spec) (a : Spec) (b : Spec) (c : Spec)
  /-- TRED (R143): Issues a stagehand reduction of a local box into global memory. -/
  | tred (h : Hdr) (d : Spec) (a : Spec) (b : Spec) (c : Spec)
  /-- TOKSET (R144): Sets a token's count and clears its status fields. -/
  | tokset (h : Hdr) (d : Spec) (a : Spec)
  /-- YIELD (R146): Gives up the slot and blocks until the named tokens read zero. -/
  | yield (h : Hdr) (mask : BitVec 8) (a : Spec)
  /-- TOKQ (R145): Reads, and with .clr clears the status of, a token. -/
  | tokq (h : Hdr) (clr : Bool) (d : Spec) (a : Spec)
  -- matrix (R229)
  /-- MMA (R231): Matrix multiply-accumulate from registers into an accumulator tile. -/
  | mma (h : Hdr) (m : MmaM) (d : Spec) (a : Spec) (b : Spec) (c : Spec) (e : Spec)
  /-- MLOOP (R234): Queues a sequencer run of K steps from local store into a tile. -/
  | mloop (h : Hdr) (m : MmaM) (d : Spec) (a : Spec) (b : Spec) (c : Spec) (e : Spec)
  /-- ACCZ (R239): Clears tile elements and/or side registers. -/
  | accz (h : Hdr) (part : BitVec 2) (d : Spec)
  /-- ACCLD (R240): Loads a tile or its side registers from memory. -/
  | accld (h : Hdr) (m : AccM) (ch : Hint) (d : Spec) (a : Spec) (b : Spec) (c : Spec)
  /-- ACCST (R240): Stores a tile, normalised or side registers to memory with descriptors. -/
  | accst (h : Hdr) (m : AccM) (ch : Hint) (d : Spec) (a : Spec) (b : Spec) (c : Spec)
  /-- ACCMV (R242): Moves a tile or side registers between registers and tiles. -/
  | accmv (h : Hdr) (side : Bool) (d : Spec) (a : Spec)
  /-- SMX (R238): One online-softmax step on score and output tiles. -/
  | smx (h : Hdr) (d : Spec) (a : Spec) (b : Spec) (c : Spec)
  /-- ACCQ (R243): Queries a tile's physical number, side-clean state and pending MLOOP. -/
  | accq (h : Hdr) (d : Spec) (a : Spec)
  -- control and rank (R260, R271)
  /-- IF (R262): Structured if: each slice pushes a mask entry or skips. -/
  | ifOp (h : Hdr) (neg : Bool) (els : Bool) (a : Spec) (b : Spec)
  /-- ELSE (R262): Enters the else part or pops and leaves. -/
  | elseOp (h : Hdr) (b : Spec)
  /-- ENDIF (R262): Pops the IF entry and restores the mask. -/
  | endif (h : Hdr)
  /-- LOOP (R263): Pushes a loop entry or skips the loop. -/
  | loop (h : Hdr) (b : Spec)
  /-- ENDLOOP (R263): Starts the next iteration or exits the loop. -/
  | endloop (h : Hdr) (b : Spec)
  /-- BREAK (R263): Removes lanes whose condition holds from the loop. -/
  | brk (h : Hdr) (neg : Bool) (a : Spec) (b : Spec)
  /-- CONT (R263): Sends lanes whose condition holds to wait at ENDLOOP. -/
  | cont (h : Hdr) (neg : Bool) (a : Spec) (b : Spec)
  /-- JMP (R266): Per-slice jump when all the slice's lanes agree. -/
  | jmp (h : Hdr) (b : Spec)
  /-- CALL (R266): Per-slice call pushing a call-stack entry. -/
  | call (h : Hdr) (b : Spec)
  /-- RET (R266): Per-slice return popping a call-stack entry. -/
  | ret (h : Hdr)
  /-- EXIT (R268): Ends the active lanes; the slice, group or team may end. -/
  | exit (h : Hdr)
  /-- REGANG (R269): Waits until every live slice waits here, then rejoins the whole gang. -/
  | regang (h : Hdr)
  /-- MERGE_S (R272): Rejoins the group and folds slice copies of a g name into its parent. -/
  | mergeS (h : Hdr) (m : MergeM) (d : Spec) (a : Spec)
  /-- MERGE_G (R273): Team collective through a rendezvous point that folds group copies of a t name. -/
  | mergeG (h : Hdr) (m : MergeM) (d : Spec) (a : Spec)
  /-- DROP (R275): Discards the issuer's copy of a g or t name. -/
  | drop (h : Hdr) (d : Spec)
  /-- RANKQ (R276): Reports whether the issuer holds a copy of a name. -/
  | rankq (h : Hdr) (d : Spec) (a : Spec)
  -- synchronisation and gear (R292, R301)
  /-- RVINIT (R293): Sets a rendezvous point's expected count once. -/
  | rvinit (h : Hdr) (rp : BitVec 5) (a : Spec)
  /-- RVARR (R293): Arrives at a rendezvous point after earlier accesses have performed. -/
  | rvarr (h : Hdr) (rp : BitVec 5)
  /-- RVWAIT (R293): Blocks until the point's round changes since the group's arrival. -/
  | rvwait (h : Hdr) (rp : BitVec 5) (idle : Bool)
  /-- RVTEST (R293): Tests whether the group's arrival round has been released. -/
  | rvtest (h : Hdr) (rp : BitVec 5) (d : Spec)
  /-- GEAR_SET (R302): gear.f or gear.n sets the team's gear request and may start a changeover. -/
  | gearSet (h : Hdr) (f : Bool)
  /-- GEAR_Q (R302): Reads the team's gear request. -/
  | gearQ (h : Hdr) (d : Spec)
  /-- NAP (R290): The sub-gang stops issuing for n cycles. -/
  | nap (h : Hdr) (a : Spec)
  -- system (R321)
  /-- TRAP (R323): Takes cause TRAP with the operand in TINFO. -/
  | trap (h : Hdr) (a : Spec)
  /-- ERET (R324): Returns from a trap to the saved level, masks and PC. -/
  | eret (h : Hdr)
  /-- CSRR (R325): Reads a CSR. -/
  | csrr (h : Hdr) (csr : BitVec 6) (d : Spec)
  /-- CSRW (R325): Writes a CSR with the effect its map gives. -/
  | csrw (h : Hdr) (csr : BitVec 6) (a : Spec)
  /-- BKPT (R323): Takes cause BKPT at its own PC. -/
  | bkpt (h : Hdr)
  /-- HALT (R326): Ends the group in S mode, or stops the stage manager. -/
  | halt (h : Hdr)
  /-- WFI (R326): Holds the stage manager until THERMAL or TIMER is pending. -/
  | wfi (h : Hdr)
  /-- TLBI (R327): Arms a token that completes when covered translations are gone. -/
  | tlbi (h : Hdr) (kind : BitVec 2) (d : Spec) (a : Spec)
  /-- QUANT_RETIRE (R220): On retirement of a QUANT, its running maximum in C is updated once. -/
  | quantRetire (k : Nat)
  /-- MMA_Q_MEETING (R232): When all four quad-mates hold an MMA.Q with the same QSEQ, the meeting runs or traps together. -/
  | mmaQMeeting (team : Nat) (quad : Nat)
  /-- MLOOP_START (R235): The sequencer starts the next queued MLOOP once the previous one has finished. -/
  | mloopStart (tile : Nat) (sub : Nat) (steps : Nat)
  /-- MLOOP_COMPLETE (R235): An MLOOP finishes its steps, or stops on a failure, and decrements its token. -/
  | mloopComplete (tile : Nat) (sub : Nat)
  /-- TLBI_COMPLETE (R327): The TLBI's covered entries and accesses are gone, and its token is decremented. -/
  | tlbiComplete (k : Nat)
  /-- FENCE_COMPLETE (R251): The covered accesses have performed, and the fence token is decremented. -/
  | fenceComplete (k : Nat)
  /-- WAIT_SATISFIED (R44): A token wait, WT or YIELD block ends when the named tokens read zero. -/
  | waitSatisfied (gid : Nat) (low : Nat)
  /-- STAGEHAND_WALK (R136): The stagehand walks a box one beat at a time, reading sources and writing destinations. -/
  | stagehandWalk (cid : Nat)
  /-- MCAST_RESERVATION (R135): A receiving tile sets busy bits when a multicast copy's reservation message arrives. -/
  | mcastReservation (k : Nat)
  /-- COPY_COMPLETE (R139): A copy finishes on a tile and decrements its token as a release. -/
  | copyComplete (cid : Nat) (tile : Nat)
  /-- COPY_CHECKPOINT (R147): After 20 us of a context switch, an unfinished copy is checkpointed at a beat boundary. -/
  | copyCheckpoint (cid : Nat)
  /-- LOAD_DATA_ARRIVAL (R32): Data of a missed load arrive and the group returns from the wings. -/
  | loadDataArrival (k : Nat)
  /-- FILL_REPLY (R154): A reply from L2 fills an L1 line with the generations of its request. -/
  | fillReply (k : Nat)
  /-- WRITE_ACCEPT (R156): L2 accepts a write-through and the L1 line is written and gets WOK. -/
  | writeAccept (k : Nat)
  /-- LINE_NACK (R110): A refused access is answered with NACK and the group takes PROT at its next issue point. -/
  | lineNack (k : Nat)
  /-- L1_WRITEBACK_TIMEOUT (R155): A dirty L1 line is written back within 4096 cycles of first becoming dirty. -/
  | l1WritebackTimeout (tile : Nat) (line : Nat)
  /-- READ (R113): A read event is presented to the home's script. -/
  | read (src : ReqSrc)
  /-- READ_OWN (R113): A holder's request for write ownership is presented at the home. -/
  | readOwn (src : ReqSrc)
  /-- WRITE_THROUGH (R113): A write performed at home, or an L1 write-back, is presented at the home. -/
  | writeThrough (src : ReqSrc)
  /-- UPDATE (R113): A write by an S holder keeping its copy is presented at the home. -/
  | update (src : ReqSrc)
  /-- EVICT_CLEAN (R113): A holder drops a clean copy. -/
  | evictClean (src : ReqSrc)
  /-- EVICT_DIRTY (R113): A holder drops a dirty copy with its data. -/
  | evictDirty (src : ReqSrc)
  /-- RECALL_ANSWER (R109): An answer to an invalidation or recall arrives and is counted in the round. -/
  | recallAnswer (k : Nat)
  /-- ATOMIC (R113): An ATOM performed at home is presented as an atomic event. -/
  | atomic (src : ReqSrc)
  /-- REDUCE (R113): A RED, REDQ or TRED element is presented as a reduce event. -/
  | reduce (src : ReqSrc)
  /-- ENGINE_OWN (R108): An engine takes a destination line at issue. -/
  | engineOwn (src : ReqSrc)
  /-- REPLICA_READ (R106): A load with the replicate hint is presented at the home. -/
  | replicaRead (src : ReqSrc)
  /-- TIMEOUT (R125): A line's 4096-cycle coherence timer expires and resends to silent agents. -/
  | timeout (line : Nat)
  /-- HOLDER_RECALL (R108): A holder receives a recall or invalidation and answers it. -/
  | holderRecall (src : ReqSrc)
  /-- PUSH_UPDATE_RECEIVE (R114): A holder receives pushed bytes of a write. -/
  | pushUpdateReceive (k : Nat)
  /-- NOTIFY (R124): The distributor consumes a notification posted by a CUE line's write. -/
  | notify
  /-- SLDCMD_COMMIT (R123): A commit write starts loading and checking a script image into a slot. -/
  | sldcmdCommit (die : Nat) (val : W64)
  /-- SCRIPT_LOAD_DONE (R123): The script load ends, sets the code and clears BUSY. -/
  | scriptLoadDone (die : Nat)
  /-- RTAB_COMMIT (R121): A write of range word 1 checks the entry and starts retirement. -/
  | rtabCommit (die : Nat) (n : Nat) (val : W64)
  /-- RANGE_RETIRE_DONE (R121): All lines of the old and new range are retired, BUSY clears and the entry takes effect. -/
  | rangeRetireDone (die : Nat)
  /-- FQRETRY_RETRY (R78): FQRETRY with abort 0 retries every logged or paused access of the context. -/
  | fqretryRetry (ctx : Nat)
  /-- FQRETRY_ABORT (R78): FQRETRY with abort 1 ends every logged or paused access of the context with ACCESS. -/
  | fqretryAbort (ctx : Nat)
  /-- FQ_CONFIG_WRITE (R75): A write of FQBASE or FQSIZE may enable the queue and flush waiting entries. -/
  | fqConfigWrite (size : Bool) (val : W64)
  /-- FQHEAD_WRITE (R75): The driver advances FQHEAD, freeing room for waiting entries. -/
  | fqheadWrite (val : W64)
  /-- LQCTL_WRITE (R278): A launch-queue control write that sets EN also clears ERR. -/
  | lqctlWrite (who : Master) (q : Nat) (val : W64)
  /-- PACKET_COPY (R281): The distributor copies and checks a launch packet and advances HEAD. -/
  | packetCopy (q : Nat)
  /-- WAIT_COUNTER_POLL (R282): At least every 2 us the distributor re-reads a waiting head's counters. -/
  | waitCounterPoll (q : Nat)
  /-- DISTRIBUTOR_PLACE (R283): The distributor decides and places one cluster on a rectangle. -/
  | distributorPlace
  /-- ROTATION_TIMEOUT (R285): A cluster that waited 1 ms makes the longest-resident cluster of its packet switch out. -/
  | rotationTimeout (lid : Nat)
  /-- CLUSTER_SWITCH_OUT (R332): A switchable cluster is stopped, drained and saved, and its grants released. -/
  | clusterSwitchOut (cid : Nat)
  /-- SWITCH_DRAIN_TIMEOUT (R332): The 20 us drain budget of a switch-out ends. -/
  | switchDrainTimeout (cid : Nat)
  /-- LAUNCH_COMPLETION (R256): After its last team ends, the launch releases at system scope and increments its counter. -/
  | launchCompletion (lid : Nat)
  /-- PHASE_START (R295): After phase n ends and releases, the clusters of phase n+1 may be placed. -/
  | phaseStart (lid : Nat)
  /-- PHASE_WATCHDOG_EXPIRE (R296): The phase watchdog expires and every group of the phase takes PHASE_TIMEOUT. -/
  | phaseWatchdogExpire (lid : Nat)
  /-- GROUP_PARK (R289): A blocked resident group is parked in the fly loft to make room. -/
  | groupPark (gid : Nat)
  /-- GROUP_RELOAD_DONE (R32): A parked group's registers are reloaded and it becomes resident. -/
  | groupReloadDone (gid : Nat)
  /-- TIME_SLICE_YIELD (R289): After a 50 us wait, the longest-resident group yields its slot. -/
  | timeSliceYield (tile : Nat) (sub : Nat)
  /-- NAP_EXPIRE (R290): A nap's cycle count ends and the sub-gang is ready again. -/
  | napExpire (gid : Nat) (low : Nat)
  /-- RV_RELEASE (R293): A rendezvous point's release reaches a tile and frees its waiting groups. -/
  | rvRelease (k : Nat)
  /-- CURTAIN_WAVE (R294): After each CSLEW gap, the next wave of released groups is freed. -/
  | curtainWave (tile : Nat)
  /-- CHANGEOVER_COMPLETE (R303): A gear changeover's rails and clock settle and issue resumes. -/
  | changeoverComplete (tile : Nat)
  /-- FLL_RAMP_STEP (R298): Every 20 ns the FLL moves one code toward its target and acknowledges on arrival. -/
  | fllRampStep (tile : Nat)
  /-- TFREQ_WRITE (R298): A frequency write sets or replaces the gear targets. -/
  | tfreqWrite (who : Master) (tile : Nat) (val : W64)
  /-- GCAP_WRITE (R300): A GCAP write changes FOK and the tile re-evaluates its gear. -/
  | gcapWrite (who : Master) (tile : Nat) (val : W64)
  /-- SENSOR_SAMPLE (R310): Every 50 us each sensor is sampled and its thresholds updated. -/
  | sensorSample (n : Nat) (reading : BitVec 16)
  /-- TIMER_WRITE (R313): A TIMER write sets the interval and EN and clears PEND and LOST. -/
  | timerWrite (val : W64)
  /-- TIMER_ELAPSE (R313): The timer interval elapses and PEND is incremented. -/
  | timerElapse
  /-- THERMAL (R330): The stage manager takes THERMAL while IE=1 and an event is queued. -/
  | thermal
  /-- TIMER (R330): The stage manager takes TIMER while IE=1 and PEND is nonzero. -/
  | timer
  /-- EVSEQ_READ (R313): A read removes and returns the oldest thermal event. -/
  | evseqRead
  /-- EVLOG_READ (R350): A read removes and returns the oldest event of any source. -/
  | evlogRead
  /-- STALLQ_READ (R390): A read removes the oldest stall report and latches STALLSEQ and STALLH. -/
  | stallqRead
  /-- PEERFAIL_DECLARE (R345): A PEERFAIL write with bit 15 set declares a device failed. -/
  | peerfailDeclare (who : Master) (dev : Nat)
  /-- PEERFAIL_CLEAR (R345): A PEERFAIL write with bit 15 clear clears the failed mark. -/
  | peerfailClear (who : Master) (dev : Nat)
  /-- PORT_LOSS_TIMEOUT (R345): A port down for 10 ms without retrain declares its device failed. -/
  | portLossTimeout (port : Nat)
  /-- ROUTE_WRITE (R343): A ROUTE write performs once no message to that device is in flight. -/
  | routeWrite (n : Nat)
  /-- PEER_MESSAGE_FORWARD (R343): A message for another device is forwarded, or discarded if routed to a failed device. -/
  | peerMessageForward (depart : Bool) (src : Nat) (dst : Nat) (payload : W64)
  /-- ATTCMD_START (R353): ATTCMD starts an attestation report, or is ignored while BUSY. -/
  | attcmdStart (who : Master)
  /-- MCTP_ATTEST_REQUEST (R353): An MCTP request starts the same attestation report. -/
  | mctpAttestRequest
  /-- ATTEST_REPORT_DONE (R353): The report is signed, written, released and BUSY cleared. -/
  | attestReportDone
  /-- MEXT (R352): Extends a measurement register with MDIG. -/
  | mext (n : BitVec 3)
  /-- MON_SNAP (R356): SNAP copies the live monitor values into the readable registers. -/
  | monSnap (mon : Nat)
  /-- MON_CLEAR (R356): CLR resets the live monitor values. -/
  | monClear (mon : Nat)
  /-- MON_LEVEL_SAMPLE (R355): Every 1 us a level monitor takes a sample. -/
  | monLevelSample (mon : Nat) (amps : Nat)
  /-- PATROL_SCRUB (R60): The patrol scrubber reads and corrects DRAM blocks. -/
  | patrolScrub (blk : Nat)
  /-- ALWAYS_ON_RESET (R351): Reset of the always-on domain runs the boot ROM's verification and firmware start. -/
  | alwaysOnReset
  /-- MANAGEMENT_RESET (R326): A management reset restarts a halted stage manager. -/
  | managementReset
  /-- RECOVERY_IMAGE (R351): In recovery, a new firmware image arrives over the management port. -/
  | recoveryImage (image : List Byte)
  /-- REGISTER_WRITE (R349): A write to a device register with no row of its own applies whole in sequence order. -/
  | registerWrite (who : Master) (addr : Nat) (val : W64)
  /-- PORT_DOWN (R345): A host or peer port loses its link, PORTSTAT UP clears and the 10 ms loss interval begins. -/
  | portDown (port : Nat)
  /-- PORT_RETRAIN (R342): A port that was down completes a successful retrain, comes back up and increments its retrain
  count. -/
  | portRetrain (port : Nat) (lanes : Nat)
  /-- RV_ARRIVAL (R293): An arrival from another tile reaches a cluster rendezvous point on the tile of team 0 and is
  counted, checked and possibly releases the round. -/
  | rvArrival (k : Nat)
  /-- MMA_COMPLETE (R226): An issued MMA finishes its array occupancy, freeing the array and its tile for waiting
  instructions and ACC_FIRST delivery. -/
  | mmaComplete (tile : Nat) (sub : Nat)
  /-- UNCORRECTABLE_ERROR (R319): A stored block, register or tile suffers an error that ECC cannot correct, so a later
  consumer takes MEM_ERR. -/
  | uncorrectableError (place : ErrPlace)
  deriving DecidableEq, Repr

end Sys2Proof
end

