-- ==== Sys2Proof/Machine/State.lean ====
section
/-! DEFINITION. The state of the machine, as plain data, and its value at reset. -/

namespace Sys2Proof.Machine

/-- A program counter: a 56-bit virtual address (R4, R328). Assumption 16 (DEDUCED). -/
abbrev PC := BitVec 56

/-- Trap causes (R316). -/
inductive Cause where
  | ill | fetchAlign | priv | producer | splitFull | mxCombo | mxWidth | accFirst | accUnalloc | memErr | prot
  | access | phaseTimeout | fillFmt | rankPart | mergeCount | gangMismatch | stackOvf | detFp | bkpt | trap
  | preempt | thermal | timer
  deriving DecidableEq, Repr

/-- Privilege levels (R6). -/
inductive Level where
  | u | s | m
  deriving DecidableEq, Repr

/-- A mask-stack entry (R258). -/
structure MaskEntry where
  loop : Bool
  els : Bool
  outer : BitVec 4
  aux : BitVec 4
  deriving DecidableEq, Repr

/-- A call-stack entry (R267). -/
structure CallEntry where
  depth : Nat
  retpc : PC
  deriving DecidableEq, Repr

/-- A slice: PC, active mask, live lanes, mask stack and call stack, top first (R11, R258). -/
structure Slice where
  pc : PC
  am : BitVec 4
  live : BitVec 4
  masks : List MaskEntry
  calls : List CallEntry
  deriving DecidableEq, Repr

/-- What a sub-gang waits for. Assumption 9 (DESIGN CHOICE). -/
inductive Wait where
  /-- Nothing: it can issue. -/
  | none
  /-- At a rejoin instruction (R17). -/
  | rejoin (op : Instr)
  /-- For tokens: a WT field or WAITT (R44, R252). -/
  | tokens (mask : BitVec 8)
  /-- The block of a YIELD: its tokens, and the distance from its PC to its target (R146). -/
  | yield (mask : BitVec 8) (off : BitVec 56)
  /-- In RVWAIT on a point; `idle` with `.idle` (R293, R299). -/
  | rv (rp : Nat) (idle : Bool)
  /-- Freed by the release, held back by the curtain (R294); `again` where RVWAIT is still to return. -/
  | curtain (rp : Nat) (again : Bool)
  /-- Freed in RVWAIT, which returns at its next issue point. -/
  | freed
  /-- In MERGE.G, `len` bytes long, its arrival sent or counted (R273). -/
  | mergeG (rp len : Nat)
  /-- In MMA.Q, held at check 6 for its quad-mates (R232). -/
  | meeting (op : Instr)
  /-- In NAP for that many cycles; `len` is the instruction's length in bytes (R290). -/
  | nap (cycles len : Nat)
  /-- A stalled fetch, or a copy's map read: waits for FQRETRY (R389, R134); `aborted` after abort = 1. -/
  | retry (va : Nat) (aborted : Bool)
  /-- WFI on the stage manager (R326). -/
  | wfi
  deriving DecidableEq, Repr

/-- A sub-gang: its slices and what it waits for (R14), and its place in the group's rotation: its lowest slice, or the
one it had while that was live (R16). -/
structure SubGang where
  slices : BitVec 8
  wait : Wait
  place : Nat
  deriving DecidableEq, Repr

/-- Where a group is (R31, R32): an issue slot, the wings with the numbers of the accesses whose data its instruction
waits on, the resident pool, or the fly loft. -/
inductive Place where
  | slot (n : Nat) | wings (accs : List Nat) | pool | loft
  deriving DecidableEq, Repr

/-- An asynchronous report waiting for an issue point: a refusal (R110), a failure at replay (R78), or an asynchronous
cause (R296, R316). `low` is the issuing sub-gang's lowest slice; `fromS` tells an instruction issued in S mode.
Assumption 19 (DESIGN CHOICE). -/
structure PendTrap where
  cause : Cause
  pc : PC
  info : W64
  low : Nat
  fromS : Bool
  order : Nat
  deriving DecidableEq, Repr

/-- A group's arrival state at a point (R291): ARMED, the ROUND at the latest arrival counted, and how many arrivals are
on their way to the point and not yet counted. -/
structure RvArm where
  armed : Bool
  round : BitVec 16
  sent : Nat
  deriving DecidableEq, Repr

/-- A time-slice yield of a group (R289): none, asked for at its next issue point, or taken. -/
inductive TimeSlice where
  | no | asked | taken
  deriving DecidableEq, Repr

/-- What the read of a map line was answered with (R134): its data, a refusal with the script slot (R110), or a failure. -/
inductive MapAns where
  | seen (data : Nat)
  | refused (slot : Nat)
  | failed (reason : Nat)
  deriving DecidableEq, Repr

/-- A group, or the stage manager's one group (R11, R347). Register tables list what has been written; an unlisted
register reads zero (R10). Vector rows hold 32 lanes. `age` orders the groups by when each was last ready or blocked
without a slot (R288, R289), `since` by when each became resident (R289). `mapAns` are the answers to the map reads of its
copy instruction that waits (R134); `saveLost` tells that its record could not be written whole (R333). -/
structure Group where
  team : Nat
  idx : Nat
  level : Level
  regs : Nat
  accN : Nat
  slices : List Slice
  gangs : List SubGang
  turn : Nat
  stay : Nat
  v : Table (List W64)
  p : Table (List Bool)
  g : Table W64
  gc : Table W64
  b : Table (BitVec 256)
  lfm : BitVec 32
  shadow : Table W64
  tcause : W64
  tpc : W64
  tinfo : W64
  tscratch : W64
  tstate : W64
  accsel : BitVec 4
  cohaddr : W64
  qseq : BitVec 16
  rv : Table RvArm
  phys : List Nat
  place : Place
  age : Nat
  since : Nat
  pend : List PendTrap
  inAccFirst : Bool
  stopped : Bool
  preempting : Bool
  slicing : TimeSlice
  mapAns : Table MapAns
  saveLost : Bool
  ended : Bool
  deriving DecidableEq, Repr

/-- A token (R138), whether TOKSET armed it last (R288), and the widest scope at which copies and fences have decremented it
since a wait last acquired for it, 0 for none (R139, R252). -/
structure Token where
  count : Nat
  under : Bool
  err : Bool
  cause : BitVec 8
  reason : BitVec 8
  eidx : Nat
  byTokset : Bool
  acq : Nat
  deriving DecidableEq, Repr

/-- A rendezvous point (R291). -/
structure RvPoint where
  merge : Bool
  round : BitVec 16
  arr : Nat
  exp : Nat
  deriving DecidableEq, Repr

/-- A counted MERGE.G arrival (R273); `len` is the instruction's length in bytes. -/
structure MergeArr where
  group : Nat
  name : Nat
  mode : Nat
  ty : Nat
  pred : Option Nat
  len : Nat
  deriving DecidableEq, Repr

/-- A team (R11, R30); `saveLost` as a group's. `zeros` are the tokens that read zero at the start of the present cycle (R44). -/
structure Team where
  cluster : Nat
  idx : Nat
  tile : Nat
  groups : List Nat
  lgran : Nat
  gmap : List Nat
  prod : Option Nat
  t : Table W64
  tc : Table W64
  tokens : Table Token
  zeros : BitVec 8
  points : Table RvPoint
  seen : Table (BitVec 16)
  merges : Table (List MergeArr)
  req : Bool
  admitted : Nat
  saveLost : Bool
  ended : Bool
  deriving DecidableEq, Repr

/-- How far a cluster is on its way out (R332): resident, told to stop with the PREEMPT handlers running, draining,
or switched out. -/
inductive Residence where
  | resident | stopping | draining | out
  deriving DecidableEq, Repr

/-- A queued or running MLOOP (R233-R237); `slices` as in `Access.order`. -/
structure MLoop where
  id : Nat
  gid : Nat
  slices : BitVec 8
  tile : Nat
  phys : Nat
  m : MmaM
  recA : BitVec 256
  recB : BitVec 256
  offA : Nat
  offB : Nat
  incA : Int
  incB : Int
  count : Nat
  next : Nat
  running : Bool
  tok : Nat
  failed : Option (Nat × Nat × Nat)
  deriving DecidableEq, Repr

/-- A cluster of a launch (R11, R283). `outAt` orders the clusters that are switched out, by when that began; `loops` are
the saved MLOOPs of its groups that have not been taken up again (R237). -/
structure Cluster where
  launch : Nat
  idx : Nat
  teams : List Nat
  points : Table RvPoint
  prio : Nat
  placedAt : Nat
  state : Residence
  ended : Bool
  outAt : Nat
  loops : List MLoop
  deriving DecidableEq, Repr

/-- A launch packet, read (R280). -/
structure Packet where
  codeva : Nat
  recva : Nat
  doneva : Nat
  wait0 : Nat × Nat
  wait1 : Nat × Nat
  gridx : Nat
  gridy : Nat
  gridz : Nat
  w : Nat
  h : Nat
  ngroup : Nat
  live : Nat
  regs : Nat
  acc : Nat
  prod : Option Nat
  lgran : Nat
  det : Bool
  preempt : Bool
  wdog : Nat
  phases : Nat
  deriving DecidableEq, Repr

/-- A launch in progress (R281-R285, R295, R391): `next` and `done` count the clusters of the phase placed and ended;
`met` and `posted` tell for each counter that it has been met and that its line was not present; `incPosted` the same of
DONEVA; `watchdog` that the phase's watchdog has expired; `waiting` is the cluster whose admission waits for its records,
0 for none; `due` the cluster that a rotation is making room for, 0 for the next undistributed one (R285); `wbs` the write-backs
its ended teams have left. -/
structure Launch where
  queue : Nat
  ctx : Nat
  pkt : Packet
  next : Nat
  done : Nat
  phase : Nat
  refused : Bool
  met0 : Bool
  met1 : Bool
  posted0 : Bool
  posted1 : Bool
  incPosted : Bool
  watchdog : Bool
  lastTile : Nat
  waiting : Nat
  due : Option Nat
  wbs : List Nat
  deriving DecidableEq, Repr

/-- The distributor (R278, R282, R283). -/
structure Dist where
  lqtab : W64
  overflows : Nat
  notifs : List (Nat × Nat)
  rescan : Bool
  lqctl : Table W64
  lcmap : Table W64
  head : Table Nat
  served : Table Nat
  deriving DecidableEq, Repr

/-- One lane's element of an access, or one element of a copy: lane, position, byte offset in its line, width, operand,
compare value, result. -/
structure Elem where
  lane : Nat
  k : Nat
  ln : Nat
  off : Nat
  w : Nat
  val : Nat
  cmp : Nat
  res : Option Nat
  deriving DecidableEq, Repr

/-- How far one line of an access is. -/
inductive LineStatus where
  | todo | missing | sent | done | refused
  deriving DecidableEq, Repr

/-- One line of an access: its 128-byte-aligned virtual address, the physical line it translated to, whether its page
makes every access uncached (R71), its status. -/
structure LineAcc where
  va : Nat
  pa : Nat
  unc : Bool
  status : LineStatus
  deriving DecidableEq, Repr

/-- What an access does (R158, R217, R229). -/
inductive AccKind where
  | load | store | atom | red | redq | quant | deq | accld | accst
  deriving DecidableEq, Repr

/-- How an access uses the L1 (R154). -/
inductive ReqType where
  | owned | through | uncached
  deriving DecidableEq, Repr

/-- The modifiers and destination an access needs when it finishes. -/
structure AccInfo where
  dest : Spec
  op : Nat
  aty : Nat
  ty : Nat
  n : Nat
  esz : Nat
  flag : Bool
  flag2 : Bool
  aux : Nat
  qmax : List (Nat × Nat × Bool)
  deriving DecidableEq, Repr

/-- A memory instruction that has issued and not yet performed (R157), or that the operand log holds (R76). `order` are
the slices whose later accesses it comes before in program order: those that issued it, and after a rejoin the whole
gang (R253). -/
structure Access where
  gid : Nat
  slices : BitVec 8
  order : BitVec 8
  level : Level
  pc : PC
  kind : AccKind
  info : AccInfo
  record : BitVec 256
  rtype : ReqType
  rep : Bool
  evict : Bool
  elems : List Elem
  lines : List LineAcc
  acq : Option Nat
  rel : Option Nat
  gate : List Nat
  wbs : List Nat
  log : Option Nat
  ready : Bool
  failed : Option (Cause × W64)
  deriving DecidableEq, Repr

/-- Who asked the home, and what the answer is for. -/
inductive Tag where
  /-- Line number `i` of access `k`. -/
  | acc (k : Nat) (i : Nat)
  /-- A write-back of a tile's L1 line (R155). -/
  | wb (tile : Nat)
  /-- A prefetch into a tile's L1, or into a die's L2 (R82). -/
  | pref (tile : Nat) (l2 : Bool)
  /-- A source line of a copy, ownership of a destination line or its return, or a reduction element (R135-R137): `n` is
  the virtual line number or the element. -/
  | copy (cid : Nat) (n : Nat)
  /-- A map line of a group's copy instruction (R134). -/
  | map (gid : Nat)
  /-- A request of the host or a peer device. -/
  | ext
  deriving DecidableEq, Repr

/-- A request on its way to, queued at, or saved at a home (R107, R109, R113). `ev` is the event code; `holder` the
holder ID of a requester that the home may record, `none` for a local request (R101); `tile` is the requesting tile,
whose generation counters at the request are `gens` and whose flash-invalidations then were `wraps` (R154). `ef` is the
evict-first hint. `carry` are the bytes of the tile's line that were dirty and that the request brings home or replaces, and
`was` holds them as the L1 had them. `id` is its own number. -/
structure Req where
  ev : Nat
  line : Nat
  die : Nat
  holder : Option (BitVec 16)
  tag : Tag
  data : Nat
  mask : LineMask
  descs : BitVec 32
  descW : BitVec 2
  elems : List Elem
  op : Nat
  aty : Nat
  gens : BitVec 12
  wraps : Nat
  tile : Nat
  launch : Nat
  alloc : Bool
  ef : Bool
  carry : LineMask
  was : Nat
  id : Nat
  deriving DecidableEq, Repr

/-- What a reply carries: data with the rights granted (4 stands for a replica's copy) and, for each half of the line, the
source code of an uncorrectable error in it (R319); an acknowledgement, atomic results, or a refusal with the event, the
script slot and the reason (R110, R115). -/
inductive Answer where
  | data (right : Nat) (data : Nat) (descs : BitVec 32) (wok : Bool) (errs : Nat × Nat)
  | ack
  | result (olds : List Nat)
  | nack (ev : Nat) (slot : Nat)
  | fail (reason : Nat)
  deriving DecidableEq, Repr

/-- A reply on its way to its requester. -/
structure Reply where
  req : Req
  ans : Answer
  deriving DecidableEq, Repr

/-- A recall or invalidation on its way to a holder (R114, R115): 0 invalidate, 0x10 RECALL_INV, 0x11 RECALL_DOWN,
0x12 RECALL_FWD with the request it serves, whose reply has `wok` (R156). `rnd` is the number of its round. -/
structure Recall where
  line : Nat
  agent : BitVec 16
  kind : Nat
  fwd : Option Req
  wok : Bool
  rnd : Nat
  deriving DecidableEq, Repr

/-- A holder's answer on its way home, to round `rnd` (R109). -/
structure RecAns where
  line : Nat
  agent : BitVec 16
  dirty : Option (Nat × BitVec 32)
  down : Bool
  rnd : Nat
  deriving DecidableEq, Repr

/-- Bytes of a write pushed to a holder, with the descriptors it writes (R114, R95). -/
structure PushMsg where
  line : Nat
  agent : BitVec 16
  data : Nat
  mask : LineMask
  descs : BitVec 32
  descW : BitVec 2
  deriving DecidableEq, Repr

/-- A round in progress, under a number of its own (R109). -/
structure Round where
  due : List (BitVec 16)
  kind : Nat
  dirty : Option (Nat × BitVec 32)
  rnd : Nat
  deriving DecidableEq, Repr

/-- A directory entry (R103), its open round, its queue of stalled events, its timer, and whether it is being
retired; `used` orders its uses for R105. -/
structure DirEntry where
  state : Nat
  ovf : Bool
  ptrs : List (BitVec 16)
  pend : Option Req
  tmo : Nat
  timer : Bool
  round : Option Round
  queue : List Req
  retire : Bool
  used : Nat
  deriving DecidableEq, Repr

/-- A line a die's L2 holds for another home (R100, R379). `right`: 1 S, 2 E, 3 M; `ef`: evicted first in its set; `eng`: the
engine of the die that owns it, where its home is the host or a peer (R135, R340); `wok` as the home's reply gave it (R156). -/
structure HLine where
  right : Nat
  data : Nat
  descs : BitVec 32
  ef : Bool
  eng : Option (BitVec 16)
  wok : Bool
  deriving DecidableEq, Repr

/-- The coherence registers and the script repertoire of one die (R120, R122). -/
structure Coh where
  staged : Table W64
  force0 : Table W64
  force1 : Table W64
  sldpa : W64
  sldBusy : Bool
  sldCmd : W64
  sldstat : W64
  srep : W64
  rtBusy : Bool
  rtstat : W64
  rtPend : Option (Nat × W64 × W64)
  shash : Table W64
  shvalid : W64
  scripts : Table (List Byte)
  deriving DecidableEq, Repr

/-- An L1 line (R152) with its data and its two block descriptors. `line` of the table key is PA div 128. -/
structure L1Line where
  v : Bool
  wok : Bool
  ef : Bool
  gs : BitVec 4
  gd : BitVec 4
  gc : BitVec 4
  dmask : LineMask
  data : Nat
  descs : BitVec 32
  deriving DecidableEq, Repr

/-- A cached translation (R69): context, level of the entry, the page-table index prefix it serves, and the entry. -/
structure TlbEntry where
  ctx : Nat
  lvl : Nat
  vpre : Nat
  pte : W64
  deriving DecidableEq, Repr

/-- A release under way on a tile (R294): the groups still to be freed, and the wave size and gap as CSLEW had them when it was
seen (R307); `begun` tells that its first wave has gone. -/
structure Wave where
  groups : List Nat
  size : Nat
  gap : Nat
  begun : Bool
  deriving DecidableEq, Repr

/-- A tile (R152, R153, R148, R297-R307). `subNow` is the sub-core whose turn in the present cycle came last (R302);
`lastCycle` tells that a change of gear was decided in the present cycle, which still issues (R303). -/
structure Tile where
  tgc : BitVec 4
  tgd : BitVec 4
  tgs : BitVec 4
  l1 : Table L1Line
  store : Memory
  storeDesc : Table Desc
  busy : Table (List Nat)
  tlb : List TlbEntry
  stripe : List TlbEntry
  clock : W64
  gear : Bool
  change : Option Bool
  lastCycle : Bool
  cslew : W64
  waves : List Wave
  throt : W64
  gcap : W64
  tfreq : W64
  fll : Nat
  nfNow : Nat
  ffTarget : Nat
  ackseq : Nat
  tgtSeq : Nat
  ramp : Bool
  freqPend : Option W64
  wraps : Nat
  subNow : Nat
  deriving DecidableEq, Repr

/-- A physical accumulator tile (R224): rows of element bits, ROWMAX and ROWSUM. A missing row or element reads +0,
a missing ROWMAX minus infinity, a missing ROWSUM +0. -/
structure AccTile where
  el : List (List W32)
  mx : List W32
  sm : List W32
  deriving DecidableEq, Repr

/-- A sub-core (R224, R287, R335). -/
structure SubCore where
  slots : List (Option Nat)
  last : Nat
  streak : Nat
  passed : Bool
  acc : Table AccTile
  accown : W64
  acclive : BitVec 8
  acctag : Table W64
  mloops : List MLoop
  mma : Option (Nat × Nat)
  deriving DecidableEq, Repr

/-- What a `TSTORE` has walked of a line it owns and not yet written home: bytes, their mask, descriptors and which of
them; `low0` and `low1` are the lowest addresses written into each block so far, which give its descriptor (R131). -/
structure LineImg where
  data : Nat
  mask : LineMask
  descs : BitVec 32
  descW : BitVec 2
  low0 : Option Nat
  low1 : Option Nat
  deriving DecidableEq, Repr

/-- Copy instructions (R142). -/
inductive CopyKind where
  | load | store | red
  deriving DecidableEq, Repr

/-- A copy in flight (R126-R147). Lines are virtual line numbers: `srcs` the source and block-table lines that have arrived,
`refused` the 64-byte blocks whose walk, event or data failed (cause times 256 plus reason), `asked` the lines requested,
`phys` the destination lines translated, `owned` those the engine owns, `imgs` what it has walked of them. `slices` are as
in `Access.order`. `tiles` are the teams it writes for, `reserved` those whose blocks are reserved, `left` those whose token
is still to be decremented; `outs` are the numbers of its evicts and reductions. `reserving` tells that it still reads its
block table to reserve its lines (R135), `stale` are owned lines to translate again before they are written (R327). -/
structure Copy where
  kind : CopyKind
  gid : Nat
  slices : BitVec 8
  team : Nat
  ctx : Nat
  level : Level
  map : Nat
  record : BitVec 256
  coords : List Int
  tok : Nat
  next : Nat
  fail : Option (Nat × Nat × Nat)
  paused : Option Nat
  abort : Bool
  tiles : List Nat
  reserved : List Nat
  left : List Nat
  srcs : Table (Nat × BitVec 32)
  refused : Table Nat
  asked : List Nat
  phys : Table Nat
  owned : List Nat
  imgs : Table LineImg
  outs : List Nat
  reserving : Bool
  stale : List Nat
  stopped : Bool
  deriving DecidableEq, Repr

/-- A pending FENCE (R251). -/
structure Fence where
  team : Nat
  tok : Nat
  tile : Nat
  scope : Nat
  ld : Bool
  accs : List Nat
  copies : List Nat
  loops : List Nat
  st : Bool
  flushed : Bool
  wbs : List Nat
  deriving DecidableEq, Repr

/-- A pending TLBI (R327): kind 0 `.va`, 1 `.ctx`, 2 `.all`; `accs` and `copies` are what was under way with translations made
before it, `wbs` the prefetches and increments under way then, and later the write-backs of the bytes those left dirty. -/
structure Tlbi where
  team : Nat
  tok : Nat
  kind : Nat
  ctx : Nat
  va : Nat
  accs : List Nat
  copies : List Nat
  flushed : Bool
  wbs : List Nat
  deriving DecidableEq, Repr

/-- A rendezvous message between tiles (R293, R305): an arrival of a group at a cluster's point, or a release of it. -/
structure RvMsg where
  cluster : Nat
  rp : Nat
  tile : Nat
  gid : Nat
  round : BitVec 16
  gate : List Nat
  wbs : List Nat
  mergeArr : Option MergeArr
  deriving DecidableEq, Repr

/-- A temperature sensor (R310). Dwell times count samples of 50 us. -/
structure Sensor where
  reading : BitVec 16
  warn : Bool
  thr : Bool
  crit : Bool
  dWarn : Nat
  dThr : Nat
  dCrit : Nat
  deriving DecidableEq, Repr

/-- The stage manager's registers and queues, and the event arbiter (R313, R347, R350, R390). -/
structure Sm where
  sram : Memory
  halted : Bool
  ctxid : W64
  tvec : W64
  clock : W64
  tthr : W64
  tthrd : W64
  timer : W64
  timerEn : Bool
  timerPend : Nat
  timerLost : Bool
  seq : Nat
  evseq : List W64
  evseqOvf : Bool
  evlog : List W64
  evlogOvf : Bool
  stallq : List (W64 × W64 × W64)
  stallOvf : Bool
  stallseq : W64
  stallh : W64
  ioRead : W64
  deriving DecidableEq, Repr

/-- The fault queue (R75): its registers and the entries that wait for room. -/
structure Fq where
  base : W64
  size : W64
  head : W64
  tail : W64
  waiting : List (BitVec 256)
  signals : Nat
  deriving DecidableEq, Repr

/-- The ports (R342-R345). `pend` holds ROUTE writes that wait for messages in flight; `outbox` the messages that left
by a port and have not reached their device: port, source, destination, payload. -/
structure Ports where
  devid : W64
  stat : Table W64
  route : Table W64
  failed : List Nat
  down : List Nat
  pend : List (Nat × W64)
  outbox : List (Nat × Nat × Nat × W64)
  deriving DecidableEq, Repr

/-- Measurements and attestation (R351-R354), and the firmware slot. -/
structure Att where
  meas : Table (BitVec 256)
  mdig : BitVec 256
  attpa : W64
  nonce : BitVec 256
  busy : Bool
  code : BitVec 8
  job : Option (List Byte)
  version : Nat
  flash : List Byte
  recovery : Bool
  deriving DecidableEq, Repr

/-- A monitor (R355, R356): MONCTL, the four edge words, and live and snapshot minimum, maximum, count and bins. -/
structure Monitor where
  ctl : W64
  edges : Table W64
  lmin : Nat
  lmax : Nat
  lcnt : Nat
  lbin : Table Nat
  smin : Nat
  smax : Nat
  scnt : Nat
  sbin : Table Nat
  deriving DecidableEq, Repr

/-- A replica (R106): the slice fixed for a tile, the launch it is tagged with, the line. -/
structure Replica where
  slot : Nat
  launch : Nat
  line : Nat
  data : Nat
  descs : BitVec 32
  deriving DecidableEq, Repr

/-- What a line of memory held before a write made while groups of a launch were present (R35).
Assumption 68 (DESIGN CHOICE). -/
structure OldLine where
  launch : Nat
  line : Nat
  data : Nat
  deriving DecidableEq, Repr

/-- The issue register: which group and slices issue, and bits [63:0] of the word (for TINFO of `ILL`). -/
structure Cur where
  gid : Nat
  slices : BitVec 8
  word : W64
  deriving DecidableEq, Repr

/-- Which agent moves next: an issue cycle of a sub-core, a turn of the stage manager, or an event of the device.
Assumption 4 (DESIGN CHOICE). -/
inductive Turn where
  | cycle (tile sub : Nat)
  | manager
  | event (e : Instr)
  deriving DecidableEq, Repr

/-- Why the machine stops with a fault: nothing does. Every error the spec describes is a trap, a token's status or a
report, and the machine goes on. Assumption 7 (DEDUCED). -/
inductive Fault where
  deriving DecidableEq, Repr

/-- Why a step is refused. Assumption 7 (DEDUCED). -/
inductive Refusal where
  /-- The instruction has no meaning in this model yet. Raised by an arm of `exec` only; safe. -/
  | notModelled (mnemonic : String)
  deriving DecidableEq, Repr

/-- The device's CSRs and tables that belong to no tile (R328). -/
structure Dev where
  ctxtab : W64
  sstab : W64
  tcache : Table (List TlbEntry)
  deriving DecidableEq, Repr

/-- The whole machine. `held` are the sub-gangs that the scheduler has passed over because they could not issue, since
something last issued or changed (R287). -/
structure State where
  mem : Memory
  descs : Table Desc
  bad : List ErrPlace
  dir : Table DirEntry
  l2 : Table HLine
  coh : Table Coh
  replicas : List Replica
  code : List OldLine
  net : Table Req
  reps : Table Reply
  recs : Table Recall
  answers : Table RecAns
  pushes : Table PushMsg
  tiles : Table Tile
  subs : Table SubCore
  groups : Table Group
  teams : Table Team
  clusters : Table Cluster
  launches : Table Launch
  accs : Table Access
  copies : Table Copy
  mcasts : Table (Nat × Nat)
  fences : Table Fence
  tlbis : Table Tlbi
  arrivals : Table RvMsg
  releases : Table RvMsg
  dist : Dist
  fq : Fq
  sensors : Table Sensor
  sm : Sm
  dev : Dev
  ports : Ports
  att : Att
  mons : Table Monitor
  agenda : List Turn
  held : List (Nat × BitVec 8)
  cur : Cur
  free : Nat
  nextId : Nat
  deriving DecidableEq, Repr

/-- A group with every register zero (R10), no lane and no resource. Assumption 6 (DESIGN CHOICE). -/
def Group.blank : Group where
  team := 0
  idx := 0
  level := .u
  regs := 0
  accN := 0
  slices := []
  gangs := []
  turn := 0
  stay := 0
  v := []
  p := []
  g := []
  gc := []
  b := []
  lfm := 0
  shadow := []
  tcause := 0
  tpc := 0
  tinfo := 0
  tscratch := 0
  tstate := 0
  accsel := 0
  cohaddr := 0
  qseq := 0
  rv := []
  phys := []
  place := .loft
  age := 0
  since := 0
  pend := []
  inAccFirst := false
  stopped := false
  preempting := false
  slicing := .no
  mapAns := []
  saveLost := false
  ended := false

/-- A slice at an address with every given lane live and active (R258). -/
def Slice.start (pc : PC) (live : BitVec 4) : Slice := ⟨pc, live, live, [], []⟩

/-- The stage manager's group as the boot ROM starts it (R347, R383): lanes 0-3 live, every register zero. -/
def Group.manager (entry : PC) : Group :=
  { Group.blank with
    level := .m
    regs := 32
    slices := [Slice.start entry 15]
    gangs := [⟨1, .none, 0⟩]
    place := .slot 0 }

/-- A team with nothing granted. -/
def Team.blank : Team where
  cluster := 0
  idx := 0
  tile := 0
  groups := []
  lgran := 0
  gmap := []
  prod := none
  t := []
  tc := []
  tokens := []
  zeros := 0
  points := []
  seen := []
  merges := []
  req := true
  admitted := 0
  saveLost := false
  ended := false

/-- The team entry that holds the stage manager's tokens (R347). Tile number 255 is its `%core`. -/
def Team.manager : Team := { Team.blank with tile := 255, groups := [0] }

/-- The machine right after reset of the always-on domain, before the boot ROM runs (R351). Every table is empty: no
cluster, no cached line, no message; memory lists nothing. The first turn is the boot ROM's.
Assumption 1 (DESIGN CHOICE). Assumption 6 (DESIGN CHOICE). -/
def State.reset : State where
  mem := []
  descs := []
  bad := []
  dir := []
  l2 := []
  coh := []
  replicas := []
  code := []
  net := []
  reps := []
  recs := []
  answers := []
  pushes := []
  tiles := []
  subs := []
  groups := [(0, Group.manager 0)]
  teams := [(0, Team.manager)]
  clusters := []
  launches := []
  accs := []
  copies := []
  mcasts := []
  fences := []
  tlbis := []
  arrivals := []
  releases := []
  dist := ⟨0, 0, [], false, [], [], [], []⟩
  fq := ⟨0, 0, 0, 0, [], 0⟩
  sensors := []
  sm := {
    sram := [], halted := true, ctxid := 0, tvec := 0, clock := 0
    tthr := 0x0030069005F00550, tthrd := 0x003005F005800500
    timer := 0, timerEn := false, timerPend := 0, timerLost := false
    seq := 0, evseq := [], evseqOvf := false, evlog := [], evlogOvf := false
    stallq := [], stallOvf := false, stallseq := 0, stallh := 0, ioRead := 0 }
  dev := ⟨0, 0, []⟩
  ports := ⟨0, [], [], [], [], [], []⟩
  att := ⟨[], 0, 0, 0, false, 0, none, 0, [], false⟩
  mons := []
  agenda := [.event .alwaysOnReset]
  held := []
  cur := ⟨0, 1, 0⟩
  free := 0
  nextId := 1

end Sys2Proof.Machine
end

