-- ==== Sys2Proof/Machine/Bits.lean ====
section
/-! DEFINITION. Bits, sub-elements and lanes: how a 64-bit register holds its packings (R22), and lists over the 32
lanes of a group. -/

namespace Sys2Proof.Machine

/-- A row of one value per lane. -/
def lanesOf {α : Type} (f : Nat → α) : List α := (List.range 32).map f

/-- A bit of a number as a bit vector of any width. -/
def bitAt {n : Nat} (x : BitVec n) (i : Nat) : Bool := x.getLsbD i

/-- The bits `[lo+len-1 : lo]` of a 64-bit word as a number. -/
def field (x : W64) (lo len : Nat) : Nat := x.toNat / 2 ^ lo % 2 ^ len

/-- A word with one field replaced. -/
def setField (x : W64) (lo len v : Nat) : W64 :=
  BitVec.ofNat 64 (x.toNat - field x lo len * 2 ^ lo + v % 2 ^ len * 2 ^ lo)

/-- Sub-element `i` of width `w` bits (R22). -/
def sub (w : Nat) (x : W64) (i : Nat) : Nat := x.toNat / 2 ^ (w * i) % 2 ^ w

/-- A register packed from its `k` sub-elements of `w` bits. -/
def pack (w : Nat) (k : Nat) (f : Nat → Nat) : W64 :=
  BitVec.ofNat 64 ((List.range k).foldl (fun a i => a + f i % 2 ^ w * 2 ^ (w * i)) 0)

/-- A `w`-bit pattern as a two's-complement value. -/
def asSigned (w : Nat) (x : Nat) : Int := if 2 ^ (w - 1) ≤ x then (x : Int) - 2 ^ w else x

/-- An exact integer wrapped to `w` bits. -/
def wrapInt (w : Nat) (x : Int) : Nat := (x % 2 ^ w).toNat

/-- A signed or unsigned reading (R179). -/
def readInt (sgn : Bool) (w : Nat) (x : Nat) : Int := if sgn then asSigned w x else x

/-- Bounds of an integer type. -/
def intMin (sgn : Bool) (w : Nat) : Int := if sgn then -(2 ^ (w - 1)) else 0
def intMax (sgn : Bool) (w : Nat) : Int := if sgn then 2 ^ (w - 1) - 1 else 2 ^ w - 1

/-- Clamp to a range. -/
def clampInt (lo hi x : Int) : Int := max lo (min hi x)

/-- Sign-extend the low `n` bits to 64 (R9). -/
def signExt64 (n : Nat) (x : Nat) : W64 := BitVec.ofInt 64 (asSigned n (x % 2 ^ n))

/-- Sub-element width in bits of an integer modifier (R50). -/
def widthOf (w : BitVec 2) : Nat :=
  match w.toNat with
  | 0 => 64 | 1 => 32 | 2 => 16 | _ => 8

/-- Sub-elements per register at a width. -/
def perReg (w : Nat) : Nat := 64 / w

/-- The lowest index below `n` that satisfies a test. -/
def lowest (n : Nat) (p : Nat → Bool) : Option Nat := (List.range n).find? p

/-- The indices below `n` that satisfy a test. -/
def those (n : Nat) (p : Nat → Bool) : List Nat := (List.range n).filter p

/-- Replace the entry at an index of a list. -/
def setAt {α : Type} : List α → Nat → α → List α
  | [], _, _ => []
  | _ :: r, 0, x => x :: r
  | y :: r, n + 1, x => y :: setAt r n x

/-- A mask of the listed slices. -/
def maskOf (l : List Nat) : BitVec 8 := l.foldl (fun m i => m ||| BitVec.ofNat 8 (2 ^ i)) 0

/-- The listed slices of a mask, lowest first. -/
def slicesOf (m : BitVec 8) : List Nat := those 8 (fun i => m.getLsbD i)

/-- The lowest slice of a mask, 8 for none. -/
def lowSlice (m : BitVec 8) : Nat := (slicesOf m).headD 8

end Sys2Proof.Machine
end

