-- ==== Sys2Proof/Machine/Basic.lean ====
section
/-! DEFINITION. Reading and replacing the parts of the state: tiles, sub-cores, groups, teams, clusters and launches,
the free-value counter and the numbers given to new records. A part not listed in its table is as reset leaves it. -/

namespace Sys2Proof.Machine

/-- A tile after reset (R153, R307, R313): gear N at 900 MHz, FLL at 3,300 MHz, CSLEW 256 cycles and 4 groups.
Assumption 6 (DESIGN CHOICE). -/
def Tile.reset : Tile where
  tgc := 0
  tgd := 0
  tgs := 0
  l1 := []
  store := []
  storeDesc := []
  busy := []
  tlb := []
  stripe := []
  clock := 0
  gear := false
  change := none
  lastCycle := false
  cslew := 0x10004
  waves := []
  throt := 0
  gcap := 1
  tfreq := 0x2484
  fll := 132
  nfNow := 36
  ffTarget := 132
  ackseq := 0
  tgtSeq := 0
  ramp := false
  freqPend := none
  wraps := 0
  subNow := 0

/-- A sub-core after reset (R335): no slot held, no accumulator data. -/
def SubCore.reset : SubCore where
  slots := [none, none, none, none, none, none, none, none]
  last := 0
  streak := 0
  passed := false
  acc := []
  accown := 0
  acclive := 0
  acctag := []
  mloops := []
  mma := none

/-- A die's coherence registers after reset (R120, R122). Assumption 6 (DESIGN CHOICE). Assumption 53 (DESIGN CHOICE). -/
def Coh.reset : Coh where
  staged := []
  force0 := []
  force1 := []
  sldpa := 0
  sldBusy := false
  sldCmd := 0
  sldstat := 0
  srep := 0x3F3F
  rtBusy := false
  rtstat := 0
  rtPend := none
  shash := []
  shvalid := 0
  scripts := []

/-- A line with no directory entry: state 0, no holder (R103). -/
def DirEntry.empty : DirEntry := ⟨0, false, [], none, 0, false, none, [], false, 0⟩

/-- A token at reset (R138). -/
def Token.reset : Token := ⟨0, false, false, 0, 0, 0, false, 0⟩

/-- A point at reset (R291). -/
def RvPoint.reset : RvPoint := ⟨false, 0, 0, 0⟩

/-- A sensor at reset (R310): deasserted, reset counting as a change. Assumption 6 (DESIGN CHOICE). -/
def Sensor.reset : Sensor := ⟨0, false, false, false, 0, 0, 0⟩

/-- A monitor at reset (R355). Assumption 6 (DESIGN CHOICE). -/
def Monitor.reset : Monitor := ⟨0, [], 0xFFFF, 0, 0, [], 0xFFFF, 0, 0, []⟩

/-- An accumulator tile nobody has touched (R224). -/
def AccTile.fresh : AccTile := ⟨[], [], []⟩

def Packet.blank : Packet :=
  ⟨0, 0, 0, (0, 0), (0, 0), 1, 1, 1, 1, 1, 1, 1, 1, 0, none, 0, false, false, 0, 0⟩

def Launch.blank : Launch where
  queue := 0
  ctx := 0
  pkt := Packet.blank
  next := 0
  done := 0
  phase := 0
  refused := false
  met0 := false
  met1 := false
  posted0 := false
  posted1 := false
  incPosted := false
  watchdog := false
  lastTile := 0
  waiting := 0
  due := none
  wbs := []

def Cluster.blank : Cluster := ⟨0, 0, [], [], 0, 0, .resident, false, 0, []⟩

/-! ### Parts of the state -/

def State.group (s : State) (gid : Nat) : Group := s.groups.getD gid Group.blank
def State.setGroup (s : State) (gid : Nat) (g : Group) : State := { s with groups := s.groups.set gid g }
def State.modGroup (s : State) (gid : Nat) (f : Group → Group) : State :=
  { s with groups := s.groups.alter gid f }

def State.team (s : State) (tid : Nat) : Team := s.teams.getD tid Team.blank
def State.setTeam (s : State) (tid : Nat) (t : Team) : State := { s with teams := s.teams.set tid t }
def State.modTeam (s : State) (tid : Nat) (f : Team → Team) : State := { s with teams := s.teams.alter tid f }

def State.cluster (s : State) (cid : Nat) : Cluster := s.clusters.getD cid Cluster.blank
def State.modCluster (s : State) (cid : Nat) (f : Cluster → Cluster) : State :=
  { s with clusters := s.clusters.alter cid f }

def State.launch (s : State) (lid : Nat) : Launch := s.launches.getD lid Launch.blank
def State.modLaunch (s : State) (lid : Nat) (f : Launch → Launch) : State :=
  { s with launches := s.launches.alter lid f }

def State.tile (s : State) (n : Nat) : Tile := s.tiles.getD n Tile.reset
def State.setTile (s : State) (n : Nat) (t : Tile) : State := { s with tiles := s.tiles.set n t }
def State.modTile (s : State) (n : Nat) (f : Tile → Tile) : State := s.setTile n (f (s.tile n))

/-- Sub-core `q` of a tile. -/
def subKey (tile q : Nat) : Nat := 4 * tile + q
def State.sub (s : State) (tile q : Nat) : SubCore := s.subs.getD (subKey tile q) SubCore.reset
def State.setSub (s : State) (tile q : Nat) (c : SubCore) : State := { s with subs := s.subs.set (subKey tile q) c }
def State.modSub (s : State) (tile q : Nat) (f : SubCore → SubCore) : State := s.setSub tile q (f (s.sub tile q))

def State.cohOf (s : State) (die : Nat) : Coh := s.coh.getD die Coh.reset
def State.modCoh (s : State) (die : Nat) (f : Coh → Coh) : State :=
  { s with coh := s.coh.set die (f (s.cohOf die)) }

/-! ### Who issues -/

/-- The issuing group. -/
def State.curG (s : State) : Group := s.group s.cur.gid
/-- The issuing group's team. -/
def State.curT (s : State) : Team := s.team s.curG.team
/-- The issuing group's tile, 255 for the stage manager (R347). -/
def State.curTile (s : State) : Nat := s.curT.tile
/-- The sub-core of a group: its index modulo 4 (R13). -/
def Group.q (g : Group) : Nat := g.idx % 4

/-- The launch a group belongs to. -/
def State.launchIdOf (s : State) (g : Group) : Nat := (s.cluster (s.team g.team).cluster).launch
def State.launchOf (s : State) (g : Group) : Launch := s.launch (s.launchIdOf g)

/-- The context of a group; of the stage manager its CTXID register (R328). -/
def State.ctxOf (s : State) (g : Group) : Nat :=
  if g.level = .m then field s.sm.ctxid 0 4 else (s.launchOf g).ctx

/-- A launch flagged deterministic (R257). -/
def State.detOf (s : State) (g : Group) : Bool := g.level != .m && (s.launchOf g).pkt.det

/-- The local-store grant in bytes; for the stage manager its SRAM (R348). -/
def State.grantOf (s : State) (g : Group) : Nat :=
  if g.level = .m then 524288 else (s.team g.team).lgran * 4096

/-- The die of a tile (R8). Numbers past the tiles stand for the distributor and the stage manager, on die 0. -/
def dieOf (tile : Nat) : Nat := if 96 ≤ tile && tile < 192 then 1 else 0

/-! ### Numbers and free values -/

/-- The tile number of a team whose cluster is switched out: it is on no tile. -/
def awayTile : Nat := 192

/-- A new number for a record: messages and accesses are ordered by it. Assumption 67 (DESIGN CHOICE). -/
def State.fresh (s : State) : Nat × State := (s.nextId, { s with nextId := s.nextId + 1 })

/-- Give a group a new age: it has just become ready or blocked without a slot (R288, R289). -/
def State.stamp (s : State) (gid : Nat) : State :=
  let (n, s) := s.fresh
  s.modGroup gid fun g => { g with age := n }

/-- The next free value (assumption 2 (DESIGN CHOICE)). -/
def State.takeFree (s : State) : Nat × State := (Config.freeNat s.free, { s with free := s.free + 1 })

/-- The next free choice (assumption 2 (DESIGN CHOICE)). -/
def State.takeBit (s : State) : Bool × State := (Config.freeBit s.free, { s with free := s.free + 1 })

end Sys2Proof.Machine
end

