-- ==== Sys2Proof/Machine/SlhDsa.lean ====
section
/-! DEFINITION. SLH-DSA-SHA2-128s (FIPS 205), which R5, R351 and R353 use: n = 16, h = 63, d = 7, h' = 9, a = 12, k = 14,
w = 16. The spec gives no more than its name. Messages are signed in the pure mode with an empty context.
Assumption 78 (PRESUMED). -/

namespace Sys2Proof.Machine

/-- A compressed address: layer, tree, type, and three words whose use the type gives. -/
structure Adrs where
  layer : Nat
  tree : Nat
  type : Nat
  key : Nat
  mid : Nat
  low : Nat
  deriving DecidableEq, Repr

/-- Address types. -/
def adrsWots : Nat := 0
def adrsWotsPk : Nat := 1
def adrsTree : Nat := 2
def adrsFors : Nat := 3
def adrsForsRoots : Nat := 4
def adrsWotsPrf : Nat := 5
def adrsForsPrf : Nat := 6

/-- The 22 bytes of an address. -/
def Adrs.bytes (a : Adrs) : List Byte :=
  beBytes 1 a.layer ++ beBytes 8 a.tree ++ beBytes 1 a.type ++ beBytes 4 a.key ++ beBytes 4 a.mid ++ beBytes 4 a.low

/-- F, H, T and PRF of the SHA2 sets of category 1: all are one keyed, addressed hash cut to 16 bytes. -/
def slhHash (seed : List Byte) (a : Adrs) (m : List Byte) : List Byte :=
  (sha256 (seed ++ List.replicate 48 0 ++ a.bytes ++ m)).take 16

/-- `n` digits of `b` bits of a byte string, highest first. -/
def slhDigits (m : List Byte) (b n : Nat) : List Nat :=
  (List.range n).map fun i => beNat m / 2 ^ (8 * m.length - b * (i + 1)) % 2 ^ b

/-- Element `i` of a string of 16-byte values. -/
def slhPart (x : List Byte) (i : Nat) : List Byte := (x.drop (16 * i)).take 16

/-! ### One-time signatures -/

/-- `n` steps of a hash chain from position `i`. -/
def slhChain (seed : List Byte) (a : Adrs) : Nat → Nat → List Byte → List Byte
  | _, 0, x => x
  | i, n + 1, x => slhChain seed a (i + 1) n (slhHash seed { a with low := i } x)

/-- The 35 digits of a 16-byte message: 32 of its own and a checksum of 3. -/
def wotsDigits (m : List Byte) : List Nat :=
  let ds := slhDigits m 4 32
  ds ++ slhDigits (beBytes 2 (16 * (ds.map fun x => 15 - x).sum)) 4 3

def digitAt (ds : List Nat) (i : Nat) : Nat := (ds[i]?).getD 0

/-- The secret value of chain `i` of a key pair. -/
def wotsSecret (seed sk : List Byte) (a : Adrs) (i : Nat) : List Byte :=
  slhHash seed { a with type := adrsWotsPrf, mid := i, low := 0 } sk

/-- A public key from the ends of its chains. -/
def wotsKey (seed : List Byte) (a : Adrs) (tops : List (List Byte)) : List Byte :=
  slhHash seed { a with type := adrsWotsPk, mid := 0, low := 0 } tops.flatten

def wotsPublic (seed sk : List Byte) (a : Adrs) : List Byte :=
  wotsKey seed a ((List.range 35).map fun i => slhChain seed { a with mid := i } 0 15 (wotsSecret seed sk a i))

def wotsSign (seed sk : List Byte) (a : Adrs) (m : List Byte) : List Byte :=
  (List.range 35).flatMap fun i => slhChain seed { a with mid := i } 0 (digitAt (wotsDigits m) i) (wotsSecret seed sk a i)

def wotsFrom (seed : List Byte) (a : Adrs) (sig m : List Byte) : List Byte :=
  let ds := wotsDigits m
  wotsKey seed a ((List.range 35).map fun i =>
    slhChain seed { a with mid := i } (digitAt ds i) (15 - digitAt ds i) (slhPart sig i))

/-! ### Trees -/

/-- The parent of two nodes. -/
def slhJoin (seed : List Byte) (a : Adrs) (height idx : Nat) (l r : List Byte) : List Byte :=
  slhHash seed { a with mid := height, low := idx } (l ++ r)

/-- Node `i` at a height, from the leaves. -/
def slhNode (seed : List Byte) (a : Adrs) (leaf : Nat → List Byte) : Nat → Nat → List Byte
  | 0, i => leaf i
  | z + 1, i => slhJoin seed a (z + 1) i (slhNode seed a leaf z (2 * i)) (slhNode seed a leaf z (2 * i + 1))

/-- The root above a node with its authentication path, from height `z` and index `i` on. -/
def slhClimb (seed : List Byte) (a : Adrs) : List (List Byte) → Nat → Nat → List Byte → List Byte
  | [], _, _, x => x
  | y :: r, z, i, x =>
    slhClimb seed a r (z + 1) (i / 2) (slhJoin seed a (z + 1) (i / 2) (if i % 2 = 0 then x else y) (if i % 2 = 0 then y else x))

/-- The authentication path of leaf `i` in a tree of a height whose nodes at the bottom start at index `base`. -/
def slhPath (seed : List Byte) (a : Adrs) (leaf : Nat → List Byte) (height base i : Nat) : List Byte :=
  (List.range height).flatMap fun j => slhNode seed a leaf j (base / 2 ^ j + (i / 2 ^ j ^^^ 1))

/-- The leaves of a tree of one-time keys. -/
def xmssLeaf (seed sk : List Byte) (layer tree i : Nat) : List Byte := wotsPublic seed sk ⟨layer, tree, adrsWots, i, 0, 0⟩

def xmssSign (seed sk : List Byte) (layer tree i : Nat) (m : List Byte) : List Byte :=
  wotsSign seed sk ⟨layer, tree, adrsWots, i, 0, 0⟩ m
    ++ slhPath seed ⟨layer, tree, adrsTree, 0, 0, 0⟩ (xmssLeaf seed sk layer tree) 9 0 i

/-- The root that a signature of 44 values gives. -/
def xmssFrom (seed : List Byte) (layer tree i : Nat) (sig m : List Byte) : List Byte :=
  slhClimb seed ⟨layer, tree, adrsTree, 0, 0, 0⟩ ((List.range 9).map fun j => slhPart sig (35 + j)) 0 i
    (wotsFrom seed ⟨layer, tree, adrsWots, i, 0, 0⟩ sig m)

/-- Sign at `n` layers of the hypertree from a layer on. -/
def htSign (seed sk : List Byte) : Nat → Nat → Nat → Nat → List Byte → List Byte
  | 0, _, _, _, _ => []
  | n + 1, layer, tree, i, m =>
    let sig := xmssSign seed sk layer tree i m
    sig ++ htSign seed sk n (layer + 1) (tree / 512) (tree % 512) (xmssFrom seed layer tree i sig m)

/-- The root of the hypertree that a signature gives. -/
def htFrom (seed : List Byte) : Nat → Nat → Nat → Nat → List Byte → List Byte → List Byte
  | 0, _, _, _, _, m => m
  | n + 1, layer, tree, i, sig, m =>
    htFrom seed n (layer + 1) (tree / 512) (tree % 512) (sig.drop 704) (xmssFrom seed layer tree i sig m)

/-! ### Few-time signatures -/

/-- The secret value of leaf `i`. -/
def forsSecret (seed sk : List Byte) (a : Adrs) (i : Nat) : List Byte :=
  slhHash seed { a with type := adrsForsPrf, mid := 0, low := i } sk

/-- A leaf from its secret value. -/
def forsLeaf (seed : List Byte) (a : Adrs) (i : Nat) (x : List Byte) : List Byte := slhHash seed { a with mid := 0, low := i } x

def forsSign (seed sk : List Byte) (a : Adrs) (ds : List Nat) : List Byte :=
  (List.range 14).flatMap fun t =>
    forsSecret seed sk a (4096 * t + digitAt ds t)
      ++ slhPath seed a (fun i => forsLeaf seed a i (forsSecret seed sk a i)) 12 (4096 * t) (digitAt ds t)

def forsFrom (seed : List Byte) (a : Adrs) (sig : List Byte) (ds : List Nat) : List Byte :=
  slhHash seed { a with type := adrsForsRoots, mid := 0, low := 0 } ((List.range 14).flatMap fun t =>
    let i := 4096 * t + digitAt ds t
    slhClimb seed a ((List.range 12).map fun j => slhPart sig (13 * t + 1 + j)) 0 i (forsLeaf seed a i (slhPart sig (13 * t))))

/-! ### Signing and verifying -/

/-- A message in the pure mode with an empty context. -/
def slhMessage (m : List Byte) : List Byte := [0, 0] ++ m

/-- The message digest of 30 bytes: MGF1 with SHA-256. -/
def slhDigest (r pk m : List Byte) : List Byte :=
  (sha256 (r ++ pk.take 16 ++ sha256 (r ++ pk ++ m) ++ beBytes 4 0)).take 30

/-- The digits of the few-time signature, the tree and the leaf that a digest selects. -/
def slhSelect (d : List Byte) : List Nat × Nat × Nat :=
  (slhDigits (d.take 21) 12 14, beNat ((d.drop 21).take 7) % 2 ^ 54, beNat ((d.drop 28).take 2) % 512)

/-- HMAC with SHA-256 and a 16-byte key. -/
def hmac256 (key m : List Byte) : List Byte :=
  let k := key ++ List.replicate 48 0
  sha256 (k.map (· ^^^ 0x5C) ++ sha256 (k.map (· ^^^ 0x36) ++ m))

/-- The public key of a secret seed: the public seed and the root of the top tree. -/
def slhPublic (seed sk : List Byte) : List Byte := seed ++ slhNode seed ⟨6, 0, adrsTree, 0, 0, 0⟩ (xmssLeaf seed sk 6 0) 9 0

/-- Sign a message, with 16 bytes of randomness. -/
def slhSign (seed sk prf rand m : List Byte) : List Byte :=
  let m := slhMessage m
  let r := (hmac256 prf (rand ++ m)).take 16
  let (ds, tree, i) := slhSelect (slhDigest r (slhPublic seed sk) m)
  let a : Adrs := ⟨0, tree, adrsFors, i, 0, 0⟩
  let fors := forsSign seed sk a ds
  r ++ fors ++ htSign seed sk 7 0 tree i (forsFrom seed a fors ds)

/-- Bytes of a signature. -/
def slhBytes : Nat := 7856

/-- Verify a signature of a message with a public key of 32 bytes. -/
def slhVerify (pk m sig : List Byte) : Bool :=
  let seed := pk.take 16
  let m := slhMessage m
  let (ds, tree, i) := slhSelect (slhDigest (sig.take 16) pk m)
  sig.length == slhBytes
    && htFrom seed 7 0 tree i (sig.drop 2928) (forsFrom seed ⟨0, tree, adrsFors, i, 0, 0⟩ (sig.drop 16) ds) == pk.drop 16

end Sys2Proof.Machine
end

