-- ==== Sys2Proof/Machine/Boot.lean ====
section
/-! DEFINITION. The boot ROM (R351), the start of the stage-manager core (R383), and measurement extension (R352). -/

namespace Sys2Proof.Machine

/-- The bytes of a 256-bit register, lowest first (R7). -/
def bytes256 (x : BitVec 256) : List Byte := leBytes 32 x.toNat

/-- The bytes of a 128-bit key, lowest first. -/
def bytes128 (x : BitVec 128) : List Byte := leBytes 16 x.toNat

/-- The identity public key, 32 bytes (R352, IDPUB of R354). -/
def identityPublic : List Byte := slhPublic (bytes128 Config.identityPublicSeed) (bytes128 Config.identitySeed)

/-- A signature with the identity key, with 16 bytes of randomness (R353). -/
def identitySign (rand : Nat) (m : List Byte) : List Byte :=
  slhSign (bytes128 Config.identityPublicSeed) (bytes128 Config.identitySeed) (bytes128 Config.identityPrf) (beBytes 16 rand) m

/-- MEAS[i] = SHA-256(MEAS[i] followed by d) (R352). -/
def Att.extend (a : Att) (i : Nat) (d : List Byte) : Att :=
  { a with meas := a.meas.set i (BitVec.ofNat 256 (leNat (sha256 (bytes256 (a.meas.getD i 0) ++ d)))) }

/-- Fields of the image header (R351). -/
def imageVersion (img : List Byte) : Nat := leNat ((img.drop 4).take 4)
def imageLength (img : List Byte) : Nat := leNat ((img.drop 8).take 4)
def imageEntry (img : List Byte) : Nat := leNat ((img.drop 12).take 4)
def imageCode (img : List Byte) : List Byte := (img.drop 64).take (imageLength img)

/-- The ROM accepts an image: its magic, its whole length, a signature over header and code that verifies with
Quinid's key, a version not below the fused minimum. Assumption 52 (DESIGN CHOICE). -/
def imageOk (img : List Byte) : Bool :=
  leNat (img.take 4) == 0x5155494E
    && img.length == 64 + imageLength img + slhBytes
    && slhVerify (bytes256 Config.quinidKey) (img.take (64 + imageLength img)) (img.drop (64 + imageLength img))
    && Config.fusedMinVersion ≤ imageVersion img

/-- Copy bytes into the 512 KiB of SRAM. -/
def copySram : Memory → Nat → List Byte → Memory
  | m, _, [] => m
  | m, a, b :: r => if a < 524288 then copySram (m.write a b) (a + 1) r else m

/-- The stage-manager core as its reset leaves it (R383): every register zero and without an error, TSTATE and TVEC zero,
CTXID zero; what it had under way no longer reaches it. -/
def State.freshCore (s : State) (entry : PC) : State :=
  { s with
    bad := s.bad.filter fun p => match p with
      | .reg 0 _ => false
      | _ => true
    accs := s.accs.filter fun p => p.2.gid != 0
    fences := s.fences.filter fun p => p.2.team != 0
    tlbis := s.tlbis.filter fun p => p.2.team != 0
    groups := s.groups.set 0 (Group.manager entry)
    teams := s.teams.set 0 Team.manager
    sm := { s.sm with ctxid := 0, tvec := 0, ioRead := 0 } }

/-- The boot ROM runs (R351): on a good image it extends MEAS[0] with the image's SHA-256, copies the code and starts
it; else the device stays in recovery, its core stopped. Assumption 52 (DESIGN CHOICE). -/
def State.bootCore (s : State) : State :=
  let img := s.att.flash
  if imageOk img then
    let s := s.freshCore (BitVec.ofNat 56 (imageEntry img))
    { s with
      att := { (s.att.extend 0 (sha256 img)) with version := imageVersion img, recovery := false }
      sm := { s.sm with sram := copySram s.sm.sram 0 (imageCode img), halted := false } }
  else
    { s.freshCore 0 with att := { s.att with recovery := true }, sm := { s.sm with halted := true, ctxid := 0, tvec := 0 } }

end Sys2Proof.Machine
end

