-- ==== Sys2Proof/Machine/Lines.lean ====
section
/-! DEFINITION. Lines of memory: the address map (R61), homes (R99, R340), holders (R102), event codes (R113), and the bytes
and block descriptors of a line (R95). -/

namespace Sys2Proof.Machine

/-- The end of device DRAM (R61). -/
def dramEnd : Nat := 0x6000000000
/-- The base of die 1's DRAM (R61). -/
def die1Base : Nat := 0x3000000000

def isDram (pa : Nat) : Bool := pa < dramEnd
def isHostPa (pa : Nat) : Bool := pa / 2 ^ 48 == 1
/-- Physical addresses that name memory of this device or of the host (R61). -/
def paOk (pa : Nat) : Bool := isDram pa || isHostPa pa

/-- Line numbers: PA div 128 for this device and its host; peer device `n` has its own range above. -/
def peerSpan : Nat := 2 ^ 45
def isPeerLine (l : Nat) : Bool := peerSpan ≤ l
def peerLine (dev ppa : Nat) : Nat := (dev + 1) * peerSpan + ppa / 128 % peerSpan
def peerOf (l : Nat) : Nat := l / peerSpan - 1
def isHostLine (l : Nat) : Bool := !isPeerLine l && isHostPa (l * 128)
def isDramLine (l : Nat) : Bool := !isPeerLine l && isDram (l * 128)

/-- The home die of a DRAM line (R99). -/
def homeDie (l : Nat) : Nat := if l * 128 < die1Base then 0 else 1

/-- The slice of R99 and R340: the fold of the line number within its die, or within host memory. -/
def foldSlice (n : Nat) : Nat :=
  (n % 128) ^^^ (n / 2 ^ 7 % 128) ^^^ (n / 2 ^ 14 % 128) ^^^ (n / 2 ^ 21 % 128) ^^^ (n / 2 ^ 28 % 128)
    ^^^ (n / 2 ^ 35 % 64)

/-- The line number within its die, for DRAM; within the 48 bits of host memory, for the host. -/
def lineInDie (l : Nat) : Nat :=
  if isHostLine l then l % 2 ^ 41
  else if l * 128 < die1Base then l else l - die1Base / 128

/-- The home slice of a DRAM line (R99). Bits n[30:28] enter as R99 gives, for n below 3 * 2^29. -/
def homeSlice (l : Nat) : Nat := foldSlice (lineInDie l)

/-- The byte offset of a DRAM line within the channel beneath its slice (R99). -/
def channelOffset (l : Nat) : Nat := lineInDie l / 128 * 128

/-! ### Holders and events -/

/-- Holder IDs (R102). -/
def l2Id (die : Nat) : BitVec 16 := BitVec.ofNat 16 (die * 2 ^ 13)
def hostId : BitVec 16 := 0x4000
def stagehandId (tile : Nat) : BitVec 16 := BitVec.ofNat 16 (0x8000 + tile)
def isEngineId (x : BitVec 16) : Bool := x.toNat / 2 ^ 13 == 4 || x.toNat / 2 ^ 13 == 5
def isL2Id (x : BitVec 16) : Bool := x == l2Id 0 || x == l2Id 1

/-- The host or a peer device. -/
def isOutsideId (x : BitVec 16) : Bool := !isL2Id x && !isEngineId x

/-- Event codes (R113). -/
def evRead : Nat := 0
def evReadOwn : Nat := 1
def evWrite : Nat := 2
def evUpdate : Nat := 3
def evEvictClean : Nat := 4
def evEvictDirty : Nat := 5
def evRecallAck : Nat := 6
def evAtomic : Nat := 7
def evReduce : Nat := 8
def evEngineOwn : Nat := 9
def evReplica : Nat := 10
def evTimeout : Nat := 11

/-! ### Data of a line -/

/-- The byte-wide bits of a byte mask. -/
def expandMask (m : LineMask) : Nat :=
  (List.range 128).foldl (fun a i => if m.getLsbD i then a + 255 * 256 ^ i else a) 0

/-- `old` with the masked bytes of `new`. -/
def mergeData (old new : Nat) (m : LineMask) : Nat :=
  let e := expandMask m
  old - (old &&& e) + (new &&& e)

/-- A run of `n` mask bits from byte `off`. -/
def runMask (off n : Nat) : LineMask := BitVec.ofNat 128 ((2 ^ n - 1) * 2 ^ off)

def fullMask : LineMask := BitVec.ofNat 128 (2 ^ 128 - 1)

/-- `n` bytes of line data from byte `off`. -/
def bytesOf (data off n : Nat) : Nat := data / 256 ^ off % 256 ^ n

/-- Line data with `n` bytes replaced from byte `off`. -/
def setBytes (data off n x : Nat) : Nat :=
  data - bytesOf data off n * 256 ^ off + x % 256 ^ n * 256 ^ off

/-- Descriptor of block `h` (0 or 1) of a line's pair. -/
def descOf (d : BitVec 32) (h : Nat) : Desc := BitVec.ofNat 16 (d.toNat / 65536 ^ h)
def setDesc (d : BitVec 32) (h : Nat) (x : Desc) : BitVec 32 :=
  BitVec.ofNat 32 (d.toNat - (d.toNat / 65536 ^ h % 65536) * 65536 ^ h + x.toNat * 65536 ^ h)

/-- A descriptor pair with the selected ones replaced. -/
def mergeDescs (old new : BitVec 32) (dw : BitVec 2) : BitVec 32 :=
  let d := if dw.getLsbD 0 then setDesc old 0 (descOf new 0) else old
  if dw.getLsbD 1 then setDesc d 1 (descOf new 1) else d

end Sys2Proof.Machine
end

