-- ==== Sys2Proof/Machine/Scripts.lean ====
section
/-! DEFINITION. Coherence scripts: entries (R112-R115), the built-in scripts (R116-R119), images (R111), the checks of
a loaded image (R123), and the range table (R120). -/

namespace Sys2Proof.Machine

/-! ### Entries -/

/-- A script entry (R112). `act` keeps its actions at their bit positions of R114. -/
structure Ent where
  valid : Bool
  save : Bool
  timer : Bool
  stall : Bool
  msg : Nat
  act : Nat
  next : Nat
  deriving DecidableEq, Repr

/-- Actions by their bit (R114). -/
def actGS : Nat := 4
def actGE : Nat := 5
def actGM : Nat := 6
def actIA : Nat := 7
def actIX : Nat := 8
def actRC : Nat := 9
def actFD : Nat := 10
def actPU : Nat := 11
def actWB : Nat := 12
def actNT : Nat := 13
def actDN : Nat := 14
def actAH : Nat := 15
def actDH : Nat := 16
def actSU : Nat := 17
def actPF : Nat := 18
def actRP : Nat := 19

/-- An entry takes an action. -/
def Ent.has (e : Ent) (b : Nat) : Bool := e.act.testBit b

/-- The 32 bits of an entry (R112). -/
def Ent.toWord (e : Ent) : Nat :=
  e.next % 16 + e.act % 2 ^ 20 / 16 * 16 + e.msg % 64 * 2 ^ 20 + (if e.stall then 2 ^ 26 else 0)
    + (if e.timer then 2 ^ 27 else 0) + (if e.save then 2 ^ 28 else 0) + (if e.valid then 2 ^ 31 else 0)

/-- The entry of 32 bits (R112). -/
def Ent.ofWord (x : Nat) : Ent where
  valid := x.testBit 31
  save := x.testBit 28
  timer := x.testBit 27
  stall := x.testBit 26
  msg := x / 2 ^ 20 % 64
  act := x % 2 ^ 20 / 16 * 16
  next := x % 16

/-- A script, as the controller looks it up: classes (0 I, 1 S, 2 O, 3 T), FLAGS, REDMASK, entries. -/
structure Script where
  cls : Nat → Nat
  flags : Nat
  redmask : Nat
  ent : Nat → Nat → Ent

/-! ### The tables of R116-R119 -/

/-- An entry with actions, a message and a next state. -/
def Ent.go (acts : List Nat) (msg next : Nat) : Ent :=
  ⟨true, false, false, false, msg, acts.foldl (fun a b => a + 2 ^ b) 0, next⟩

/-- `sv tm` (R116). -/
def Ent.saved (e : Ent) : Ent := { e with save := true, timer := true }
/-- `tm` (R116). -/
def Ent.timed (e : Ent) : Ent := { e with timer := true }
/-- `st`: STALL with the same state and no action. -/
def Ent.st (s : Nat) : Ent := ⟨true, false, false, true, 0, 0, s⟩
/-- `DN`, keeping the state. -/
def Ent.dn (s : Nat) : Ent := ⟨true, false, false, false, 0, 2 ^ actDN, s⟩

/-- The INV script (R116). States: 0 I, 1 S, 2 O, 3 TD, 4 TR, 5 TI. -/
def invEnt (s e : Nat) : Ent :=
  let toTR : Ent := (Ent.go [actRC] 0x10 4).saved
  let toTI : Ent := (Ent.go [actIA] 0 5).saved
  let toTD : Ent := (Ent.go [actRC] 0x11 3).saved
  let own : Ent := Ent.go [actGM, actAH, actSU] 4 2
  match s, e with
  | 0, 0 => .go [actGE, actAH, actSU] 3 2
  | 0, 1 => own
  | 0, 2 => .go [actPF] 1 0
  | 0, 7 => .go [actPF] 6 0
  | 0, 8 => .go [actPF] 1 0
  | 0, 9 => own
  | 0, 10 => .go [actSU] 5 0
  | 1, 0 => .go [actGS, actAH, actSU] 2 1
  | 1, 1 => toTI
  | 1, 2 => toTI
  | 1, 4 => .go [actDH] 1 1
  | 1, 7 => toTI
  | 1, 8 => toTI
  | 1, 9 => toTI
  | 1, 10 => .go [actSU] 5 1
  | 2, 0 => toTD
  | 2, 1 => toTR
  | 2, 2 => toTR
  | 2, 4 => .go [actDH] 1 0
  | 2, 5 => .go [actWB, actDH] 1 0
  | 2, 7 => toTR
  | 2, 8 => toTR
  | 2, 9 => toTR
  | 2, 10 => toTD
  | 3, 4 => .go [actDH] 1 3
  | 3, 5 => .go [actWB, actDH] 1 3
  | 3, 6 => .go [actWB, actRP] 0 1
  | 3, 11 => (Ent.go [actRC] 0x11 3).timed
  | 4, 4 => .go [actDH] 1 4
  | 4, 5 => .go [actWB, actDH] 1 4
  | 4, 6 => .go [actWB, actRP] 0 0
  | 4, 11 => (Ent.go [actRC] 0x10 4).timed
  | 5, 4 => .go [actDH] 1 5
  | 5, 6 => .go [actRP] 0 0
  | 5, 11 => (Ent.go [actIA] 0 5).timed
  | s, e =>
    if 3 ≤ s && s ≤ 5 && (e ≤ 2 || (7 ≤ e && e ≤ 10)) then .st s else .dn s

/-- Class of a state of INV. -/
def invCls (s : Nat) : Nat :=
  match s with
  | 1 => 1 | 2 => 2 | 3 => 3 | 4 => 3 | 5 => 3 | _ => 0

def invScript : Script := ⟨invCls, 0, 0x3F, invEnt⟩

/-- UPD (R118). -/
def updScript : Script where
  cls := invCls
  flags := 0x0A
  redmask := 0x3F
  ent := fun s e =>
    let share : Ent := .go [actGS, actAH, actSU] 2 1
    match s, e with
    | 0, 0 => share
    | 0, 1 => share
    | 1, 1 => share
    | 1, 2 => .go [actPF, actPU] 1 1
    | 1, 3 => .go [actPF, actPU] 1 1
    | s, e => invEnt s e

/-- MIG (R118). -/
def migScript : Script where
  cls := fun s => if s = 3 then 0 else invCls s
  flags := 0
  redmask := 0x3F
  ent := fun s e =>
    let move : Ent := .go [actRC, actFD, actGM, actAH] 0x12 2
    match s, e with
    | 0, 0 => .go [actGM, actAH, actSU] 4 2
    | 2, 0 => move
    | 2, 1 => move
    | 2, 10 => move
    | 2, 6 => .go [] 0 2
    | 3, _ => .dn 3
    | s, e => invEnt s e

/-- WONCE (R118): state 6 is W. -/
def wonceScript : Script where
  cls := fun s => if s = 6 then 1 else invCls s
  flags := 0
  redmask := 0
  ent := fun s e =>
    match s, e with
    | 0, 0 => .go [actGS, actAH, actSU] 2 1
    | 4, 6 => .go [actWB, actRP] 0 6
    | 2, 5 => .go [actWB, actDH] 1 6
    | 2, 4 => .go [actDH] 1 6
    | 6, 0 => .go [actGS, actAH, actSU] 2 6
    | 6, 10 => .go [actSU] 5 6
    | 6, 4 => .go [actDH] 1 6
    | 6, _ => .dn 6
    | s, e => invEnt s e

/-- RDQ (R117): states 0 I, 1 S, 2 TI. -/
def rdqScript : Script where
  cls := fun s => if s = 1 then 1 else if s = 2 then 3 else 0
  flags := 0
  redmask := 0x20
  ent := fun s e =>
    match s, e with
    | 0, 0 => .go [actGS, actAH, actSU] 2 1
    | 0, 8 => .go [actPF] 1 0
    | 0, 10 => .go [actSU] 5 0
    | 1, 0 => .go [actGS, actAH, actSU] 2 1
    | 1, 4 => .go [actDH] 1 1
    | 1, 8 => (Ent.go [actIA] 0 2).saved
    | 1, 10 => .go [actSU] 5 1
    | 2, 0 => .st 2
    | 2, 4 => .go [actDH] 1 2
    | 2, 6 => .go [actRP] 0 0
    | 2, 8 => .st 2
    | 2, 10 => .st 2
    | 2, 11 => (Ent.go [actIA] 0 2).timed
    | s, _ => .dn s

/-- NC (R118): states I and O only. Assumption 31 (DEDUCED). -/
def ncScript : Script where
  cls := fun s => if s = 2 then 2 else 0
  flags := 0
  redmask := 0x3F
  ent := fun s e =>
    match s, e with
    | 0, 0 => .go [actSU] 5 0
    | 0, 1 => .dn 0
    | 0, e => invEnt 0 e
    | 2, 4 => .go [actDH] 1 0
    | 2, 5 => .go [actWB, actDH] 1 0
    | 2, e => if e < 12 then .st 2 else .dn 2
    | s, _ => .dn s

/-- CUE, which the boot firmware commits into slot 6 (R119). -/
def cueScript : Script where
  cls := invCls
  flags := 1
  redmask := 0x3F
  ent := fun s e =>
    let share : Ent := .go [actGS, actAH, actSU] 2 1
    match s, e with
    | 0, 0 => share
    | 0, 1 => share
    | 1, 1 => share
    | 0, 2 => .go [actPF, actNT] 1 0
    | 0, 8 => .go [actPF, actNT] 1 0
    | 0, 7 => .go [actPF, actNT] 6 0
    | s, 9 => .dn s
    | s, e => invEnt s e

/-! ### Images (R111) -/

/-- Byte `i` of the image of a script with VERSION 0. -/
def Script.imageByte (c : Script) (i : Nat) : Byte :=
  if i < 4 then BitVec.ofNat 8 ((List.range 4).foldl (fun a j => a + c.cls (4 * i + j) * 4 ^ j) 0)
  else if i = 4 then BitVec.ofNat 8 c.flags
  else if i = 5 then BitVec.ofNat 8 c.redmask
  else if i < 64 then 0
  else
    let n := (i - 64) / 4
    BitVec.ofNat 8 ((c.ent (n / 16) (n % 16)).toWord / 256 ^ ((i - 64) % 4))

/-- The 1,088 bytes of a script's image. -/
def Script.image (c : Script) : List Byte := (List.range 1088).map c.imageByte

/-- The script of an image. -/
def scriptOf (img : List Byte) : Script where
  cls := fun s => leNat (img.take 4) / 4 ^ s % 4
  flags := leNat ((img.drop 4).take 1)
  redmask := leNat ((img.drop 5).take 1)
  ent := fun s e => Ent.ofWord (leNat ((img.drop (64 + 4 * (16 * s + e))).take 4))

/-- The script in a repertoire slot of a die (R116-R119, R123). Assumption 53 (DESIGN CHOICE). -/
def Coh.script (c : Coh) (slot : Nat) : Script :=
  match slot with
  | 0 => invScript | 1 => updScript | 2 => migScript | 3 => wonceScript | 4 => rdqScript | 5 => ncScript
  | n => match c.scripts.get? n with
    | some img => scriptOf img
    | none => invScript

/-! ### The checks of R123 -/

/-- The first entry, state by state, that fails a test: which of several SLDSTAT names the spec leaves open.
Assumption 75 (DESIGN CHOICE). -/
def firstBad (f : Nat → Nat → Bool) : Option (Nat × Nat) :=
  ((List.range 256).find? fun n => !f (n / 16) (n % 16)).map fun n => (n / 16, n % 16)

/-- DENY with no other action or flag. -/
def Ent.deniesOnly (x : Ent) : Bool := x.act == 2 ^ actDN && !x.save && !x.timer && !x.stall

/-- MSG is 0x00 or a defined code (R115). -/
def msgDefined (m : Nat) : Bool := m ≤ 6 || (0x10 ≤ m && m ≤ 0x12)

/-- The entry part of check 0x09. -/
def Ent.wellFormed (e : Ent) : Bool :=
  msgDefined e.msg
    && (!(e.has actIA || e.has actIX || e.has actDN) || e.msg == 0)
    && (!(e.has actGS || e.has actGE || e.has actGM)
      || (e.has actSU && (!e.has actGS || e.msg == 2) && (!e.has actGE || e.msg == 3) && (!e.has actGM || e.msg == 4))
      || (e.has actRC && e.msg == 0x12))

/-- The header part of check 0x09. -/
def imageHeaderOk (img : List Byte) : Bool :=
  leNat (img.take 1) % 4 == 0 && leNat ((img.drop 4).take 1) < 16 && leNat ((img.drop 5).take 1) < 64
    && (img.drop 8).take 56 == List.replicate 56 (0 : Byte)

/-- Entry bits [30:29] are zero. -/
def entryBitsOk (img : List Byte) (s e : Nat) : Bool :=
  leNat ((img.drop (64 + 4 * (16 * s + e))).take 4) / 2 ^ 29 % 4 == 0

/-- A state leaves class T along recall-ack entries within `n` events (R123 check c). -/
def Script.settles (c : Script) : Nat → Nat → Bool
  | 0, s => c.cls s != 3
  | n + 1, s => c.cls s != 3 || c.settles n (c.ent s 6).next

/-- Check (c) at one entry of a T state: recall-ack leads out of class T, and all but three other events stall or are
denied. -/
def Script.transientOk (c : Script) (s e : Nat) : Bool :=
  c.cls s != 3 ||
    (if e = 6 then c.settles 4 s else e == 11 || e == 4 || e == 5 || (c.ent s e).stall || (c.ent s e).has actDN)

/-- The result of a check: its code, the failing event and the failing state. -/
abbrev CheckRes := Nat × Nat × Nat

def checkAll (code : Nat) (f : Nat → Nat → Bool) (rest : CheckRes) : CheckRes :=
  match firstBad f with
  | some (s, e) => (code, e, s)
  | none => rest

/-- The checks on an image, from 0x09 on, in their order (R123). `hashOk` is check (f)'s comparison. -/
def imageCheck (img : List Byte) (hashOk : Bool) : CheckRes :=
  let c := scriptOf img
  if !imageHeaderOk img then (0x09, 0xFF, 0xFF)
  else
    checkAll 0x09 (fun s e => entryBitsOk img s e && (c.ent s e).wellFormed) <|
    checkAll 0x01 (fun s e => if 12 ≤ e then (c.ent s e).deniesOnly else (c.ent s e).valid || (c.ent s e).has actDN) <|
    checkAll 0x05 (fun s e => !(c.ent s e).has actDN || (c.ent s e).deniesOnly) <|
    checkAll 0x02 (fun s e => let x := c.ent s e
      !((c.cls s == 1 || c.cls s == 2) && (x.has actGE || x.has actGM)) || x.has actIX || x.has actRC) <|
    checkAll 0x03 c.transientOk <|
    checkAll 0x04 (fun s e => let x := c.ent s e
      (!x.has actNT || c.flags.testBit 0) && (!x.has actPU || c.flags.testBit 1)) <|
    if c.flags.testBit 2 && !hashOk then (0x06, 0xFF, 0xFF) else (0, 0xFF, 0xFF)

/-- Some verified hash matches an image (R123 check f). -/
def Coh.hashMatches (c : Coh) (img : List Byte) : Bool :=
  let d := leNat (sha256 img)
  (List.range 8).any fun j => c.shvalid.getLsbD j &&
    d == (List.range 4).foldl (fun a w => a + (c.shash.getD (4 * j + w) 0).toNat * 2 ^ (64 * w)) 0

/-! ### The range table (R120) -/

/-- The two words of entry `n` in force. -/
def Coh.word0 (c : Coh) (n : Nat) : W64 := c.force0.getD n 0
def Coh.word1 (c : Coh) (n : Nat) : W64 := c.force1.getD n 0

/-- A range word names a physical address. -/
def rangeHas (w0 : W64) (pa : Nat) : Bool :=
  let k := field w0 0 6
  w0.getLsbD 63 && pa / 2 ^ k == field w0 16 36 * 65536 / 2 ^ k

/-- The script slot of a line: that of the lowest-numbered valid entry whose range contains it, else 0 (R120). -/
def Coh.slotAt (c : Coh) (pa : Nat) : Nat :=
  match lowest 64 fun n => rangeHas (c.word0 n) pa with
  | some n => field (c.word1 n) 0 3
  | none => 0

/-- The slot and the script of a line this device or the host homes; the host answers as INV (R120, R379).
Assumption 30 (DESIGN CHOICE). -/
def State.slotOf (s : State) (l : Nat) : Nat := if isHostLine l then 0 else (s.cohOf (homeDie l)).slotAt (l * 128)
/-- The script of a line at its home (R113, R121). Assumption 30 (DESIGN CHOICE). -/
def State.scriptOf (s : State) (l : Nat) : Script := (s.cohOf (homeDie l)).script (s.slotOf l)

/-- The checks of a committed range entry (R121). -/
def Coh.rangeCheck (c : Coh) (w0 w1 : W64) : Nat :=
  let k := field w0 0 6
  let slot := field w1 0 3
  if !w0.getLsbD 63 then 0
  else if field w0 52 11 ≠ 0 || field w0 6 10 ≠ 0 || field w1 8 56 ≠ 0 || field w1 3 2 ≠ 0 || k < 16 || 51 < k
      || field w0 16 36 * 65536 % 2 ^ k ≠ 0 then 0x09
  else if !c.srep.getLsbD slot then 0x0B
  else if ((c.script slot).flags.testBit 0 && !w1.getLsbD 5) || ((c.script slot).flags.testBit 1 && !w1.getLsbD 6) then 0x04
  else if w1.getLsbD 7 && !c.srep.getLsbD (8 + slot) then 0x06
  else 0

end Sys2Proof.Machine
end

