-- ==== Sys2Proof/Machine/Mem.lean ====
section
/-! DEFINITION. Physical memory as agents at system scope read and write it (R69, R75, R279, R353): home copies, the
directory, the newest copy of a line, and writes that every holder sees. -/

namespace Sys2Proof.Machine

/-- The home copy of a line. Assumption 24 (DESIGN CHOICE). -/
def State.lineData (s : State) (l : Nat) : Nat := s.mem.readN (l * 128) 128

/-- The descriptors of a line's two blocks; host memory holds none and reads 0x0000 (R95). -/
def State.lineDescs (s : State) (l : Nat) : BitVec 32 :=
  if isHostLine l then 0
  else BitVec.ofNat 32 ((s.descs.getD (2 * l) 0).toNat + 65536 * (s.descs.getD (2 * l + 1) 0).toNat)

/-- A block marked by an uncorrectable error (R319). -/
def State.isBad (s : State) (p : ErrPlace) : Bool := s.bad.contains p
def State.clearBad (s : State) (p : ErrPlace) : State := { s with bad := s.bad.filter (· != p) }
def State.markBad (s : State) (p : ErrPlace) : State := if s.bad.contains p then s else { s with bad := p :: s.bad }

/-- A block's descriptor at its home; discarded for a host block (R95). -/
def State.setBlockDesc (s : State) (blk : Nat) (d : Desc) : State :=
  if isHostLine (blk / 2) then s
  else { s with descs := if d = 0 then s.descs.del blk else s.descs.set blk d }

/-- The descriptors a write leaves in a line held outside its home: a host line has none (R95). -/
def keepDescs (l : Nat) (old new : BitVec 32) (dw : BitVec 2) : BitVec 32 := if isHostLine l then 0 else mergeDescs old new dw

/-! ### The directory (R103) -/

def State.dirOf (s : State) (l : Nat) : DirEntry := s.dir.getD l DirEntry.empty

/-- Keep a line's entry; one that says nothing is not listed (R103). -/
def State.setDir (s : State) (l : Nat) (d : DirEntry) : State :=
  { s with dir := if { d with used := 0 } = DirEntry.empty then s.dir.del l else s.dir.set l d }

def State.modDir (s : State) (l : Nat) (f : DirEntry → DirEntry) : State := s.setDir l (f (s.dirOf l))

/-- A recall or invalidation of round `rnd` leaves for a holder. -/
def State.sendRecall (s : State) (l : Nat) (agent : BitVec 16) (kind : Nat) (fwd : Option Req) (wok : Bool) (rnd : Nat) :
    State :=
  let (k, s) := s.fresh
  { s with recs := s.recs.set k ⟨l, agent, kind, fwd, wok, rnd⟩ }

/-! ### The coherent value -/

/-- The key of a die's L2 copy of a line. -/
def l2Key (die l : Nat) : Nat := 2 * l + die
def State.l2Line (s : State) (die l : Nat) : Option HLine := s.l2.get? (l2Key die l)

/-- The die whose L2 owns a line. -/
def State.l2Owner (s : State) (l : Nat) : Option Nat :=
  [0, 1].find? fun die => match s.l2Line die l with
    | some h => 2 ≤ h.right
    | none => false

/-- Bytes of a line that have left an owner and not reached the home copy: in a dirty answer, in an evict-dirty under way,
or kept by an open round. -/
def State.inAir (s : State) (l : Nat) : Option (Nat × BitVec 32) :=
  match (s.dirOf l).round.bind (·.dirty) with
  | some x => some x
  | none =>
    match s.answers.findSome? fun p => if p.2.line = l then p.2.dirty else none with
    | some x => some x
    | none => (s.net.map (·.2) ++ (s.dirOf l).queue).findSome? fun r =>
        if r.line = l ∧ r.ev = evEvictDirty then
          some (mergeData (s.lineData l) r.data r.mask, mergeDescs (s.lineDescs l) r.descs r.descW)
        else none

/-- The host or a peer may hold the newest bytes of a line: it owns it, or an owner's recall is under way. -/
def State.away (s : State) (l : Nat) : Bool :=
  let d := s.dirOf l
  d.ptrs.any isOutsideId && ((s.scriptOf l).cls d.state == 2 || d.round.any fun r => 0x10 ≤ r.kind)

/-- The value an agent at system scope sees: the copy of a die's L2 that owns the line, else bytes on their way home, else
what the host or a peer holds, which is free, else the home copy. Assumption 3 (DESIGN CHOICE). -/
def State.cohLine (s : State) (l : Nat) : Nat × BitVec 32 :=
  match (s.l2Owner l).bind fun die => s.l2Line die l with
  | some h => (h.data, h.descs)
  | none =>
    match s.inAir l with
    | some x => x
    | none =>
      if s.away l then
        let x := Config.awayLine s.free l
        (x % 256 ^ 128, if isHostLine l then 0 else BitVec.ofNat 32 (x / 256 ^ 128))
      else (s.lineData l, s.lineDescs l)

/-- The source code of R319 for a half of a home copy: 1 DRAM, 2 its slice's cache, 0 for no error. -/
def State.homeErr (s : State) (l h : Nat) : Nat :=
  if s.isBad (.block (2 * l + h)) then 1 else if s.isBad (.l2 (homeDie l) l h) then 2 else 0

/-- The same of the newest copy of a line (R319). -/
def State.newestErr (s : State) (l h : Nat) : Nat :=
  match s.l2Owner l with
  | some die => if s.isBad (.l2 die l h) then 2 else 0
  | none => if (s.inAir l).isSome || s.away l then 0 else s.homeErr l h

/-- The launches that have a group on the device (R35). -/
def State.presentLaunches (s : State) : List Nat :=
  ((s.groups.filter fun g => !g.2.ended && g.2.level != .m).map fun g => s.launchIdOf g.2).eraseDups

/-- Keep what a line holds before a write, for every launch that has a group on the device: a fetch may still see it
(R35). Assumption 68 (DESIGN CHOICE). -/
def State.keepOld (s : State) (l : Nat) : State :=
  { s with code := ((s.presentLaunches.map fun k => ⟨k, l, (s.cohLine l).1⟩).filter fun x => !s.code.contains x) ++ s.code }

/-- What a fetch block's line held before writes of this launch's time, the newest first (R35).
Assumption 68 (DESIGN CHOICE). -/
def State.oldLines (s : State) (launch line : Nat) : List Nat :=
  (s.code.filter fun x => x.launch == launch && x.line == line).map (·.data)

/-- A write of masked bytes covers half `h` of a line, and its descriptor: fresh ECC (R319). -/
def wholeBlock (m : LineMask) (dw : BitVec 2) (h : Nat) : Bool :=
  dw.getLsbD h && m.toNat / 2 ^ (64 * h) % 2 ^ 64 == 2 ^ 64 - 1

/-- Write masked bytes, and the descriptors selected, into the home copy. A whole block written with its descriptor
clears an error there (R319). Assumption 24 (DESIGN CHOICE). -/
def State.writeHome (s : State) (l : Nat) (data : Nat) (m : LineMask) (descs : BitVec 32) (dw : BitVec 2) : State :=
  let s := if m = 0 then s else s.keepOld l
  let s := { s with mem := s.mem.writeMasked (l * 128) 128 data m.toNat }
  let fix (s : State) (h : Nat) : State :=
    if dw.getLsbD h then
      let s := s.setBlockDesc (2 * l + h) (descOf descs h)
      if wholeBlock m dw h then (s.clearBad (.block (2 * l + h))).clearBad (.l2 (homeDie l) l h) else s
    else s
  fix (fix s 0) 1

/-- Read `n` bytes at a physical address, within one line, as an agent at system scope. Assumption 3 (DESIGN CHOICE). -/
def State.cohRead (s : State) (pa n : Nat) : Nat := bytesOf (s.cohLine (pa / 128)).1 (pa % 128) n

/-- The write of an agent at system scope also reaches every copy of a die's L2, and bytes on their way home. -/
def State.patchCopies (s : State) (l : Nat) (data : Nat) (m : LineMask) (descs : BitVec 32) (dw : BitVec 2) : State :=
  let one (x : Nat × BitVec 32) : Nat × BitVec 32 := (mergeData x.1 data m, keepDescs l x.2 descs dw)
  let upd (t : Table HLine) (die : Nat) : Table HLine :=
    t.alter (l2Key die l) fun h => { h with data := mergeData h.data data m, descs := keepDescs l h.descs descs dw }
  let evict (r : Req) : Req :=
    if r.line = l ∧ r.ev = evEvictDirty then
      { r with data := mergeData r.data data m, descs := keepDescs l r.descs descs dw }
    else r
  let s : State := { s with
    l2 := upd (upd s.l2 0) 1
    answers := s.answers.map fun p => (p.1, if p.2.line = l then { p.2 with dirty := p.2.dirty.map one } else p.2)
    net := s.net.map fun p => (p.1, evict p.2) }
  match s.dir.get? l with
  | none => s
  | some d => s.setDir l { d with
      round := d.round.map fun r => { r with dirty := r.dirty.map one }
      queue := d.queue.map evict }

/-- The host and every peer that holds a line give it up: an invalidation to each, and no pointer kept. -/
def State.dropOutside (s : State) (l : Nat) : State :=
  let d := s.dirOf l
  let k := (s.scriptOf l).cls d.state
  let s := (d.ptrs.filter isOutsideId).foldl (fun s a => s.sendRecall l a 0 none false 0) s
  s.modDir l fun d =>
    let ptrs := d.ptrs.filter fun a => !isOutsideId a
    { d with ptrs := ptrs, state := if (k = 1 || k = 2) && ptrs.isEmpty && !d.ovf then 0 else d.state }

/-- Write masked bytes of a line as an agent at system scope does, in one step: over its newest bytes, with every holder
outside the package invalidated and every copy inside it brought up to date. Assumption 3 (DESIGN CHOICE). -/
def State.cohWriteLine (s : State) (l : Nat) (data : Nat) (m : LineMask) (descs : BitVec 32) (dw : BitVec 2) : State :=
  let (old, ods) := s.cohLine l
  let out : Bool := (s.dirOf l).ptrs.any isOutsideId
  let s := if s.away l then s.writeHome l (mergeData old data m) fullMask (keepDescs l ods descs dw) 3
    else s.writeHome l data m descs dw
  (if out then s.dropOutside l else s).patchCopies l data m descs dw

/-- Write `n` bytes at a physical address, within one line, as an agent at system scope. Assumption 3 (DESIGN CHOICE). -/
def State.cohWrite (s : State) (pa n x : Nat) : State :=
  s.cohWriteLine (pa / 128) (x * 256 ^ (pa % 128)) (runMask (pa % 128) n) 0 0

/-- The lines of a run of bytes, each with its first byte and its length in the run. -/
def runLines (pa n : Nat) : List (Nat × Nat × Nat) :=
  (List.range ((pa + n + 127) / 128 - pa / 128)).map fun i =>
    let a := max pa ((pa / 128 + i) * 128)
    (pa / 128 + i, a, min (pa + n) ((pa / 128 + i + 1) * 128) - a)

/-- Write bytes that may span several lines, a line at a time. Assumption 3 (DESIGN CHOICE). -/
def State.cohWriteBytes (s : State) (pa : Nat) (bs : List Byte) : State :=
  (runLines pa bs.length).foldl (fun s p => s.cohWrite p.2.1 p.2.2 (leNat ((bs.drop (p.2.1 - pa)).take p.2.2))) s

/-! ### Requests -/

/-- The generation counters of a tile in one value: TGC, TGD, TGS. -/
def Tile.gens (t : Tile) : BitVec 12 := t.tgc ++ t.tgd ++ t.tgs

/-- A request with nothing but its event, line, die, tile and tag; the tile's counters as they stand (R154). -/
def State.newReq (s : State) (ev line tile : Nat) (tag : Tag) : Req where
  ev := ev
  line := line
  die := dieOf tile
  holder := none
  tag := tag
  data := 0
  mask := 0
  descs := 0
  descW := 0
  elems := []
  op := 0
  aty := 0
  gens := (s.tile tile).gens
  wraps := (s.tile tile).wraps
  tile := tile
  launch := 0
  alloc := true
  ef := false
  carry := 0
  was := 0
  id := 0

/-- Put a request into the network under a new number. -/
def State.send (s : State) (r : Req) : Nat × State :=
  let (k, s) := s.fresh
  (k, { s with net := s.net.set k { r with id := k } })

/-! ### Contexts -/

/-- Word `w` of a context-table entry (R331). Assumption 11 (DEDUCED). -/
def State.ctxWord (s : State) (ctx w : Nat) : W64 :=
  BitVec.ofNat 64 (s.cohRead (s.dev.ctxtab.toNat + 64 * ctx + 8 * w) 8)
def State.ctxValid (s : State) (ctx : Nat) : Bool := (s.ctxWord ctx 0).getLsbD 63
def State.ctxCohg (s : State) (ctx : Nat) : Bool := (s.ctxWord ctx 0).getLsbD 3
def State.ctxSsg (s : State) (ctx : Nat) : Bool := (s.ctxWord ctx 0).getLsbD 4
def State.ctxPnote (s : State) (ctx : Nat) : Bool := (s.ctxWord ctx 0).getLsbD 5
def State.ctxNrec (s : State) (ctx : Nat) : Nat := field (s.ctxWord ctx 3) 0 32

/-- TVEC of a context, or of the stage manager (R328). Assumption 11 (DEDUCED). -/
def State.tvecOf (s : State) (g : Group) : W64 :=
  if g.level = .m then s.sm.tvec else BitVec.ofNat 64 (field (s.ctxWord (s.ctxOf g) 4) 0 56)

end Sys2Proof.Machine
end

