-- ==== Sys2Proof/Machine/Queue.lean ====
section
/-! DEFINITION. The event arbiter (R349, R350, R390), the fault queue (R75), and tokens (R138). -/

namespace Sys2Proof.Machine

/-! ### Event arbiter -/

/-- Put an event into EVLOG under a sequence number (R350): dropped when 256 are queued. -/
def Sm.pushLog (m : Sm) (src detail seq : Nat) : Sm :=
  if m.evlog.length < 256 then
    { m with evlog := m.evlog ++ [BitVec.ofNat 64 (2 ^ 63 + src % 64 * 2 ^ 56 + detail % 2 ^ 24 * 2 ^ 32 + seq % 2 ^ 32)] }
  else { m with evlogOvf := true }

/-- One event of the arbiter: it takes the next sequence number. -/
def State.logEvent (s : State) (src detail : Nat) : State :=
  { s with sm := { s.sm.pushLog src detail s.sm.seq with seq := s.sm.seq + 1 } }

/-- A thermal event (R310, R313): in EVSEQ, 64 entries, and in EVLOG under the same number. -/
def State.thermalEvent (s : State) (n : Nat) (states : Nat) : State :=
  let m := s.sm.pushLog 3 n s.sm.seq
  let e : W64 := BitVec.ofNat 64 (2 ^ 63 + states % 8 * 2 ^ 48 + n % 65536 * 2 ^ 32 + m.seq % 2 ^ 32)
  let m := if m.evseq.length < 64 then { m with evseq := m.evseq ++ [e] } else { m with evseqOvf := true }
  { s with sm := { m with seq := m.seq + 1 } }

/-- A coherence-stall report (R125, R390): 16 entries; its EVLOG event is posted in any case. -/
def State.stallReport (s : State) (line : Nat) (bcast : Bool) (silent : List (BitVec 16)) : State :=
  let m := s.sm.pushLog 5 0 s.sm.seq
  let r : W64 := BitVec.ofNat 64 (2 ^ 63 + (if bcast then 2 ^ 61 else 0) + line * 128 % 2 ^ 52)
  let h (i : Nat) : Nat := ((silent[i]?).getD 0xFFFF).toNat
  let hs : W64 := BitVec.ofNat 64 (h 0 + h 1 * 2 ^ 16 + h 2 * 2 ^ 32 + h 3 * 2 ^ 48)
  let m := if m.stallq.length < 16 then { m with stallq := m.stallq ++ [(r, BitVec.ofNat 64 (m.seq % 2 ^ 32), hs)] }
    else { m with stallOvf := true }
  { s with sm := { m with seq := m.seq + 1 } }

/-- Reading EVSEQ removes the oldest thermal event (R313). -/
def State.readEvseq (s : State) : W64 × State :=
  let ovf : W64 := if s.sm.evseqOvf then BitVec.ofNat 64 (2 ^ 62) else 0
  match s.sm.evseq with
  | [] => (ovf, { s with sm := { s.sm with evseqOvf := false } })
  | e :: r => (e ||| ovf, { s with sm := { s.sm with evseq := r, evseqOvf := false } })

/-- Reading EVLOG removes the oldest event of any source (R350). -/
def State.readEvlog (s : State) : W64 × State :=
  let ovf : W64 := if s.sm.evlogOvf then BitVec.ofNat 64 (2 ^ 62) else 0
  match s.sm.evlog with
  | [] => (ovf, { s with sm := { s.sm with evlogOvf := false } })
  | e :: r => (e ||| ovf, { s with sm := { s.sm with evlog := r, evlogOvf := false } })

/-- Reading STALLQ removes the oldest report and latches STALLSEQ and STALLH (R390). -/
def State.readStallq (s : State) : W64 × State :=
  let ovf : W64 := if s.sm.stallOvf then BitVec.ofNat 64 (2 ^ 62) else 0
  match s.sm.stallq with
  | [] => (ovf, { s with sm := { s.sm with stallOvf := false } })
  | (e, q, h) :: r =>
    (e ||| ovf, { s with sm := { s.sm with stallq := r, stallOvf := false, stallseq := q, stallh := h } })

/-! ### Fault queue (R75) -/

/-- The queue is enabled: FQSIZE a power of two from 64 to 65,536 and FQBASE 4 KiB-aligned. -/
def Fq.enabled (q : Fq) : Bool :=
  (List.range 11).any (fun i => q.size.toNat == 64 * 2 ^ i) && q.base.toNat % 4096 == 0

/-- Entries the ring holds: FQHEAD and FQTAIL count on modulo 2^32, and an index takes the slot of its remainder.
Assumption 72 (DESIGN CHOICE). -/
def Fq.used (q : Fq) : Nat := (q.tail.toNat + 2 ^ 32 - q.head.toNat % 2 ^ 32) % 2 ^ 32

/-- Write a 32-byte entry at a physical address; it lies in one line. -/
def State.writeEntry (s : State) (pa : Nat) (e : BitVec 256) : State := s.cohWrite pa 32 e.toNat

/-- Write waiting entries while the ring has room, advancing FQTAIL for each; signal the host when the queue leaves
the empty state (R75). -/
def State.fqFlush : Nat → State → State
  | 0, s => s
  | n + 1, s =>
    match s.fq.waiting with
    | [] => s
    | e :: r =>
      if s.fq.enabled && s.fq.used < s.fq.size.toNat then
        let s := s.writeEntry (s.fq.base.toNat + 32 * (s.fq.tail.toNat % s.fq.size.toNat)) e
        let sig := if s.fq.used = 0 then 1 else 0
        State.fqFlush n { s with fq := { s.fq with
          waiting := r
          tail := BitVec.ofNat 64 ((s.fq.tail.toNat + 1) % 2 ^ 32)
          signals := s.fq.signals + sig } }
      else s

/-- A fault-queue entry of R75. -/
def fqEntry (kind va ctx tile sub b13 b14 : Nat) : BitVec 256 :=
  BitVec.ofNat 256 (va % 2 ^ 64 + ctx % 256 * 2 ^ 64 + kind % 256 * 2 ^ 72 + tile % 65536 * 2 ^ 80
    + sub % 256 * 2 ^ 96 + b13 % 256 * 2 ^ 104 + b14 % 256 * 2 ^ 112)

/-- Post an entry: it waits its turn in posting order, and is written at once where there is room (R75). -/
def State.fqPost (s : State) (kind va ctx tile sub b13 b14 : Nat) : State :=
  let s := { s with fq := { s.fq with waiting := s.fq.waiting ++ [fqEntry kind va ctx tile sub b13 b14] } }
  (s.fqFlush s.fq.waiting.length).logEvent 4 kind

/-! ### Tokens (R138-R140, R144) -/

def Team.token (t : Team) (k : Nat) : Token := t.tokens.getD k Token.reset

/-- A decrement; one that finds COUNT = 0 sets UNDER (R138). -/
def Token.dec (k : Token) : Token := if k.count = 0 then { k with under := true } else { k with count := k.count - 1 }

/-- The first failure is recorded; later ones leave the fields (R140). -/
def Token.fail (k : Token) (cause reason eidx : Nat) : Token :=
  if k.err then k
  else { k with err := true, cause := BitVec.ofNat 8 cause, reason := BitVec.ofNat 8 reason, eidx := eidx % 2 ^ 20 }

/-- The 64 bits TOKQ reads (R138). -/
def Token.bits (k : Token) : W64 :=
  BitVec.ofNat 64 (k.count % 65536 + (if k.under then 2 ^ 16 else 0) + (if k.err then 2 ^ 17 else 0)
    + k.cause.toNat * 2 ^ 24 + k.reason.toNat * 2 ^ 32 + k.eidx % 2 ^ 20 * 2 ^ 40)

/-- TOKQ.CLR and TOKSET clear the status fields (R144, R145). -/
def Token.clear (k : Token) : Token := { k with under := false, err := false, cause := 0, reason := 0, eidx := 0 }

def State.modToken (s : State) (tid k : Nat) (f : Token → Token) : State :=
  s.modTeam tid fun t => { t with tokens := t.tokens.set k (f (t.token k)) }

/-- Every named token reads zero, now or at the start of the present cycle: one that is zero there satisfies the cycle (R44). -/
def Team.tokensZero (t : Team) (mask : BitVec 8) : Bool :=
  (List.range 8).all fun i => !mask.getLsbD i || (t.token i).count == 0 || t.zeros.getLsbD i

/-- The tokens as they stand at the start of a cycle (R44). -/
def Team.sample (t : Team) : Team :=
  { t with zeros := BitVec.ofNat 8 ((List.range 8).foldl (fun m i => if (t.token i).count = 0 then m + 2 ^ i else m) 0) }

/-- The tokens a sub-gang waits for (R44, R146). -/
def Wait.tokenMask : Wait → BitVec 8
  | .tokens m => m
  | .yield m _ => m
  | _ => 0

/-- One decrement of a team's token. -/
def State.decToken (s : State) (tid k : Nat) : State := s.modToken tid k Token.dec

/-- A decrement that is a release at a scope: what waits for the token acquires there (R139, R251, R252).
Assumption 77 (DEDUCED). -/
def State.decTokenAt (s : State) (tid k scope : Nat) : State :=
  (s.decToken tid k).modToken tid k fun x => { x with acq := max x.acq scope }

end Sys2Proof.Machine
end

