-- ==== Sys2Proof/Machine/Attest.lean ====
section
/-! DEFINITION. Measurements, identity and attestation reports (R351-R354), and the resets (R326, R351). -/

namespace Sys2Proof.Machine

/-- The 304 signed bytes of a report, as they stand when signing starts (R353). -/
def State.reportHead (s : State) : List Byte :=
  List.flatten [leBytes 4 0x51545354, bytes256 s.att.nonce, leBytes 2 s.ports.devid.toNat, [0, 0],
    (List.range 8).flatMap fun i => bytes256 (s.att.meas.getD i 0), leBytes 4 s.att.version, [0, 0, 0, 0]]

/-- A request for a report (R353, R350): ignored and logged while BUSY. `mctp` tells the request's source. -/
def State.startReport (s : State) (mctp : Bool) : State :=
  let src := if mctp then 2 else 0
  if s.att.busy then s.logEvent 7 (1 + src)
  else ({ s with att := { s.att with busy := true, job := some s.reportHead } }).logEvent 7 src

/-- The report is signed and written, and BUSY clears after the release (R353, R354). The randomness of the signature is free.
Assumption 52 (DESIGN CHOICE). Assumption 78 (PRESUMED). -/
def execAttestReportDone (s : State) : Host.Outcome State Fault Refusal :=
  match s.att.job with
  | none => .next s
  | some head =>
    let pa := s.att.attpa.toNat
    let bad := pa % 64 ≠ 0 || !(List.range 128).all fun i => paOk (pa + 64 * i)
    let (rand, s) := s.takeFree
    let s := if bad then s else s.cohWriteBytes pa (head ++ identitySign rand head)
    .next { s with att := { s.att with busy := false, job := none, code := if bad then 1 else 0 } }

def execMctpAttestRequest (s : State) : Host.Outcome State Fault Refusal := .next (s.startReport true)

/-- MEXT (R352, R354). -/
def State.extendMeas (s : State) (i : Nat) : State := { s with att := s.att.extend i (bytes256 s.att.mdig) }

def execMext (i : BitVec 3) (s : State) : Host.Outcome State Fault Refusal := .next (s.extendMeas i.toNat)

/-- Word `w` of a 256-bit register, and the register with it replaced. -/
def word256 (x : BitVec 256) (w : Nat) : W64 := x.extractLsb' (64 * w) 64
def setWord256 (x : BitVec 256) (w : Nat) (v : W64) : BitVec 256 :=
  BitVec.ofNat 256 (x.toNat - (word256 x w).toNat * 2 ^ (64 * w) + v.toNat * 2 ^ (64 * w))

/-- A read of a register of the block (R354). MDIG is not readable by the host. -/
def State.attRead (s : State) (who : Master) (off : Nat) : W64 :=
  if off < 0x100 then word256 (s.att.meas.getD (off / 32) 0) (off % 32 / 8)
  else if off < 0x120 then (if who = .host then 0 else word256 s.att.mdig ((off - 0x100) / 8))
  else if 0x200 ≤ off && off < 0x220 then
    BitVec.ofNat 64 (leNat ((identityPublic.drop (off - 0x200)).take 8))
  else if off = 0x300 then s.att.attpa
  else if 0x308 ≤ off && off < 0x328 then word256 s.att.nonce ((off - 0x308) / 8)
  else if off = 0x330 then BitVec.ofNat 64 ((if s.att.busy then 2 ^ 63 else 0) + s.att.code.toNat)
  else 0

/-- A write to a register of the block (R354). -/
def State.attWrite (s : State) (who : Master) (off : Nat) (x : W64) : State :=
  if 0x100 ≤ off && off < 0x120 then
    (if who = .host then s else { s with att := { s.att with mdig := setWord256 s.att.mdig ((off - 0x100) / 8) x } })
  else if off = 0x120 then (if who = .host then s else s.extendMeas (field x 0 3))
  else if off = 0x300 then { s with att := { s.att with attpa := x } }
  else if 0x308 ≤ off && off < 0x328 then
    { s with att := { s.att with nonce := setWord256 s.att.nonce ((off - 0x308) / 8) x } }
  else if off = 0x328 then (if x.getLsbD 0 then s.startReport false else s)
  else s

/-! ### Resets -/

/-- Reset of the always-on domain (R351): every part as reset leaves it, then the boot ROM. The firmware flash keeps its
bytes, and the free values go on. Assumption 52 (DESIGN CHOICE). -/
def execAlwaysOnReset (s : State) : Host.Outcome State Fault Refusal :=
  let r := { State.reset with
    att := { State.reset.att with flash := s.att.flash }
    agenda := s.agenda
    free := s.free
    nextId := s.nextId }
  .next r.bootCore

/-- A management reset restarts a halted stage manager (R326). Assumption 52 (DESIGN CHOICE). -/
def execManagementReset (s : State) : Host.Outcome State Fault Refusal :=
  if s.sm.halted then .next s.bootCore else .next s

/-- In recovery a new image arrives over the management port (R351): it becomes the firmware and the ROM runs. -/
def execRecoveryImage (image : List Byte) (s : State) : Host.Outcome State Fault Refusal :=
  if s.att.recovery then .next ({ s with att := { s.att with flash := image } }).bootCore else .next s

end Sys2Proof.Machine
end

