-- ==== Sys2Proof/Machine/Fp.lean ====
section
/-! DEFINITION. Number formats (R84-R92), one rounding (R90), exact arithmetic on floating-point values (R186), and the
special functions (R208, R209). Values are exact until the one rounding of each instruction. -/

namespace Sys2Proof.Machine

/-- Rounding modes (R51). -/
inductive Rm where
  | near | toZero | up | down
  deriving DecidableEq, Repr

def Rm.ofBits (x : Nat) : Rm :=
  match x with
  | 0 => .near | 1 => .toZero | 2 => .up | _ => .down

/-- How a floating format uses its top exponent (R84): IEEE, E4M3 (one NaN, no infinity), E2M1 (neither). -/
inductive FmtKind where
  | ieee | e4m3 | e2m1
  deriving DecidableEq, Repr

/-- A floating format: exponent and fraction bits (R84). -/
structure Fmt where
  eb : Nat
  mb : Nat
  kind : FmtKind
  deriving DecidableEq, Repr

def fp32 : Fmt := ⟨8, 23, .ieee⟩
def fp16 : Fmt := ⟨5, 10, .ieee⟩
def bf16 : Fmt := ⟨8, 7, .ieee⟩
def fpE4M3 : Fmt := ⟨4, 3, .e4m3⟩
def fpE5M2 : Fmt := ⟨5, 2, .ieee⟩
def fpE2M1 : Fmt := ⟨2, 1, .e2m1⟩

def Fmt.bias (f : Fmt) : Nat := 2 ^ (f.eb - 1) - 1
def Fmt.width (f : Fmt) : Nat := 1 + f.eb + f.mb
def Fmt.signBit (f : Fmt) : Nat := 2 ^ (f.eb + f.mb)
/-- The exponent of the least bit of a subnormal (R84). -/
def Fmt.lsb (f : Fmt) : Int := 1 - (f.bias : Int) - (f.mb : Int)
/-- The magnitude bits of the largest finite value (R84). -/
def Fmt.maxBits (f : Fmt) : Nat :=
  match f.kind with
  | .ieee => (2 ^ f.eb - 1) * 2 ^ f.mb - 1
  | .e4m3 => 2 ^ (f.eb + f.mb) - 2
  | .e2m1 => 2 ^ (f.eb + f.mb) - 1
/-- The canonical NaN (R92); +0 for a format without NaN (R91). -/
def Fmt.nan (f : Fmt) : Nat :=
  match f.kind with
  | .ieee => (2 ^ f.eb - 1) * 2 ^ f.mb + 2 ^ (f.mb - 1)
  | .e4m3 => 2 ^ (f.eb + f.mb) - 1
  | .e2m1 => 0

/-- A value: NaN, an infinity, or sign, magnitude and exponent of an exact dyadic number. -/
inductive Num where
  | nan
  | inf (neg : Bool)
  | fin (neg : Bool) (m : Nat) (e : Int)
  deriving DecidableEq, Repr

def Num.zero : Num := .fin false 0 0
def Num.one : Num := .fin false 1 0

/-- The value of an element's bits (R84). -/
def Fmt.decode (f : Fmt) (x : Nat) : Num :=
  let x := x % 2 ^ f.width
  let neg := f.signBit ≤ x
  let mag := x % f.signBit
  let ex := mag / 2 ^ f.mb
  let fr := mag % 2 ^ f.mb
  match f.kind, decide (ex = 2 ^ f.eb - 1) with
  | .ieee, true => if fr = 0 then .inf neg else .nan
  | .e4m3, true =>
    if fr = 2 ^ f.mb - 1 then .nan else .fin neg (2 ^ f.mb + fr) (f.lsb + (ex : Int) - 1)
  | _, _ => if ex = 0 then .fin neg fr f.lsb else .fin neg (2 ^ f.mb + fr) (f.lsb + (ex : Int) - 1)

/-- The sign bit in place. -/
def Fmt.sgn (f : Fmt) (neg : Bool) : Nat := if neg then f.signBit else 0

/-- An infinite result (R91); `sat` is the saturating conversion. -/
def Fmt.infBits (f : Fmt) (neg : Bool) (sat : Bool) : Nat :=
  match f.kind with
  | .ieee => f.sgn neg + (2 ^ f.eb - 1) * 2 ^ f.mb
  | .e4m3 => if sat then f.sgn neg + f.maxBits else f.nan
  | .e2m1 => f.sgn neg + f.maxBits

/-- What a rounded overflow gives for the mode (R90). -/
def Fmt.overflow (f : Fmt) (rm : Rm) (sat neg : Bool) : Nat :=
  let toInf := match rm with
    | .near => true
    | .toZero => false
    | .up => !neg
    | .down => neg
  if sat || f.kind == .e2m1 || !toInf then f.sgn neg + f.maxBits
  else f.infBits neg false

/-- Round a magnitude to an integer multiple of one unit: `n` whole units, remainder `rem` of `2^s`, and whether
something nonzero lies below the remainder. -/
def roundUp (rm : Rm) (neg : Bool) (n rem s : Nat) (sticky : Bool) : Bool :=
  match rm with
  | .near => 2 * rem > 2 ^ s || 2 * rem == 2 ^ s && s != 0 && (sticky || n % 2 == 1)
  | .toZero => false
  | .up => !neg && (rem != 0 || sticky)
  | .down => neg && (rem != 0 || sticky)

/-- Round a nonzero magnitude `m * 2^e`, with something nonzero below it when `sticky`, into the format (R90). -/
def Fmt.round (f : Fmt) (rm : Rm) (sat neg : Bool) (m : Nat) (e : Int) (sticky : Bool) : Nat :=
  -- far below the smallest subnormal every magnitude rounds alike
  let tiny := (Nat.log2 m : Int) + e + 3 < f.lsb
  let m := if tiny then 1 else m
  let e := if tiny then f.lsb - 2 else e
  let q : Int := max ((Nat.log2 m : Int) + e - (f.mb : Int)) f.lsb
  let n : Nat :=
    if q ≤ e then m * 2 ^ (e - q).toNat
    else
      let s := (q - e).toNat
      let n := m / 2 ^ s
      if roundUp rm neg n (m % 2 ^ s) s sticky then n + 1 else n
  let bits := (q - f.lsb).toNat * 2 ^ f.mb + n
  if bits > f.maxBits then f.overflow rm sat neg else f.sgn neg + bits

/-- Round any value into the format (R90-R92). A zero keeps its sign. -/
def Fmt.encode (f : Fmt) (rm : Rm) (sat : Bool) : Num → Nat
  | .nan => f.nan
  | .inf neg => f.infBits neg sat
  | .fin neg m e => if m = 0 then f.sgn neg else f.round rm sat neg m e false

/-! ### Exact arithmetic -/

def Num.neg : Num → Num
  | .nan => .nan
  | .inf s => .inf (!s)
  | .fin s m e => .fin (!s) m e

def Num.isNan : Num → Bool | .nan => true | _ => false
def Num.isInf : Num → Bool | .inf _ => true | _ => false
def Num.isZero : Num → Bool | .fin _ 0 _ => true | _ => false
def Num.sign : Num → Bool | .nan => false | .inf s => s | .fin s _ _ => s

/-- The signed integer `±m`. -/
def signed (neg : Bool) (m : Nat) : Int := if neg then -(m : Int) else (m : Int)

/-- A signed multiple of `2^e` as a value; an exact zero takes the sign given. -/
def Num.ofInt (x : Int) (e : Int) (zneg : Bool) : Num :=
  if x = 0 then .fin zneg 0 0 else .fin (x < 0) x.natAbs e

/-- Exact product (R186: 0 times infinity is NaN; the sign is the XOR). -/
def Num.mul : Num → Num → Num
  | .nan, _ => .nan
  | _, .nan => .nan
  | .inf s, .inf t => .inf (s != t)
  | .inf s, .fin t m _ => if m = 0 then .nan else .inf (s != t)
  | .fin s m _, .inf t => if m = 0 then .nan else .inf (s != t)
  | .fin s m e, .fin t n d => .fin (s != t) (m * n) (e + d)

/-- Exact sum. A zero sum of operands of opposite sign, or of a value and its negation, is +0, or -0 under `.rm`; zeros
of equal sign keep it (R186). -/
def Num.add (rm : Rm) : Num → Num → Num
  | .nan, _ => .nan
  | _, .nan => .nan
  | .inf s, .inf t => if s = t then .inf s else .nan
  | .inf s, .fin _ _ _ => .inf s
  | .fin _ _ _, .inf t => .inf t
  | .fin s m e, .fin t n d =>
    if m = 0 ∧ n = 0 then .fin (if s = t then s else rm == .down) 0 0
    else if m = 0 then .fin t n d
    else if n = 0 then .fin s m e
    else
      let lo := min e d
      Num.ofInt (signed s m * 2 ^ (e - lo).toNat + signed t n * 2 ^ (d - lo).toNat) lo (rm == .down)

/-- The exact sum of many terms (R194): NaN if any is NaN or infinities of both signs meet; when every term is a zero
of one sign the sum keeps it; any other zero sum is +0, or -0 under `.rm`. -/
def Num.sum (rm : Rm) (xs : List Num) : Num :=
  if xs.any Num.isNan then .nan
  else if xs.any (fun x => x.isInf && x.sign) && xs.any (fun x => x.isInf && !x.sign) then .nan
  else if xs.any Num.isInf then .inf (xs.any fun x => x.isInf && x.sign)
  else
    let lo : Int := xs.foldl (fun a x => match x with | .fin _ m e => if m = 0 then a else min a e | _ => a) 0
    let tot : Int := xs.foldl (fun a x =>
      match x with | .fin s m e => if m = 0 then a else a + signed s m * 2 ^ (e - lo).toNat | _ => a) 0
    let z := if xs.all (fun x => x.isZero && x.sign) && !xs.isEmpty then true
      else if xs.all (fun x => x.isZero && !x.sign) then false
      else rm == .down
    Num.ofInt tot lo z

/-- Exact multiplication by a power of two. -/
def Num.scale (x : Num) (k : Int) : Num :=
  match x with
  | .fin s m e => if m = 0 then x else .fin s m (e + k)
  | _ => x

def Num.abs : Num → Num
  | .nan => .nan
  | .inf _ => .inf false
  | .fin _ m e => .fin false m e

/-- `x < y` for numbers that are not NaN; -0 and +0 are equal. -/
def Num.lt : Num → Num → Bool
  | .nan, _ => false
  | _, .nan => false
  | .inf s, .inf t => s && !t
  | .inf s, .fin _ _ _ => s
  | .fin _ _ _, .inf t => !t
  | .fin s m e, .fin t n d =>
    let lo := min e d
    signed s m * 2 ^ (e - lo).toNat < signed t n * 2 ^ (d - lo).toNat

def Num.eq (x y : Num) : Bool := !x.isNan && !y.isNan && !x.lt y && !y.lt x

/-- `x` before `y` in the order of FMIN and FMAX, where -0 lies below +0 (R188). -/
def Num.below (x y : Num) : Bool := x.lt y || x.eq y && x.sign && !y.sign

/-! ### Quotients, roots, and the transcendental functions

Each function gives a magnitude, its exponent, and whether more lies below; enough bits are kept that the one rounding
that follows is right. -/

/-- The greatest `r` with `r * r ≤ n` among those of at most `k` bits above `r0`. -/
def isqrtGo (n : Nat) : Nat → Nat → Nat
  | 0, r => r
  | k + 1, r => if (r + 2 ^ k) * (r + 2 ^ k) ≤ n then isqrtGo n k (r + 2 ^ k) else isqrtGo n k r

/-- Integer square root. -/
def isqrt (n : Nat) : Nat := isqrtGo n (Nat.log2 n / 2 + 1) 0

/-- Round the quotient of two magnitudes `(a * 2^ea) / (b * 2^eb)`, `b` not zero (R208, R211, R212). -/
def Fmt.roundDiv (f : Fmt) (rm : Rm) (sat neg : Bool) (a : Nat) (ea : Int) (b : Nat) (eb : Int) : Nat :=
  if a = 0 then f.sgn neg
  else
    let k := Nat.log2 b + f.mb + 8
    let n := a * 2 ^ k
    f.round rm sat neg (n / b) (ea - eb - (k : Int)) (n % b != 0)

/-- Exact quotient of two values, rounded once. -/
def Fmt.div (f : Fmt) (rm : Rm) (sat : Bool) : Num → Num → Nat
  | .nan, _ => f.nan
  | _, .nan => f.nan
  | .inf _, .inf _ => f.nan
  | .inf s, .fin t _ _ => f.infBits (s != t) sat
  | .fin s _ _, .inf t => f.sgn (s != t)
  | .fin s m e, .fin t n d =>
    if n = 0 then (if m = 0 then f.nan else f.infBits (s != t) sat)
    else f.roundDiv rm sat (s != t) m e n d

/-- Working precision of the series, in bits. Assumption 62 (DESIGN CHOICE). -/
def seriesBits : Nat := 640

/-- The circle constant times `2^640`, rounded down. -/
def piFix : Nat := 0x3243f6a8885a308d313198a2e03707344a4093822299f31d0082efa98ec4e6c89452821e638d01377be5466cf34e90c6cc0ac29b7c97c50dd3f84d5b5b54709179216d5d98979fb1bd1310ba698dfb5ac

/-- The natural logarithm of 2 times `2^640`, rounded down. -/
def ln2Fix : Nat := 0xb17217f7d1cf79abc9e3b39803f2f6af40f343267298b62d8a0d175b8baafa2be7b876206debac98559552fb4afa1b10ed2eae35c138214427573b291169b8253e96ca16224ae8c51acbda11317c387e

/-- Taylor series of the exponential, `x` and the result scaled by `2^640`. Assumption 62 (DESIGN CHOICE). -/
def expSeries (x : Nat) : Nat → Nat → Nat → Nat → Nat
  | 0, _, _, acc => acc
  | fuel + 1, k, term, acc =>
    let term' := term * x / 2 ^ seriesBits / k
    expSeries x fuel (k + 1) term' (acc + term')

/-- Alternating series of sine (`k = 2`) and cosine (`k = 1`): sum and difference kept apart.
Assumption 62 (DESIGN CHOICE). -/
def trigSeries (x2 : Nat) : Nat → Nat → Nat → Nat → Nat → Nat × Nat
  | 0, _, _, pos, neg => (pos, neg)
  | fuel + 1, k, term, pos, neg =>
    let term' := term * x2 / 2 ^ seriesBits / (k * (k + 1))
    trigSeries x2 fuel (k + 2) term' (neg + term') pos

/-- Guard bits dropped from a series result: the error of the truncated terms lies below them. -/
def guardBits : Nat := 40

/-- `2^(r / 2^d)` for `0 < r < 2^d`: a magnitude below the value and its exponent. -/
def exp2Frac (r d : Nat) : Nat × Int :=
  let x := (if d ≤ seriesBits then r * 2 ^ (seriesBits - d) else r / 2 ^ (d - seriesBits)) * ln2Fix / 2 ^ seriesBits
  let one := 2 ^ seriesBits
  (expSeries x 120 1 one one / 2 ^ guardBits, (guardBits : Int) - (seriesBits : Int))

/-- Fraction bits of a logarithm of a mantissa in `[1, 2)`, most significant first, by repeated squaring.
Assumption 62 (DESIGN CHOICE). -/
def log2Bits (prec : Nat) : Nat → Nat → Nat → Nat
  | 0, _, acc => acc
  | fuel + 1, y, acc =>
    let z := y * y / 2 ^ prec
    if 2 ^ (prec + 1) ≤ z then log2Bits prec fuel (z / 2) (2 * acc + 1) else log2Bits prec fuel z (2 * acc)

/-- The sine (or, for `cos`, the cosine) of `2*pi*t` for a fraction `t = r / 2^d` of a turn with `0 ≤ t ≤ 1/8`:
a magnitude just below the value and its exponent. -/
def trigFrac (cos : Bool) (r d : Nat) : Nat × Int :=
  let t := if d ≤ seriesBits then r * 2 ^ (seriesBits - d) else r / 2 ^ (d - seriesBits)
  let x := t * (2 * piFix) / 2 ^ seriesBits
  let x2 := x * x / 2 ^ seriesBits
  let start := if cos then 2 ^ seriesBits else x
  let r := trigSeries x2 120 (if cos then 1 else 2) start start 0
  -- the loop swaps its accumulators at every term, so after an even number of terms they stand as they began
  let v := r.1 - r.2
  (v / 2 ^ guardBits, (guardBits : Int) - (seriesBits : Int))

/-- RCP (R208, R209). -/
def Fmt.rcp (f : Fmt) (rm : Rm) (sat : Bool) : Num → Nat
  | .nan => f.nan
  | .inf s => f.sgn s
  | .fin s m e => if m = 0 then (if sat then f.sgn s + f.maxBits else f.infBits s false) else f.roundDiv rm sat s 1 0 m e

/-- An even exponent and the magnitude that goes with it. -/
def evenExp (m : Nat) (e : Int) : Nat × Int := if e % 2 = 0 then (m, e) else (2 * m, e - 1)

/-- SQRT (R208, R209). -/
def Fmt.sqrt (f : Fmt) (rm : Rm) (sat : Bool) : Num → Nat
  | .nan => f.nan
  | .inf s => if s then f.nan else (if sat then f.maxBits else f.infBits false false)
  | .fin s m e =>
    if m = 0 then f.sgn s
    else if s then f.nan
    else
      let (m, e) := evenExp m e
      let n := m * 4 ^ (f.mb + 8)
      let r := isqrt n
      f.round rm sat false r (e / 2 - ((f.mb : Int) + 8)) (r * r != n)

/-- RSQ (R208, R209). -/
def Fmt.rsq (f : Fmt) (rm : Rm) (sat : Bool) : Num → Nat
  | .nan => f.nan
  | .inf s => if s then f.nan else 0
  | .fin s m e =>
    if m = 0 then (if sat then f.sgn s + f.maxBits else f.infBits s false)
    else if s then f.nan
    else
      let (m, e) := evenExp m e
      let k := Nat.log2 m + f.mb + 8
      let r := isqrt (4 ^ k / m)
      f.round rm sat false r (-(e / 2) - (k : Int)) (r * r * m != 4 ^ k)

/-- EX2 (R208, R209). Assumption 62 (DESIGN CHOICE). -/
def Fmt.ex2 (f : Fmt) (rm : Rm) (sat : Bool) : Num → Nat
  | .nan => f.nan
  | .inf s => if s then 0 else (if sat then f.maxBits else f.infBits false false)
  | .fin s m e =>
    if m = 0 then f.encode rm sat Num.one
    else if (Nat.log2 m : Int) + e ≥ 12 then
      (if s then f.round rm sat false 1 (-4096) true else f.round rm sat false 1 4096 false)
    else
      let d := (-e).toNat
      let x : Int := signed s m * 2 ^ e.toNat
      let ip := x / 2 ^ d
      let r := (x % 2 ^ d).toNat
      if r = 0 then f.round rm sat false 1 ip false
      else
        let (n, k) := exp2Frac r d
        f.round rm sat false n (k + ip) true

/-- LG2 (R208, R209): log2 of 1 is +0. Assumption 62 (DESIGN CHOICE). -/
def Fmt.lg2 (f : Fmt) (rm : Rm) (sat : Bool) : Num → Nat
  | .nan => f.nan
  | .inf s => if s then f.nan else (if sat then f.maxBits else f.infBits false false)
  | .fin s m e =>
    if m = 0 then (if sat then f.sgn true + f.maxBits else f.infBits true false)
    else if s then f.nan
    else
      let l := Nat.log2 m
      let ip : Int := (l : Int) + e
      if m = 2 ^ l then f.encode rm sat (Num.ofInt ip 0 false)
      else
        let prec := 480
        let fr := log2Bits prec 200 (m * 2 ^ prec / 2 ^ l) 0
        let n : Int := ip * 2 ^ 200 + (fr : Int)
        if 0 ≤ n then f.round rm sat false n.natAbs (-200) true
        else f.round rm sat true (n.natAbs - 1) (-200) true

/-- SINR and COSR (R208, R209), in quarter turns. Assumption 62 (DESIGN CHOICE). -/
def Fmt.trig (f : Fmt) (rm : Rm) (sat cos : Bool) : Num → Nat
  | .nan => f.nan
  | .inf _ => f.nan
  | .fin s m e =>
    let d := (-e).toNat + 3
    let whole := m * 2 ^ (e + (d : Int)).toNat
    -- magnitude of the argument in turns is whole / 2^d; the cosine is even, the sine odd
    let r := whole % 2 ^ d
    let quarter := r / 2 ^ (d - 2)
    let t := r % 2 ^ (d - 2)
    let useCos := cos != (quarter % 2 == 1)
    let neg := if cos then quarter == 1 || quarter == 2 else s != (quarter ≥ 2)
    if t = 0 then
      if useCos then f.encode rm sat (.fin neg 1 0)
      else if cos then 0 else f.sgn s
    else
      let big := 2 ^ (d - 3) < t
      let t' := if big then 2 ^ (d - 2) - t else t
      let (n, k) := trigFrac (useCos != big) t' d
      f.round rm sat neg n k true

/-- FRND (R192): an integral value in the operand's own format; a zero result keeps the sign. -/
def Fmt.rint (f : Fmt) (rm : Rm) : Num → Nat
  | .nan => f.nan
  | .inf s => f.infBits s false
  | .fin s m e =>
    if 0 ≤ e then f.encode .near false (.fin s m e)
    else
      let k := (-e).toNat
      let n := m / 2 ^ k
      let n' := if roundUp rm s n (m % 2 ^ k) k false then n + 1 else n
      if n' = 0 then f.sgn s else f.encode .near false (.fin s n' 0)

/-- Round a value to an integer and clamp it to a range (R90, R215); NaN gives 0. -/
def Num.toInt (rm : Rm) (lo hi : Int) : Num → Int
  | .nan => 0
  | .inf s => if s then lo else hi
  | .fin s m e =>
    let n : Int :=
      if m = 0 then 0
      else if 80 ≤ (Nat.log2 m : Int) + e then signed s (2 ^ 80)
      else if 0 ≤ e then signed s m * 2 ^ e.toNat
      else
        let k := (-e).toNat
        if Nat.log2 m + 2 ≤ k then
          signed s (if roundUp rm s 0 1 2 false then 1 else 0)
        else
          let q := m / 2 ^ k
          signed s (if roundUp rm s q (m % 2 ^ k) k false then q + 1 else q)
    max lo (min hi n)

/-! ### SP2 (R86-R88) -/

/-- One term of an SP2 byte in units of 1/64: sign bit and shift code. -/
def sp2Term (neg : Bool) (code : Nat) : Int := if code = 7 then 0 else signed neg (2 ^ (6 - code))

/-- The value of an SP2 byte times 64 (R86). -/
def sp2Value (x : Nat) : Int :=
  sp2Term (128 ≤ x % 256) (x / 16 % 8) + sp2Term (8 ≤ x % 16) (x % 8)

/-- The canonical bytes in the order R87 prefers: zero; single terms; pairs by falling larger magnitude. -/
def sp2Pairs : List Nat :=
  (List.range 7).flatMap fun a => (List.range 7).flatMap fun b =>
    if a ≤ b then [16 * a + b, 16 * a + 8 + b, 128 + 16 * a + 8 + b, 128 + 16 * a + b] else []

def sp2Canon : List Nat :=
  0x77 :: ((List.range 7).flatMap fun a => [16 * a + 7, 128 + 16 * a + 7]) ++ sp2Pairs

/-- The canonical encoding of a value in units of 1/64 (R87). -/
def sp2Encode (v : Int) : Nat := (sp2Canon.find? fun x => sp2Value x == v).getD 0x77

/-- The magnitudes an SP2 byte reaches, in units of 1/64, in rising order. -/
def sp2Mags : List Nat := (List.range 129).filter fun k => sp2Canon.any fun x => sp2Value x == (k : Int)

/-- Rounding into SP2 (R88): the nearest value, a tie to the smaller magnitude, beyond 2 to 2. -/
def Num.toSp2 : Num → Nat
  | .nan => 0x77
  | .inf s => if s then 0x88 else 0x00
  | .fin s m e =>
    -- magnitude in units of 1/64 is m * 2^(e+6), compared exactly by cross scaling
    let k : Int := e + 6
    let up := k.toNat
    let dn := (-k).toNat
    let dist : Nat → Nat := fun c => ((m : Int) * 2 ^ up - (c : Int) * 2 ^ dn).natAbs
    let best : Nat := sp2Mags.foldl (fun b c => if dist c < dist b then c else b) 0
    sp2Encode (signed s best)

end Sys2Proof.Machine
end

