-- ==== Sys2Proof/Machine/Flags.lean ====
section
/-! DEFINITION. Conditions: integer and floating-point comparison (R185, R190), classes (R191), minimum and maximum
(R188), and the folds of MERGE (R271). The machine keeps no status flag (R186). -/

namespace Sys2Proof.Machine

/-- ICMP conditions (R185). -/
def icmpHolds (cc : Nat) (a b : Int) : Bool :=
  match cc with
  | 0 => a == b
  | 1 => a != b
  | 2 => decide (a < b)
  | 3 => decide (a ≤ b)
  | 4 => decide (b < a)
  | _ => decide (b ≤ a)

/-- FCMP conditions (R190). -/
def fcmpHolds (cc : Nat) (a b : Num) : Bool :=
  let un := a.isNan || b.isNan
  match cc with
  | 0 => a.eq b
  | 1 => un || !a.eq b
  | 2 => a.lt b
  | 3 => a.lt b || a.eq b
  | 4 => b.lt a
  | 5 => b.lt a || a.eq b
  | _ => un

/-- The class bit of an element (R191). -/
def fclassBit (f : Fmt) (x : Nat) : Nat :=
  match f.decode x with
  | .nan => 8
  | .inf neg => if neg then 0 else 7
  | .fin neg m _ =>
    if m = 0 then (if neg then 3 else 4)
    else if m < 2 ^ f.mb then (if neg then 2 else 5)
    else (if neg then 1 else 6)

/-- FMIN and FMAX on element bits (R188): −0 below +0; `nanRule` is the `.nan` variant. -/
def fminmax (f : Fmt) (isMax nanRule : Bool) (a b : Nat) : Nat :=
  let x := f.decode a
  let y := f.decode b
  if x.isNan && y.isNan then f.nan
  else if x.isNan then (if nanRule then f.nan else b)
  else if y.isNan then (if nanRule then f.nan else a)
  else if isMax then (if x.below y then b else a)
  else (if y.below x then b else a)

/-- One fold step of MERGE (R271). Modes: 2 add, 3 max, 4 min. Types: 0 ui64, 1 si64, 2 ui32, 3 si32, 4 f32. -/
def mergeOp (mode ty : Nat) (acc x : W64) : W64 :=
  let int (w : Nat) (sgn : Bool) (a b : Nat) : Nat :=
    match mode with
    | 2 => a + b
    | 3 => if readInt sgn w a < readInt sgn w b then b else a
    | _ => if readInt sgn w b < readInt sgn w a then b else a
  match ty with
  | 0 => BitVec.ofNat 64 (int 64 false acc.toNat x.toNat)
  | 1 => BitVec.ofNat 64 (int 64 true acc.toNat x.toNat)
  | 2 => pack 32 2 fun i => int 32 false (sub 32 acc i) (sub 32 x i)
  | 3 => pack 32 2 fun i => int 32 true (sub 32 acc i) (sub 32 x i)
  | _ =>
    let a := sub 32 acc 0
    let b := sub 32 x 0
    BitVec.ofNat 64 (match mode with
      | 2 => fp32.encode .near false ((fp32.decode a).add .near (fp32.decode b))
      | 3 => fminmax fp32 true true a b
      | _ => fminmax fp32 false true a b)

/-- Fold the children's views in order (R272); a child alone gives its own view. -/
def mergeFold (mode ty : Nat) : List W64 → W64
  | [] => 0
  | a :: r => r.foldl (mergeOp mode ty) a

end Sys2Proof.Machine
end

