-- ==== Sys2Proof/Machine/Atoms.lean ====
section
/-! DEFINITION. Atomic steps on memory elements: ATOM and RED (R159), REDQ (R163), TRED (R137), their reduction kinds
(R111), and elements of a line. -/

namespace Sys2Proof.Machine

/-- OP code that stands for the int64 wrapping add of REDQ and TRED.addq (R163). -/
def opAddq : Nat := 0xC

/-- Element width in bytes of an AT code (R158). -/
def atWidth (op aty : Nat) : Nat :=
  if op = opAddq then 8
  else if 8 ≤ op then (if aty = 0 then 4 else 2)
  else if aty < 2 then 4 else 8

/-- The new element value (R159, R163). `old`, `v` and `cmp` are element bits. -/
def amo (op aty old v cmp : Nat) : Nat :=
  let w := 8 * atWidth op aty
  let sg := aty % 2 = 1
  let f : Fmt := if aty = 0 then fp32 else bf16
  match op with
  | 0 => (old + v) % 2 ^ w
  | 1 => if readInt sg w v < readInt sg w old then v else old
  | 2 => if readInt sg w old < readInt sg w v then v else old
  | 3 => old &&& v
  | 4 => old ||| v
  | 5 => old ^^^ v
  | 6 => v
  | 7 => if old = cmp then v else old
  | 8 => f.encode .near false ((f.decode old).add .near (f.decode v))
  | 9 => fminmax f false true old v
  | 0xA => fminmax f true true old v
  | _ => (old + v) % 2 ^ 64

/-- The reduction kind bit of R111 under which a script admits an OP (R159). -/
def redKind (op aty : Nat) : Nat :=
  match op with
  | 0 => 0
  | 1 => 3 | 2 => 3 | 9 => 3 | 0xA => 3
  | 3 => 4 | 4 => 4 | 5 => 4
  | 8 => if aty = 0 then 1 else 2
  | _ => 5

/-- A TRED operation as OP and AT (R137). -/
def ropAtom (rop : Nat) : Nat × Nat :=
  match rop with
  | 0 => (8, 0) | 1 => (8, 1) | 2 => (0, 1) | 3 => (0xA, 0) | 4 => (9, 0) | 5 => (2, 1) | 6 => (1, 1)
  | _ => (opAddq, 0)

/-- ROP and ESZ form a pair of R137. -/
def ropOk (rop esz : Nat) : Bool := rop < 8 && esz == (if rop = 1 then 1 else if rop = 7 then 3 else 2)

/-- Apply elements one after another on the data of their line (R164): the data after, and each old value. -/
def performElems (op aty : Nat) : Nat → List Elem → Nat × List Nat
  | data, [] => (data, [])
  | data, e :: r =>
    let old := bytesOf data e.off e.w
    let (d, olds) := performElems op aty (setBytes data e.off e.w (amo op aty old e.val e.cmp)) r
    (d, old :: olds)

end Sys2Proof.Machine
end

