-- ==== Sys2Proof/Machine/Translate.lean ====
section
/-! DEFINITION. Translation of a 128-byte line (R68-R74): page walks, cached translations, stripe sets, peer frames. -/

namespace Sys2Proof.Machine

/-- How a walk ends (R72). -/
inductive WalkRes where
  | missing
  | access (reason : Nat)
  | ok (line : Nat) (uncached : Bool)
  deriving DecidableEq, Repr

/-- The right an access needs in the PTE (R64, R72). -/
inductive Right where
  | r | w | a
  deriving DecidableEq, Repr

/-- Fields of a page-table entry (R71). -/
def pteV (e : W64) : Bool := e.getLsbD 0
def pteLeaf (e : W64) : Bool := e.getLsbD 1
def pteRight (e : W64) : Right → Bool
  | .r => e.getLsbD 2 | .w => e.getLsbD 3 | .a => e.getLsbD 4
def pteU (e : W64) : Bool := e.getLsbD 5
def pteC64 (e : W64) : Bool := e.getLsbD 7
def pteType (e : W64) : Nat := field e 8 2
def pteMt (e : W64) : Nat := field e 10 2
def pteFrame (e : W64) : Nat := field e 12 40

/-- The lowest VA bit a level's index takes (R70). -/
def levelShift (lvl : Nat) : Nat := 12 + 9 * (lvl - 1)
/-- The index of a VA at a level (R70). -/
def levelIndex (lvl va : Nat) : Nat := va / 2 ^ levelShift lvl % (if lvl = 5 then 256 else 512)

/-- A malformed leaf (R71, R72 row 2). -/
def leafMalformed (lvl : Nat) (e : W64) : Bool :=
  4 ≤ lvl || field e 52 12 != 0 || e.getLsbD 6 || 2 ≤ pteMt e || pteType e == 1
    || (pteC64 e && lvl != 1)
    || (pteType e == 3 && field e 20 32 != 0) || pteFrame e * 4096 % 2 ^ levelShift lvl != 0

/-- A malformed non-leaf entry (R71, R72 row 2). -/
def nonLeafMalformed (lvl : Nat) (e : W64) : Bool := lvl == 1 || field e 52 12 != 0 || field e 2 10 != 0

/-- Keep an entry in the translation cache of the tile's die, and a leaf in the tile's L1 TLB (R69).
Assumption 12 (DESIGN CHOICE). -/
def State.keepPte (s : State) (tile : Nat) (t : TlbEntry) : State :=
  let die := dieOf tile
  let cache := s.dev.tcache.getD die []
  let s := if cache.contains t then s
    else { s with dev := { s.dev with tcache := s.dev.tcache.set die ((t :: cache).take 16384) } }
  if pteLeaf t.pte && tile < 192 && !(s.tile tile).tlb.contains t then
    s.modTile tile fun x => { x with tlb := (t :: x.tlb).take 128 }
  else s

/-- A walk's read of a table line is a read event through the L2 of the tile's die (R69); the entry it uses is the newest at
the walk. Assumption 3 (DESIGN CHOICE). -/
def State.walkRead (s : State) (tile line : Nat) : State :=
  let r := s.newReq evRead line tile (.pref tile true)
  if s.net.any fun p => p.2.ev == evRead && p.2.line == line && p.2.tag == r.tag then s
  else (s.send { r with alloc := false }).2

/-- The entry used at a table address: the one memory holds, or a cached one that differs from it, chosen freely until
a TLBI removes it (R73). The entry used is cached (R69), and one that is not cached is read at its home.
Assumption 12 (DESIGN CHOICE). -/
def State.readPte (s : State) (tile ctx lvl va pa : Nat) : W64 × State :=
  let now : W64 := BitVec.ofNat 64 (s.cohRead pa 8)
  let pre := va / 2 ^ levelShift lvl
  let held := (s.tile tile).tlb ++ s.dev.tcache.getD (dieOf tile) []
  let e : TlbEntry := ⟨ctx, lvl, pre, now⟩
  let walked (s : State) : State :=
    let s := if held.contains e then s else s.walkRead tile (pa / 128)
    if pteV now then s.keepPte tile e else s
  match held.find? (fun t => t.ctx == ctx && t.lvl == lvl && t.vpre == pre && t.pte != now) with
  | some t =>
    let (b, s) := s.takeBit
    if b then (t.pte, s) else (now, walked s)
  | none => (now, walked s)

/-- What a walk finds before the rights are checked: the leaf and the table it stands in, or the way it ended. -/
inductive Leaf where
  | ended (r : WalkRes)
  | leaf (e : W64) (lvl table : Nat)
  deriving DecidableEq, Repr

/-- Walk the tables from a level down (R70, R72). An entry whose table lies outside device DRAM ends the walk with 0x22.
Assumption 71 (DESIGN CHOICE). -/
def State.walk (s : State) (tile ctx va : Nat) : Nat → Nat → Leaf × State
  | 0, _ => (.ended (.access 0x21), s)
  | lvl + 1, table =>
    let (e, s) := s.readPte tile ctx (lvl + 1) va (table + 8 * levelIndex (lvl + 1) va)
    if !pteV e then (.ended .missing, s)
    else if pteLeaf e then
      (if leafMalformed (lvl + 1) e then (.ended (.access 0x21), s) else (.leaf e (lvl + 1) table, s))
    else if nonLeafMalformed (lvl + 1) e then (.ended (.access 0x21), s)
    else if !isDram (pteFrame e * 4096) then (.ended (.access 0x22), s)
    else s.walk tile ctx va lvl (pteFrame e * 4096)

/-- The entry of a 64 KiB page an access uses: any one of the sixteen where they differ (R71). The free value chooses
only where they do; the entry reached, which a cached translation may have given (R73), is one of the choices. -/
def State.pick64 (s : State) (e : W64) (table va : Nat) : W64 × State :=
  let base := table + 8 * (levelIndex 1 va / 16 * 16)
  let ent (i : Nat) : W64 := BitVec.ofNat 64 (s.cohRead (base + 8 * i) 8)
  let same (i : Nat) : Bool := setField (ent i) 12 4 0 == setField (ent 0) 12 4 0 && field (ent i) 12 4 == i
  if (List.range 16).all same then (e, s)
  else
    let (n, s) := s.takeFree
    (if n % 17 = 16 then e else ent (n % 17), s)

/-! ### Devices beyond this one -/

/-- A message to a device can leave: its route is valid and it is not declared failed (R343). -/
def State.peerReachable (s : State) (dev : Nat) : Bool :=
  (s.ports.route.getD dev 0).getLsbD 4 && !s.ports.failed.contains dev

/-- The line of a peer's memory, or of this device's own DRAM where the device named is this one (R74, R343). -/
def State.peerTarget (s : State) (dev ppa : Nat) (unc : Bool) : WalkRes :=
  if dev = field s.ports.devid 0 13 then
    (if isDram ppa then .ok (ppa / 128) unc else .access 0x22)
  else if s.peerReachable dev then .ok (peerLine dev ppa) unc
  else .access 0x27

/-- A stripe-set entry's field (R74). -/
def State.stripeField (s : State) (idx off n : Nat) : Nat :=
  let pa := s.dev.sstab.toNat + 256 * idx + off
  s.cohRead pa n

/-- Bytes 145-255 of a stripe entry, and bits [15:13] of every ID, are zero, and N is in range (R74). -/
def State.stripeOk (s : State) (idx : Nat) : Bool :=
  let n := s.stripeField idx 144 1
  (1 ≤ n && n ≤ 64) && (List.range 111).all (fun i => s.stripeField idx (145 + i) 1 == 0)
    && (List.range 64).all (fun i => s.stripeField idx (2 * i) 2 < 8192)

/-- The translation of a line through a stripe set (R74). -/
def State.stripeTarget (s : State) (idx va : Nat) (unc : Bool) : WalkRes :=
  let ssva := s.stripeField idx 128 8
  if !s.stripeOk idx || va < ssva then .access 0x23
  else
    let n := s.stripeField idx 144 1
    let g := (va - ssva) / 4096
    let dev := s.stripeField idx (2 * (g % n)) 2
    s.peerTarget dev (s.stripeField idx 136 8 + g / n * 4096 + va % 4096) unc

/-- Stripe results are cached with translations: until a TLBI of all contexts completes, an access uses the old or the
new one (R74). An old result is one that the tile has used for the line. Assumption 12 (DESIGN CHOICE).
Assumption 71 (DESIGN CHOICE). -/
def State.stripeCached (s : State) (tile idx va : Nat) (unc : Bool) : WalkRes × State :=
  let r := s.stripeTarget idx va unc
  let c := (s.tile tile).stripe
  let new : Option TlbEntry := match r with
    | .ok l _ => some ⟨0, idx, va / 128, BitVec.ofNat 64 l⟩
    | _ => none
  let keep (s : State) : State := match new with
    | some e => if c.contains e then s else s.modTile tile fun x => { x with stripe := (e :: c).take 128 }
    | none => s
  match c.find? (fun t => t.lvl == idx && t.vpre == va / 128 && some t != new) with
  | some t =>
    let (b, s) := s.takeBit
    if b then (.ok t.pte.toNat unc, s) else (r, keep s)
  | none => (r, keep s)

/-- The target of a leaf (R71, R74): a physical line of device or host memory, or of a peer. -/
def State.leafTarget (s : State) (tile : Nat) (e : W64) (lvl va : Nat) : WalkRes × State :=
  let unc := pteMt e == 1
  let size := if pteC64 e then 16 else levelShift lvl
  let pa := pteFrame e * 4096 / 2 ^ size * 2 ^ size + va % 2 ^ size
  match pteType e with
  | 2 => (s.peerTarget (field e 39 13) (field e 12 27 * 4096 / 2 ^ size * 2 ^ size + va % 2 ^ size) unc, s)
  | 3 => s.stripeCached tile (field e 12 8) va unc
  | _ =>
    if !paOk pa then (.access 0x22, s)
    else if isHostPa pa && s.ports.failed.contains 0x1FFF then (.access 0x27, s)
    else (.ok (pa / 128) unc, s)

/-- Translate a line's VA for a context (R68-R72). `um` is U mode. The frame is checked before U and the right,
and whether a device can be reached with it. Assumption 82 (DESIGN CHOICE). -/
def State.translate (s : State) (tile ctx va : Nat) (um : Bool) (need : Right) : WalkRes × State :=
  let va := va % 2 ^ 56 / 128 * 128
  let root := field (s.ctxWord ctx 1) 12 40 * 4096
  match s.walk tile ctx va 5 root with
  | (.ended r, s) => (r, s)
  | (.leaf e lvl table, s) =>
    let (e, s) := if pteC64 e then s.pick64 e table va else (e, s)
    if !pteV e then (.missing, s)
    else if !pteLeaf e || leafMalformed lvl e then (.access 0x21, s)
    else
      match s.leafTarget tile e lvl va with
      | (.ok l unc, s) =>
        if um && !pteU e then (.access 0x24, s)
        else if !pteRight e need then (.access 0x20, s)
        else (.ok l unc, s)
      | (r, s) => (r, s)

end Sys2Proof.Machine
end

