-- ==== Sys2Proof/Machine/L1.lean ====
section
/-! DEFINITION. The tile L1 (R152-R156): generations, allocation and eviction, write-backs, and sending requests to a
home. -/

namespace Sys2Proof.Machine

/-- A line is current when V = 1 and its gens are the tile's (R153). -/
def L1Line.current (x : L1Line) (t : Tile) : Bool := x.v && (x.gc ++ x.gd ++ x.gs) == t.gens

/-- A line that holds nothing yet. -/
def L1Line.fresh : L1Line := ⟨false, false, false, 0, 0, 0, 0, 0, 0⟩

def State.l1 (s : State) (tile line : Nat) : Option L1Line := (s.tile tile).l1.get? line
def State.setL1 (s : State) (tile line : Nat) (x : L1Line) : State :=
  s.modTile tile fun t => { t with l1 := t.l1.set line x }
def State.freeL1 (s : State) (tile line : Nat) : State :=
  s.modTile tile fun t => { t with l1 := t.l1.del line }
def State.modL1 (s : State) (tile line : Nat) (f : L1Line → L1Line) : State :=
  s.modTile tile fun t => { t with l1 := t.l1.alter line f }

/-- Mask bytes of the half-line blocks that an uncorrectable error has struck in the L1 (R319). -/
def State.badMask (s : State) (tile line : Nat) : LineMask :=
  (if s.isBad (.l1 tile line 0) then runMask 0 64 else 0) ||| (if s.isBad (.l1 tile line 1) then runMask 64 64 else 0)

/-- The dirty bytes that leave a line for its home, DMASK cleared; those with an uncorrectable error are dropped with an
entry of kind 8 (R320), unless they are among `repl`, the bytes a store replaces. -/
def State.takeDirty (s : State) (tile line : Nat) (x : L1Line) (repl : LineMask) : LineMask × State :=
  let bad := x.dmask &&& ~~~ repl &&& s.badMask tile line
  let s := s.setL1 tile line { x with dmask := 0 }
  (x.dmask &&& ~~~ bad, if bad = 0 then s else s.fqPost 8 (line % peerSpan * 128) 0xFF tile 0xFF 0xFF 3)

/-- Write back a line's dirty bytes as a write-through event with a byte mask (R101, R155); V, the gens and WOK stay. -/
def State.writeBack (s : State) (tile line : Nat) : List Nat × State :=
  match s.l1 tile line with
  | none => ([], s)
  | some x =>
    if x.dmask = 0 then ([], s)
    else
      let (m, s) := s.takeDirty tile line x 0
      if m = 0 then ([], s)
      else
        let (k, s) := s.send { s.newReq evWrite line tile (.wb tile) with
          data := x.data, mask := m, carry := m, was := x.data }
        ([k], s)

/-- Write back the listed lines. -/
def State.writeBackLines (s : State) (tile : Nat) : List Nat → List Nat × State
  | [] => ([], s)
  | l :: r =>
    let (a, s) := s.writeBack tile l
    let (b, s) := s.writeBackLines tile r
    (a ++ b, s)

/-- Every request that has not been answered, or whose answer has not arrived, those of a line from the oldest to the newest:
replies on their way, requests that an owner forwards (R115), requests saved or queued at a home, requests on their way. -/
def State.flying (s : State) : List Req :=
  s.reps.map (·.2.req) ++ s.recs.filterMap (·.2.fwd) ++ s.dir.flatMap (fun d => d.2.pend.toList ++ d.2.queue)
    ++ s.net.map (·.2)

/-- A request is still under way. -/
def State.inFlight (s : State) (id : Nat) : Bool := s.flying.any fun r => r.id == id

/-- A request brings home, or replaces, bytes that were dirty in a tile's L1: a write-back, or a store over a dirty line
(R154, R155). -/
def Req.carries (r : Req) (tile : Nat) : Bool := r.carry != 0 && r.tile == tile

/-- The bytes of a line that a tile has sent home and that are not yet answered, as its L1 had them, and their mask: the tile
sees them over any copy of the line served before they came home (R107, R154, R165). -/
def State.ownBytes (s : State) (tile line : Nat) : Nat × LineMask :=
  (s.flying.filter fun r => r.carries tile && r.line == line).foldl
    (fun x r => (mergeData x.1 r.was r.carry, x.2 ||| r.carry)) (0, 0)

/-- Write back every dirty line of a tile; the numbers of all requests not yet accepted that carry dirty bytes of its
lines: write-backs, and stores that took such bytes with them or replaced them (R154, R166). -/
def State.writeBackAll (s : State) (tile : Nat) : List Nat × State :=
  let earlier := (s.flying.filter (·.carries tile)).map (·.id)
  let (ks, s) := s.writeBackLines tile ((s.tile tile).l1.map (·.1))
  (earlier ++ ks, s)

/-- The set of a line (R152: PA[14:7]). Assumption 66 (DESIGN CHOICE). -/
def l1Set (line : Nat) : Nat := line % 256

/-- Make room for a line: with 8 lines present in its set one is evicted, an evict-first line before any other, else a
line of the hardware's choice (R154, R155). Assumption 66 (DESIGN CHOICE). -/
def State.makeRoom (s : State) (tile line : Nat) : State :=
  let ways := (s.tile tile).l1.filter (fun p => l1Set p.1 == l1Set line)
  if ways.length < 8 || ways.any (fun p => p.1 == line) then s
  else
    let (victim, s) : Nat × State :=
      match ways.find? (fun p => p.2.ef) with
      | some p => (p.1, s)
      | none =>
        let (n, s) := s.takeFree
        (((ways[n % ways.length]?).map (·.1)).getD line, s)
    let (_, s) := s.writeBack tile victim
    s.freeL1 tile victim

/-- A fill's blocks carry an uncorrectable error with them; a good block ends one the L1 had (R319). -/
def State.fillBad (s : State) (tile line : Nat) (kept : LineMask) (errs : Nat × Nat) : State :=
  let half (s : State) (h err : Nat) : State :=
    if err ≠ 0 then s.markBad (.l1 tile line h)
    else if kept &&& runMask (64 * h) 64 = 0 then s.clearBad (.l1 tile line h)
    else s
  half (half s 0 errs.1) 1 errs.2

/-- A line's bytes as a reply brings them, under the tile's own newer bytes: those on their way home, and the dirty ones it
holds (R154, R165); and the mask of the own bytes. -/
def State.underOwn (s : State) (tile line data : Nat) : Nat × LineMask :=
  let own := s.ownBytes tile line
  let d := mergeData data own.1 own.2
  match s.l1 tile line with
  | some x => (mergeData d x.data x.dmask, own.2 ||| x.dmask)
  | none => (d, own.2)

/-- Fill a line from a reply (R154): the tile's own newer bytes stay, V = 1 unless a counter wrapped meanwhile, gens as they
stood at the request, WOK as the reply gives, EF as the hint asks (R49). Assumption 66 (DESIGN CHOICE). -/
def State.fillL1 (s : State) (tile line : Nat) (r : Req) (data : Nat) (descs : BitVec 32) (wok : Bool) (errs : Nat × Nat) :
    State :=
  let s := s.makeRoom tile line
  let t := s.tile tile
  let x := (t.l1.get? line).getD L1Line.fresh
  let (d, own) := s.underOwn tile line data
  (s.fillBad tile line own errs).setL1 tile line { x with
    v := decide (r.wraps = t.wraps)
    wok := wok
    ef := x.ef || r.ef
    gc := r.gens.extractLsb' 8 4
    gd := r.gens.extractLsb' 4 4
    gs := r.gens.extractLsb' 0 4
    data := d
    descs := descs }

/-- Flash-invalidation (R153): clean lines are freed, the others lose V. -/
def Tile.flash (t : Tile) : Tile :=
  { t with
    l1 := (t.l1.filter (fun p => p.2.dmask != 0)).map (fun p => (p.1, { p.2 with v := false }))
    wraps := t.wraps + 1 }

/-- What an acquire at a scope does to the tile's L1 (R153). Scopes: 0 group, 1 team, 2 cluster, 3 device, 4 system. -/
def Tile.acquire (t : Tile) (scope : Nat) : Tile :=
  match scope with
  | 2 => let u := { t with tgc := t.tgc + 1 }; if u.tgc = 0 then u.flash else u
  | 3 => let u := { t with tgd := t.tgd + 1 }; if u.tgd = 0 then u.flash else u
  | 4 => let u := { t with tgs := t.tgs + 1 }; if u.tgs = 0 then u.flash else u
  | _ => t

/-- Apply R153 on a tile. The stage manager and the distributor have no L1. -/
def State.acquireAt (s : State) (tile scope : Nat) : State :=
  if tile < 192 then s.modTile tile (·.acquire scope) else s

/-- A wait that the named tokens have satisfied is an acquire at the scope of the decrements it has seen (R139, R252).
Assumption 77 (DEDUCED). -/
def State.tokenAcquire (s : State) (tid : Nat) (mask : BitVec 8) : State :=
  (List.range 8).foldl (fun s i =>
    let k := (s.team tid).token i
    if mask.getLsbD i && k.acq != 0 then
      (s.acquireAt (s.team tid).tile k.acq).modToken tid i fun k => { k with acq := 0 }
    else s) s

end Sys2Proof.Machine
end

