-- ==== Sys2Proof/Machine/Monitor.lean ====
section
/-! DEFINITION. Monitors (R355, R356). -/

namespace Sys2Proof.Machine

/-- The number of a tile's monitor, and of a slice's. -/
def tileMon (n : Nat) : Nat := n
def sliceMon (die slice : Nat) : Nat := 256 + 128 * die + slice

def State.mon (s : State) (n : Nat) : Monitor := s.mons.getD n Monitor.reset
def State.modMon (s : State) (n : Nat) (f : Monitor → Monitor) : State := { s with mons := s.mons.set n (f (s.mon n)) }

/-- Edge `j`, 0-14 (R355). -/
def Monitor.edge (m : Monitor) (j : Nat) : Nat := field (m.edges.getD (j / 4) 0) (16 * (j % 4)) 16

/-- The bin of a sample (R356). -/
def Monitor.bin (m : Monitor) (v : Nat) : Nat := ((List.range 15).filter fun j => m.edge j ≤ v).length

/-- The monitor takes samples of a source. -/
def Monitor.takes (m : Monitor) (src : Nat) : Bool := m.ctl.getLsbD 0 && field m.ctl 8 4 == src

/-- Take a sample (R355, R356). -/
def Monitor.sample (m : Monitor) (x : Nat) : Monitor :=
  let v := min x 65535
  let b := m.bin v
  { m with
    lmin := min m.lmin v
    lmax := max m.lmax v
    lcnt := min (m.lcnt + 1) (2 ^ 64 - 1)
    lbin := m.lbin.set b (min (m.lbin.getD b 0 + 1) (2 ^ 32 - 1)) }

/-- SNAP copies the live values (R356). -/
def Monitor.snap (m : Monitor) : Monitor :=
  { m with
    smin := m.lmin
    smax := m.lmax
    scnt := m.lcnt
    sbin := m.lbin }

/-- CLR resets the live values (R356). -/
def Monitor.clear (m : Monitor) : Monitor :=
  { m with
    lmin := 0xFFFF
    lmax := 0
    lcnt := 0
    lbin := [] }

/-- A write of MONCTL: SNAP, then CLR. Assumption 50 (DESIGN CHOICE). -/
def Monitor.writeCtl (m : Monitor) (x : W64) : Monitor :=
  let m := if x.getLsbD 2 then m.snap else m
  let m := if x.getLsbD 1 then m.clear else m
  { m with ctl := BitVec.ofNat 64 (field x 8 4 * 256 + field x 0 1) }

/-- A register of a monitor (R355). -/
def Monitor.read (m : Monitor) (off : Nat) : W64 :=
  if off = 0 then m.ctl
  else if off < 0x28 then m.edges.getD (off / 8 - 1) 0
  else if off = 0x28 then BitVec.ofNat 64 m.smin
  else if off = 0x30 then BitVec.ofNat 64 m.smax
  else if off = 0x38 then BitVec.ofNat 64 m.scnt
  else if off < 0xC0 then BitVec.ofNat 64 (m.sbin.getD (off / 8 - 8) 0)
  else 0

/-- A write to a register of a monitor (R355). -/
def Monitor.write (m : Monitor) (off : Nat) (x : W64) : Monitor :=
  if off = 0 then m.writeCtl x else if off < 0x28 then { m with edges := m.edges.set (off / 8 - 1) x } else m

/-- One latency of an event (R355): how long it was is a free value. -/
def State.monLatency (s : State) (n src : Nat) : State :=
  if (s.mon n).takes src then
    let (v, s) := s.takeFree
    s.modMon n fun m => m.sample v
  else s

/-- The monitor an IO address reaches, and the offset in it (R355). -/
def monitorAt (addr : Nat) : Option (Nat × Nat) :=
  if 0x500000 ≤ addr && addr < 0x500000 + 0x100 * 192 then some (tileMon ((addr - 0x500000) / 0x100), addr % 0x100)
  else if 0x510000 ≤ addr && addr < 0x520000 then
    some (sliceMon ((addr - 0x510000) / 0x8000) ((addr - 0x510000) % 0x8000 / 0x100), addr % 0x100)
  else none

def execMonSnap (mon : Nat) (s : State) : Host.Outcome State Fault Refusal := .next (s.modMon mon (·.snap))

def execMonClear (mon : Nat) (s : State) : Host.Outcome State Fault Refusal := .next (s.modMon mon (·.clear))

/-- A level sample (R355): temperature, DLDO current (`amps`, an input), stalled requests and directory entries of a
slice. -/
def execMonLevelSample (mon amps : Nat) (s : State) : Host.Outcome State Fault Refusal :=
  let m := s.mon mon
  let slice := mon - 256
  let here := s.dir.filter fun p =>
    isDramLine p.1 && homeDie p.1 == slice / 128 && homeSlice p.1 == slice % 128
  let level : Option Nat :=
    if mon < 256 then
      if m.takes 3 then some (max 0 ((s.sensors.getD mon Sensor.reset).reading.toInt)).toNat
      else if m.takes 4 then some amps
      else none
    else if m.takes 9 then some (here.map fun p => p.2.queue.length).sum
    else if m.takes 10 then some here.length
    else none
  match level with
  | some v => .next (s.modMon mon fun m => m.sample v)
  | none => .next s

end Sys2Proof.Machine
end

