-- ==== Sys2Proof/Machine/Coherence.lean ====
section
/-! DEFINITION. The coherence controller of a home (R101-R110, R125): presenting events to a line's script, rounds,
stalls, retirement, and the holders' side. Host-homed lines are answered under INV (R379). -/

namespace Sys2Proof.Machine

/-! ### Holders (R102, R104) -/

/-- The device behind a holder ID is declared failed: its answers are given for it (R125, R345). -/
def State.failedAgent (s : State) (a : BitVec 16) : Bool :=
  isOutsideId a && s.ports.failed.contains (if a == hostId then 0x1FFF else a.toNat % 2 ^ 13)

/-- A device for whose answers the controller stands in: one that is declared failed, or a peer that no valid route reaches
(R125, R343, R345). -/
def State.silentAgent (s : State) (a : BitVec 16) : Bool :=
  s.failedAgent a || (a.toNat / 2 ^ 13 == 3 && !s.peerReachable (a.toNat % 2 ^ 13))

/-- Every agent that could hold a line (R104): the other die's L2, the host, every peer with an active port. -/
def State.possibleHolders (s : State) (l : Nat) : List (BitVec 16) :=
  if isHostLine l then [l2Id 0, l2Id 1]
  else
    let peers := (s.ports.route.filter fun p =>
      p.2.getLsbD 4 && (s.ports.stat.getD (field p.2 0 4) 0).getLsbD 0 && !s.ports.failed.contains p.1).map
        fun p => BitVec.ofNat 16 (0x6000 + p.1)
    l2Id (1 - homeDie l) :: hostId :: peers

/-- The holders a round goes to (R104). -/
def State.roundTargets (s : State) (l : Nat) (d : DirEntry) : List (BitVec 16) :=
  if d.ovf then (d.ptrs ++ s.possibleHolders l).dedup else d.ptrs

/-- The engine that owns a line, if one does (R108). -/
def DirEntry.engine (d : DirEntry) : Option (BitVec 16) := d.ptrs.find? isEngineId

/-- A die's coherence registers have a range commit under way that covers a line (R121). -/
def State.rangeBusy (s : State) (l : Nat) : Bool :=
  let c := s.cohOf (homeDie l)
  c.rtBusy && !isHostLine l && match c.rtPend with
    | some (n, w0, _) => rangeHas (c.word0 n) (l * 128) || rangeHas w0 (l * 128)
    | none => false

/-! ### Messages -/

/-- Answer a request. What goes back to the host or a peer leaves the device. -/
def State.answer (s : State) (r : Req) (a : Answer) : State :=
  if r.tag = .ext then s
  else
    let (k, s) := s.fresh
    { s with reps := s.reps.set k ⟨r, a⟩ }

/-- The bytes of a write, and the descriptors it writes, on their way to a holder (R114, R95). -/
def State.sendPush (s : State) (l : Nat) (agent : BitVec 16) (r : Req) : State :=
  let (k, s) := s.fresh
  { s with pushes := s.pushes.set k ⟨l, agent, r.data, r.mask, r.descs, r.descW⟩ }

def State.sendAnswer (s : State) (a : RecAns) : State :=
  let (k, s) := s.fresh
  { s with answers := s.answers.set k a }

/-! ### A die's L2 (R100, R105) -/

/-! ### What an engine of the die owns there (R108, R135) -/

def State.modCopy (s : State) (cid : Nat) (f : Copy → Copy) : State := { s with copies := s.copies.alter cid f }

/-- The tile of a copy's engine. -/
def State.copyTile (s : State) (c : Copy) : Nat := (s.team c.team).tile

/-- Nothing walked of a line. -/
def LineImg.none : LineImg := ⟨0, 0, 0, 0, Option.none, Option.none⟩

/-- What has been walked of a line. -/
def Copy.img (c : Copy) (l : Nat) : LineImg := c.imgs.getD l LineImg.none

/-- The bytes walked of a line are on their way home; the lowest addresses stay known (R131). -/
def LineImg.sent (x : LineImg) : LineImg := { x with data := 0, mask := 0, descs := 0, descW := 0 }

/-- A line leaves an engine before its copy is done with it: what it walked is on its way, and it asks for the line again
(R108). -/
def State.takeAgain (s : State) (cid l line tile : Nat) (agent : BitVec 16) : State :=
  let s := s.modCopy cid fun c => { c with
    owned := c.owned.filter (· != l), asked := l :: c.asked, imgs := c.imgs.set l (c.img l).sent }
  (s.send { s.newReq evEngineOwn line tile (.copy cid l) with holder := some agent }).2

/-- An engine's line of a die's L2 is free again, with some bytes put in. -/
def State.freeEngine (s : State) (die l data : Nat) (m : LineMask) (descs : BitVec 32) (dw : BitVec 2) : State :=
  { s with l2 := s.l2.alter (l2Key die l) fun h => { h with
    data := mergeData h.data data m, descs := keepDescs l h.descs descs dw, eng := none } }

/-- An engine gives up a line of its die's L2: a return on its way has come at once, a grant on its way is asked for again,
and of an owned line what it has walked stays in the L2. Assumption 25 (DESIGN CHOICE). -/
def State.takeFromEngine (s : State) (die l : Nat) : State :=
  match (s.l2Line die l).bind (·.eng) with
  | none => s
  | some a =>
    let tile := a.toNat - 0x8000
    match s.net.find? fun p => p.2.line == l && p.2.holder == some a && (p.2.ev == evEvictClean || p.2.ev == evEvictDirty) with
    | some (k, r) => (({ s with net := s.net.del k } : State).freeEngine die l r.data r.mask r.descs r.descW).answer r .ack
    | none =>
      match s.reps.find? fun p => p.2.req.line == l && p.2.req.ev == evEngineOwn && p.2.req.tile == tile with
      | some (k, x) =>
        let s := ({ s with reps := s.reps.del k } : State).freeEngine die l 0 0 0 0
        (s.send { x.req with holder := some a }).2
      | none =>
        match s.copies.find? fun p => s.copyTile p.2 == tile && p.2.owned.any fun v => p.2.phys.getD v 0 == l with
        | none => s.freeEngine die l 0 0 0 0
        | some (cid, c) =>
          match c.owned.find? fun v => c.phys.getD v 0 == l with
          | none => s
          | some v =>
            let x := c.img v
            (s.freeEngine die l x.data x.mask x.descs x.descW).takeAgain cid v l tile a

/-- The set of a line in the L2 slices of a die: the slice of R99 or R340, and one of its 1,024 sets.
Assumption 25 (DESIGN CHOICE). -/
def l2Set (l : Nat) : Nat × Nat := (homeSlice l, lineInDie l / 128 % 1024)

/-- Give up a line of a die's L2 (R105, R113): an evict event with its data if it is dirty, for its home. An error in a
block goes with the block. -/
def State.evictL2 (s : State) (die l : Nat) : State :=
  match s.l2Line die l with
  | none => s
  | some h =>
    let dirty : Bool := h.right == 3
    let half (s : State) (i : Nat) : State :=
      if s.isBad (.l2 die l i) then
        (if dirty && !isPeerLine l then s.markBad (.block (2 * l + i)) else s).clearBad (.l2 die l i)
      else s
    let s := half (half { s with l2 := s.l2.del (l2Key die l) } 0) 1
    (s.send { s.newReq (if dirty then evEvictDirty else evEvictClean) l (96 * die) .ext with
      holder := some (l2Id die)
      data := h.data
      mask := if dirty then fullMask else 0
      descs := h.descs
      descW := if dirty && !isHostLine l then 3 else 0 }).2

/-- Make room for a line in its set of 16 ways, which the lines homed there and the replicas share (R100): a line that the
die's L2 holds may go, and one must go where 16 are held; one marked evict-first before any other (R154). A line that an
engine owns goes only where engines own all 16: its engine then gives it up and takes it again later.
Assumption 25 (DESIGN CHOICE). -/
def State.makeL2Room (s : State) (die l : Nat) : State :=
  let set := s.l2.filter fun p => p.1 % 2 == die && p.1 / 2 != l && l2Set (p.1 / 2) == l2Set l
  let free := set.filter fun p => p.2.eng.isNone
  let first := free.filter fun p => p.2.ef
  let can := if first.isEmpty then free else first
  let (n, s) := s.takeFree
  if can.isEmpty then
    match if set.length < 16 then none else set[n % set.length]? with
    | some p => (s.takeFromEngine die (p.1 / 2)).evictL2 die (p.1 / 2)
    | none => s
  else
    match can[n % (can.length + if set.length < 16 then 1 else 0)]? with
    | some p => s.evictL2 die (p.1 / 2)
    | none => s

/-- What the home sent an L2 about a line before it grants it the line has arrived (R107): pushes change a copy that is
replaced now, and a recall finds none. -/
def State.arriveBefore (s : State) (a : BitVec 16) (l : Nat) : State :=
  let mine (m : Recall) : Bool := m.line == l && m.agent == a && m.fwd.isNone
  let found := (s.recs.filter fun p => mine p.2).map (·.2.rnd)
  let s : State := { s with
    pushes := s.pushes.filter fun p => !(p.2.line == l && p.2.agent == a)
    recs := s.recs.filter fun p => !mine p.2 }
  found.foldl (fun s n => s.sendAnswer ⟨l, a, none, false, n⟩) s

/-- A die's L2 takes a line with a right (R100, R379); `errs` are the errors its blocks bring (R319).
Assumption 25 (DESIGN CHOICE). -/
def State.installL2 (s : State) (agent : Option (BitVec 16)) (l right data : Nat) (descs : BitVec 32) (ef : Bool)
    (eng : Option (BitVec 16)) (wok : Bool) (errs : Nat × Nat) : State :=
  match agent with
  | some a =>
    if isL2Id a && right ≠ 0 then
      let die := a.toNat / 2 ^ 13
      let half (s : State) (h err : Nat) : State := if err ≠ 0 then s.markBad (.l2 die l h) else s.clearBad (.l2 die l h)
      let s := (s.arriveBefore a l).makeL2Room die l
      half (half { s with l2 := s.l2.set (l2Key die l) ⟨right, data, descs, ef, eng, wok⟩ } 0 errs.1) 1 errs.2
    else s
  | none => s

/-- The reason in `.fail` for an uncorrectable error of a source of R319. -/
def failMem (src : Nat) : Nat := 256 + src

/-- A reduction element that lies in two lines, and the second of them (R129). -/
def Elem.second (e : Elem) : Option Nat := if 128 < e.off + e.w then some e.cmp else none

/-- The source code of an uncorrectable error in a block that an atomic or reduction needs, 0 for none (R319). -/
def State.elemsErr (s : State) (l : Nat) (es : List Elem) : Nat :=
  (es.findSome? fun e =>
    let a := s.newestErr l (e.off / 64)
    let b := match e.second with
      | some l2 => s.newestErr l2 0
      | none => 0
    if a ≠ 0 then some a else if b ≠ 0 then some b else none).getD 0

/-- One element of a `TRED` whose bytes lie in two lines is reduced in one step (R129, R137). Assumption 33 (DESIGN CHOICE). -/
def State.reduceAcross (s : State) (l l2 : Nat) (r : Req) (e : Elem) : State :=
  let n := 128 - e.off
  let old := bytesOf (s.cohLine l).1 e.off n + bytesOf (s.cohLine l2).1 0 (e.w - n) * 256 ^ n
  let new := amo r.op r.aty old e.val e.cmp
  (s.cohWrite (l * 128 + e.off) n (new % 256 ^ n)).cohWrite (l2 * 128) (e.w - n) (new / 256 ^ n)

/-- Refuse an event (R110). A refused evict, answer or timeout does nothing. -/
def State.deny (s : State) (l : Nat) (r : Req) : State :=
  if r.ev = evEvictClean || r.ev = evEvictDirty || r.ev = evRecallAck || r.ev = evTimeout then s
  else s.answer r (.nack r.ev (s.slotOf l))

/-! ### Applying an entry (R109, R114) -/

/-- PERFORM: the home copy after an event's write, atomic or reduction, and its old values. A read copy that the writer's
L2 has takes the bytes too, by a push of their own (R107). -/
def State.perform (s : State) (l : Nat) (r : Req) : State × List Nat :=
  if r.ev = evAtomic || r.ev = evReduce then
    match r.elems.findSome? fun e => e.second.map fun l2 => (e, l2) with
    | some (e, l2) => (s.reduceAcross l l2 r e, [])
    | none =>
      let (d, olds) := performElems r.op r.aty (s.lineData l) r.elems
      (s.writeHome l d fullMask 0 0, olds)
  else
    let s := s.writeHome l r.data r.mask r.descs r.descW
    (match r.holder with
      | some a => if isL2Id a && (s.l2Line (a.toNat / 2 ^ 13) l).isSome then s.sendPush l a r else s
      | none => s, [])

/-- PUSH_UPDATE to every holder but the writer, under OVF to every agent that could hold the line; the host is invalidated
and dropped instead (R104, R114, R340). -/
def State.pushAll (s : State) (l : Nat) (r : Req) : State :=
  let others := (s.roundTargets l (s.dirOf l)).filter fun a => some a != r.holder
  let s := others.foldl (fun s a => if a == hostId then s.sendRecall l a 0 none false 0 else s.sendPush l a r) s
  s.modDir l fun d => { d with ptrs := d.ptrs.filter fun a => a != hostId || some a == r.holder }

/-- NOTIFY (R124): 256 notifications are held; more leave a rescan to make. -/
def State.notifyDist (s : State) (l ev : Nat) : State :=
  { s with dist :=
      if s.dist.notifs.length < 256 then { s.dist with notifs := s.dist.notifs ++ [(l * 128, ev)] }
      else { s.dist with overflows := s.dist.overflows + 1, rescan := true } }

/-- ADD_HOLDER (R104). -/
def DirEntry.addHolder (d : DirEntry) (a : Option (BitVec 16)) : DirEntry :=
  match a with
  | none => d
  | some x => if d.ptrs.contains x then d else if 4 ≤ d.ptrs.length then { d with ovf := true } else { d with ptrs := d.ptrs ++ [x] }

/-- The right an entry's actions grant (R114): 3 M, 2 E, 1 S, 0 none. -/
def Ent.grant (e : Ent) : Nat := if e.has actGM then 3 else if e.has actGE then 2 else if e.has actGS then 1 else 0

/-- The engine for which a die's L2 takes a line of the host's (R135, R340). -/
def Req.engineOf (r : Req) : Option (BitVec 16) :=
  if r.ev = evEngineOwn ∧ r.holder.any isL2Id then some (stagehandId r.tile) else none

/-- The reply of an entry (R114, R115): the home copy goes with it where the entry supplies it. The data of a message whose
entry does not supply them are free. Assumption 29 (DEDUCED). -/
def State.replyMsg (s : State) (l : Nat) (r : Req) (e : Ent) (olds : List Nat) (wok : Bool) : State :=
  let data (right : Nat) : State :=
    let errs := (s.homeErr l 0, s.homeErr l 1)
    let (x, s) : (Nat × BitVec 32) × State :=
      if e.has actSU then ((s.lineData l, s.lineDescs l), s)
      else
        let (n, s) := s.takeFree
        ((n % 256 ^ 128, BitVec.ofNat 32 (n / 256 ^ 128)), s)
    (s.installL2 r.holder l e.grant x.1 x.2 r.ef r.engineOf wok errs).answer r (.data right x.1 x.2 wok errs)
  match e.msg with
  | 1 => s.answer r .ack
  | 2 => data 1
  | 3 => data 2
  | 4 => data 3
  | 5 => data 0
  | 6 => s.answer r (.result olds)
  | _ => s

/-- An event made of nothing but a code. -/
def Req.bare (ev l : Nat) : Req :=
  ⟨ev, l, 0, none, .ext, 0, 0, 0, 0, [], 0, 0, 0, 0, 0, 0, false, false, 0, 0, 0⟩

/-- The recall-ack event of a closed round, with its data (R109). -/
def recallAckOf (l : Nat) (dirty : Option (Nat × BitVec 32)) : Req :=
  match dirty with
  | some (d, ds) => { Req.bare evRecallAck l with data := d, mask := fullMask, descs := ds, descW := 3 }
  | none => Req.bare evRecallAck l

/-- Open a round (R109). A timeout sends again to the agents that have not answered (R125); another event of a line whose
round is still open adds its agents to those due. The controller answers for an agent that is declared failed or that no
route reaches: not held (R125, R343, R345). `wok` goes with a forwarded request (R156). -/
def State.openRound (s : State) (l : Nat) (again : Bool) (asked : List (BitVec 16)) (kind : Nat) (fwd : Option Req)
    (wok : Bool) : State :=
  let targets := asked.filter fun a => !s.silentAgent a
  let gone := asked.filter s.silentAgent
  let s := if gone.isEmpty then s else s.modDir l fun d => { d with ptrs := d.ptrs.filter fun a => !gone.contains a }
  match (s.dirOf l).round with
  | some rd =>
    if again then rd.due.foldl (fun s a => s.sendRecall l a kind fwd wok rd.rnd) s
    else
      let s := targets.foldl (fun s a => s.sendRecall l a kind fwd wok rd.rnd) s
      s.modDir l fun d => { d with round := some { rd with due := (rd.due ++ targets).dedup } }
  | none =>
    let (n, s) := s.fresh
    let s := targets.foldl (fun s a => s.sendRecall l a kind fwd wok n) s
    s.modDir l fun d => { d with round := some ⟨targets, kind, none, n⟩ }

/-- A line enters a state: OVF clears in class I (R104). -/
def DirEntry.enter (d : DirEntry) (c : Script) (st : Nat) (timer : Bool) : DirEntry :=
  { d with
    state := st
    ovf := d.ovf && c.cls st != 0
    timer := d.timer || timer }

/-- A line whose NEXT state is of class S or O and that has no holder enters state 0; TMO ends with the transient state
(R109, R125). A timer runs on until it expires. -/
def State.fall (s : State) (l : Nat) : State :=
  let c := s.scriptOf l
  s.modDir l fun d =>
    let k := c.cls d.state
    let d := if (k = 1 || k = 2) && d.ptrs.isEmpty && !d.ovf then { d with state := 0 } else d
    if k = 3 then d else { d with tmo := 0 }

/-- Apply the entry of an event in the line's present state. `n` bounds the replays and the rounds that close at once. An entry
with STALL queues its event, takes NEXT and TIMER, and does nothing else; where several actions stand in one entry they act in
the order written here. Assumption 80 (DESIGN CHOICE). -/
def State.applyEvent : Nat → State → Nat → Req → State
  | 0, s, _, _ => s
  | n + 1, s, l, r =>
    let c := s.scriptOf l
    let d0 := s.dirOf l
    let e := c.ent d0.state r.ev
    if e.has actDN then s.deny l r
    else if e.stall then
      (s.modDir l fun d => { d.enter c e.next e.timer with queue := d.queue ++ [r] }).fall l
    else if e.has actPF && (r.ev = evAtomic || r.ev = evReduce) && s.elemsErr l r.elems ≠ 0 then
      s.answer r (.fail (failMem (s.elemsErr l r.elems)))
    else
      let s := if e.save then s.modDir l fun d => { d with pend := some r } else s
      let s := if e.has actWB then s.writeHome l r.data r.mask r.descs r.descW else s
      let s := if e.has actDH then
          s.modDir l fun d => { d with ptrs := d.ptrs.filter fun a => some a != r.holder }
        else s
      let (s, olds) := if e.has actPF then s.perform l r else (s, [])
      let s := if e.has actPU then s.pushAll l r else s
      let s := if e.has actNT then s.notifyDist l r.ev else s
      let wok := !(c.ent e.next evWrite).has actDN
      let s := if e.has actRC then s else s.replyMsg l r e olds wok
      let d := s.dirOf l
      let again := r.ev == evTimeout
      let s := if e.has actRC then
          s.openRound l again (d.ptrs.getLast?).toList e.msg (if e.has actFD then some r else none) wok
        else s
      let s := if e.has actIX then s.openRound l again ((s.roundTargets l d).filter fun a => some a != r.holder) 0 none wok else s
      let s := if e.has actIA then s.openRound l again (s.roundTargets l d) 0 none wok else s
      let s := s.modDir l fun d => (if e.has actAH then d.addHolder r.holder else d).enter c e.next e.timer
      let s := if e.has actRP then
          match (s.dirOf l).pend with
          | some q => State.applyEvent n (s.modDir l fun d => { d with pend := none }) l q
          | none => s
        else s
      let s := match (s.dirOf l).round with
        | some rd =>
          if rd.due.isEmpty then
            State.applyEvent n (s.modDir l fun d => { d with round := none }) l (recallAckOf l rd.dirty)
          else s
        | none => s
      s.fall l

/-- Replays and rounds that close at once, at most. -/
def applyFuel : Nat := 16

/-! ### Stalls, retirement and the queue (R105, R108, R109, R121) -/

/-- A request of R109, which may wait for room or for the line. -/
def isRequest (ev : Nat) : Bool := ev ≤ evUpdate || (evAtomic ≤ ev && ev ≤ evReplica)

/-- An event stalls before it reaches the script: the line belongs to an engine, is being retired, or lies in a range
under commit (R105, R108, R121). -/
def State.stallsBefore (s : State) (l : Nat) (r : Req) : Bool :=
  let d := s.dirOf l
  isRequest r.ev &&
    (d.engine.isSome || d.retire || s.rangeBusy l)

/-- The other line that a reduction's element lies in is not free for it: in a round, stalled, or owned by an engine (R108,
R129). -/
def State.secondWaits (s : State) (r : Req) : Bool :=
  r.elems.any fun e => e.second.any fun l2 =>
    (!isPeerLine l2 && ((s.scriptOf l2).cls (s.dirOf l2).state == 3 || s.stallsBefore l2 r))
      || [0, 1].any fun die => (s.l2Line die l2).any fun h => h.eng.isSome

/-- The script of the other line that a reduction's element lies in refuses it (R110, R111): the slot. -/
def State.secondRefuses (s : State) (r : Req) : Option Nat :=
  r.elems.findSome? fun e => e.second.bind fun l2 =>
    if !isPeerLine l2 && (!(s.scriptOf l2).redmask.testBit (redKind r.op r.aty)
        || ((s.scriptOf l2).ent (s.dirOf l2).state r.ev).has actDN) then some (s.slotOf l2) else none

/-- Present one event (R109, R111). A reduction whose other line is not free is back on its way.
Assumption 33 (DESIGN CHOICE). -/
def State.presentOne (s : State) (l : Nat) (r : Req) : State :=
  let d := s.dirOf l
  if (r.ev = evEvictClean || r.ev = evEvictDirty) && !d.ovf && !(d.ptrs.any fun a => some a == r.holder) then s
  else if s.stallsBefore l r then s.modDir l fun d => { d with queue := d.queue ++ [r] }
  else if r.ev = evReduce && !(s.scriptOf l).redmask.testBit (redKind r.op r.aty) then
    s.answer r (.nack r.ev (s.slotOf l))
  else if r.ev = evReduce && s.secondWaits r then { s with net := s.net.set r.id r }
  else
    match if r.ev = evReduce then s.secondRefuses r else none with
    | some slot => s.answer r (.nack r.ev slot)
    | none => State.applyEvent applyFuel s l r

/-- Present the queued events again in their order; one that cannot go yet is queued again. -/
def State.drainPass (l : Nat) : List Req → State → State
  | [], s => s
  | r :: rs, s =>
    let s := if (s.scriptOf l).cls (s.dirOf l).state = 3 then s.modDir l fun d => { d with queue := d.queue ++ [r] }
      else s.presentOne l r
    State.drainPass l rs s

/-- Drain the queue of a line that is not in a transient state, while that takes anything away. -/
def State.drain (l : Nat) : Nat → State → State
  | 0, s => s
  | n + 1, s =>
    let q := (s.dirOf l).queue
    if q.isEmpty || (s.scriptOf l).cls (s.dirOf l).state = 3 then s
    else
      let s := State.drainPass l q (s.modDir l fun d => { d with queue := [] })
      if (s.dirOf l).queue.length < q.length then State.drain l n s else s

/-- The kind of a round that retires a line. -/
def retireKind : Nat := 0x100

/-- Go on with a line after an event: start or end its retirement, or drain its queue. -/
def State.settle (s : State) (l : Nat) : State :=
  let d := s.dirOf l
  let k := (s.scriptOf l).cls d.state
  if k = 3 then s
  else if d.retire then
    if d.round.isSome then s
    else
      let targets := (s.roundTargets l d).filter fun a => !s.silentAgent a
      if targets.isEmpty then
        (s.modDir l fun d => { d with retire := false, state := 0, ovf := false, ptrs := [] }).drain l (d.queue.length + 1)
      else
        let (n, s) := s.fresh
        let s := targets.foldl (fun s a => s.sendRecall l a (if k = 2 then 0x10 else 0) none false n) s
        s.modDir l fun d => { d with round := some ⟨targets, retireKind, none, n⟩ }
  else s.drain l (d.queue.length + 1)

/-- Retire a line (R105, R121). -/
def State.retireLine (s : State) (l : Nat) : State :=
  (s.modDir l fun d => { d with retire := true }).settle l

/-- Entries share a set of 16 (R105); the set within a slice is the low part of the channel's line number.
Assumption 27 (DESIGN CHOICE). -/
def sameDirSet (a b : Nat) : Bool :=
  homeDie a == homeDie b && homeSlice a == homeSlice b && channelOffset a / 128 % 2048 == channelOffset b / 128 % 2048

/-- With 16 other entries in a line's set, retire the least recently used one that is stable and held by no engine
(R105). Assumption 27 (DESIGN CHOICE). -/
def State.makeEntryRoom (s : State) (l : Nat) : State :=
  if isHostLine l then s
  else
    let set := s.dir.filter fun p => p.1 != l && isDramLine p.1 && sameDirSet p.1 l && !(p.2.state == 0 && p.2.ptrs.isEmpty)
    if set.length < 16 then s
    else
      let ok := set.filter fun p => (s.scriptOf p.1).cls p.2.state != 3 && p.2.engine.isNone && !p.2.retire
      match ok with
      | [] => s
      | p :: r => s.retireLine (r.foldl (fun a b => if b.2.used < a.2.used then b else a) p).1

/-- Present an event at a line's home and go on with the line. -/
def State.present (s : State) (l : Nat) (r : Req) : State :=
  let fresh := (s.dir.get? l).isNone
  let s := s.presentOne l r
  let s := if (s.dir.get? l).isSome then
      let (k, s) := s.fresh
      s.modDir l fun d => { d with used := k }
    else s
  let s := if fresh && (s.dir.get? l).isSome then s.makeEntryRoom l else s
  s.settle l

/-- The requests queued at a line's home slice (R109). -/
def State.queuedAt (s : State) (l : Nat) : Nat :=
  ((s.dir.filter fun p => isDramLine p.1 && homeDie p.1 == homeDie l && homeSlice p.1 == homeSlice l).map fun p =>
    (p.2.queue.filter fun r => isRequest r.ev).length).sum

/-- A new request finds no room (R109). Assumption 27 (DESIGN CHOICE). -/
def State.homeFull (s : State) (l : Nat) (r : Req) : Bool := isRequest r.ev && isDramLine l && 64 ≤ s.queuedAt l

/-! ### Answers (R109) -/

/-- An answer of a holder to a recall or invalidation. One that is not due, or answers another round, is discarded. -/
def State.takeAnswer (s : State) (a : RecAns) : State :=
  let d := s.dirOf a.line
  match d.round with
  | none => s
  | some rd =>
    if !rd.due.contains a.agent || a.rnd ≠ rd.rnd then s
    else
      let rd := { rd with
        due := rd.due.filter (· != a.agent)
        dirty := if a.dirty.isSome && (d.ovf || d.ptrs.contains a.agent) then a.dirty else rd.dirty }
      let s := s.modDir a.line fun d => { d with
        round := some rd
        ptrs := if a.down then d.ptrs else d.ptrs.filter (· != a.agent) }
      if !rd.due.isEmpty then s
      else
        let s := s.modDir a.line fun d => { d with round := none }
        let s := if isDramLine a.line then s.monLatency (sliceMon (homeDie a.line) (homeSlice a.line)) 8 else s
        if rd.kind = retireKind then
          let s := match rd.dirty with
            | some (x, ds) => s.writeHome a.line x fullMask ds 3
            | none => s
          (s.modDir a.line fun d => { d with ptrs := [], ovf := false, state := 0, retire := false }).settle a.line
        else (State.applyEvent applyFuel s a.line (recallAckOf a.line rd.dirty)).settle a.line

/-- The controllers answer for an agent that is declared failed every round that waits on it (R125): not held. -/
def State.answerFor (s : State) (agent : BitVec 16) : State :=
  (s.dir.filterMap fun p => match p.2.round with
    | some rd => if rd.due.contains agent then some (p.1, rd.rnd) else none
    | none => none).foldl (fun s p => s.takeAnswer ⟨p.1, agent, none, false, p.2⟩) s

/-- The home's earlier message to an agent about the same line is still under way, or the line is still on its way to it
(R107). Assumption 29 (DEDUCED). -/
def State.earlierRecall (s : State) (k l : Nat) (agent : BitVec 16) : Bool :=
  s.recs.any (fun p => p.1 < k && p.2.line == l && (p.2.agent == agent || p.2.fwd.any fun r => r.holder == some agent))
    || s.pushes.any (fun p => p.1 < k && p.2.line == l && p.2.agent == agent)

/-- Two requests come from one agent: from one tile, or through one die's L2, which evicts for itself. -/
def sameAgent (p r : Req) : Bool :=
  p.tile == r.tile || (p.die == r.die && (p.holder.any isL2Id || r.holder.any isL2Id))

/-- An earlier request of the same agent for the same line, or an earlier answer of it about the line, is still under way
(R107). Evicts do not wait for requests that find no room (R109). Assumption 29 (DEDUCED). -/
def State.earlierReq (s : State) (k : Nat) (r : Req) : Bool :=
  (s.net.any fun p => p.1 < k && p.2.line == r.line && sameAgent p.2 r && (isRequest r.ev || !isRequest p.2.ev))
    || s.answers.any fun p => p.1 < k && p.2.line == r.line && (p.2.agent == l2Id r.die || r.holder == some p.2.agent)

/-- An evict of a line by an agent is under way: its later messages come after it (R107). -/
def State.evicting (s : State) (l : Nat) (agent : BitVec 16) : Bool :=
  s.net.any fun p => p.2.line == l && p.2.holder == some agent && (p.2.ev == evEvictClean || p.2.ev == evEvictDirty)

/-- An earlier reply to the same tile about the same line is still under way (R107). Assumption 29 (DEDUCED). -/
def State.earlierReply (s : State) (k : Nat) (r : Req) : Bool :=
  s.reps.any fun p => p.1 < k && p.2.req.line == r.line && p.2.req.tile == r.tile

/-! ### A die's L2 as a holder (R100, R101, R108) -/

/-- A push is on its way to a die's copy of a line: until it has come no read is served from that copy, so that no agent
reads the old value after another has read the new one (R247). Assumption 29 (DEDUCED). -/
def State.pushComing (s : State) (die l : Nat) : Bool := s.pushes.any fun p => p.2.line == l && p.2.agent == l2Id die

/-- What a die's L2 does with a request that reaches it: it serves it, keeps it waiting, or passes it on. -/
inductive Served where
  | done (s : State)
  | wait
  | pass

/-- A write into an owned line of a die's L2. -/
def State.putL2 (s : State) (die l : Nat) (h : HLine) (data : Nat) (descs : BitVec 32) : State :=
  let s := s.keepOld l
  { s with l2 := s.l2.set (l2Key die l) { h with right := 3, data := data, descs := descs } }

/-- Serve a request from a line that a die's L2 holds in sufficient rights. One that an engine owns there keeps every other
request waiting (R135). WOK is as the home's reply gave it. Assumption 25 (DESIGN CHOICE). Assumption 79 (DESIGN CHOICE). -/
def State.serveL2 (s : State) (die : Nat) (l : Nat) (r : Req) : Served :=
  match s.l2Line die l with
  | none => .pass
  | some h =>
    let err (i : Nat) : Nat := if s.isBad (.l2 die l i) then 2 else 0
    if h.eng.isSome then .wait
    else if r.ev = evRead || r.ev = evReplica then
      (if s.pushComing die l then .wait else .done (s.answer r (.data 0 h.data h.descs h.wok (err 0, err 1))))
    else if h.right < 2 then .pass
    else if r.ev = evWrite then
      let fix (s : State) (i : Nat) : State := if wholeBlock r.mask r.descW i then s.clearBad (.l2 die l i) else s
      let s := s.putL2 die l h (mergeData h.data r.data r.mask) (keepDescs l h.descs r.descs r.descW)
      .done ((fix (fix s 0) 1).answer r .ack)
    else if r.ev = evAtomic || r.ev = evReduce then
      if r.ev = evReduce && !isPeerLine l && !(s.scriptOf l).redmask.testBit (redKind r.op r.aty) then
        .done (s.answer r (.nack r.ev (s.slotOf l)))
      else if r.ev = evReduce && s.secondWaits r then .wait
      else if r.ev = evReduce && (s.secondRefuses r).isSome then
        .done (s.answer r (.nack r.ev ((s.secondRefuses r).getD 0)))
      else if s.elemsErr l r.elems ≠ 0 then .done (s.answer r (.fail (failMem (s.elemsErr l r.elems))))
      else
        match r.elems.findSome? fun e => e.second.map fun l2 => (e, l2) with
        | some (e, l2) => .done ((s.reduceAcross l l2 r e).answer r .ack)
        | none =>
          let (d, olds) := performElems r.op r.aty h.data r.elems
          .done ((s.putL2 die l h d h.descs).answer r (if r.ev = evAtomic then .result olds else .ack))
    else .pass

/-- An engine takes a line of the host or a peer, or gives it back, at its die's L2, which is the holder at the home (R135,
R340). -/
def State.engineL2 (s : State) (die l : Nat) (r : Req) : Served :=
  match s.l2Line die l with
  | none => if r.ev = evEngineOwn then .pass else .done (s.answer r .ack)
  | some h =>
    if r.ev = evEngineOwn then
      (if h.eng.isSome then .wait
       else if h.right < 2 then .pass
       else .done ({ s with l2 := s.l2.set (l2Key die l) { h with right := 3, eng := r.holder } }.answer r
         (.data 3 h.data h.descs true (0, 0))))
    else if h.eng = r.holder then
      .done ((s.putL2 die l { h with eng := none } (mergeData h.data r.data r.mask)
        (keepDescs l h.descs r.descs r.descW)).answer r .ack)
    else .done (s.answer r .ack)

/-- A request of a tile is local to its home: a DRAM line of its own die (R101). -/
def localReq (l : Nat) (r : Req) : Bool := isDramLine l && homeDie l == r.die

/-- The form in which a request of the other die, or for a line of the host's, reaches the home (R101, R340): its L2 is the
holder, for an engine's too (R135); a write by an S holder
under FLAGS[3] is an update (R113). Assumption 29 (DEDUCED). -/
def State.asHolder (s : State) (l : Nat) (r : Req) : Req :=
  if r.holder.any isEngineId then { r with holder := some (l2Id r.die) }
  else if r.holder.isSome then r
  else
    let held := (s.l2Line r.die l).isSome
    { r with
      holder := some (l2Id r.die)
      ev := if r.ev = evWrite && held && (s.scriptOf l).flags.testBit 3 then evUpdate else r.ev }

/-! ### Replicas (R106) -/

/-- The replica slice of a tile, one per tile. Assumption 28 (DESIGN CHOICE). -/
def replicaSlot (tile : Nat) : Nat := tile

/-- The set of a replica slice in which a line's copy stands. Assumption 28 (DESIGN CHOICE). -/
def replicaSet (l : Nat) : Nat := lineInDie l / 128 % 1024

/-- The replica that would serve a tile's load. Assumption 28 (DESIGN CHOICE). -/
def State.replicaOf (s : State) (r : Req) : Option Replica :=
  s.replicas.find? fun x => x.slot == replicaSlot r.tile && x.launch == r.launch && x.line == r.line

/-- Keep the copy a replica-read was answered with. Replicas take at most 4 ways of a set: where 4 stand there, one of the
hardware's choice goes (R100). Assumption 28 (DESIGN CHOICE). -/
def State.keepReplica (s : State) (r : Req) (data : Nat) (descs : BitVec 32) : State :=
  if (s.replicaOf r).isSome then s
  else
    let new : Replica := ⟨replicaSlot r.tile, r.launch, r.line, data, descs⟩
    let set := s.replicas.filter fun x => x.slot == new.slot && replicaSet x.line == replicaSet r.line
    if set.length < 4 then { s with replicas := new :: s.replicas }
    else
      let (n, s) := s.takeFree
      let out := set[n % set.length]?
      { s with replicas := new :: s.replicas.filter fun x => some x != out }

/-- The right code of a reply that a replica has served: nothing of it is kept in the L1 (R106). -/
def fromReplica : Nat := 4

/-- Serve a replicate load from its replica, unless the copy is evicted just then, which is a free choice.
Assumption 28 (DESIGN CHOICE). -/
def State.serveReplica (s : State) (r : Req) : Option State × State :=
  match s.replicaOf r with
  | none => (none, s)
  | some x =>
    let (keep, s) := s.takeBit
    if keep then (some (s.answer r (.data fromReplica x.data x.descs false (0, 0))), s)
    else (none, { s with replicas := s.replicas.filter (· != x) })

/-- A request of a memory access. -/
def Tag.isAcc : Tag → Bool
  | .acc _ _ => true
  | _ => false

/-! ### Requests on the network -/

/-- Take a request off the network. -/
def State.unNet (s : State) (k : Nat) : State := { s with net := s.net.del k }

/-- The event is the one a request raises. -/
def State.reqAt (s : State) (k ev : Nat) : Option Req :=
  match s.net.get? k with
  | some r => if r.ev = ev then some r else none
  | none => none

/-- A request reaches the L2 slice of its die (R101, R340). -/
def State.atSlice (s : State) (l : Nat) (r : Req) : Served :=
  if !isDramLine l && r.holder.any isEngineId then s.engineL2 r.die l r
  else if r.holder.any isL2Id then .pass
  else s.serveL2 r.die l r

/-- An engine-own first makes the L2 of its own die give up its copy, so that no later request of the tile is served there
(R135): one of a line homed on the other die, and a read copy of a line of the host's or a peer's.
Assumption 30 (DESIGN CHOICE). -/
def State.mustEvict (s : State) (l : Nat) (r : Req) : Bool :=
  r.ev == evEngineOwn && (s.l2Line r.die l).any fun h => isDramLine l || h.right < 2

/-- An engine-own waits until that copy has gone. -/
def State.ownWaits (s : State) (l : Nat) (r : Req) : Bool := r.ev == evEngineOwn && s.evicting l (l2Id r.die)

/-- A request inside the package reaches a home, or the L2 slice before it (R101, R107, R340). -/
def State.arrive (s : State) (k : Nat) (r : Req) : State :=
  let l := r.line
  if s.earlierReq k r then s
  else if s.mustEvict l r then s.evictL2 r.die l
  else if s.ownWaits l r then s
  else if isPeerLine l then
    if !s.peerReachable (peerOf l) then (s.unNet k).answer r (.fail 0x27)
    else
      match s.atSlice l r with
      | .done s => s.unNet k
      | _ => s
  else if isHostLine l && s.ports.failed.contains 0x1FFF then (s.unNet k).answer r (.fail 0x27)
  else
    let (rep, s) := if r.ev = evReplica && isDramLine l && r.tag.isAcc then s.serveReplica r else (none, s)
    match rep with
    | some s => s.unNet k
    | none =>
      let r := if r.ev = evReplica && isHostLine l && r.tag.isAcc then { r with ev := evRead } else r
      if localReq l r || (isDramLine l && r.holder.any isEngineId) then
        if s.homeFull l r then s else (s.unNet k).present l r
      else
        match s.atSlice l r with
        | .done s => s.unNet k
        | .wait => s
        | .pass => if s.homeFull l r then s else (s.unNet k).present l (s.asHolder l r)

/-- A request whose home is a peer device is answered by that device: an input (R343, R379).
Assumption 23 (DESIGN CHOICE). -/
def State.arrivePeer (s : State) (k : Nat) (r : Req) (a : PeerAns) : State :=
  let l := r.line
  if !isPeerLine l || s.earlierReq k r || s.ownWaits l r then s
  else if s.mustEvict l r then s.evictL2 r.die l
  else if !s.peerReachable (peerOf l) then (s.unNet k).answer r (.fail 0x27)
  else
    match s.atSlice l r with
    | .done s => s.unNet k
    | .wait => s
    | .pass =>
      let s := s.unNet k
      if a.nack then s.answer r (.nack r.ev a.slot.toNat)
      else if r.ev = evRead || r.ev = evReplica || r.ev = evReadOwn || r.ev = evEngineOwn then
        let right := if r.ev = evEngineOwn then 3 else a.right.toNat
        let eng := if r.ev = evEngineOwn then some (stagehandId r.tile) else none
        (s.installL2 (some (l2Id r.die)) l right a.data.toNat a.descs r.ef eng a.wok (0, 0)).answer r
          (.data right a.data.toNat a.descs a.wok (0, 0))
      else if r.ev = evAtomic then s.answer r (.result (performElems r.op r.aty a.data.toNat r.elems).2)
      else s.answer r .ack

/-- Requests an agent outside has presented that have not performed (R377). -/
def State.extPending (s : State) (holder : BitVec 16) : Bool :=
  s.flying.any fun r => r.tag == .ext && r.tile == 0x200 + holder.toNat

/-- A peer's home pushes bytes to a line of its own that a die's L2 holds (R114, R343). Assumption 65 (DESIGN CHOICE). -/
def State.peerPush (s : State) (x : ExtReq) : State :=
  let put (s : State) (die : Nat) : State := { s with l2 := s.l2.alter (l2Key die x.line) fun h => { h with
    data := mergeData h.data x.data.toNat x.mask
    descs := keepDescs x.line h.descs x.descs x.descW } }
  put (put s 0) 1

/-- A request the host or a peer presents (R102, R340): on a host-homed line the host's own access, else as a holder.
The host never presents update, engine-own or replica-read. A request that its agent orders after its earlier ones waits for
them (R377). An update that a peer presents on a line of its own is a push of its home (R114).
Assumption 65 (DESIGN CHOICE). -/
def State.arriveExt (s : State) (ev : Nat) (x : ExtReq) : State :=
  let l := x.line
  let host : Bool := x.holder == hostId
  let peer : Bool := x.holder.toNat / 2 ^ 13 == 3
  let own := isHostLine l && host
  let ok := if host then ev ≤ evWrite || ev = evEvictClean || ev = evEvictDirty || ev = evAtomic || ev = evReduce
    else peer && (ev ≤ evEvictDirty || (evAtomic ≤ ev && ev ≤ evReplica))
  if !ok || s.failedAgent x.holder then s
  else if isPeerLine l then
    (if ev = evUpdate && peerOf l == x.holder.toNat % 2 ^ 13 then s.peerPush x else s)
  else if !(isDramLine l || own) || (x.ord && s.extPending x.holder) then s
  else
    let op := x.elemOp.toNat % 16
    let aty := x.elemOp.toNat / 16 % 4
    let r : Req := { Req.bare ev l with
      holder := if own then none else some x.holder
      data := x.data.toNat
      mask := x.mask
      descs := x.descs
      descW := if host then 0 else x.descW
      elems := [⟨0, 0, 0, x.elemOff.toNat, atWidth op aty, x.opnd.toNat, x.cmp.toNat, none⟩]
      op := op
      aty := aty
      tile := 0x200 + x.holder.toNat }
    if s.homeFull l r then s else s.present l r

/-- A coherence event: from the network, answered by a peer's home, or raised outside (R113). -/
def State.cohEvent (s : State) (ev : Nat) : ReqSrc → State
  | .net k => match s.reqAt k ev with
    | some r => s.arrive k r
    | none => s
  | .peer k a => match s.reqAt k ev with
    | some r => s.arrivePeer k r a
    | none => s
  | .ext x => s.arriveExt ev x

/-! ### Holders' answers -/

/-- What a die's L2 does with a recall (R115): its line after, its data if dirty, and whether it keeps a read copy.
Assumption 25 (DESIGN CHOICE). -/
def State.l2Recall (s : State) (die l kind : Nat) : State × Option (Nat × BitVec 32) × Bool :=
  match s.l2Line die l with
  | none => (s, none, false)
  | some h =>
    let dirty := if h.right = 3 then some (h.data, h.descs) else none
    let half (s : State) (i : Nat) : State :=
      if dirty.isSome && s.isBad (.l2 die l i) && !isPeerLine l then s.markBad (.block (2 * l + i)) else s
    let s := half (half s 0) 1
    if kind = 0x11 then ({ s with l2 := s.l2.set (l2Key die l) { h with right := 1 } }, dirty, true)
    else ((({ s with l2 := s.l2.del (l2Key die l) }).clearBad (.l2 die l 0)).clearBad (.l2 die l 1), dirty, false)

/-- The owner forwards a line to a requester (R115). A holder requester takes ownership; the bytes forwarded to a local
requester, which the home does not record, become the home copy. Assumption 26 (DEDUCED). -/
def State.forward (s : State) (r : Req) (l data : Nat) (descs : BitVec 32) (wok : Bool) (errs : Nat × Nat) :
    State :=
  let s := match r.holder with
    | none => s.writeHome l data fullMask descs 3
    | some _ => s
  (s.installL2 r.holder l 3 data descs r.ef r.engineOf wok errs).answer r (.data 3 data descs wok errs)

/-- A die's L2 answers a recall or invalidation (R108). One that has evicted the line forwards what it evicted, or the home
copy. Assumption 26 (DEDUCED). -/
def State.l2Answer (s : State) (m : Recall) : State :=
  let die := m.agent.toNat / 2 ^ 13
  match m.fwd with
  | some r =>
    let (data, descs) := match s.l2Line die m.line with
      | some h => (h.data, h.descs)
      | none => s.cohLine m.line
    let err (i : Nat) : Nat := if s.isBad (.l2 die m.line i) then 2 else 0
    let errs := (err 0, err 1)
    let s := (({ s with l2 := s.l2.del (l2Key die m.line) }).clearBad (.l2 die m.line 0)).clearBad (.l2 die m.line 1)
    (s.forward r m.line data descs m.wok errs).sendAnswer ⟨m.line, m.agent, none, false, m.rnd⟩
  | none =>
    let (s, dirty, down) := s.l2Recall die m.line m.kind
    s.sendAnswer ⟨m.line, m.agent, dirty, down, m.rnd⟩

/-- The host or a peer answers a recall: an input. The host has no descriptors: a block keeps the home's (R95). What a
device that is declared failed sends is discarded (R345). Assumption 65 (DESIGN CHOICE). -/
def State.extAnswer (s : State) (m : Recall) (a : PeerAns) : State :=
  let descs := if m.agent == hostId then s.lineDescs m.line else a.descs
  if s.failedAgent m.agent then s
  else
    match m.fwd with
    | some r => (s.forward r m.line a.data.toNat descs m.wok (0, 0)).sendAnswer ⟨m.line, m.agent, none, false, m.rnd⟩
    | none => s.sendAnswer ⟨m.line, m.agent, if a.dirty then some (a.data.toNat, descs) else none, m.kind == 0x11 && !a.nack, m.rnd⟩

/-- A peer's home recalls or invalidates a line of its own that this device holds: both dies' L2s give it up, or keep a
read copy under RECALL_DOWN; what they return leaves the device (R115, R343). `elemOp` is the kind.
Assumption 65 (DESIGN CHOICE). -/
def State.peerRecall (s : State) (x : ExtReq) : State :=
  let busy (die : Nat) : Bool := match s.l2Line die x.line with
    | some h => h.eng.isSome
    | none => false
  if !isPeerLine x.line || x.holder.toNat ≠ 0x6000 + peerOf x.line || s.failedAgent x.holder || busy 0 || busy 1 then s
  else (((s.l2Recall 0 x.line x.elemOp.toNat).1).l2Recall 1 x.line x.elemOp.toNat).1

end Sys2Proof.Machine
end

