-- ==== Sys2Proof/Machine/CohRegs.lean ====
section
/-! DEFINITION. The coherence register blocks (R120-R123) and the coherence events (R107-R113, R125). -/

namespace Sys2Proof.Machine

/-! ### Requests presented at a home (R113) -/

def execRead (src : ReqSrc) (s : State) : Host.Outcome State Fault Refusal := .next (s.cohEvent evRead src)
def execReadOwn (src : ReqSrc) (s : State) : Host.Outcome State Fault Refusal := .next (s.cohEvent evReadOwn src)
def execWriteThrough (src : ReqSrc) (s : State) : Host.Outcome State Fault Refusal := .next (s.cohEvent evWrite src)
def execUpdate (src : ReqSrc) (s : State) : Host.Outcome State Fault Refusal := .next (s.cohEvent evUpdate src)
def execEvictClean (src : ReqSrc) (s : State) : Host.Outcome State Fault Refusal := .next (s.cohEvent evEvictClean src)
def execEvictDirty (src : ReqSrc) (s : State) : Host.Outcome State Fault Refusal := .next (s.cohEvent evEvictDirty src)
def execAtomic (src : ReqSrc) (s : State) : Host.Outcome State Fault Refusal := .next (s.cohEvent evAtomic src)
def execReduce (src : ReqSrc) (s : State) : Host.Outcome State Fault Refusal := .next (s.cohEvent evReduce src)
def execEngineOwn (src : ReqSrc) (s : State) : Host.Outcome State Fault Refusal := .next (s.cohEvent evEngineOwn src)
def execReplicaRead (src : ReqSrc) (s : State) : Host.Outcome State Fault Refusal := .next (s.cohEvent evReplica src)

/-- A line's timer expires (R109, R125): in a transient state TMO counts on, and at the eighth a stall is reported; the entry is
applied. Past 63 the count goes on. Assumption 75 (DESIGN CHOICE). -/
def execTimeout (line : Nat) (s : State) : Host.Outcome State Fault Refusal :=
  let d := s.dirOf line
  if !d.timer then .next s
  else
    let n := if (s.scriptOf line).cls d.state = 3 then d.tmo + 1 else d.tmo
    let s := s.modDir line fun d => { d with timer := false, tmo := n }
    let s := if n = 8 && d.tmo = 7 then s.stallReport line d.ovf ((d.round.map (·.due)).getD []) else s
    .next ((State.applyEvent applyFuel s line (Req.bare evTimeout line)).settle line)

/-- An answer to a recall or invalidation reaches its home, after what its agent has sent about the line before (R107, R109). -/
def execRecallAnswer (k : Nat) (s : State) : Host.Outcome State Fault Refusal :=
  match s.answers.get? k with
  | none => .next s
  | some a =>
    if s.answers.any (fun p => p.1 < k && p.2.line == a.line && p.2.agent == a.agent)
        || s.net.any (fun p => p.1 < k && p.2.line == a.line && p.2.holder == some a.agent) then .next s
    else .next (({ s with answers := s.answers.del k }).takeAnswer a)

/-- A push that reaches a die's L2: its copy takes the bytes with the descriptors they write (R95, R114). -/
def State.takePush (s : State) (die : Nat) (m : PushMsg) : State :=
  let fix (s : State) (i : Nat) : State := if wholeBlock m.mask m.descW i then s.clearBad (.l2 die m.line i) else s
  fix (fix { s with l2 := s.l2.alter (l2Key die m.line) fun h => { h with
    data := mergeData h.data m.data m.mask
    descs := keepDescs m.line h.descs m.descs m.descW } } 0) 1

/-- The bytes of a pushed write reach a holder (R114). -/
def execPushUpdateReceive (k : Nat) (s : State) : Host.Outcome State Fault Refusal :=
  match s.pushes.get? k with
  | none => .next s
  | some m =>
    if s.earlierRecall k m.line m.agent then .next s
    else
      let s := { s with pushes := s.pushes.del k }
      .next (if isL2Id m.agent then s.takePush (m.agent.toNat / 2 ^ 13) m else s)

/-! ### Range commits (R120, R121) -/

/-- Lines of a die's two ranges. -/
def Coh.inRanges (c : Coh) (n : Nat) (w0 : W64) (l : Nat) : Bool := rangeHas (c.word0 n) (l * 128) || rangeHas w0 (l * 128)

/-- A write of word 1 of entry `n` (R121). One that comes while BUSY is ignored. Assumption 50 (DESIGN CHOICE). -/
def State.commitRange (s : State) (die n : Nat) (val : W64) : State :=
  let c := s.cohOf die
  if c.rtBusy then s
  else
    let w0 := c.staged.getD n 0
    let code := c.rangeCheck w0 val
    let s := s.modCoh die fun c => { c with rtstat := BitVec.ofNat 64 (n * 256 + code) }
    if code ≠ 0 then s
    else
      let s := s.modCoh die fun c => { c with rtBusy := true, rtPend := some (n, w0, val) }
      let hit (l : Nat) : Bool := isDramLine l && homeDie l == die && c.inRanges n w0 l
      let s := { s with replicas := s.replicas.filter fun x => !hit x.line }
      ((s.dir.filter fun p => hit p.1).map (·.1)).foldl (fun s l => s.retireLine l) s

def execRtabCommit (die n : Nat) (val : W64) (s : State) : Host.Outcome State Fault Refusal :=
  .next (if die < 2 && n < 64 then s.commitRange die n val else s)

/-- Every line of the two ranges is retired: the entry takes effect and BUSY clears (R121). -/
def execRangeRetireDone (die : Nat) (s : State) : Host.Outcome State Fault Refusal :=
  let c := s.cohOf die
  match c.rtPend with
  | none => .next s
  | some (n, w0, w1) =>
    let hit (l : Nat) : Bool := isDramLine l && homeDie l == die && c.inRanges n w0 l
    let lines := (s.dir.filter fun p => hit p.1).map (·.1)
    let busy := lines.any fun l =>
      let d := s.dirOf l
      d.retire || d.round.isSome || !d.ptrs.isEmpty || d.ovf || (s.scriptOf l).cls d.state == 3
    if busy then .next s
    else
      let s := s.modCoh die fun c => { c with
        rtBusy := false
        rtPend := none
        force0 := c.force0.set n w0
        force1 := c.force1.set n w1 }
      let s := lines.foldl (fun s l => s.modDir l fun d => { d with state := 0 }) s
      .next (lines.foldl (fun s l => s.settle l) s)

/-! ### Loading scripts (R123) -/

/-- A write of SLDCMD: with commit = 1 a load starts, unless one is under way. -/
def State.startLoad (s : State) (die : Nat) (val : W64) : State :=
  if !val.getLsbD 8 || (s.cohOf die).sldBusy then s
  else s.modCoh die fun c => { c with sldBusy := true, sldCmd := val }

def execSldcmdCommit (die : Nat) (val : W64) (s : State) : Host.Outcome State Fault Refusal :=
  .next (if die < 2 then s.startLoad die val else s)

/-- A valid range entry names a slot (R123 check 0x08). -/
def Coh.slotNamed (c : Coh) (slot : Nat) : Bool :=
  ((List.range 64).any fun n => (c.word0 n).getLsbD 63 && field (c.word1 n) 0 3 == slot)
    || match c.rtPend with
      | some (_, w0, w1) => w0.getLsbD 63 && field w1 0 3 == slot
      | none => false

/-- The checks of a load, in their order (R123). -/
def State.loadCheck (s : State) (die slot pa : Nat) (img : List Byte) : CheckRes :=
  let c := s.cohOf die
  if slot < 6 then (0x07, 0xFF, 0xFF)
  else if c.slotNamed slot then (0x08, 0xFF, 0xFF)
  else if !(isDram pa && isDram (pa + 1087)) || (List.range 18).any (fun i =>
      pa / 64 + i ≤ (pa + 1087) / 64 && s.newestErr ((pa / 64 + i) / 2) ((pa / 64 + i) % 2) ≠ 0) then
    (0x0A, 0xFF, 0xFF)
  else imageCheck img (c.hashMatches img)

/-- The load ends (R123). Assumption 50 (DESIGN CHOICE). -/
def execScriptLoadDone (die : Nat) (s : State) : Host.Outcome State Fault Refusal :=
  let c := s.cohOf die
  if !c.sldBusy then .next s
  else
    let slot := field c.sldCmd 0 3
    let pa := c.sldpa.toNat
    let img := (List.range 1088).map fun i => BitVec.ofNat 8 (s.cohRead (pa + i) 1)
    let (code, ev, st) := s.loadCheck die slot pa img
    .next (s.modCoh die fun c =>
      let c := { c with
        sldBusy := false
        sldstat := BitVec.ofNat 64 (slot * 2 ^ 24 + ev * 2 ^ 16 + st * 2 ^ 8 + code) }
      if code = 0 then
        { c with
          scripts := c.scripts.set slot img
          srep := setField (setField c.srep slot 1 1) (8 + slot) 1 (if (scriptOf img).flags.testBit 2 then 1 else 0) }
      else c)

/-! ### The register block (R122) -/

/-- A read of a die's block; an offset that names no register reads zero. Assumption 50 (DESIGN CHOICE). -/
def State.cohRegRead (s : State) (die off : Nat) : W64 :=
  let c := s.cohOf die
  if off % 8 ≠ 0 then 0
  else if off < 0x400 then (if off % 16 = 0 then c.staged.getD (off / 16) 0 else c.word1 (off / 16))
  else if off = 0x800 then c.sldpa
  else if off = 0x810 then (if c.sldBusy then c.sldstat ||| BitVec.ofNat 64 (2 ^ 63) else c.sldstat)
  else if off = 0x818 then c.srep
  else if off = 0x820 then (if c.rtBusy then c.rtstat ||| BitVec.ofNat 64 (2 ^ 63) else c.rtstat)
  else if 0x900 ≤ off && off < 0xA00 then c.shash.getD ((off - 0x900) / 8) 0
  else if off = 0xA00 then c.shvalid
  else 0

/-- A write to a die's block; registers marked M are read-only through COHDATA (`mgmt` false). SLDPA keeps bits below its
alignment, and the image is read from there. Assumption 50 (DESIGN CHOICE). Assumption 75 (DESIGN CHOICE). -/
def State.cohRegWrite (s : State) (mgmt : Bool) (die off : Nat) (x : W64) : State :=
  if off % 8 ≠ 0 then s
  else if off < 0x400 then
    (if off % 16 = 0 then s.modCoh die fun c => { c with staged := c.staged.set (off / 16) x }
     else s.commitRange die (off / 16) x)
  else if off = 0x800 then s.modCoh die fun c => { c with sldpa := x }
  else if off = 0x808 then s.startLoad die x
  else if 0x900 ≤ off && off < 0xA00 then
    (if mgmt then s.modCoh die fun c => { c with shash := c.shash.set ((off - 0x900) / 8) x } else s)
  else if off = 0xA00 then (if mgmt then s.modCoh die fun c => { c with shvalid := BitVec.ofNat 64 (field x 0 8) } else s)
  else s

end Sys2Proof.Machine
end

