-- ==== Sys2Proof/WellFormed.lean ====
section
/-! DEFINITION. When an instruction has an encoding in its own length: the checks that do not depend on the
instruction's own entry (R38-R41, R43). What each entry accepts (operand kinds, modifier values) is
`Instr.accepts` of Sys2Proof/Decode.lean. -/

namespace Sys2Proof

/-- The guard of an instruction written without a prefix: `pt` (R42). -/
def Guard.always : Guard := ⟨7, 0, 0, false⟩

/-- IMM32 exists in the 128-bit form only (R38), and G1 must be 0 where GOP ignores it (R41). -/
def Hdr.wf (h : Hdr) : Bool :=
  (h.len == .b128 || h.imm == 0) && (h.grd.gop != 0 || h.grd.g1 == 0)

/-- 0x1FF is accepted in the 128-bit form only (R38, R39). -/
def Spec.wfIn (len : Len) : Spec → Bool
  | .imm => len == .b128
  | _ => true

/-- The header of an instruction; the device's events have none. -/
def Instr.hdr : Instr → Option Hdr
  | .nop h => some h
  | .mov h _ _ _ => some h
  | .movi h _ _ _ => some h
  | .movp h _ _ => some h
  | .sel h _ _ _ _ _ => some h
  | .iadd h _ _ _ _ => some h
  | .isub h _ _ _ _ => some h
  | .imul h _ _ _ _ => some h
  | .imulh h _ _ _ _ => some h
  | .imad h _ _ _ _ _ => some h
  | .imin h _ _ _ _ => some h
  | .imax h _ _ _ _ => some h
  | .iabs h _ _ _ => some h
  | .land h _ _ _ _ => some h
  | .lor h _ _ _ _ => some h
  | .lxor h _ _ _ _ => some h
  | .lnot h _ _ _ => some h
  | .shl h _ _ _ _ => some h
  | .shr h _ _ _ _ => some h
  | .sar h _ _ _ _ => some h
  | .rot h _ _ _ _ => some h
  | .bfe h _ _ _ _ _ => some h
  | .bfi h _ _ _ _ _ _ => some h
  | .popc h _ _ _ => some h
  | .clz h _ _ _ => some h
  | .ctz h _ _ _ => some h
  | .brev h _ _ _ => some h
  | .icmp h _ _ _ _ => some h
  | .fadd h _ _ _ _ => some h
  | .fsub h _ _ _ _ => some h
  | .fmul h _ _ _ _ => some h
  | .ffma h _ _ _ _ _ => some h
  | .fmin h _ _ _ _ => some h
  | .fmax h _ _ _ _ => some h
  | .fneg h _ _ _ => some h
  | .fabs h _ _ _ => some h
  | .fcmp h _ _ _ _ => some h
  | .fclass h _ _ _ _ => some h
  | .frnd h _ _ _ => some h
  | .fscl h _ _ _ _ => some h
  | .fdot h _ _ _ _ _ => some h
  | .cvt h _ _ _ _ => some h
  | .cvti h _ _ _ _ => some h
  | .quant h _ _ _ _ _ => some h
  | .deq h _ _ _ _ => some h
  | .amax h _ _ _ _ => some h
  | .rcp h _ _ _ => some h
  | .rsq h _ _ _ => some h
  | .sqrt h _ _ _ => some h
  | .ex2 h _ _ _ => some h
  | .lg2 h _ _ _ => some h
  | .sinr h _ _ _ => some h
  | .cosr h _ _ _ => some h
  | .welf h _ _ => some h
  | .wmerge h _ _ => some h
  | .shfl h _ _ _ _ _ _ => some h
  | .push h _ _ _ _ _ => some h
  | .readl h _ _ _ _ _ => some h
  | .writel h _ _ _ _ => some h
  | .vote h _ _ _ => some h
  | .redl h _ _ _ => some h
  | .scanl h _ _ _ => some h
  | .perm h _ _ _ _ _ => some h
  | .ld h _ _ _ _ _ => some h
  | .st h _ _ _ _ _ => some h
  | .atom h _ _ _ _ _ _ _ => some h
  | .red h _ _ _ _ _ => some h
  | .redq h _ _ _ _ _ _ => some h
  | .fence h _ _ => some h
  | .waitt h => some h
  | .bufset h _ _ _ _ _ _ => some h
  | .bufq h _ _ _ => some h
  | .pref h _ _ _ _ => some h
  | .lfmr h _ _ => some h
  | .tcopy h _ _ _ _ => some h
  | .tstore h _ _ _ _ => some h
  | .tred h _ _ _ _ => some h
  | .tokset h _ _ => some h
  | .yield h _ _ => some h
  | .tokq h _ _ _ => some h
  | .mma h _ _ _ _ _ _ => some h
  | .mloop h _ _ _ _ _ _ => some h
  | .accz h _ _ => some h
  | .accld h _ _ _ _ _ _ => some h
  | .accst h _ _ _ _ _ _ => some h
  | .accmv h _ _ _ => some h
  | .smx h _ _ _ _ => some h
  | .accq h _ _ => some h
  | .ifOp h _ _ _ _ => some h
  | .elseOp h _ => some h
  | .endif h => some h
  | .loop h _ => some h
  | .endloop h _ => some h
  | .brk h _ _ _ => some h
  | .cont h _ _ _ => some h
  | .jmp h _ => some h
  | .call h _ => some h
  | .ret h => some h
  | .exit h => some h
  | .regang h => some h
  | .mergeS h _ _ _ => some h
  | .mergeG h _ _ _ => some h
  | .drop h _ => some h
  | .rankq h _ _ => some h
  | .rvinit h _ _ => some h
  | .rvarr h _ => some h
  | .rvwait h _ _ => some h
  | .rvtest h _ _ => some h
  | .gearSet h _ => some h
  | .gearQ h _ => some h
  | .nap h _ => some h
  | .trap h _ => some h
  | .eret h => some h
  | .csrr h _ _ => some h
  | .csrw h _ _ => some h
  | .bkpt h => some h
  | .halt h => some h
  | .wfi h => some h
  | .tlbi h _ _ _ => some h
  | .quantRetire _ => none
  | .mmaQMeeting _ _ => none
  | .mloopStart _ _ _ => none
  | .mloopComplete _ _ => none
  | .tlbiComplete _ => none
  | .fenceComplete _ => none
  | .waitSatisfied _ _ => none
  | .stagehandWalk _ => none
  | .mcastReservation _ => none
  | .copyComplete _ _ => none
  | .copyCheckpoint _ => none
  | .loadDataArrival _ => none
  | .fillReply _ => none
  | .writeAccept _ => none
  | .lineNack _ => none
  | .l1WritebackTimeout _ _ => none
  | .read _ => none
  | .readOwn _ => none
  | .writeThrough _ => none
  | .update _ => none
  | .evictClean _ => none
  | .evictDirty _ => none
  | .recallAnswer _ => none
  | .atomic _ => none
  | .reduce _ => none
  | .engineOwn _ => none
  | .replicaRead _ => none
  | .timeout _ => none
  | .holderRecall _ => none
  | .pushUpdateReceive _ => none
  | .notify => none
  | .sldcmdCommit _ _ => none
  | .scriptLoadDone _ => none
  | .rtabCommit _ _ _ => none
  | .rangeRetireDone _ => none
  | .fqretryRetry _ => none
  | .fqretryAbort _ => none
  | .fqConfigWrite _ _ => none
  | .fqheadWrite _ => none
  | .lqctlWrite _ _ _ => none
  | .packetCopy _ => none
  | .waitCounterPoll _ => none
  | .distributorPlace => none
  | .rotationTimeout _ => none
  | .clusterSwitchOut _ => none
  | .switchDrainTimeout _ => none
  | .launchCompletion _ => none
  | .phaseStart _ => none
  | .phaseWatchdogExpire _ => none
  | .groupPark _ => none
  | .groupReloadDone _ => none
  | .timeSliceYield _ _ => none
  | .napExpire _ _ => none
  | .rvRelease _ => none
  | .curtainWave _ => none
  | .changeoverComplete _ => none
  | .fllRampStep _ => none
  | .tfreqWrite _ _ _ => none
  | .gcapWrite _ _ _ => none
  | .sensorSample _ _ => none
  | .timerWrite _ => none
  | .timerElapse => none
  | .thermal => none
  | .timer => none
  | .evseqRead => none
  | .evlogRead => none
  | .stallqRead => none
  | .peerfailDeclare _ _ => none
  | .peerfailClear _ _ => none
  | .portLossTimeout _ => none
  | .routeWrite _ => none
  | .peerMessageForward _ _ _ _ => none
  | .attcmdStart _ => none
  | .mctpAttestRequest => none
  | .attestReportDone => none
  | .mext _ => none
  | .monSnap _ => none
  | .monClear _ => none
  | .monLevelSample _ _ => none
  | .patrolScrub _ => none
  | .alwaysOnReset => none
  | .managementReset => none
  | .recoveryImage _ => none
  | .registerWrite _ _ _ => none
  | .portDown _ => none
  | .portRetrain _ _ => none
  | .rvArrival _ => none
  | .mmaComplete _ _ => none
  | .uncorrectableError _ => none

/-- The operand fields an instruction uses. -/
def Instr.specs : Instr → List Spec
  | .nop _ => []
  | .mov _ _ d a => [d, a]
  | .movi _ _ d a => [d, a]
  | .movp _ d a => [d, a]
  | .sel _ _ d a b c => [d, a, b, c]
  | .iadd _ _ d a b => [d, a, b]
  | .isub _ _ d a b => [d, a, b]
  | .imul _ _ d a b => [d, a, b]
  | .imulh _ _ d a b => [d, a, b]
  | .imad _ _ d a b c => [d, a, b, c]
  | .imin _ _ d a b => [d, a, b]
  | .imax _ _ d a b => [d, a, b]
  | .iabs _ _ d a => [d, a]
  | .land _ _ d a b => [d, a, b]
  | .lor _ _ d a b => [d, a, b]
  | .lxor _ _ d a b => [d, a, b]
  | .lnot _ _ d a => [d, a]
  | .shl _ _ d a b => [d, a, b]
  | .shr _ _ d a b => [d, a, b]
  | .sar _ _ d a b => [d, a, b]
  | .rot _ _ d a b => [d, a, b]
  | .bfe _ _ d a b c => [d, a, b, c]
  | .bfi _ _ d a b c e => [d, a, b, c, e]
  | .popc _ _ d a => [d, a]
  | .clz _ _ d a => [d, a]
  | .ctz _ _ d a => [d, a]
  | .brev _ _ d a => [d, a]
  | .icmp _ _ d a b => [d, a, b]
  | .fadd _ _ d a b => [d, a, b]
  | .fsub _ _ d a b => [d, a, b]
  | .fmul _ _ d a b => [d, a, b]
  | .ffma _ _ d a b c => [d, a, b, c]
  | .fmin _ _ d a b => [d, a, b]
  | .fmax _ _ d a b => [d, a, b]
  | .fneg _ _ d a => [d, a]
  | .fabs _ _ d a => [d, a]
  | .fcmp _ _ d a b => [d, a, b]
  | .fclass _ _ d a b => [d, a, b]
  | .frnd _ _ d a => [d, a]
  | .fscl _ _ d a b => [d, a, b]
  | .fdot _ _ d a b c => [d, a, b, c]
  | .cvt _ _ d a b => [d, a, b]
  | .cvti _ _ d a b => [d, a, b]
  | .quant _ _ d a b c => [d, a, b, c]
  | .deq _ _ d a b => [d, a, b]
  | .amax _ _ _ d a => [d, a]
  | .rcp _ _ d a => [d, a]
  | .rsq _ _ d a => [d, a]
  | .sqrt _ _ d a => [d, a]
  | .ex2 _ _ d a => [d, a]
  | .lg2 _ _ d a => [d, a]
  | .sinr _ _ d a => [d, a]
  | .cosr _ _ d a => [d, a]
  | .welf _ d a => [d, a]
  | .wmerge _ d a => [d, a]
  | .shfl _ _ _ _ d a b => [d, a, b]
  | .push _ _ d a b c => [d, a, b, c]
  | .readl _ _ _ d a b => [d, a, b]
  | .writel _ _ d a b => [d, a, b]
  | .vote _ _ d a => [d, a]
  | .redl _ _ d a => [d, a]
  | .scanl _ _ d a => [d, a]
  | .perm _ _ d a b c => [d, a, b, c]
  | .ld _ _ _ d a b => [d, a, b]
  | .st _ _ _ d a b => [d, a, b]
  | .atom _ _ _ d a b c e => [d, a, b, c, e]
  | .red _ _ _ d a b => [d, a, b]
  | .redq _ _ _ d a b c => [d, a, b, c]
  | .fence _ _ d => [d]
  | .waitt _ => []
  | .bufset _ _ d a b c e => [d, a, b, c, e]
  | .bufq _ _ d a => [d, a]
  | .pref _ _ _ d a => [d, a]
  | .lfmr _ _ d => [d]
  | .tcopy _ d a b c => [d, a, b, c]
  | .tstore _ d a b c => [d, a, b, c]
  | .tred _ d a b c => [d, a, b, c]
  | .tokset _ d a => [d, a]
  | .yield _ _ a => [a]
  | .tokq _ _ d a => [d, a]
  | .mma _ _ d a b c e => [d, a, b, c, e]
  | .mloop _ _ d a b c e => [d, a, b, c, e]
  | .accz _ _ d => [d]
  | .accld _ _ _ d a b c => [d, a, b, c]
  | .accst _ _ _ d a b c => [d, a, b, c]
  | .accmv _ _ d a => [d, a]
  | .smx _ d a b c => [d, a, b, c]
  | .accq _ d a => [d, a]
  | .ifOp _ _ _ a b => [a, b]
  | .elseOp _ b => [b]
  | .endif _ => []
  | .loop _ b => [b]
  | .endloop _ b => [b]
  | .brk _ _ a b => [a, b]
  | .cont _ _ a b => [a, b]
  | .jmp _ b => [b]
  | .call _ b => [b]
  | .ret _ => []
  | .exit _ => []
  | .regang _ => []
  | .mergeS _ _ d a => [d, a]
  | .mergeG _ _ d a => [d, a]
  | .drop _ d => [d]
  | .rankq _ d a => [d, a]
  | .rvinit _ _ a => [a]
  | .rvarr _ _ => []
  | .rvwait _ _ _ => []
  | .rvtest _ _ d => [d]
  | .gearSet _ _ => []
  | .gearQ _ d => [d]
  | .nap _ a => [a]
  | .trap _ a => [a]
  | .eret _ => []
  | .csrr _ _ d => [d]
  | .csrw _ _ a => [a]
  | .bkpt _ => []
  | .halt _ => []
  | .wfi _ => []
  | .tlbi _ _ d a => [d, a]
  | .quantRetire _ => []
  | .mmaQMeeting _ _ => []
  | .mloopStart _ _ _ => []
  | .mloopComplete _ _ => []
  | .tlbiComplete _ => []
  | .fenceComplete _ => []
  | .waitSatisfied _ _ => []
  | .stagehandWalk _ => []
  | .mcastReservation _ => []
  | .copyComplete _ _ => []
  | .copyCheckpoint _ => []
  | .loadDataArrival _ => []
  | .fillReply _ => []
  | .writeAccept _ => []
  | .lineNack _ => []
  | .l1WritebackTimeout _ _ => []
  | .read _ => []
  | .readOwn _ => []
  | .writeThrough _ => []
  | .update _ => []
  | .evictClean _ => []
  | .evictDirty _ => []
  | .recallAnswer _ => []
  | .atomic _ => []
  | .reduce _ => []
  | .engineOwn _ => []
  | .replicaRead _ => []
  | .timeout _ => []
  | .holderRecall _ => []
  | .pushUpdateReceive _ => []
  | .notify => []
  | .sldcmdCommit _ _ => []
  | .scriptLoadDone _ => []
  | .rtabCommit _ _ _ => []
  | .rangeRetireDone _ => []
  | .fqretryRetry _ => []
  | .fqretryAbort _ => []
  | .fqConfigWrite _ _ => []
  | .fqheadWrite _ => []
  | .lqctlWrite _ _ _ => []
  | .packetCopy _ => []
  | .waitCounterPoll _ => []
  | .distributorPlace => []
  | .rotationTimeout _ => []
  | .clusterSwitchOut _ => []
  | .switchDrainTimeout _ => []
  | .launchCompletion _ => []
  | .phaseStart _ => []
  | .phaseWatchdogExpire _ => []
  | .groupPark _ => []
  | .groupReloadDone _ => []
  | .timeSliceYield _ _ => []
  | .napExpire _ _ => []
  | .rvRelease _ => []
  | .curtainWave _ => []
  | .changeoverComplete _ => []
  | .fllRampStep _ => []
  | .tfreqWrite _ _ _ => []
  | .gcapWrite _ _ _ => []
  | .sensorSample _ _ => []
  | .timerWrite _ => []
  | .timerElapse => []
  | .thermal => []
  | .timer => []
  | .evseqRead => []
  | .evlogRead => []
  | .stallqRead => []
  | .peerfailDeclare _ _ => []
  | .peerfailClear _ _ => []
  | .portLossTimeout _ => []
  | .routeWrite _ => []
  | .peerMessageForward _ _ _ _ => []
  | .attcmdStart _ => []
  | .mctpAttestRequest => []
  | .attestReportDone => []
  | .mext _ => []
  | .monSnap _ => []
  | .monClear _ => []
  | .monLevelSample _ _ => []
  | .patrolScrub _ => []
  | .alwaysOnReset => []
  | .managementReset => []
  | .recoveryImage _ => []
  | .registerWrite _ _ _ => []
  | .portDown _ => []
  | .portRetrain _ _ => []
  | .rvArrival _ => []
  | .mmaComplete _ _ => []
  | .uncorrectableError _ => []

/-- The unguarded class (R43): structured control and the rejoins. -/
def Instr.unguarded : Instr → Bool
  | .nop _ => false
  | .mov _ _ _ _ => false
  | .movi _ _ _ _ => false
  | .movp _ _ _ => false
  | .sel _ _ _ _ _ _ => false
  | .iadd _ _ _ _ _ => false
  | .isub _ _ _ _ _ => false
  | .imul _ _ _ _ _ => false
  | .imulh _ _ _ _ _ => false
  | .imad _ _ _ _ _ _ => false
  | .imin _ _ _ _ _ => false
  | .imax _ _ _ _ _ => false
  | .iabs _ _ _ _ => false
  | .land _ _ _ _ _ => false
  | .lor _ _ _ _ _ => false
  | .lxor _ _ _ _ _ => false
  | .lnot _ _ _ _ => false
  | .shl _ _ _ _ _ => false
  | .shr _ _ _ _ _ => false
  | .sar _ _ _ _ _ => false
  | .rot _ _ _ _ _ => false
  | .bfe _ _ _ _ _ _ => false
  | .bfi _ _ _ _ _ _ _ => false
  | .popc _ _ _ _ => false
  | .clz _ _ _ _ => false
  | .ctz _ _ _ _ => false
  | .brev _ _ _ _ => false
  | .icmp _ _ _ _ _ => false
  | .fadd _ _ _ _ _ => false
  | .fsub _ _ _ _ _ => false
  | .fmul _ _ _ _ _ => false
  | .ffma _ _ _ _ _ _ => false
  | .fmin _ _ _ _ _ => false
  | .fmax _ _ _ _ _ => false
  | .fneg _ _ _ _ => false
  | .fabs _ _ _ _ => false
  | .fcmp _ _ _ _ _ => false
  | .fclass _ _ _ _ _ => false
  | .frnd _ _ _ _ => false
  | .fscl _ _ _ _ _ => false
  | .fdot _ _ _ _ _ _ => false
  | .cvt _ _ _ _ _ => false
  | .cvti _ _ _ _ _ => false
  | .quant _ _ _ _ _ _ => false
  | .deq _ _ _ _ _ => false
  | .amax _ _ _ _ _ => false
  | .rcp _ _ _ _ => false
  | .rsq _ _ _ _ => false
  | .sqrt _ _ _ _ => false
  | .ex2 _ _ _ _ => false
  | .lg2 _ _ _ _ => false
  | .sinr _ _ _ _ => false
  | .cosr _ _ _ _ => false
  | .welf _ _ _ => false
  | .wmerge _ _ _ => false
  | .shfl _ _ _ _ _ _ _ => false
  | .push _ _ _ _ _ _ => false
  | .readl _ _ _ _ _ _ => false
  | .writel _ _ _ _ _ => false
  | .vote _ _ _ _ => false
  | .redl _ _ _ _ => false
  | .scanl _ _ _ _ => false
  | .perm _ _ _ _ _ _ => false
  | .ld _ _ _ _ _ _ => false
  | .st _ _ _ _ _ _ => false
  | .atom _ _ _ _ _ _ _ _ => false
  | .red _ _ _ _ _ _ => false
  | .redq _ _ _ _ _ _ _ => false
  | .fence _ _ _ => false
  | .waitt _ => false
  | .bufset _ _ _ _ _ _ _ => false
  | .bufq _ _ _ _ => false
  | .pref _ _ _ _ _ => false
  | .lfmr _ _ _ => false
  | .tcopy _ _ _ _ _ => false
  | .tstore _ _ _ _ _ => false
  | .tred _ _ _ _ _ => false
  | .tokset _ _ _ => false
  | .yield _ _ _ => false
  | .tokq _ _ _ _ => false
  | .mma _ _ _ _ _ _ _ => false
  | .mloop _ _ _ _ _ _ _ => false
  | .accz _ _ _ => false
  | .accld _ _ _ _ _ _ _ => false
  | .accst _ _ _ _ _ _ _ => false
  | .accmv _ _ _ _ => false
  | .smx _ _ _ _ _ => false
  | .accq _ _ _ => false
  | .ifOp _ _ _ _ _ => true
  | .elseOp _ _ => true
  | .endif _ => true
  | .loop _ _ => true
  | .endloop _ _ => true
  | .brk _ _ _ _ => true
  | .cont _ _ _ _ => true
  | .jmp _ _ => false
  | .call _ _ => false
  | .ret _ => false
  | .exit _ => false
  | .regang _ => true
  | .mergeS _ _ _ _ => true
  | .mergeG _ _ _ _ => true
  | .drop _ _ => false
  | .rankq _ _ _ => false
  | .rvinit _ _ _ => false
  | .rvarr _ _ => false
  | .rvwait _ _ _ => false
  | .rvtest _ _ _ => false
  | .gearSet _ _ => false
  | .gearQ _ _ => false
  | .nap _ _ => false
  | .trap _ _ => false
  | .eret _ => false
  | .csrr _ _ _ => false
  | .csrw _ _ _ => false
  | .bkpt _ => false
  | .halt _ => false
  | .wfi _ => false
  | .tlbi _ _ _ _ => false
  | .quantRetire _ => false
  | .mmaQMeeting _ _ => false
  | .mloopStart _ _ _ => false
  | .mloopComplete _ _ => false
  | .tlbiComplete _ => false
  | .fenceComplete _ => false
  | .waitSatisfied _ _ => false
  | .stagehandWalk _ => false
  | .mcastReservation _ => false
  | .copyComplete _ _ => false
  | .copyCheckpoint _ => false
  | .loadDataArrival _ => false
  | .fillReply _ => false
  | .writeAccept _ => false
  | .lineNack _ => false
  | .l1WritebackTimeout _ _ => false
  | .read _ => false
  | .readOwn _ => false
  | .writeThrough _ => false
  | .update _ => false
  | .evictClean _ => false
  | .evictDirty _ => false
  | .recallAnswer _ => false
  | .atomic _ => false
  | .reduce _ => false
  | .engineOwn _ => false
  | .replicaRead _ => false
  | .timeout _ => false
  | .holderRecall _ => false
  | .pushUpdateReceive _ => false
  | .notify => false
  | .sldcmdCommit _ _ => false
  | .scriptLoadDone _ => false
  | .rtabCommit _ _ _ => false
  | .rangeRetireDone _ => false
  | .fqretryRetry _ => false
  | .fqretryAbort _ => false
  | .fqConfigWrite _ _ => false
  | .fqheadWrite _ => false
  | .lqctlWrite _ _ _ => false
  | .packetCopy _ => false
  | .waitCounterPoll _ => false
  | .distributorPlace => false
  | .rotationTimeout _ => false
  | .clusterSwitchOut _ => false
  | .switchDrainTimeout _ => false
  | .launchCompletion _ => false
  | .phaseStart _ => false
  | .phaseWatchdogExpire _ => false
  | .groupPark _ => false
  | .groupReloadDone _ => false
  | .timeSliceYield _ _ => false
  | .napExpire _ _ => false
  | .rvRelease _ => false
  | .curtainWave _ => false
  | .changeoverComplete _ => false
  | .fllRampStep _ => false
  | .tfreqWrite _ _ _ => false
  | .gcapWrite _ _ _ => false
  | .sensorSample _ _ => false
  | .timerWrite _ => false
  | .timerElapse => false
  | .thermal => false
  | .timer => false
  | .evseqRead => false
  | .evlogRead => false
  | .stallqRead => false
  | .peerfailDeclare _ _ => false
  | .peerfailClear _ _ => false
  | .portLossTimeout _ => false
  | .routeWrite _ => false
  | .peerMessageForward _ _ _ _ => false
  | .attcmdStart _ => false
  | .mctpAttestRequest => false
  | .attestReportDone => false
  | .mext _ => false
  | .monSnap _ => false
  | .monClear _ => false
  | .monLevelSample _ _ => false
  | .patrolScrub _ => false
  | .alwaysOnReset => false
  | .managementReset => false
  | .recoveryImage _ => false
  | .registerWrite _ _ _ => false
  | .portDown _ => false
  | .portRetrain _ _ => false
  | .rvArrival _ => false
  | .mmaComplete _ _ => false
  | .uncorrectableError _ => false

/-- The checks of this file together. An event is always well formed. -/
def Instr.wf (i : Instr) : Bool :=
  match i.hdr with
  | none => true
  | some h => h.wf && i.specs.all (·.wfIn h.len) && (!i.unguarded || h.grd == .always)

end Sys2Proof
end

