-- ==== Sys2Proof/Decode.lean ====
section
/-! DEFINITION. The decoder and, after it, the encoder. Decoding is total on any bytes; what it refuses it refuses
by name, and every refusal is the trap `ILL` of check 2 or check 4 of R54. -/

namespace Sys2Proof

/-- Why a word is no instruction (R33, R54 check 4). -/
inductive DecodeErr where
  /-- LEN = 0b11 (R33). -/
  | lenReserved
  /-- Fewer bytes than the word's own length. -/
  | tooShort
  /-- SCH = 0b11 (R36). -/
  | schReserved
  /-- A specifier in 0x1F0-0x1FD (R46). -/
  | specReserved
  /-- OPC unassigned (R55, R56). -/
  | opcUnassigned
  /-- A nonzero undefined modifier bit, or an unused operand field other than 0x1FE (R40). -/
  | undefinedField
  /-- 0x1FF outside the 128-bit form, or a guard the class does not accept (R39, R41, R43). -/
  | malformed
  /-- A modifier value or an operand kind the entry does not accept (R47). -/
  | notAccepted
  deriving DecidableEq, Repr

/-- The fields of an instruction word (R36-R38). A field absent from a shorter form holds its implied value (R39). -/
structure Fields where
  len : BitVec 2
  opc : BitVec 10
  mod : BitVec 6
  g0 : BitVec 3
  g1 : BitVec 3
  gop : BitVec 2
  gn : Bool
  wt : BitVec 8
  sch : BitVec 2
  d : BitVec 9
  a : BitVec 9
  b : BitVec 9
  c : BitVec 9
  e : BitVec 9
  ch : Hint
  mod2 : BitVec 10
  imm : BitVec 32
  deriving DecidableEq, Repr

/-! ### Bits of one field -/

/-- One bit. -/
def bit1 (x : Bool) : BitVec 1 := BitVec.ofBool x
/-- Bit `i` of a MOD field. -/
def bit6 (x : Bool) (i : Nat) : BitVec 6 := if x then BitVec.ofNat 6 (2 ^ i) else 0
/-- Bit `i` of a MOD2 field. -/
def bit10 (x : Bool) (i : Nat) : BitVec 10 := if x then BitVec.ofNat 10 (2 ^ i) else 0

/-- The length of an instruction in bytes (R33). -/
def Len.bytes : Len → Nat
  | .b64 => 8 | .b96 => 12 | .b128 => 16
def Len.bits : Len → BitVec 2
  | .b64 => 0 | .b96 => 1 | .b128 => 2
def Len.ofBits (x : BitVec 2) : Option Len :=
  match x.toNat with
  | 0 => some .b64 | 1 => some .b96 | 2 => some .b128 | _ => none

def Sch.bits : Sch → BitVec 2
  | .none => 0 | .pass => 1 | .stay => 2
def Sch.ofBits (x : BitVec 2) : Option Sch :=
  match x.toNat with
  | 0 => some .none | 1 => some .pass | 2 => some .stay | _ => Option.none

/-- The specifier's code (R46). -/
def Spec.bits : Spec → BitVec 9
  | .v n => n.zeroExtend 9
  | .g n => 0x100 + n.zeroExtend 9
  | .t n => 0x180 + n.zeroExtend 9
  | .b n => 0x1C0 + n.zeroExtend 9
  | .p n => 0x1D0 + n.zeroExtend 9
  | .k n => 0x1D8 + n.zeroExtend 9
  | .a n => 0x1E0 + n.zeroExtend 9
  | .sp n => 0x1E4 + BitVec.ofNat 9 n.val
  | .zero => 0x1FE
  | .imm => 0x1FF

/-- The operand a specifier names (R46); `none` for 0x1F0-0x1FD. -/
def Spec.ofBits (x : BitVec 9) : Option Spec :=
  let n := x.toNat
  if n < 0x100 then some (.v (x.truncate 8))
  else if n < 0x180 then some (.g (x.truncate 7))
  else if n < 0x1C0 then some (.t (x.truncate 6))
  else if n < 0x1D0 then some (.b (x.truncate 4))
  else if n < 0x1D8 then some (.p (x.truncate 3))
  else if n < 0x1E0 then some (.k (x.truncate 3))
  else if n < 0x1E4 then some (.a (x.truncate 2))
  else if n < 0x1F0 then some (.sp (Fin.ofNat 12 (n - 0x1E4)))
  else if n == 0x1FE then some .zero
  else if n == 0x1FF then some .imm
  else none

/-! ### Modifier layouts, each with its bits and its reading -/

def IntM.bits (m : IntM) : BitVec 6 := m.w ++ bit1 m.sat ++ bit1 m.sgn ++ m.var
def IntM.ofBits (x : BitVec 6) : IntM := ⟨x.extractLsb' 4 2, x.getLsbD 3, x.getLsbD 2, x.truncate 2⟩
def FltM.bits (m : FltM) : BitVec 6 := m.ft ++ bit1 m.sat ++ m.rm
def FltM.ofBits (x : BitVec 6) : FltM := ⟨x.extractLsb' 4 2, x.getLsbD 3, x.truncate 3⟩
def CvtM.bits (m : CvtM) : BitVec 6 := (0 : BitVec 1) ++ bit1 m.sat ++ m.dty
def CvtM.bits2 (m : CvtM) : BitVec 10 := m.part ++ m.rm ++ m.sty
def CvtM.ofBits (x : BitVec 6) (y : BitVec 10) : CvtM :=
  ⟨x.truncate 4, x.getLsbD 4, y.truncate 4, y.extractLsb' 4 2, y.extractLsb' 6 4⟩
def QuantM.bits (m : QuantM) : BitVec 6 := m.sft ++ m.dfm
def QuantM.bits2 (m : QuantM) : BitVec 10 := bit10 m.nanprop 0
def QuantM.ofBits (x : BitVec 6) (y : BitVec 10) : QuantM := ⟨x.extractLsb' 4 2, x.truncate 4, y.getLsbD 0⟩
def RedM.bits (m : RedM) : BitVec 6 := m.w ++ m.op
def RedM.bits2 (m : RedM) : BitVec 10 := (0 : BitVec 7) ++ bit1 m.excl ++ m.rm
def RedM.ofBits (x : BitVec 6) (y : BitVec 10) : RedM :=
  ⟨x.extractLsb' 4 2, x.truncate 4, y.truncate 2, y.getLsbD 2⟩
def MemM.bits (m : MemM) : BitVec 6 := bit1 m.ord ++ m.n ++ m.ty
def MemM.ofBits (x : BitVec 6) (y : BitVec 10) : MemM :=
  ⟨x.getLsbD 5, x.extractLsb' 3 2, x.truncate 3, y.truncate 3⟩
def AtomM.bits (m : AtomM) : BitVec 6 := m.aty ++ m.op
def AtomM.bits2 (m : AtomM) : BitVec 10 := (0 : BitVec 5) ++ m.ord ++ m.sc
def AtomM.ofBits (x : BitVec 6) (y : BitVec 10) : AtomM :=
  ⟨x.extractLsb' 4 2, x.truncate 4, y.extractLsb' 3 2, y.truncate 3⟩
/-- REDQ keeps Q in MOD[0]; it is read into the operation code, 0 `.f32` and 1 `.q64` (R158). -/
def AtomM.ofBitsQ (x : BitVec 6) (y : BitVec 10) : AtomM :=
  ⟨0, (x.truncate 1 : BitVec 1).zeroExtend 4, y.extractLsb' 3 2, y.truncate 3⟩
def FenceM.bits (m : FenceM) : BitVec 6 := bit1 m.atK ++ bit1 m.stK ++ bit1 m.ldK ++ m.sc
def FenceM.ofBits (x : BitVec 6) (y : BitVec 10) : FenceM :=
  ⟨x.getLsbD 5, x.getLsbD 4, x.getLsbD 3, y.getLsbD 0, x.truncate 3⟩
def MmaM.bits (m : MmaM) : BitVec 6 := m.acls ++ m.bcls ++ bit1 m.si32 ++ bit1 m.quad
def MmaM.ofBits (x : BitVec 6) (y : BitVec 10) : MmaM :=
  ⟨x.extractLsb' 4 2, x.extractLsb' 2 2, x.getLsbD 1, x.getLsbD 0, y.getLsbD 0⟩
def AccM.bits (m : AccM) : BitVec 6 := bit1 m.sat ++ bit1 m.side ++ bit1 m.norm ++ m.ty
def AccM.ofBits (x : BitVec 6) : AccM := ⟨x.getLsbD 5, x.getLsbD 4, x.getLsbD 3, x.truncate 3⟩
def MergeM.bits (m : MergeM) (lvl : Bool) : BitVec 6 := (0 : BitVec 2) ++ m.mode ++ bit1 lvl
def MergeM.bits2 (m : MergeM) : BitVec 10 := (0 : BitVec 2) ++ m.rp ++ m.ty
def MergeM.ofBits (x : BitVec 6) (y : BitVec 10) : MergeM :=
  ⟨x.extractLsb' 1 3, y.truncate 3, y.extractLsb' 3 5⟩

/-! ### Operand kinds -/

/-- `Src` of R173: `v`, `g`, `t`, `zero`, an immediate or a special. -/
def Spec.isSrc : Spec → Bool
  | .v _ | .g _ | .t _ | .zero | .imm | .sp _ => true
  | _ => false
/-- `v`, `g`, `t`, `zero` or an immediate (R80, R142). -/
def Spec.isVal : Spec → Bool
  | .v _ | .g _ | .t _ | .zero | .imm => true
  | _ => false
def Spec.isVGT : Spec → Bool
  | .v _ | .g _ | .t _ => true
  | _ => false
def Spec.isGT : Spec → Bool
  | .g _ | .t _ => true
  | _ => false
def Spec.isV : Spec → Bool | .v _ => true | _ => false
def Spec.isG : Spec → Bool | .g _ => true | _ => false
def Spec.isT : Spec → Bool | .t _ => true | _ => false
def Spec.isB : Spec → Bool | .b _ => true | _ => false
def Spec.isK : Spec → Bool | .k _ => true | _ => false
def Spec.isA : Spec → Bool | .a _ => true | _ => false
/-- `p0`-`p6` or `pt`. -/
def Spec.isP : Spec → Bool | .p _ => true | _ => false
/-- `p0`-`p6`. -/
def Spec.isP06 : Spec → Bool | .p n => n != 7 | _ => false
/-- A `g` register up to a bound, where registers after it are read too (R142, R229). -/
def Spec.isGUpTo (m : Nat) : Spec → Bool | .g n => n.toNat ≤ m | _ => false
/-- A register pair that does not run past `g127`, `t63` or `v255` (R210). -/
def Spec.isPair : Spec → Bool
  | .v n => n.toNat < 255
  | .g n => n.toNat < 127
  | .t n => n.toNat < 63
  | _ => false

/-! ### Modifier values -/

/-- An integer entry's SAT and VAR (R173). -/
def IntM.ok (m : IntM) (satOk : Bool) (vars : List Nat) : Bool := (satOk || !m.sat) && vars.contains m.var.toNat
/-- The condition of ICMP: MOD[3] and MOD[1:0] (R185). -/
def IntM.cc (m : IntM) : BitVec 3 := bit1 m.sat ++ m.var
/-- A scope code, 0 where the instruction carries no acquire and no release (R158). -/
def scOk (ordered : Bool) (sc : BitVec 3) : Bool := if ordered then sc.toNat ≤ 4 else sc == 0
/-- A signed TY (R158). -/
def MemM.signed (m : MemM) : Bool := m.ty == 2 || m.ty == 4 || m.ty == 6
/-- The width in bytes of a typed TY; 0 for untyped (R158). -/
def MemM.width (m : MemM) : Nat :=
  match m.ty.toNat with
  | 0 => 0 | 1 | 2 => 1 | 3 | 4 => 2 | 5 | 6 => 4 | _ => 8
def MemM.ok (m : MemM) : Bool :=
  scOk m.ord m.sc && (!m.signed || m.n == 0) && 2 ^ m.n.toNat * m.width ≤ 8
def AtomM.ok (m : AtomM) : Bool :=
  scOk (m.ord != 0) m.sc && (m.op.toNat ≤ 7 || m.op.toNat ≤ 10 && m.aty.toNat ≤ 1)
def Hint.okAtom (c : Hint) : Bool := c.l1 != 1 && c.l1 != 2 && c.l2 != 1 && c.l2 != 3
def FenceM.ok (m : FenceM) : Bool := m.sc.toNat ≤ 4 && (m.atK || m.stK || m.ldK || m.eng)
def RedM.ok (m : RedM) : Bool := m.op.toNat ≤ 12 && (m.op == 8 || m.rm == 0)
def MmaM.clsOk (m : MmaM) : Bool := m.acls != 0 && m.bcls != 0
def AccM.okLd (m : AccM) : Bool := !m.sat && !m.norm && m.ty.toNat ≤ 3 && (!m.side || m.ty == 0)
def AccM.okSt (m : AccM) : Bool :=
  m.ty.toNat ≤ 3 && (!m.sat || m.ty == 2 || m.ty == 3) && (!m.norm || m.ty != 1 && !m.side) && (!m.side || m.ty == 0)
def MergeM.ok (m : MergeM) : Bool :=
  m.mode.toNat ≤ 4 && (if m.mode.toNat ≤ 1 then m.ty == 0 else m.ty.toNat ≤ 4)
/-- The width in bits of a CVT type code (R213). -/
def cvtWidth (ty : BitVec 4) : Nat :=
  match ty.toNat with
  | 0 => 32 | 1 | 2 => 16 | 3 | 4 => 8 | 5 => 4 | 6 | 7 => 8 | 8 => 4 | 9 => 8 | 10 | 11 => 16 | 12 | 13 => 32 | _ => 64
/-- The parts of a conversion (R214). -/
def CvtM.parts (m : CvtM) : Nat :=
  max (cvtWidth m.sty) (cvtWidth m.dty) / min (cvtWidth m.sty) (cvtWidth m.dty)
/-- CVT's pairs (R213-R215). -/
def CvtM.okCvt (m : CvtM) (b : Spec) : Bool :=
  (!m.sat || m.dty.toNat ≤ 4) && m.part.toNat < m.parts && (m.rm == 0 || m.dty != 6 && m.dty != 15)
    && (if m.sty == 15 || m.dty == 15 then m.sty != m.dty && b.isSrc else b == .zero)
/-- An integer type other than `.q64` (R216). -/
def cvtIsInt (ty : BitVec 4) : Bool := 7 ≤ ty.toNat && ty.toNat ≤ 14
/-- CVTI's pairs (R213, R216). -/
def CvtM.okCvti (m : CvtM) : Bool :=
  (!m.sat || m.dty.toNat ≤ 4) && m.part.toNat < m.parts
    && (cvtIsInt m.sty && m.dty.toNat ≤ 2 || cvtIsInt m.dty && m.sty.toNat ≤ 2)
/-- The CSR numbers of the map (R328). -/
def csrAssigned (n : BitVec 6) : Bool := n.toNat ≤ 0x13 && n != 7

/-- What each instruction's entry accepts: operand kinds, modifier values, and the pairs of them that take `ILL`
(R47, R79, R142, R158, R173, R198, R208, R213, R217, R229, R250, R260, R271, R292, R301, R321).
Assumption 14 (DEDUCED). Assumption 17 (DEDUCED). Assumption 83 (DESIGN CHOICE). -/
def Instr.accepts : Instr → Bool
  | .nop _ => true
  | .mov _ m d a => m.ok false [0] && (d.isVGT || d.isP) && (a.isSrc || a.isP)
  | .movi _ m d a => m.sat == false && m.var.toNat ≤ 1 && (m.var == 0 || (m.w == 0 && !m.sgn)) && d.isVGT && (a == .zero || a == .imm)
  | .movp _ d a => d.isVGT && a.isGT
  | .sel _ m d a b c => m.ok false [0] && d.isVGT && a.isSrc && b.isSrc && (c.isP || c == .zero)
  | .iadd _ m d a b => m.ok true [0] && d.isVGT && a.isSrc && b.isSrc
  | .isub _ m d a b => m.ok true [0] && d.isVGT && a.isSrc && b.isSrc
  | .imul _ m d a b => m.ok true [0] && d.isVGT && a.isSrc && b.isSrc
  | .imulh _ m d a b => m.ok false [0] && d.isVGT && a.isSrc && b.isSrc
  | .imad _ m d a b c => m.ok true [0] && d.isVGT && a.isSrc && b.isSrc && c.isSrc
  | .imin _ m d a b => m.ok false [0] && d.isVGT && a.isSrc && b.isSrc
  | .imax _ m d a b => m.ok false [0] && d.isVGT && a.isSrc && b.isSrc
  | .iabs _ m d a => m.ok true [0] && m.sgn && d.isVGT && a.isSrc
  | .land _ m d a b => m.ok false [0, 1] && d.isVGT && a.isSrc && b.isSrc
  | .lor _ m d a b => m.ok false [0, 1] && d.isVGT && a.isSrc && b.isSrc
  | .lxor _ m d a b => m.ok false [0, 1] && d.isVGT && a.isSrc && b.isSrc
  | .lnot _ m d a => m.ok false [0] && d.isVGT && a.isSrc
  | .shl _ m d a b => m.ok true [0] && d.isVGT && a.isSrc && b.isSrc
  | .shr _ m d a b => m.ok false [0] && !m.sgn && d.isVGT && a.isSrc && b.isSrc
  | .sar _ m d a b => m.ok false [0] && m.sgn && d.isVGT && a.isSrc && b.isSrc
  | .rot _ m d a b => m.ok false [0, 1] && !m.sgn && d.isVGT && a.isSrc && b.isSrc
  | .bfe _ m d a b c => m.ok false [0] && d.isVGT && a.isSrc && b.isSrc && c.isSrc
  | .bfi _ m d a b c e => m.ok false [0] && !m.sgn && d.isVGT && a.isSrc && b.isSrc && c.isSrc && e.isSrc
  | .popc _ m d a => m.ok false [0] && !m.sgn && d.isVGT && a.isSrc
  | .clz _ m d a => m.ok false [0] && !m.sgn && d.isVGT && a.isSrc
  | .ctz _ m d a => m.ok false [0] && !m.sgn && d.isVGT && a.isSrc
  | .brev _ m d a => m.ok false [0] && !m.sgn && d.isVGT && a.isSrc
  | .icmp _ m d a b => m.cc.toNat ≤ 5 && (d.isVGT || d.isP) && a.isSrc && b.isSrc
  | .fadd _ m d a b => m.rm.toNat ≤ 3 && d.isVGT && a.isSrc && b.isSrc
  | .fsub _ m d a b => m.rm.toNat ≤ 3 && d.isVGT && a.isSrc && b.isSrc
  | .fmul _ m d a b => m.rm.toNat ≤ 3 && d.isVGT && a.isSrc && b.isSrc
  | .ffma _ m d a b c => m.rm.toNat ≤ 3 && d.isVGT && a.isSrc && b.isSrc && c.isSrc
  | .fmin _ m d a b => !m.sat && m.rm.toNat ≤ 1 && d.isVGT && a.isSrc && b.isSrc
  | .fmax _ m d a b => !m.sat && m.rm.toNat ≤ 1 && d.isVGT && a.isSrc && b.isSrc
  | .fneg _ m d a => !m.sat && m.rm == 0 && d.isVGT && a.isSrc
  | .fabs _ m d a => !m.sat && m.rm == 0 && d.isVGT && a.isSrc
  | .fcmp _ m d a b => !m.sat && m.rm.toNat ≤ 6 && (d.isVGT || d.isP) && a.isSrc && b.isSrc
  | .fclass _ m d a b => !m.sat && m.rm == 0 && (d.isVGT && b == .zero || d.isP && b.isSrc) && a.isSrc
  | .frnd _ m d a => !m.sat && m.rm.toNat ≤ 3 && d.isVGT && a.isSrc
  | .fscl _ m d a b => m.rm.toNat ≤ 3 && d.isVGT && a.isSrc && b.isSrc
  | .fdot _ m d a b c => m.ft != 0 && m.rm.toNat ≤ 3 && d.isVGT && a.isSrc && b.isSrc && c.isSrc
  | .cvt _ m d a b => m.okCvt b && d.isVGT && a.isSrc
  | .cvti _ m d a b => m.okCvti && d.isVGT && a.isSrc && b.isSrc
  | .quant _ m d a b c => m.sft != 0 && m.dfm.toNat ≤ 7 && d.isB && a.isSrc && b.isV && (c.isGT || c == .zero)
  | .deq _ m d a b => m.flt.ft != 0 && m.flt.rm.toNat ≤ 3 && m.wc != 0 && d.isV && a.isB && b.isSrc
  | .amax _ _ _ d a => d.isGT && a.isSrc
  | .rcp _ m d a => m.rm.toNat ≤ 3 && d.isVGT && a.isSrc
  | .rsq _ m d a => m.rm.toNat ≤ 3 && d.isVGT && a.isSrc
  | .sqrt _ m d a => m.rm.toNat ≤ 3 && d.isVGT && a.isSrc
  | .ex2 _ m d a => m.rm.toNat ≤ 3 && d.isVGT && a.isSrc
  | .lg2 _ m d a => m.rm.toNat ≤ 3 && d.isVGT && a.isSrc
  | .sinr _ m d a => m.rm.toNat ≤ 3 && d.isVGT && a.isSrc
  | .cosr _ m d a => m.rm.toNat ≤ 3 && d.isVGT && a.isSrc
  | .welf _ d a => d.isPair && a.isSrc
  | .wmerge _ d a => d.isPair && a.isPair
  | .shfl _ _ _ _ d a b => d.isV && a.isSrc && b.isSrc
  | .push _ _ d a b c => d.isV && a.isSrc && b.isSrc && (c.isP06 || c == .zero)
  | .readl _ _ _ d a b => d.isVGT && a.isV && b.isSrc
  | .writel _ _ d a b => d.isV && a.isSrc && b.isSrc
  | .vote _ mode d a => (d.isVGT || d.isP && mode != 3) && (a.isSrc || a.isP)
  | .redl _ m d a => m.ok && !m.excl && d.isVGT && a.isSrc
  | .scanl _ m d a => m.ok && d.isV && a.isSrc
  | .perm _ _ d a b c => d.isVGT && a.isSrc && b.isSrc && c.isSrc
  | .ld _ m ch d a b => m.ok && ch.l2 != 3 && d.isV && a.isB && b.isSrc
  | .st _ m ch d a b => m.ok && !m.signed && ch.l2 != 3 && ch.l2 != 1 && d.isB && a.isSrc && b.isSrc
  | .atom _ m ch d a b c e => m.ok && ch.okAtom && (d.isV || d == .zero) && a.isB && b.isSrc && c.isSrc && (if m.op == 7 then e.isSrc else e == .zero)
  | .red _ m ch d a b => m.ok && m.op != 6 && m.op != 7 && (m.ord == 0 || m.ord == 2) && ch.okAtom && d.isB && a.isSrc && b.isSrc
  | .redq _ m ch d a b c => m.op.toNat ≤ 1 && m.aty == 0 && (m.ord == 0 || m.ord == 2) && scOk (m.ord != 0) m.sc && ch.okAtom && d.isB && a.isSrc && b.isSrc && (if m.op == 1 then c == .zero else c.isSrc)
  | .fence _ m d => m.ok && d.isK
  | .waitt h => h.wt != 0
  | .bufset _ form d a b c e => d.isB && (match form.toNat with
      | 0 => a.isVal && b.isVal && c.isVal && e.isVal
      | 1 => a.isB && b == .zero && c == .zero && e == .zero
      | 2 => a.isB && b.isVal && c.isVal && e == .zero
      | _ => false)
  | .bufq _ _ d a => d.isVGT && a.isB
  | .pref _ _ ch d a => ch.l2 != 3 && d.isB && a.isSrc
  | .lfmr _ _ d => d.isGT || d == .zero
  | .tcopy _ d a b c => d.isB && a.isB && b.isGUpTo 123 && c.isK
  | .tstore _ d a b c => d.isB && a.isB && b.isGUpTo 123 && c.isK
  | .tred _ d a b c => d.isB && a.isB && b.isGUpTo 123 && c.isK
  | .tokset _ d a => d.isK && a.isVal
  | .yield h mask a => mask != 0 && a == .imm && h.imm.truncate 2 == (0 : BitVec 2)
  | .tokq _ clr d a => (d.isVGT || clr && d == .zero) && a.isK
  | .mma _ m d a b c e => m.clsOk && d.isA && a.isV && b.isV && c.isV && e.isV
  | .mloop _ m d a b c e => m.clsOk && !m.quad && d.isA && a.isB && b.isB && c.isGUpTo 125 && e.isK
  | .accz _ part d => part != 3 && d.isA
  | .accld _ m ch d a b c => m.okLd && ch.l2 != 3 && d.isA && a.isB && b.isSrc && c.isSrc && (!m.side || c == .zero)
  | .accst _ m ch d a b c => m.okSt && ch.l2 != 3 && d.isB && a.isSrc && b.isA && c.isSrc && (!m.side || c == .zero)
  | .accmv _ _ d a => d.isA && (a.isA || a.isV) || d.isV && a.isA
  | .smx _ d a b c => d.isV && a.isA && b.isA && c.isSrc && c != .zero
  | .accq _ d a => d.isVGT && a.isA
  | .ifOp h _ _ a b => a.isP && b == .imm && h.imm.truncate 2 == (0 : BitVec 2)
  | .elseOp h b => b == .imm && h.imm.truncate 2 == (0 : BitVec 2)
  | .endif _ => true
  | .loop h b => b == .imm && h.imm.truncate 2 == (0 : BitVec 2)
  | .endloop h b => b == .imm && h.imm.truncate 2 == (0 : BitVec 2)
  | .brk h _ a b => a.isP && b == .imm && h.imm.truncate 2 == (0 : BitVec 2)
  | .cont h _ a b => a.isP && b == .imm && h.imm.truncate 2 == (0 : BitVec 2)
  | .jmp h b => b == .imm && h.imm.truncate 2 == (0 : BitVec 2)
  | .call h b => b == .imm && h.imm.truncate 2 == (0 : BitVec 2)
  | .ret _ => true
  | .exit _ => true
  | .regang _ => true
  | .mergeS _ m d a => m.ok && m.rp == 0 && d.isG && (a == .zero || a.isP06 && m.mode == 0)
  | .mergeG _ m d a => m.ok && m.rp.toNat ≤ 23 && d.isT && (a == .zero || a.isP06 && m.mode == 0)
  | .drop _ d => d.isGT
  | .rankq _ d a => (d.isVGT || d.isP) && a.isGT
  | .rvinit _ _ a => a.isSrc
  | .rvarr _ _ => true
  | .rvwait _ _ _ => true
  | .rvtest _ _ d => d.isVGT || d.isP
  | .gearSet _ _ => true
  | .gearQ _ d => d.isVGT || d.isP
  | .nap _ a => a.isSrc
  | .trap _ a => a.isSrc
  | .eret _ => true
  | .csrr _ csr d => csrAssigned csr && d.isVGT
  | .csrw _ csr a => csrAssigned csr && a.isSrc
  | .bkpt _ => true
  | .halt _ => true
  | .wfi _ => true
  | .tlbi _ kind d a => kind != 3 && d.isK && (if kind == 0 then a.isSrc else a == .zero)
  | .quantRetire _ => true
  | .mmaQMeeting _ _ => true
  | .mloopStart _ _ _ => true
  | .mloopComplete _ _ => true
  | .tlbiComplete _ => true
  | .fenceComplete _ => true
  | .waitSatisfied _ _ => true
  | .stagehandWalk _ => true
  | .mcastReservation _ => true
  | .copyComplete _ _ => true
  | .copyCheckpoint _ => true
  | .loadDataArrival _ => true
  | .fillReply _ => true
  | .writeAccept _ => true
  | .lineNack _ => true
  | .l1WritebackTimeout _ _ => true
  | .read _ => true
  | .readOwn _ => true
  | .writeThrough _ => true
  | .update _ => true
  | .evictClean _ => true
  | .evictDirty _ => true
  | .recallAnswer _ => true
  | .atomic _ => true
  | .reduce _ => true
  | .engineOwn _ => true
  | .replicaRead _ => true
  | .timeout _ => true
  | .holderRecall _ => true
  | .pushUpdateReceive _ => true
  | .notify => true
  | .sldcmdCommit _ _ => true
  | .scriptLoadDone _ => true
  | .rtabCommit _ _ _ => true
  | .rangeRetireDone _ => true
  | .fqretryRetry _ => true
  | .fqretryAbort _ => true
  | .fqConfigWrite _ _ => true
  | .fqheadWrite _ => true
  | .lqctlWrite _ _ _ => true
  | .packetCopy _ => true
  | .waitCounterPoll _ => true
  | .distributorPlace => true
  | .rotationTimeout _ => true
  | .clusterSwitchOut _ => true
  | .switchDrainTimeout _ => true
  | .launchCompletion _ => true
  | .phaseStart _ => true
  | .phaseWatchdogExpire _ => true
  | .groupPark _ => true
  | .groupReloadDone _ => true
  | .timeSliceYield _ _ => true
  | .napExpire _ _ => true
  | .rvRelease _ => true
  | .curtainWave _ => true
  | .changeoverComplete _ => true
  | .fllRampStep _ => true
  | .tfreqWrite _ _ _ => true
  | .gcapWrite _ _ _ => true
  | .sensorSample _ _ => true
  | .timerWrite _ => true
  | .timerElapse => true
  | .thermal => true
  | .timer => true
  | .evseqRead => true
  | .evlogRead => true
  | .stallqRead => true
  | .peerfailDeclare _ _ => true
  | .peerfailClear _ _ => true
  | .portLossTimeout _ => true
  | .routeWrite _ => true
  | .peerMessageForward _ _ _ _ => true
  | .attcmdStart _ => true
  | .mctpAttestRequest => true
  | .attestReportDone => true
  | .mext _ => true
  | .monSnap _ => true
  | .monClear _ => true
  | .monLevelSample _ _ => true
  | .patrolScrub _ => true
  | .alwaysOnReset => true
  | .managementReset => true
  | .recoveryImage _ => true
  | .registerWrite _ _ _ => true
  | .portDown _ => true
  | .portRetrain _ _ => true
  | .rvArrival _ => true
  | .mmaComplete _ _ => true
  | .uncorrectableError _ => true

/-- The fields of an instruction from its header, opcode, modifier bits, hint and operands. -/
def mkFields (h : Hdr) (opc : Nat) (mod : BitVec 6) (mod2 : BitVec 10) (ch : Hint) (d a b c e : Spec) : Fields where
  len := h.len.bits
  opc := BitVec.ofNat 10 opc
  mod := mod
  g0 := h.grd.g0
  g1 := h.grd.g1
  gop := h.grd.gop
  gn := h.grd.gn
  wt := h.wt
  sch := h.sch.bits
  d := d.bits
  a := a.bits
  b := b.bits
  c := c.bits
  e := e.bits
  ch := ch
  mod2 := mod2
  imm := h.imm

/-- The fields of an instruction (the encoding tables named at `Instr.accepts`); an event has none. -/
def Instr.fields : Instr → Option Fields
  | .nop h => some (mkFields h 0x000 (0) (0) ⟨0, 0⟩ .zero .zero .zero .zero .zero)
  | .mov h m d a => some (mkFields h 0x001 (m.bits) (0) ⟨0, 0⟩ d a .zero .zero .zero)
  | .movi h m d a => some (mkFields h 0x002 (m.bits) (0) ⟨0, 0⟩ d a .zero .zero .zero)
  | .movp h d a => some (mkFields h 0x003 (0) (0) ⟨0, 0⟩ d a .zero .zero .zero)
  | .sel h m d a b c => some (mkFields h 0x004 (m.bits) (0) ⟨0, 0⟩ d a b c .zero)
  | .iadd h m d a b => some (mkFields h 0x008 (m.bits) (0) ⟨0, 0⟩ d a b .zero .zero)
  | .isub h m d a b => some (mkFields h 0x009 (m.bits) (0) ⟨0, 0⟩ d a b .zero .zero)
  | .imul h m d a b => some (mkFields h 0x00a (m.bits) (0) ⟨0, 0⟩ d a b .zero .zero)
  | .imulh h m d a b => some (mkFields h 0x00b (m.bits) (0) ⟨0, 0⟩ d a b .zero .zero)
  | .imad h m d a b c => some (mkFields h 0x00c (m.bits) (0) ⟨0, 0⟩ d a b c .zero)
  | .imin h m d a b => some (mkFields h 0x00d (m.bits) (0) ⟨0, 0⟩ d a b .zero .zero)
  | .imax h m d a b => some (mkFields h 0x00e (m.bits) (0) ⟨0, 0⟩ d a b .zero .zero)
  | .iabs h m d a => some (mkFields h 0x00f (m.bits) (0) ⟨0, 0⟩ d a .zero .zero .zero)
  | .land h m d a b => some (mkFields h 0x010 (m.bits) (0) ⟨0, 0⟩ d a b .zero .zero)
  | .lor h m d a b => some (mkFields h 0x011 (m.bits) (0) ⟨0, 0⟩ d a b .zero .zero)
  | .lxor h m d a b => some (mkFields h 0x012 (m.bits) (0) ⟨0, 0⟩ d a b .zero .zero)
  | .lnot h m d a => some (mkFields h 0x013 (m.bits) (0) ⟨0, 0⟩ d a .zero .zero .zero)
  | .shl h m d a b => some (mkFields h 0x014 (m.bits) (0) ⟨0, 0⟩ d a b .zero .zero)
  | .shr h m d a b => some (mkFields h 0x015 (m.bits) (0) ⟨0, 0⟩ d a b .zero .zero)
  | .sar h m d a b => some (mkFields h 0x016 (m.bits) (0) ⟨0, 0⟩ d a b .zero .zero)
  | .rot h m d a b => some (mkFields h 0x017 (m.bits) (0) ⟨0, 0⟩ d a b .zero .zero)
  | .bfe h m d a b c => some (mkFields h 0x018 (m.bits) (0) ⟨0, 0⟩ d a b c .zero)
  | .bfi h m d a b c e => some (mkFields h 0x019 (m.bits) (0) ⟨0, 0⟩ d a b c e)
  | .popc h m d a => some (mkFields h 0x01a (m.bits) (0) ⟨0, 0⟩ d a .zero .zero .zero)
  | .clz h m d a => some (mkFields h 0x01b (m.bits) (0) ⟨0, 0⟩ d a .zero .zero .zero)
  | .ctz h m d a => some (mkFields h 0x01c (m.bits) (0) ⟨0, 0⟩ d a .zero .zero .zero)
  | .brev h m d a => some (mkFields h 0x01d (m.bits) (0) ⟨0, 0⟩ d a .zero .zero .zero)
  | .icmp h m d a b => some (mkFields h 0x01e (m.bits) (0) ⟨0, 0⟩ d a b .zero .zero)
  | .fadd h m d a b => some (mkFields h 0x080 (m.bits) (0) ⟨0, 0⟩ d a b .zero .zero)
  | .fsub h m d a b => some (mkFields h 0x081 (m.bits) (0) ⟨0, 0⟩ d a b .zero .zero)
  | .fmul h m d a b => some (mkFields h 0x082 (m.bits) (0) ⟨0, 0⟩ d a b .zero .zero)
  | .ffma h m d a b c => some (mkFields h 0x083 (m.bits) (0) ⟨0, 0⟩ d a b c .zero)
  | .fmin h m d a b => some (mkFields h 0x084 (m.bits) (0) ⟨0, 0⟩ d a b .zero .zero)
  | .fmax h m d a b => some (mkFields h 0x085 (m.bits) (0) ⟨0, 0⟩ d a b .zero .zero)
  | .fneg h m d a => some (mkFields h 0x086 (m.bits) (0) ⟨0, 0⟩ d a .zero .zero .zero)
  | .fabs h m d a => some (mkFields h 0x087 (m.bits) (0) ⟨0, 0⟩ d a .zero .zero .zero)
  | .fcmp h m d a b => some (mkFields h 0x088 (m.bits) (0) ⟨0, 0⟩ d a b .zero .zero)
  | .fclass h m d a b => some (mkFields h 0x089 (m.bits) (0) ⟨0, 0⟩ d a b .zero .zero)
  | .frnd h m d a => some (mkFields h 0x08a (m.bits) (0) ⟨0, 0⟩ d a .zero .zero .zero)
  | .fscl h m d a b => some (mkFields h 0x08b (m.bits) (0) ⟨0, 0⟩ d a b .zero .zero)
  | .fdot h m d a b c => some (mkFields h 0x08c (m.bits) (0) ⟨0, 0⟩ d a b c .zero)
  | .cvt h m d a b => some (mkFields h 0x100 (m.bits) (m.bits2) ⟨0, 0⟩ d a b .zero .zero)
  | .cvti h m d a b => some (mkFields h 0x101 (m.bits) (m.bits2) ⟨0, 0⟩ d a b .zero .zero)
  | .quant h m d a b c => some (mkFields h 0x102 (m.bits) (m.bits2) ⟨0, 0⟩ d a b c .zero)
  | .deq h m d a b => some (mkFields h 0x103 (m.flt.bits) (m.wc.zeroExtend 10) ⟨0, 0⟩ d a b .zero .zero)
  | .amax h ft nanprop d a => some (mkFields h 0x104 (ft ++ (0 : BitVec 3) ++ bit1 nanprop) (0) ⟨0, 0⟩ d a .zero .zero .zero)
  | .rcp h m d a => some (mkFields h 0x108 (m.bits) (0) ⟨0, 0⟩ d a .zero .zero .zero)
  | .rsq h m d a => some (mkFields h 0x109 (m.bits) (0) ⟨0, 0⟩ d a .zero .zero .zero)
  | .sqrt h m d a => some (mkFields h 0x10a (m.bits) (0) ⟨0, 0⟩ d a .zero .zero .zero)
  | .ex2 h m d a => some (mkFields h 0x10b (m.bits) (0) ⟨0, 0⟩ d a .zero .zero .zero)
  | .lg2 h m d a => some (mkFields h 0x10c (m.bits) (0) ⟨0, 0⟩ d a .zero .zero .zero)
  | .sinr h m d a => some (mkFields h 0x10d (m.bits) (0) ⟨0, 0⟩ d a .zero .zero .zero)
  | .cosr h m d a => some (mkFields h 0x10e (m.bits) (0) ⟨0, 0⟩ d a .zero .zero .zero)
  | .welf h d a => some (mkFields h 0x110 (0) (0) ⟨0, 0⟩ d a .zero .zero .zero)
  | .wmerge h d a => some (mkFields h 0x111 (0) (0) ⟨0, 0⟩ d a .zero .zero .zero)
  | .shfl h w z mode d a b => some (mkFields h 0x140 (w ++ bit1 z ++ (0 : BitVec 1) ++ mode) (0) ⟨0, 0⟩ d a b .zero .zero)
  | .push h w d a b c => some (mkFields h 0x141 (w ++ (0 : BitVec 4)) (0) ⟨0, 0⟩ d a b c .zero)
  | .readl h w sgn d a b => some (mkFields h 0x142 (w ++ (0 : BitVec 1) ++ bit1 sgn ++ (0 : BitVec 2)) (0) ⟨0, 0⟩ d a b .zero .zero)
  | .writel h w d a b => some (mkFields h 0x143 (w ++ (0 : BitVec 4)) (0) ⟨0, 0⟩ d a b .zero .zero)
  | .vote h mode d a => some (mkFields h 0x144 (mode.zeroExtend 6) (0) ⟨0, 0⟩ d a .zero .zero .zero)
  | .redl h m d a => some (mkFields h 0x145 (m.bits) (m.bits2) ⟨0, 0⟩ d a .zero .zero .zero)
  | .scanl h m d a => some (mkFields h 0x146 (m.bits) (m.bits2) ⟨0, 0⟩ d a .zero .zero .zero)
  | .perm h w d a b c => some (mkFields h 0x147 (w ++ (0 : BitVec 4)) (0) ⟨0, 0⟩ d a b c .zero)
  | .ld h m ch d a b => some (mkFields h 0x180 (m.bits) (m.sc.zeroExtend 10) ch d a b .zero .zero)
  | .st h m ch d a b => some (mkFields h 0x181 (m.bits) (m.sc.zeroExtend 10) ch d a b .zero .zero)
  | .atom h m ch d a b c e => some (mkFields h 0x182 (m.bits) (m.bits2) ch d a b c e)
  | .red h m ch d a b => some (mkFields h 0x183 (m.bits) (m.bits2) ch d a b .zero .zero)
  | .redq h m ch d a b c => some (mkFields h 0x184 (m.op.zeroExtend 6) (m.bits2) ch d a b c .zero)
  | .fence h m d => some (mkFields h 0x185 (m.bits) (bit10 m.eng 0) ⟨0, 0⟩ d .zero .zero .zero .zero)
  | .waitt h => some (mkFields h 0x186 (0) (0) ⟨0, 0⟩ .zero .zero .zero .zero .zero)
  | .bufset h form d a b c e => some (mkFields h 0x187 (form.zeroExtend 6) (0) ⟨0, 0⟩ d a b c e)
  | .bufq h fld d a => some (mkFields h 0x188 (fld.zeroExtend 6) (0) ⟨0, 0⟩ d a .zero .zero .zero)
  | .pref h l2 ch d a => some (mkFields h 0x189 (bit6 l2 0) (0) ch d a .zero .zero .zero)
  | .lfmr h clr d => some (mkFields h 0x18a (bit6 clr 0) (0) ⟨0, 0⟩ d .zero .zero .zero .zero)
  | .tcopy h d a b c => some (mkFields h 0x200 (0) (0) ⟨0, 0⟩ d a b c .zero)
  | .tstore h d a b c => some (mkFields h 0x201 (0) (0) ⟨0, 0⟩ d a b c .zero)
  | .tred h d a b c => some (mkFields h 0x202 (0) (0) ⟨0, 0⟩ d a b c .zero)
  | .tokset h d a => some (mkFields h 0x203 (0) (0) ⟨0, 0⟩ d a .zero .zero .zero)
  | .yield h mask a => some (mkFields h 0x204 (0) (mask.zeroExtend 10) ⟨0, 0⟩ .zero a .zero .zero .zero)
  | .tokq h clr d a => some (mkFields h 0x205 (bit6 clr 0) (0) ⟨0, 0⟩ d a .zero .zero .zero)
  | .mma h m d a b c e => some (mkFields h 0x240 (m.bits) (bit10 m.kh 0) ⟨0, 0⟩ d a b c e)
  | .mloop h m d a b c e => some (mkFields h 0x241 (m.bits) (bit10 m.kh 0) ⟨0, 0⟩ d a b c e)
  | .accz h part d => some (mkFields h 0x242 (part.zeroExtend 6) (0) ⟨0, 0⟩ d .zero .zero .zero .zero)
  | .accld h m ch d a b c => some (mkFields h 0x243 (m.bits) (0) ch d a b c .zero)
  | .accst h m ch d a b c => some (mkFields h 0x244 (m.bits) (0) ch d a b c .zero)
  | .accmv h side d a => some (mkFields h 0x245 (bit6 side 0) (0) ⟨0, 0⟩ d a .zero .zero .zero)
  | .smx h d a b c => some (mkFields h 0x246 (0) (0) ⟨0, 0⟩ d a b c .zero)
  | .accq h d a => some (mkFields h 0x247 (0) (0) ⟨0, 0⟩ d a .zero .zero .zero)
  | .ifOp h neg els a b => some (mkFields h 0x280 (bit6 neg 1 ||| bit6 els 0) (0) ⟨0, 0⟩ .zero a b .zero .zero)
  | .elseOp h b => some (mkFields h 0x281 (0) (0) ⟨0, 0⟩ .zero .zero b .zero .zero)
  | .endif h => some (mkFields h 0x282 (0) (0) ⟨0, 0⟩ .zero .zero .zero .zero .zero)
  | .loop h b => some (mkFields h 0x283 (0) (0) ⟨0, 0⟩ .zero .zero b .zero .zero)
  | .endloop h b => some (mkFields h 0x284 (0) (0) ⟨0, 0⟩ .zero .zero b .zero .zero)
  | .brk h neg a b => some (mkFields h 0x285 (bit6 neg 1) (0) ⟨0, 0⟩ .zero a b .zero .zero)
  | .cont h neg a b => some (mkFields h 0x286 (bit6 neg 1) (0) ⟨0, 0⟩ .zero a b .zero .zero)
  | .jmp h b => some (mkFields h 0x287 (0) (0) ⟨0, 0⟩ .zero .zero b .zero .zero)
  | .call h b => some (mkFields h 0x288 (0) (0) ⟨0, 0⟩ .zero .zero b .zero .zero)
  | .ret h => some (mkFields h 0x289 (0) (0) ⟨0, 0⟩ .zero .zero .zero .zero .zero)
  | .exit h => some (mkFields h 0x28a (0) (0) ⟨0, 0⟩ .zero .zero .zero .zero .zero)
  | .regang h => some (mkFields h 0x28b (0) (0) ⟨0, 0⟩ .zero .zero .zero .zero .zero)
  | .mergeS h m d a => some (mkFields h 0x28c (m.bits false) (m.bits2) ⟨0, 0⟩ d a .zero .zero .zero)
  | .mergeG h m d a => some (mkFields h 0x28c (m.bits true) (m.bits2) ⟨0, 0⟩ d a .zero .zero .zero)
  | .drop h d => some (mkFields h 0x28d (0) (0) ⟨0, 0⟩ d .zero .zero .zero .zero)
  | .rankq h d a => some (mkFields h 0x28e (0) (0) ⟨0, 0⟩ d a .zero .zero .zero)
  | .rvinit h rp a => some (mkFields h 0x2c0 (rp.zeroExtend 6) (0) ⟨0, 0⟩ .zero a .zero .zero .zero)
  | .rvarr h rp => some (mkFields h 0x2c1 (rp.zeroExtend 6) (0) ⟨0, 0⟩ .zero .zero .zero .zero .zero)
  | .rvwait h rp idle => some (mkFields h 0x2c2 (rp.zeroExtend 6 ||| bit6 idle 5) (0) ⟨0, 0⟩ .zero .zero .zero .zero .zero)
  | .rvtest h rp d => some (mkFields h 0x2c3 (rp.zeroExtend 6) (0) ⟨0, 0⟩ d .zero .zero .zero .zero)
  | .gearSet h f => some (mkFields h 0x2c4 (bit6 f 0) (0) ⟨0, 0⟩ .zero .zero .zero .zero .zero)
  | .gearQ h d => some (mkFields h 0x2c4 (2) (0) ⟨0, 0⟩ d .zero .zero .zero .zero)
  | .nap h a => some (mkFields h 0x2c5 (0) (0) ⟨0, 0⟩ .zero a .zero .zero .zero)
  | .trap h a => some (mkFields h 0x300 (0) (0) ⟨0, 0⟩ .zero a .zero .zero .zero)
  | .eret h => some (mkFields h 0x301 (0) (0) ⟨0, 0⟩ .zero .zero .zero .zero .zero)
  | .csrr h csr d => some (mkFields h 0x302 (csr) (0) ⟨0, 0⟩ d .zero .zero .zero .zero)
  | .csrw h csr a => some (mkFields h 0x303 (csr) (0) ⟨0, 0⟩ .zero a .zero .zero .zero)
  | .bkpt h => some (mkFields h 0x304 (0) (0) ⟨0, 0⟩ .zero .zero .zero .zero .zero)
  | .halt h => some (mkFields h 0x305 (0) (0) ⟨0, 0⟩ .zero .zero .zero .zero .zero)
  | .wfi h => some (mkFields h 0x306 (0) (0) ⟨0, 0⟩ .zero .zero .zero .zero .zero)
  | .tlbi h kind d a => some (mkFields h 0x307 (kind.zeroExtend 6) (0) ⟨0, 0⟩ d a .zero .zero .zero)
  | .quantRetire _ => none
  | .mmaQMeeting _ _ => none
  | .mloopStart _ _ _ => none
  | .mloopComplete _ _ => none
  | .tlbiComplete _ => none
  | .fenceComplete _ => none
  | .waitSatisfied _ _ => none
  | .stagehandWalk _ => none
  | .mcastReservation _ => none
  | .copyComplete _ _ => none
  | .copyCheckpoint _ => none
  | .loadDataArrival _ => none
  | .fillReply _ => none
  | .writeAccept _ => none
  | .lineNack _ => none
  | .l1WritebackTimeout _ _ => none
  | .read _ => none
  | .readOwn _ => none
  | .writeThrough _ => none
  | .update _ => none
  | .evictClean _ => none
  | .evictDirty _ => none
  | .recallAnswer _ => none
  | .atomic _ => none
  | .reduce _ => none
  | .engineOwn _ => none
  | .replicaRead _ => none
  | .timeout _ => none
  | .holderRecall _ => none
  | .pushUpdateReceive _ => none
  | .notify => none
  | .sldcmdCommit _ _ => none
  | .scriptLoadDone _ => none
  | .rtabCommit _ _ _ => none
  | .rangeRetireDone _ => none
  | .fqretryRetry _ => none
  | .fqretryAbort _ => none
  | .fqConfigWrite _ _ => none
  | .fqheadWrite _ => none
  | .lqctlWrite _ _ _ => none
  | .packetCopy _ => none
  | .waitCounterPoll _ => none
  | .distributorPlace => none
  | .rotationTimeout _ => none
  | .clusterSwitchOut _ => none
  | .switchDrainTimeout _ => none
  | .launchCompletion _ => none
  | .phaseStart _ => none
  | .phaseWatchdogExpire _ => none
  | .groupPark _ => none
  | .groupReloadDone _ => none
  | .timeSliceYield _ _ => none
  | .napExpire _ _ => none
  | .rvRelease _ => none
  | .curtainWave _ => none
  | .changeoverComplete _ => none
  | .fllRampStep _ => none
  | .tfreqWrite _ _ _ => none
  | .gcapWrite _ _ _ => none
  | .sensorSample _ _ => none
  | .timerWrite _ => none
  | .timerElapse => none
  | .thermal => none
  | .timer => none
  | .evseqRead => none
  | .evlogRead => none
  | .stallqRead => none
  | .peerfailDeclare _ _ => none
  | .peerfailClear _ _ => none
  | .portLossTimeout _ => none
  | .routeWrite _ => none
  | .peerMessageForward _ _ _ _ => none
  | .attcmdStart _ => none
  | .mctpAttestRequest => none
  | .attestReportDone => none
  | .mext _ => none
  | .monSnap _ => none
  | .monClear _ => none
  | .monLevelSample _ _ => none
  | .patrolScrub _ => none
  | .alwaysOnReset => none
  | .managementReset => none
  | .recoveryImage _ => none
  | .registerWrite _ _ _ => none
  | .portDown _ => none
  | .portRetrain _ _ => none
  | .rvArrival _ => none
  | .mmaComplete _ _ => none
  | .uncorrectableError _ => none

/-- The instruction an opcode and its fields name, before the checks of `decodeFields` (R56). -/
def instrOf (f : Fields) (h : Hdr) (d a b c e : Spec) : Option Instr :=
  match f.opc.toNat with
  | 0x000 => some (.nop h)
  | 0x001 => some (.mov h (IntM.ofBits f.mod) d a)
  | 0x002 => some (.movi h (IntM.ofBits f.mod) d a)
  | 0x003 => some (.movp h d a)
  | 0x004 => some (.sel h (IntM.ofBits f.mod) d a b c)
  | 0x008 => some (.iadd h (IntM.ofBits f.mod) d a b)
  | 0x009 => some (.isub h (IntM.ofBits f.mod) d a b)
  | 0x00a => some (.imul h (IntM.ofBits f.mod) d a b)
  | 0x00b => some (.imulh h (IntM.ofBits f.mod) d a b)
  | 0x00c => some (.imad h (IntM.ofBits f.mod) d a b c)
  | 0x00d => some (.imin h (IntM.ofBits f.mod) d a b)
  | 0x00e => some (.imax h (IntM.ofBits f.mod) d a b)
  | 0x00f => some (.iabs h (IntM.ofBits f.mod) d a)
  | 0x010 => some (.land h (IntM.ofBits f.mod) d a b)
  | 0x011 => some (.lor h (IntM.ofBits f.mod) d a b)
  | 0x012 => some (.lxor h (IntM.ofBits f.mod) d a b)
  | 0x013 => some (.lnot h (IntM.ofBits f.mod) d a)
  | 0x014 => some (.shl h (IntM.ofBits f.mod) d a b)
  | 0x015 => some (.shr h (IntM.ofBits f.mod) d a b)
  | 0x016 => some (.sar h (IntM.ofBits f.mod) d a b)
  | 0x017 => some (.rot h (IntM.ofBits f.mod) d a b)
  | 0x018 => some (.bfe h (IntM.ofBits f.mod) d a b c)
  | 0x019 => some (.bfi h (IntM.ofBits f.mod) d a b c e)
  | 0x01a => some (.popc h (IntM.ofBits f.mod) d a)
  | 0x01b => some (.clz h (IntM.ofBits f.mod) d a)
  | 0x01c => some (.ctz h (IntM.ofBits f.mod) d a)
  | 0x01d => some (.brev h (IntM.ofBits f.mod) d a)
  | 0x01e => some (.icmp h (IntM.ofBits f.mod) d a b)
  | 0x080 => some (.fadd h (FltM.ofBits f.mod) d a b)
  | 0x081 => some (.fsub h (FltM.ofBits f.mod) d a b)
  | 0x082 => some (.fmul h (FltM.ofBits f.mod) d a b)
  | 0x083 => some (.ffma h (FltM.ofBits f.mod) d a b c)
  | 0x084 => some (.fmin h (FltM.ofBits f.mod) d a b)
  | 0x085 => some (.fmax h (FltM.ofBits f.mod) d a b)
  | 0x086 => some (.fneg h (FltM.ofBits f.mod) d a)
  | 0x087 => some (.fabs h (FltM.ofBits f.mod) d a)
  | 0x088 => some (.fcmp h (FltM.ofBits f.mod) d a b)
  | 0x089 => some (.fclass h (FltM.ofBits f.mod) d a b)
  | 0x08a => some (.frnd h (FltM.ofBits f.mod) d a)
  | 0x08b => some (.fscl h (FltM.ofBits f.mod) d a b)
  | 0x08c => some (.fdot h (FltM.ofBits f.mod) d a b c)
  | 0x100 => some (.cvt h (CvtM.ofBits f.mod f.mod2) d a b)
  | 0x101 => some (.cvti h (CvtM.ofBits f.mod f.mod2) d a b)
  | 0x102 => some (.quant h (QuantM.ofBits f.mod f.mod2) d a b c)
  | 0x103 => some (.deq h (⟨FltM.ofBits f.mod, f.mod2.truncate 2⟩) d a b)
  | 0x104 => some (.amax h (f.mod.extractLsb' 4 2) (f.mod.getLsbD 0) d a)
  | 0x108 => some (.rcp h (FltM.ofBits f.mod) d a)
  | 0x109 => some (.rsq h (FltM.ofBits f.mod) d a)
  | 0x10a => some (.sqrt h (FltM.ofBits f.mod) d a)
  | 0x10b => some (.ex2 h (FltM.ofBits f.mod) d a)
  | 0x10c => some (.lg2 h (FltM.ofBits f.mod) d a)
  | 0x10d => some (.sinr h (FltM.ofBits f.mod) d a)
  | 0x10e => some (.cosr h (FltM.ofBits f.mod) d a)
  | 0x110 => some (.welf h d a)
  | 0x111 => some (.wmerge h d a)
  | 0x140 => some (.shfl h (f.mod.extractLsb' 4 2) (f.mod.getLsbD 3) (f.mod.truncate 2) d a b)
  | 0x141 => some (.push h (f.mod.extractLsb' 4 2) d a b c)
  | 0x142 => some (.readl h (f.mod.extractLsb' 4 2) (f.mod.getLsbD 2) d a b)
  | 0x143 => some (.writel h (f.mod.extractLsb' 4 2) d a b)
  | 0x144 => some (.vote h (f.mod.truncate 2) d a)
  | 0x145 => some (.redl h (RedM.ofBits f.mod f.mod2) d a)
  | 0x146 => some (.scanl h (RedM.ofBits f.mod f.mod2) d a)
  | 0x147 => some (.perm h (f.mod.extractLsb' 4 2) d a b c)
  | 0x180 => some (.ld h (MemM.ofBits f.mod f.mod2) (f.ch) d a b)
  | 0x181 => some (.st h (MemM.ofBits f.mod f.mod2) (f.ch) d a b)
  | 0x182 => some (.atom h (AtomM.ofBits f.mod f.mod2) (f.ch) d a b c e)
  | 0x183 => some (.red h (AtomM.ofBits f.mod f.mod2) (f.ch) d a b)
  | 0x184 => some (.redq h (AtomM.ofBitsQ f.mod f.mod2) (f.ch) d a b c)
  | 0x185 => some (.fence h (FenceM.ofBits f.mod f.mod2) d)
  | 0x186 => some (.waitt h)
  | 0x187 => some (.bufset h (f.mod.truncate 2) d a b c e)
  | 0x188 => some (.bufq h (f.mod.truncate 2) d a)
  | 0x189 => some (.pref h (f.mod.getLsbD 0) (f.ch) d a)
  | 0x18a => some (.lfmr h (f.mod.getLsbD 0) d)
  | 0x200 => some (.tcopy h d a b c)
  | 0x201 => some (.tstore h d a b c)
  | 0x202 => some (.tred h d a b c)
  | 0x203 => some (.tokset h d a)
  | 0x204 => some (.yield h (f.mod2.truncate 8) a)
  | 0x205 => some (.tokq h (f.mod.getLsbD 0) d a)
  | 0x240 => some (.mma h (MmaM.ofBits f.mod f.mod2) d a b c e)
  | 0x241 => some (.mloop h (MmaM.ofBits f.mod f.mod2) d a b c e)
  | 0x242 => some (.accz h (f.mod.truncate 2) d)
  | 0x243 => some (.accld h (AccM.ofBits f.mod) (f.ch) d a b c)
  | 0x244 => some (.accst h (AccM.ofBits f.mod) (f.ch) d a b c)
  | 0x245 => some (.accmv h (f.mod.getLsbD 0) d a)
  | 0x246 => some (.smx h d a b c)
  | 0x247 => some (.accq h d a)
  | 0x280 => some (.ifOp h (f.mod.getLsbD 1) (f.mod.getLsbD 0) a b)
  | 0x281 => some (.elseOp h b)
  | 0x282 => some (.endif h)
  | 0x283 => some (.loop h b)
  | 0x284 => some (.endloop h b)
  | 0x285 => some (.brk h (f.mod.getLsbD 1) a b)
  | 0x286 => some (.cont h (f.mod.getLsbD 1) a b)
  | 0x287 => some (.jmp h b)
  | 0x288 => some (.call h b)
  | 0x289 => some (.ret h)
  | 0x28a => some (.exit h)
  | 0x28b => some (.regang h)
  | 0x28c => if f.mod.getLsbD 0 then some (.mergeG h (MergeM.ofBits f.mod f.mod2) d a) else some (.mergeS h (MergeM.ofBits f.mod f.mod2) d a)
  | 0x28d => some (.drop h d)
  | 0x28e => some (.rankq h d a)
  | 0x2c0 => some (.rvinit h (f.mod.truncate 5) a)
  | 0x2c1 => some (.rvarr h (f.mod.truncate 5))
  | 0x2c2 => some (.rvwait h (f.mod.truncate 5) (f.mod.getLsbD 5))
  | 0x2c3 => some (.rvtest h (f.mod.truncate 5) d)
  | 0x2c4 => if f.mod.getLsbD 1 then some (.gearQ h d) else some (.gearSet h (f.mod.getLsbD 0))
  | 0x2c5 => some (.nap h a)
  | 0x300 => some (.trap h a)
  | 0x301 => some (.eret h)
  | 0x302 => some (.csrr h (f.mod) d)
  | 0x303 => some (.csrw h (f.mod) a)
  | 0x304 => some (.bkpt h)
  | 0x305 => some (.halt h)
  | 0x306 => some (.wfi h)
  | 0x307 => some (.tlbi h (f.mod.truncate 2) d a)
  | _ => none

/-- Fields that a shorter form implies (R39): a 64-bit word carries no C, E, CH or MOD2. -/
def Fields.fits (f : Fields) (l : Len) : Bool :=
  l != .b64 || (f.c == 0x1FE && f.e == 0x1FE && f.ch == ⟨0, 0⟩ && f.mod2 == 0)

/-- An instruction that has an encoding: its header and its entry's checks hold, and its own length has room for the
fields it uses (R39, R40, R43, R47). -/
def Instr.encodable (i : Instr) : Bool :=
  i.wf && i.accepts && (match i.fields, i.hdr with
    | some f, some h => f.fits h.len
    | _, _ => false)

/-- From fields to an instruction, or the name of the first check of R54 that fails. R40 (undefined bits zero, unused
fields 0x1FE) holds exactly when the instruction's own encoding gives the same fields back. -/
def decodeFields (f : Fields) : Except DecodeErr Instr :=
  match Len.ofBits f.len with
  | none => .error .lenReserved
  | some l =>
    match Sch.ofBits f.sch with
    | none => .error .schReserved
    | some s =>
      match Spec.ofBits f.d, Spec.ofBits f.a, Spec.ofBits f.b, Spec.ofBits f.c, Spec.ofBits f.e with
      | some d, some a, some b, some c, some e =>
        match instrOf f ⟨l, ⟨f.g0, f.g1, f.gop, f.gn⟩, f.wt, s, f.imm⟩ d a b c e with
        | none => .error .opcUnassigned
        | some i =>
          if i.fields != some f then .error .undefinedField
          else if !i.wf then .error .malformed
          else if !i.accepts then .error .notAccepted
          else .ok i
      | _, _, _, _, _ => .error .specReserved

/-! ### Words and bytes -/

/-- The 128 bits of a word laid out as R36-R38; a shorter form is its low bits. -/
def Fields.word (f : Fields) : BitVec 128 :=
  f.imm ++ f.mod2 ++ f.ch.l2 ++ f.ch.l1 ++ f.e ++ f.c ++ f.b ++ f.a ++ f.d ++ f.sch ++ f.wt ++ bit1 f.gn ++ f.gop
    ++ f.g1 ++ f.g0 ++ f.mod ++ f.opc ++ f.len

/-- The fields of a word of length `l`, with the implied values where the form is shorter (R39). -/
def Fields.ofWord (l : Len) (w : BitVec 128) : Fields where
  len := w.extractLsb' 0 2
  opc := w.extractLsb' 2 10
  mod := w.extractLsb' 12 6
  g0 := w.extractLsb' 18 3
  g1 := w.extractLsb' 21 3
  gop := w.extractLsb' 24 2
  gn := w.getLsbD 26
  wt := w.extractLsb' 27 8
  sch := w.extractLsb' 35 2
  d := w.extractLsb' 37 9
  a := w.extractLsb' 46 9
  b := w.extractLsb' 55 9
  c := if l = .b64 then 0x1FE else w.extractLsb' 64 9
  e := if l = .b64 then 0x1FE else w.extractLsb' 73 9
  ch := if l = .b64 then ⟨0, 0⟩ else ⟨w.extractLsb' 84 2, w.extractLsb' 82 2⟩
  mod2 := if l = .b64 then 0 else w.extractLsb' 86 10
  imm := if l = .b128 then w.extractLsb' 96 32 else 0

/-- Little-endian value of bytes (R7). -/
def bytesToNat : List Byte → Nat
  | [] => 0
  | b :: bs => b.toNat + 256 * bytesToNat bs

/-- The `n` little-endian bytes of a value (R7). -/
def natToBytes : Nat → Nat → List Byte
  | 0, _ => []
  | n + 1, x => BitVec.ofNat 8 x :: natToBytes n (x / 256)

/-- The length code of the word that begins a byte list (R33). -/
def lenOfBytes (bs : List Byte) : Option Len :=
  match bs with
  | [] => none
  | b :: _ => Len.ofBits (b.truncate 2)

/-- The decoder: the instruction that begins a list of bytes, or why there is none. Total on any bytes. -/
def decode (bs : List Byte) : Except DecodeErr Instr :=
  match bs with
  | [] => .error .tooShort
  | b :: _ =>
    match Len.ofBits (b.truncate 2) with
    | none => .error .lenReserved
    | some l =>
      if bs.length < l.bytes then .error .tooShort
      else decodeFields (Fields.ofWord l (BitVec.ofNat 128 (bytesToNat (bs.take l.bytes))))

/-- The encoder: the bytes of an instruction in its own length; an event has none. -/
def encode (i : Instr) : Option (List Byte) :=
  match i.fields, i.hdr with
  | some f, some h => some (natToBytes h.len.bytes f.word.toNat)
  | _, _ => none

/-- The instruction the decoder reads from a word whose bits are `w` (bit 0 is bit 0 of the first byte). The bits
above `nbits` are zero, so the word is laid out little-endian in sixteen bytes. -/
def decodeTableWord (nbits w : Nat) : Option Instr :=
  match decode (natToBytes 16 (w % 2 ^ nbits)) with
  | .ok i => some i
  | .error _ => none

end Sys2Proof
end

