-- ==== Sys2Proof/Machine/Gear.lean ====
section
/-! DEFINITION. Gear requests and the decision of a tile's gear (R299, R300, R303, R312). -/

namespace Sys2Proof.Machine

/-- A group blocked in `RVWAIT.IDLE` (R299). -/
def Group.idling (g : Group) : Bool :=
  g.gangs.any fun x => match x.wait with
    | .rv _ idle => idle
    | _ => false

/-- The idle condition of a team: every group that has not ended is blocked in `RVWAIT.IDLE` (R299). -/
def State.teamIdle (s : State) (t : Team) : Bool :=
  (t.groups.any fun i => !(s.group i).ended) && t.groups.all fun i => (s.group i).ended || (s.group i).idling

/-- The effective request of a team: true for F (R299). -/
def State.effReq (s : State) (t : Team) : Bool := t.req && !s.teamIdle t

/-- The teams admitted on a tile. -/
def State.teamsOn (s : State) (n : Nat) : List (Nat × Team) :=
  s.teams.filter fun p => p.2.tile == n && !p.2.ended

/-- A CRIT is forced on a tile (R312). -/
def State.critOn (s : State) (n : Nat) : Bool :=
  (s.sensors.getD n Sensor.reset).crit
    || (List.range 12).any fun l => (s.sensors.getD (192 + 12 * dieOf n + l) Sensor.reset).crit

/-- FOK of R300. -/
def State.fok (s : State) (n : Nat) : Bool := (s.tile n).gcap.getLsbD 0 && !s.critOn n

/-- The gear R300 decides: true for F. -/
def State.wantGear (s : State) (n : Nat) : Bool := s.fok n && (s.teamsOn n).any fun p => s.effReq p.2

/-- Re-evaluate R300: a result that differs from the present gear starts a changeover, unless one is under way (R303,
R304). -/
def State.arbitrate (s : State) (n : Nat) : State :=
  if n < 192 && (s.tile n).change.isNone && s.wantGear n != (s.tile n).gear then
    s.modTile n fun t => { t with change := some (s.wantGear n), lastCycle := true }
  else s

/-- The issue code in force on a tile (R311, R312). -/
def State.issueCode (s : State) (n : Nat) : Nat := if s.critOn n then 1 else field (s.tile n).throt 0 4

/-- A cycle in which the tile may issue (R311). -/
def State.mayIssue (s : State) (n : Nat) : Bool :=
  s.issueCode n == 0 || field (s.tile n).clock 0 4 < s.issueCode n

end Sys2Proof.Machine
end

