-- ==== Sys2Proof/Machine/Ranks.lean ====
section
/-! DEFINITION. Reading registers and writing them at every rank: parents, copies, split stores (R19-R29), the shadow
bank (R318), specials (R20). -/

namespace Sys2Proof.Machine

/-- What an attempt to change the state may meet: a trap with its cause and TINFO, or the state after. -/
abbrev Try := Except (Cause × W64) State

/-- Keys of the split stores (R28): (slice, `g` name) and (group, `t` name). -/
def gKey (n sl : Nat) : Nat := 8 * n + sl
def tKey (n gi : Nat) : Nat := 32 * n + gi

/-! ### Reading (R23) -/

/-- A `g` name as the shadow bank shows it in S mode (R318). -/
def Group.shadowed (g : Group) (n : Nat) : Bool := g.level == .s && 120 ≤ n

/-- Parent of a `g` name; in S mode g120-g127 name the shadow bank (R318). -/
def Group.parentG (g : Group) (n : Nat) : W64 :=
  if g.shadowed n then g.shadow.getD n 0 else g.g.getD n 0

/-- View(gN, s) (R23). -/
def Group.viewG (g : Group) (n sl : Nat) : W64 :=
  if g.shadowed n then g.shadow.getD n 0 else (g.gc.get? (gKey n sl)).getD (g.g.getD n 0)

/-- View(tN, group) (R23). -/
def Team.viewT (t : Team) (n gi : Nat) : W64 := (t.tc.get? (tKey n gi)).getD (t.t.getD n 0)

/-- A lane's `v` register. -/
def Group.laneV (g : Group) (n lane : Nat) : W64 := ((g.v.getD n [])[lane]?).getD 0

/-- A lane's predicate; 7 is `pt` (R41). -/
def Group.laneP (g : Group) (n lane : Nat) : Bool := n == 7 || ((g.p.getD n [])[lane]?).getD false

/-- Coordinates of a cluster in its grid (R20). -/
def State.gridOf (s : State) (g : Group) : Nat × Nat × Nat :=
  let c := s.cluster (s.team g.team).cluster
  let p := (s.launch c.launch).pkt
  (c.idx % p.gridx, c.idx / p.gridx % p.gridy, c.idx / p.gridx / p.gridy)

/-- `%clock` (R20): the tile cycle counter, or the stage manager's (R347). -/
def State.clockOf (s : State) (g : Group) : W64 := if g.level = .m then s.sm.clock else (s.tile (s.team g.team).tile).clock

/-- A special operand in a lane (R20, R347). -/
def State.special (s : State) (g : Group) (n lane : Nat) : W64 :=
  let t := s.team g.team
  let c := s.cluster t.cluster
  let m := g.level == .m
  let nat (x : Nat) : W64 := BitVec.ofNat 64 x
  match n with
  | 0 => nat lane
  | 1 => nat (lane / 4)
  | 2 => nat g.idx
  | 3 => if m then 0 else nat t.idx
  | 4 => nat t.tile
  | 5 => if m then 0 else nat c.idx
  | 6 => if m then 0 else nat (s.gridOf g).1
  | 7 => if m then 0 else nat (s.gridOf g).2.1
  | 8 => if m then 0 else nat (s.gridOf g).2.2
  | 9 => s.clockOf g
  | 10 => if m then 0 else if (s.tile t.tile).gear then 1 else 0
  | _ => if m then 0 else nat (if (s.launchOf g).pkt.det then (s.launchOf g).phase else 0)

/-! ### Masks -/

/-- Slice `i` of a group; a slice it does not have is dead. -/
def Group.slice (g : Group) (i : Nat) : Slice := (g.slices[i]?).getD (Slice.start 0 0)

/-- A lane is active under its mask stack: its AM bit set and live (R258). -/
def Group.laneOn (g : Group) (lane : Nat) : Bool :=
  let sl := g.slice (lane / 4)
  sl.am.getLsbD (lane % 4) && sl.live.getLsbD (lane % 4)

/-- A slice is live while one of its lanes is (R12). -/
def Group.sliceLive (g : Group) (i : Nat) : Bool := (g.slice i).live != 0

/-- The live slices. -/
def Group.liveSlices (g : Group) : List Nat := those 8 g.sliceLive

/-- The active lanes of a sub-gang, before any guard. -/
def Group.lanesOn (g : Group) (slices : BitVec 8) : List Nat :=
  those 32 fun l => slices.getLsbD (l / 4) && g.laneOn l

/-- The slices of a sub-gang with an active lane. -/
def Group.slicesOn (g : Group) (slices : BitVec 8) : List Nat :=
  those 8 fun i => slices.getLsbD i && ((g.slice i).am &&& (g.slice i).live) != 0

/-- The lowest-numbered active lane of a slice (R24). -/
def Group.firstLane (g : Group) (i : Nat) : Nat :=
  ((List.range 4).find? fun j => g.laneOn (4 * i + j)).elim (4 * i) (4 * i + ·)

/-- The sub-gang is the whole gang: it holds every live slice (R14). -/
def Group.whole (g : Group) (slices : BitVec 8) : Bool := g.liveSlices.all fun i => slices.getLsbD i

/-- The whole gang as the matrix unit counts it: in S mode the slices of TSTATE.SG (R225, R317). -/
def Group.wholeMx (g : Group) (slices : BitVec 8) : Bool :=
  if g.level = .s then
    g.liveSlices.all fun i => !g.tstate.getLsbD (32 + i) || slices.getLsbD i
  else g.whole slices

/-! ### Guards (R41) -/

/-- The guard value of a lane. -/
def Group.guard (g : Group) (x : Guard) (lane : Nat) : Bool :=
  let a := g.laneP x.g0.toNat lane != x.gn
  let b := g.laneP x.g1.toNat lane
  match x.gop.toNat with
  | 0 => a
  | 1 => a && b
  | 2 => a || b
  | _ => a && !b

/-- The lanes of a lane-class instruction that take part: active and guarded (R43, R258). -/
def State.actLanes (s : State) (h : Hdr) : List Nat :=
  (s.curG.lanesOn s.cur.slices).filter (s.curG.guard h.grd)

/-- The leader lane: the lowest-numbered active lane of the issuing sub-gang (R24). -/
def State.leader (s : State) : Option Nat := (s.curG.lanesOn s.cur.slices).head?

/-- A uniform instruction has an effect: some lane is active and the guard holds in the leader (R24, R43). -/
def State.uniform (s : State) (h : Hdr) : Bool :=
  match s.leader with
  | some l => s.curG.guard h.grd l
  | none => false

/-- The lanes in which results are computed for a destination: for `v` and `p` every active guarded lane; else the
lowest active lane of each slice that has one, if the guard holds in the leader (R24, R170). -/
def State.resultLanes (s : State) (h : Hdr) (d : Spec) : List Nat :=
  match d with
  | .v _ | .p _ => s.actLanes h
  | _ => if s.uniform h then (s.curG.slicesOn s.cur.slices).map s.curG.firstLane else []

/-! ### Writing (R25-R27) -/

/-- A row with the listed lanes replaced. -/
def rowWith {α : Type} (row : List α) (dflt : α) (lanes : List Nat) (f : Nat → α) : List α :=
  lanesOf fun l => if lanes.contains l then f l else (row[l]?).getD dflt

/-- Write lanes of a `v` register. -/
def Group.writeV (g : Group) (n : Nat) (lanes : List Nat) (f : Nat → W64) : Group :=
  if lanes.isEmpty then g else { g with v := g.v.set n (rowWith (g.v.getD n []) 0 lanes f) }

/-- Write lanes of a predicate; writes of `pt` are discarded (R19). -/
def Group.writeP (g : Group) (n : Nat) (lanes : List Nat) (f : Nat → Bool) : Group :=
  if n = 7 || lanes.isEmpty then g else { g with p := g.p.set n (rowWith (g.p.getD n []) false lanes f) }

/-- Drop every slice copy of a `g` name. -/
def Group.dropG (g : Group) (n : Nat) : Group :=
  { g with gc := g.gc.filter fun p => p.1 / 8 != n }

/-- Every result of the contributing lanes is bitwise equal. -/
def allEqual (lanes : List Nat) (f : Nat → W64) : Bool :=
  match lanes with
  | [] => true
  | a :: r => r.all fun b => f b == f a

/-- A write of a result set to `gN` (R25, R318). `lanes` holds one lane for each contributing slice, ascending. -/
def State.writeG (s : State) (n : Nat) (lanes : List Nat) (f : Nat → W64) : Try :=
  let g := s.curG
  match lanes with
  | [] => .ok s
  | l0 :: _ =>
    let contrib := lanes.map (· / 4)
    if g.shadowed n then .ok (s.setGroup s.cur.gid { g with shadow := g.shadow.set n (f l0) })
    else if contrib == g.liveSlices && allEqual lanes f then
      .ok (s.setGroup s.cur.gid { g.dropG n with g := g.g.set n (f l0) })
    else
      let need := (contrib.filter fun i => (g.gc.get? (gKey n i)).isNone).length
      if 16 - g.gc.length < need then .error (.splitFull, 0)
      else .ok (s.setGroup s.cur.gid { g with gc := lanes.foldl (fun c l => c.set (gKey n (l / 4)) (f l)) g.gc })

/-- The condition of R26 and R27: the whole gang, every live slice contributing, equal results. -/
def State.teamWrite (s : State) (lanes : List Nat) (f : Nat → W64) : Bool :=
  s.curG.whole s.cur.slices && lanes.map (· / 4) == s.curG.liveSlices && allEqual lanes f

/-- A write to `tN` (R26). -/
def State.writeT (s : State) (n : Nat) (lanes : List Nat) (f : Nat → W64) : Try :=
  match lanes with
  | [] => .ok s
  | l0 :: _ =>
    let t := s.curT
    let gi := s.curG.idx
    if !s.teamWrite lanes f then .error (.rankPart, 0)
    else if t.groups.length = 1 then .ok (s.setTeam s.curG.team { t with t := t.t.set n (f l0) })
    else if (t.tc.get? (tKey n gi)).isNone && 32 ≤ t.tc.length then .error (.splitFull, 1)
    else .ok (s.setTeam s.curG.team { t with tc := t.tc.set (tKey n gi) (f l0) })

/-- Where an uncorrectable error in a register stands (R319): one in a `t` is an error of the team's value, and stands with the
team's first group. Assumption 54 (DESIGN CHOICE). -/
def State.regPlace (s : State) (gid : Nat) (r : Spec) : ErrPlace :=
  match r with
  | .t _ => .reg ((s.team (s.group gid).team).groups.headD gid) r
  | _ => .reg gid r

/-- A group holds its own copy of a `t` name, which it reads instead of the team's value (R26). -/
def State.ownCopy (s : State) (gid : Nat) (r : Spec) : Bool :=
  match r with
  | .t n => ((s.team (s.group gid).team).tc.get? (tKey n.toNat (s.group gid).idx)).isSome
  | _ => false

/-- A write of a whole register stores fresh ECC and ends an uncorrectable error in it (R319): every lane of a `v` or
`p`, every live slice of a `g` or `t`. A group's own copy of a `t` leaves the team's value as it is.
Assumption 54 (DESIGN CHOICE). -/
def State.freshReg (s : State) (gid : Nat) (r : Spec) (lanes : List Nat) : State :=
  let whole : Bool := match r with
    | .v _ => lanes.length == 32
    | .p _ => lanes.length == 32
    | _ => lanes.map (· / 4) == (s.group gid).liveSlices
  if whole && !s.ownCopy gid r then s.clearBad (s.regPlace gid r) else s

/-- Write one result per result lane to a destination of any rank (R170). A `p` destination takes true where the value
is not zero; `zero` discards. Assumption 14 (DEDUCED). -/
def State.writeTo (s : State) (d : Spec) (lanes : List Nat) (f : Nat → W64) : Try :=
  match d with
  | .v n => .ok ((s.setGroup s.cur.gid (s.curG.writeV n.toNat lanes f)).freshReg s.cur.gid d lanes)
  | .p n => .ok ((s.setGroup s.cur.gid (s.curG.writeP n.toNat lanes fun l => f l != 0)).freshReg s.cur.gid d lanes)
  | .g n => (s.writeG n.toNat lanes f).map fun s => s.freshReg s.cur.gid d lanes
  | .t n => (s.writeT n.toNat lanes f).map fun s => s.freshReg s.cur.gid d lanes
  | _ => .ok s

/-- A write to a record (R27). -/
def State.writeB (s : State) (n : Nat) (rec : BitVec 256) (same : Bool) : Try :=
  let lanes := (s.curG.slicesOn s.cur.slices).map s.curG.firstLane
  if !s.teamWrite lanes (fun _ => 0) || !same then .error (.rankPart, 0)
  else .ok ((s.setGroup s.cur.gid { s.curG with b := s.curG.b.set n rec }).freshReg s.cur.gid (.b (BitVec.ofNat 4 n)) lanes)

end Sys2Proof.Machine
end

