-- ==== Sys2Proof/Machine/Life.lean ====
section
/-! DEFINITION. Ends: lanes, slices, groups, teams, clusters (R12, R67, R143, R155, R335), and the completion of a
MERGE.G round, which an end may bring about (R273). -/

namespace Sys2Proof.Machine

/-- `%cluster` of a group. -/
def State.clusterIdx (s : State) (g : Group) : Nat := (s.cluster (s.team g.team).cluster).idx

/-- The tag that names tile `n` of a group (R335). -/
def State.accTag (s : State) (g : Group) (n : Nat) : W64 :=
  BitVec.ofNat 64 (2 ^ 63 + s.ctxOf g % 16 * 2 ^ 56 + s.clusterIdx g % 2 ^ 32 * 2 ^ 24 + (s.team g.team).idx % 16 * 2 ^ 20
    + g.idx % 32 * 2 ^ 8 + n % 4)

/-! ### Waiting groups of a point -/

def Wait.isRv : Wait → Bool
  | .rv _ _ => true
  | _ => false


/-- Every waiting group of a team that a release of a point frees (R294), in ascending group index. -/
def State.waitersOn (s : State) (tile : Nat) (p : Nat → Team → Bool) (w : Wait → Bool) : List Nat :=
  ((s.teams.filter fun x => x.2.tile == tile && !x.2.ended && p x.1 x.2).flatMap fun x => x.2.groups).filter fun i =>
    (s.group i).gangs.any fun gg => w gg.wait

/-- Change the waits of a group. -/
def State.mapWait (s : State) (gid : Nat) (f : Wait → Wait) : State :=
  s.modGroup gid fun g => { g with gangs := g.gangs.map fun x => { x with wait := f x.wait } }

/-- A group held back by the curtain is freed. -/
def State.freeOne (s : State) (gid : Nat) : State :=
  (s.mapWait gid fun w => match w with
    | .curtain _ again => if again then .freed else .none
    | w => w).stamp gid

/-- The first wave of a release, and what is left for later: all its groups in gear N, `size` of them in gear F, 0 standing for
all (R294, R307). -/
def State.firstWave (s : State) (tile : Nat) (w : Wave) : List Wave × State :=
  if !(s.tile tile).gear || w.size = 0 || w.groups.length ≤ w.size then ([], w.groups.foldl State.freeOne s)
  else ([{ w with groups := w.groups.drop w.size, begun := true }], (w.groups.take w.size).foldl State.freeOne s)

/-- Free waiting groups (R294, R307): those not freed at once wait behind the curtain. In a changeover nobody is freed
before its end (R304). The release keeps what CSLEW holds now (R307). -/
def State.freeWaiters (s : State) (tile rp : Nat) (gids : List Nat) (mine : Wait → Bool) : State :=
  let s := gids.foldl (fun s i => s.mapWait i fun w => if mine w then .curtain rp w.isRv else w) s
  let w : Wave := ⟨gids, field (s.tile tile).cslew 0 8, field (s.tile tile).cslew 8 16, false⟩
  let (later, s) : List Wave × State :=
    if gids.isEmpty then ([], s)
    else if (s.tile tile).change.isSome then ([w], s)
    else s.firstWave tile w
  if later.isEmpty then s else s.modTile tile fun t => { t with waves := t.waves ++ later }

/-! ### MERGE.G rounds (R273) -/

/-- Write a predicate in every lane of a group. -/
def Group.writeAllP (g : Group) (n : Nat) (x : Bool) : Group := g.writeP n (List.range 32) fun _ => x

/-- Views of a `t` name by every group of the team, in ascending index; an ended group has no copy (R273). -/
def State.teamViews (s : State) (t : Team) (n : Nat) : List W64 := t.groups.map fun i => t.viewT n (s.group i).idx

/-- The team after the fold of a round's name (R272, R273), and the answer of `.agree`. -/
def State.foldTeam (s : State) (t : Team) (a : MergeArr) : Team × Bool :=
  let views := s.teamViews t a.name
  let drop := t.tc.filter fun p => p.1 / 32 != a.name
  let first := (views[0]?).getD 0
  match a.mode with
  | 0 => if views.all (· == first) then ({ t with t := t.t.set a.name first, tc := drop }, true) else (t, false)
  | 1 =>
    match (t.tc.filter fun p => p.1 / 32 == a.name).head? with
    | some p => ({ t with t := t.t.set a.name p.2, tc := drop }, true)
    | none => (t, true)
  | m => ({ t with t := t.t.set a.name (mergeFold m a.ty views), tc := drop }, true)

/-- Complete a MERGE.G round once every group of the team that has not ended has arrived (R273): fold (a team value that is
written anew has fresh ECC, R319), write each
group's predicate, release the point, and let the groups continue after their instruction. One that an asynchronous trap
took out of its wait continues there too: at once where its handler has returned, else when it returns (R274).
Assumption 59 (DESIGN CHOICE). -/
def State.mergeRound (s : State) (tid rp : Nat) : State :=
  let t := s.team tid
  let arrs := t.merges.getD rp []
  match arrs with
  | [] => s
  | a :: _ =>
    if !(t.groups.all fun i => (s.group i).ended || arrs.any fun x => x.group == i) then s
    else
      let (t', f) := s.foldTeam t a
      let pt := t'.points.getD rp RvPoint.reset
      let t' := { t' with
        merges := t'.merges.del rp
        points := t'.points.set rp { pt with merge := false, arr := 0, round := pt.round + 1 } }
      let wrote : Bool := match a.mode with
        | 0 => f
        | 1 => t.tc.any fun p => p.1 / 32 == a.name
        | _ => true
      let s := s.setTeam tid t'
      let s := if wrote then s.clearBad (s.regPlace a.group (.t (BitVec.ofNat 6 a.name))) else s
      let step (s : State) (x : MergeArr) : State :=
        s.modGroup x.group fun g =>
          let g := match x.pred with
            | some p => if x.mode = 0 then g.writeAllP p f else g
            | none => g
          let waits : Bool := g.gangs.any fun y => match y.wait with
            | .mergeG q _ => q == rp
            | _ => false
          if waits || g.level != .s then { g with slices := g.slices.map fun sl => { sl with pc := sl.pc + BitVec.ofNat 56 x.len } }
          else { g with tpc := g.tpc + BitVec.ofNat 64 x.len }
      let s := (arrs.filter fun x => !(s.group x.group).ended).foldl step s
      let gids := t.groups.filter fun i => arrs.any fun x => x.group == i
      s.freeWaiters t.tile rp gids fun w => match w with
        | .mergeG q _ => q == rp
        | _ => false

/-- Re-examine every open MERGE.G round of a team. -/
def State.mergeRounds (s : State) (tid : Nat) : State :=
  ((s.team tid).merges.map (·.1)).foldl (fun s rp => s.mergeRound tid rp) s

/-! ### Ends -/

/-- A group leaves its issue slot. -/
def State.leaveSlot (s : State) (gid : Nat) (p : Place) : State :=
  let g := s.group gid
  let s := (s.stamp gid).modGroup gid fun g => { g with place := p }
  if g.level = .m then s
  else s.modSub (s.team g.team).tile g.q fun c =>
    { c with slots := c.slots.map fun x => if x == some gid then none else x }

/-- The LFM store of a group as an access: one word, written at L2, a release at system scope after every access of the
group (R67, R166). -/
def State.lfmAccess (s : State) (gid va line : Nat) (unc : Bool) : Access where
  gid := gid
  slices := 255
  order := 255
  level := .s
  pc := 0
  kind := .store
  info := ⟨.zero, 0, 0, 0, 1, 0, false, true, 0, []⟩
  record := 0
  rtype := .uncached
  rep := false
  evict := false
  elems := [⟨0, 0, 0, va % 128, 4, (s.group gid).lfm.toNat, 0, none⟩]
  lines := [⟨va / 128 * 128, line, unc, .todo⟩]
  acq := none
  rel := some 4
  gate := (s.accs.filter fun p => p.2.gid == gid).map (·.1)
  wbs := []
  log := none
  ready := false
  failed := none

/-- An access is the LFM store of its group (R67). -/
def Access.isLfm (a : Access) : Bool := a.kind == .store && a.info.flag2

/-- The LFM store at a group's end (R67). Its page need not permit U mode. Assumption 47 (DESIGN CHOICE).
Assumption 70 (DESIGN CHOICE). -/
def State.storeLfm (s : State) (gid : Nat) : State :=
  let g := s.group gid
  let t := s.team g.team
  let ctx := s.ctxOf g
  let base := field (s.ctxWord ctx 5) 0 56
  if base = 0 || g.level = .m then s
  else
    let va := (base + 4 * ((s.clusterIdx g * 12 + t.idx) * 32 + g.idx)) % 2 ^ 56
    match s.translate t.tile ctx va false .w with
    | (.ok l unc, s) =>
      let (k, s) := s.fresh
      { s with accs := s.accs.set k (s.lfmAccess gid va l unc) }
    | (_, s) => s.fqPost 5 va ctx t.tile g.q 0xFF 0

/-- The physical tiles that carry a team's tags lose them and their ACCLIVE bits when it ends (R335). -/
def State.clearTags (s : State) (t : Team) : State :=
  let tags := t.groups.flatMap fun i => (List.range 4).map fun n => s.accTag (s.group i) n
  (List.range 4).foldl (fun s q => s.modSub t.tile q fun c =>
    let mine := (c.acctag.filter fun p => tags.contains p.2).map (·.1)
    { c with
      acctag := mine.foldl (fun a p => a.del p) c.acctag
      acclive := mine.foldl (fun m p => m &&& ~~~ BitVec.ofNat 8 (2 ^ p)) c.acclive }) s

/-- A cluster ends when all its teams have (R12); its launch counts it (R256, R295). -/
def State.clusterEnd (s : State) (cid : Nat) : State :=
  let c := s.cluster cid
  if !c.ended && !c.teams.isEmpty && c.teams.all fun i => (s.team i).ended then
    let s := s.modCluster cid fun c => { c with ended := true }
    s.modLaunch c.launch fun l => { l with
      done := l.done + 1
      lastTile := ((c.teams[0]?).map fun i => (s.team i).tile).getD 0 }
  else s

/-- A team ends when all its groups have ended, every copy it issued has decremented its tokens (R12, R143), and its
MLOOPs have run and its accesses performed (a choice of the model): its
tile's dirty lines are written back (R155), its tags cleared (R335), its grants released (R30), the gear decided again
(R300). Assumption 36 (DESIGN CHOICE). -/
def State.teamEnd (s : State) (tid : Nat) : State :=
  let t := s.team tid
  if t.ended || t.groups.isEmpty || t.tile ≥ 192 then s
  else if !(t.groups.all fun i => (s.group i).ended) || (s.copies.any fun c => c.2.team == tid)
      || (s.accs.any fun a => t.groups.contains a.2.gid)
      || (List.range 4).any (fun q => (s.sub t.tile q).mloops.any fun m => t.groups.contains m.gid)
      || (s.cluster t.cluster).loops.any (fun m => t.groups.contains m.gid) then s
  else
    let (wbs, s) := s.writeBackAll t.tile
    let s := s.modLaunch (s.cluster t.cluster).launch fun l => { l with wbs := l.wbs ++ wbs }
    let s := s.clearTags t
    let s := s.modTeam tid fun t => { t with ended := true }
    (s.clusterEnd t.cluster).arbitrate t.tile

/-- The sub-core of a group. -/
def State.subOf (s : State) (gid : Nat) : SubCore := s.sub (s.team (s.group gid).team).tile (s.group gid).q
def State.modSubOf (s : State) (gid : Nat) (f : SubCore → SubCore) : State :=
  s.modSub (s.team (s.group gid).team).tile (s.group gid).q f

/-- The saved MLOOPs of a group (R237). -/
def State.savedLoops (s : State) (gid : Nat) : List MLoop :=
  (s.cluster (s.team (s.group gid).team).cluster).loops.filter (·.gid == gid)

/-- The saved MLOOPs of a group go to the sequencer in their issue order (R237). Assumption 36 (DESIGN CHOICE). -/
def State.takeUpLoops (s : State) (gid : Nat) : State :=
  let ms := s.savedLoops gid
  (s.modSubOf gid fun c => { c with mloops := c.mloops ++ ms }).modCluster (s.team (s.group gid).team).cluster fun c =>
    { c with loops := c.loops.filter (·.gid != gid) }

/-- A quad-mate that holds in MMA.Q looks again when a group ends (R232). -/
def State.freeMates (s : State) (gid : Nat) : State :=
  let g := s.group gid
  ((s.team g.team).groups.filter fun i => (s.group i).idx / 4 == g.idx / 4).foldl (fun s i => s.mapWait i fun w =>
    match w with
    | .meeting _ => .none
    | w => w) s

/-- A group ends: it has no live slice (R12). -/
def State.groupEnd (s : State) (gid : Nat) : State :=
  let g := s.group gid
  if g.ended then s
  else
    let s := s.storeLfm gid
    let s := s.leaveSlot gid .pool
    let s := s.modGroup gid fun g => { g with
      ended := true
      gangs := []
      gc := []
      pend := []
      inAccFirst := false
      slices := g.slices.map fun sl => { sl with am := 0, live := 0, masks := [], calls := [] } }
    let s := s.modTeam g.team fun t => { t with tc := t.tc.filter fun p => p.1 % 32 != g.idx }
    let s := (s.takeUpLoops gid).freeMates gid
    let s := s.mergeRounds g.team
    let s := s.arbitrate (s.team g.team).tile
    s.teamEnd g.team

/-- A group leaves its slot while every one of its sub-gangs naps (R288, R290). -/
def State.napOut (s : State) (gid : Nat) : State :=
  let g := s.group gid
  let naps := g.gangs.all fun x => match x.wait with
    | .nap _ _ => true
    | _ => false
  match g.place with
  | .slot _ => if naps && g.level != .m then s.leaveSlot gid .pool else s
  | _ => s

/-- End lanes of a group: `kill i` are the lanes of slice `i` that end (R268). A slice that loses its last live lane
drops its split-store entries and its stacks (R12) and leaves its sub-gang. -/
def State.endLanes (s : State) (gid : Nat) (kill : Nat → BitVec 4) : State :=
  let s := s.modGroup gid fun g =>
    let sl := (List.range g.slices.length).map fun i =>
      let x := g.slice i
      let live := x.live &&& ~~~ kill i
      if live = 0 then { x with am := 0, live := 0, masks := [], calls := [] }
      else { x with am := x.am &&& ~~~ kill i, live := live }
    let g := { g with slices := sl }
    let dead := fun i => !g.sliceLive i
    { g with
      gc := g.gc.filter fun p => !dead (p.1 % 8)
      gangs := (g.gangs.map fun x => { x with slices := maskOf ((slicesOf x.slices).filter fun i => !dead i) }).filter
        fun x => x.slices != 0 }
  if (s.group gid).liveSlices.isEmpty then s.groupEnd gid else s.napOut gid

/-- Every live lane ends at once (R315, R326). -/
def State.endAll (s : State) (gid : Nat) : State := s.endLanes gid fun _ => 15

end Sys2Proof.Machine
end

