-- ==== Sys2Proof/Machine/Ops.lean ====
section
/-! DEFINITION. Taking a trap and returning from one (R315-R317, R324), rejoining (R17, R272), and the frame every
instruction issues in: the checks of R54, token waits (R44), the scoreboard, the next PC and the parting of
sub-gangs (R15). -/

namespace Sys2Proof.Machine

/-- TCAUSE codes (R316). -/
def Cause.code : Cause → Nat
  | .ill => 0x01 | .fetchAlign => 0x02 | .priv => 0x03 | .producer => 0x04 | .splitFull => 0x05 | .mxCombo => 0x06
  | .mxWidth => 0x07 | .accFirst => 0x08 | .accUnalloc => 0x09 | .memErr => 0x0A | .prot => 0x0B | .access => 0x0C
  | .phaseTimeout => 0x0D | .fillFmt => 0x0E | .rankPart => 0x0F | .mergeCount => 0x10 | .gangMismatch => 0x11
  | .stackOvf => 0x12 | .detFp => 0x13 | .bkpt => 0x14 | .trap => 0x15 | .preempt => 0x20 | .thermal => 0x21
  | .timer => 0x22

/-- Asynchronous causes (R316). -/
def Cause.async : Cause → Bool
  | .phaseTimeout | .preempt | .thermal | .timer => true
  | _ => false

/-! ### Trap entry and return -/

/-- TSTATE bit positions (R329). -/
def tsPpl : Nat := 44
def tsInTrap : Nat := 45
def tsIe : Nat := 46
def tsPie : Nat := 47

def bitSet (x : W64) (i : Nat) (b : Bool) : W64 := setField x i 1 (if b then 1 else 0)

/-- TSTATE after the entry of a sub-gang (R317). -/
def Group.entryState (g : Group) (slices : BitVec 8) : W64 :=
  let x := (slicesOf slices).foldl (fun x i => setField x (4 * i) 4 (g.slice i).am.toNat) g.tstate
  let x := setField x 32 8 slices.toNat
  let x := bitSet x tsPpl (g.level != .u)
  let x := bitSet x tsPie (g.tstate.getLsbD tsIe)
  bitSet (bitSet x tsIe false) tsInTrap true

/-- Change the listed slices. -/
def Group.mapSlices (g : Group) (slices : BitVec 8) (f : Nat → Slice → Slice) : Group :=
  { g with slices := (List.range g.slices.length).map fun i =>
      if slices.getLsbD i then f i (g.slice i) else g.slice i }

/-- Give the wait of every sub-gang inside a set of slices. -/
def Group.setWait (g : Group) (slices : BitVec 8) (w : Wait) : Group :=
  { g with gangs := g.gangs.map fun x => if x.slices &&& ~~~ slices = 0 then { x with wait := w } else x }

/-- Enter the handler (R317). -/
def State.enterTrap (s : State) (gid : Nat) (slices : BitVec 8) (c : Cause) (tpc : PC) (info : W64) : State :=
  s.modGroup gid fun g =>
    let tv := BitVec.ofNat 56 (s.tvecOf g).toNat
    let g' := (g.mapSlices slices fun _ x => { x with am := x.live, pc := tv }).setWait slices .none
    { g' with
      tcause := BitVec.ofNat 64 c.code
      tpc := tpc.zeroExtend 64
      tinfo := info
      tstate := g.entryState slices
      accsel := g.accsel &&& 7
      level := if g.level = .m then .m else .s
      inAccFirst := g.inAccFirst || c == .accFirst }

/-- A sub-gang takes a trap (R315, R317). In S mode a synchronous trap is nested and ends the group with an entry of
kind 7; in M mode with INTRAP = 1 it restarts the stage manager's core from the boot ROM. -/
def State.takeTrap (s : State) (gid : Nat) (slices : BitVec 8) (c : Cause) (tpc : PC) (info : W64) : State :=
  let g := s.group gid
  match g.level with
  | .u => s.enterTrap gid slices c tpc info
  | .s =>
    if c.async then s.enterTrap gid slices c tpc info
    else
      let t := s.team g.team
      (s.fqPost 7 tpc.toNat (s.ctxOf g) t.tile g.q c.code g.idx).endAll gid
  | .m => if g.tstate.getLsbD tsInTrap && !c.async then s.bootCore else s.enterTrap gid slices c tpc info

/-- Return from a trap (R324): the saved level, masks and PC. -/
def State.returnTrap (s : State) (gid : Nat) (slices : BitVec 8) : State :=
  s.modGroup gid fun g =>
    let g' := g.mapSlices slices fun i x =>
      { x with am := BitVec.ofNat 4 (field g.tstate (4 * i) 4) &&& x.live, pc := BitVec.ofNat 56 g.tpc.toNat }
    { g' with
      level := if g.level = .m then .m else if g.tstate.getLsbD tsPpl then .s else .u
      tstate := bitSet (bitSet g.tstate tsIe (g.tstate.getLsbD tsPie)) tsInTrap false
      accsel := g.accsel &&& 7
      inAccFirst := false }

/-! ### Program counters -/

/-- The PC of a sub-gang: that of its lowest slice. -/
def Group.pcOf (g : Group) (slices : BitVec 8) : PC := (g.slice (lowSlice slices)).pc

/-- Advance the slices of a set past an instruction. -/
def Group.advance (g : Group) (slices : BitVec 8) (n : Nat) : Group :=
  g.mapSlices slices fun _ x => { x with pc := x.pc + BitVec.ofNat 56 n }

/-- Split one sub-gang by the next PCs of its slices, lowest slice first (R15). The part with its lowest slice keeps its
place, each other takes that of its own lowest slice (R16). -/
def Group.splitGang (g : Group) (x : SubGang) : List SubGang :=
  let sl := slicesOf x.slices
  (sl.filter fun i => (sl.find? fun j => (g.slice j).pc == (g.slice i).pc) == some i).map fun i =>
    { x with
      slices := maskOf (sl.filter fun j => (g.slice j).pc == (g.slice i).pc)
      place := if i = lowSlice x.slices then x.place else i }

/-- The issuing sub-gang parts into one sub-gang for each distinct next PC (R15). -/
def Group.part (g : Group) (slices : BitVec 8) : Group :=
  { g with gangs := g.gangs.flatMap fun x => if x.slices &&& ~~~ slices = 0 then g.splitGang x else [x] }

/-! ### Rejoining (R17) -/

/-- The slices a rejoin counts: the live slices, in S mode those of TSTATE.SG (R317). -/
def Group.rejoinSlices (g : Group) : List Nat :=
  if g.level = .s then g.liveSlices.filter fun i => g.tstate.getLsbD (32 + i) else g.liveSlices

/-- The rejoin instruction a slice waits at. -/
def Group.rejoinAt (g : Group) (i : Nat) : Option Instr :=
  match g.gangs.find? fun x => x.slices.getLsbD i with
  | some ⟨_, .rejoin op, _⟩ => some op
  | _ => none

/-- Replace the sub-gangs inside a set of slices by one sub-gang that waits for nothing. -/
def Group.joinGang (g : Group) (m : BitVec 8) : Group :=
  { g with gangs := ⟨m, .none, lowSlice m⟩ :: g.gangs.filter fun x => x.slices &&& m = 0 }

/-- What some slices of a group issued, once the slices `m` have rejoined: it comes before what they issue next, where one of
them issued it or no slice of it is live any more (R253). -/
def widened (m live x : BitVec 8) : BitVec 8 := if x &&& m = 0 && x &&& live != 0 then x else x ||| m

/-- Saved or queued MLOOPs after a rejoin. -/
def widenLoops (gid : Nat) (m live : BitVec 8) (l : List MLoop) : List MLoop :=
  l.map fun x => if x.gid = gid then { x with slices := widened m live x.slices } else x

/-- After a rejoin of slices every access, copy and MLOOP that the group has issued comes before whatever they issue next (R251,
R253). -/
def State.widenOrder (s : State) (gid : Nat) (m : BitVec 8) : State :=
  let w := widened m (maskOf (s.group gid).liveSlices)
  let loops := widenLoops gid m (maskOf (s.group gid).liveSlices)
  { s with
    accs := s.accs.map fun p => (p.1, if p.2.gid = gid then { p.2 with order := w p.2.order } else p.2)
    copies := s.copies.map fun p => (p.1, if p.2.gid = gid then { p.2 with slices := w p.2.slices } else p.2)
    subs := s.subs.map fun p => (p.1, { p.2 with mloops := loops p.2.mloops })
    clusters := s.clusters.map fun p => (p.1, { p.2 with loops := loops p.2.loops }) }

/-- The views of a `g` name by the children of a MERGE.S, ascending (R272). -/
def Group.sliceViews (g : Group) (n : Nat) (sl : List Nat) : List W64 := sl.map (g.viewG n)

/-- Set the parent of a `g` name and drop every copy; in S mode a shadowed name has no copies (R272, R318). -/
def Group.foldInto (g : Group) (n : Nat) (x : W64) : Group :=
  if g.shadowed n then { g with shadow := g.shadow.set n x } else { g.dropG n with g := g.g.set n x }

/-- The merge a completed MERGE.S makes (R272). -/
def Group.mergeS (g : Group) (m : MergeM) (d a : Spec) (sl : List Nat) : Group :=
  match d with
  | .g n =>
    let n := n.toNat
    let views := g.sliceViews n sl
    let first := (views[0]?).getD 0
    match m.mode.toNat with
    | 0 =>
      let f := views.all (· == first)
      let g := if f then g.foldInto n first else g
      match a with
      | .p k => g.writeAllP k.toNat f
      | _ => g
    | 1 =>
      match sl.find? fun i => (g.gc.get? (gKey n i)).isSome && !g.shadowed n with
      | some i => g.foldInto n (g.viewG n i)
      | none => g
    | mode => g.foldInto n (mergeFold mode m.ty.toNat views)
  | _ => g

/-- A logged access of a group, which a rejoin waits for (R77), or one that waits for an entry. -/
def State.logged (s : State) (gid : Nat) : Bool :=
  s.accs.any fun a => a.2.gid == gid && (a.2.log.isSome || a.2.lines.any fun l => l.status == .missing)

/-- Examine a group's pending rejoin (R17): complete it, trap with GANG_MISMATCH, or leave it waiting. -/
def State.examine (s : State) (gid : Nat) : State :=
  let g := s.group gid
  let sl := g.rejoinSlices
  match sl with
  | [] => s
  | i0 :: _ =>
    if !(sl.all fun i => (g.rejoinAt i).isSome) then s
    else
      let pc := (g.slice i0).pc
      let same := sl.filter fun i => (g.slice i).pc == pc
      if same.length == sl.length then
        if s.logged gid then s
        else
          match g.rejoinAt i0 with
          | some op =>
            let g := match op with
              | .mergeS _ m d a => g.mergeS m d a sl
              | _ => g
            let m := maskOf sl
            let n := (op.hdr.map fun h => h.len.bytes).getD 8
            (s.setGroup gid ((g.joinGang m).advance m n)).widenOrder gid m
          | none => s
      else
        let m := maskOf same
        (s.setGroup gid (g.joinGang m)).takeTrap gid m .gangMismatch pc (BitVec.ofNat 64 m.toNat)

/-! ### Issue -/

/-- How the body of an instruction ends. -/
inductive Res where
  /-- Its effect is made; each slice's next PC is PC + length. -/
  | done (s : State)
  /-- Its effect is made, next PCs included. -/
  | jump (s : State)
  /-- A precise trap with its TINFO; TPC is the instruction. -/
  | trap (c : Cause) (info : W64) (s : State)
  /-- A trap whose TPC is the next instruction (R323). -/
  | trapNext (c : Cause) (info : W64) (s : State)
  /-- It has issued, and the sub-gang waits at it. -/
  | wait (s : State)
  /-- It cannot issue yet. -/
  | hold (s : State)

/-- A body that only tries to change the state. -/
def Res.ofTry (s : State) : Try → Res
  | .ok s' => .done s'
  | .error (c, info) => .trap c info s

/-- The PC of the issuing sub-gang. -/
def State.curPc (s : State) : PC := s.curG.pcOf s.cur.slices

/-- Change the issuing group. -/
def State.modCur (s : State) (f : Group → Group) : State := s.modGroup s.cur.gid f

/-- The issuing sub-gang could not issue: the scheduler passes it over (R287). -/
def State.passOver (s : State) : State := { s with held := (s.cur.gid, s.cur.slices) :: s.held }

/-- The state a body's end leads to. -/
def Res.finish (h : Hdr) (pc : PC) : Res → State
  | .done s => s.modCur fun g => (g.advance s.cur.slices h.len.bytes).part s.cur.slices
  | .jump s => s.modCur fun g => g.part s.cur.slices
  | .trap c info s => s.takeTrap s.cur.gid s.cur.slices c pc info
  | .trapNext c info s => s.takeTrap s.cur.gid s.cur.slices c (pc + BitVec.ofNat 56 h.len.bytes) info
  | .wait s => s
  | .hold s => s.passOver

/-- The register specifiers an access in flight will write (R76, R157). -/
def Access.busyRegs (a : Access) : List Spec :=
  match a.kind, a.info.dest with
  | .load, .v n => (List.range (if a.info.esz = 4 then 2 else 1)).map fun i => .v (n + BitVec.ofNat 8 i)
  | .deq, .v n => (List.range a.info.n).map fun i => .v (n + BitVec.ofNat 8 i)
  | .atom, d => [d]
  | .quant, d => [d]
  | _, _ => []

/-- The earlier accesses of the same slices that are still to write a register an instruction names (R76).
Assumption 9 (DESIGN CHOICE). -/
def State.busyOn (s : State) (regs : List Spec) : List (Nat × Access) :=
  s.accs.filter fun p => p.2.gid == s.cur.gid && p.2.slices &&& s.cur.slices != 0
    && p.2.busyRegs.any fun r => r != .zero && regs.contains r

/-- Loads, which fill registers or a tile (R76). -/
def AccKind.reads : AccKind → Bool
  | .load | .deq | .accld => true
  | _ => false

/-- An access waits for data of a load that missed the L1 (R32). -/
def Access.missing (a : Access) : Bool := a.kind.reads && a.log.isNone && a.lines.any fun l => l.status == .sent

/-- Leave the slot for the wings until the data of the listed accesses arrive, if the group holds one (R32, R288). -/
def State.toWings (s : State) (accs : List Nat) : State :=
  match s.curG.place with
  | .slot _ => if s.curG.level = .m then s else s.leaveSlot s.cur.gid (.wings accs)
  | _ => s

/-- Something that the listed accesses are to write is needed: the instruction is passed over, and waits in the wings where
data of a load are missing (R32, R76). -/
def State.waitFor (s : State) (l : List (Nat × Access)) : State :=
  let missing := l.filter fun p => p.2.missing
  if missing.isEmpty then s else s.toWings (missing.map (·.1))

/-- A specifier outside the grant, or one the stage manager's profile has not (R21, R54 check 4, R347). -/
def Group.refuses (g : Group) (r : Spec) : Bool :=
  match r with
  | .v n => (if g.level = .m then 32 else g.regs) ≤ n.toNat
  | .t _ => g.level == .m
  | .a _ => g.level == .m
  | _ => false

/-- TINFO of `MEM_ERR` for a register (R319). -/
def regErrInfo (r : Spec) : W64 := BitVec.ofNat 64 (5 * 2 ^ 56 + r.bits.toNat)

/-- Some named token waits that TOKSET armed last (R288). -/
def Team.copyWait (t : Team) (mask : BitVec 8) : Bool :=
  (List.range 8).any fun i => mask.getLsbD i && (t.token i).count != 0 && (t.token i).byTokset

/-- Wait for tokens (R44); on a copy token the group leaves its slot (R288). Assumption 9 (DESIGN CHOICE). -/
def State.waitTokens (s : State) (mask : BitVec 8) : State :=
  let s' := s.passOver.modCur fun g => g.setWait s.cur.slices (.tokens mask)
  if s.curT.copyWait mask && s.curG.level != .m then s'.leaveSlot s.cur.gid .pool else s'

/-- The predicates a guard reads (R41). -/
def guardReads (x : Guard) : List Spec :=
  [Spec.p x.g0, Spec.p x.g1].take (if x.gop = 0 then 1 else 2)

/-- The first of some registers of the issuing group in which an uncorrectable error stands (R319). -/
def State.badReg (s : State) (regs : List Spec) : Option Spec := 
  regs.find? fun r => !s.ownCopy s.cur.gid r && s.isBad (s.regPlace s.cur.gid r)

/-- The first source, guard predicates before operands, in which an uncorrectable error stands (R319). A sub-gang without an
active lane reads no guard, nor does one where `guarded` is false, and operands are read only where the instruction has an
effect (R24, R43). -/
def State.badSource (s : State) (h : Hdr) (src : List Spec) (effect : Bool) (guarded : Bool := true) : Option Spec :=
  s.badReg ((if !guarded || (s.curG.lanesOn s.cur.slices).isEmpty then [] else guardReads h.grd) ++ if effect then src else [])

/-- An instruction has an effect: some result lane of its destination takes part, or, with none, some active lane whose
guard holds (R24, R43, R170). -/
def hasEffect (h : Hdr) (dst : List Spec) (s : State) : Bool :=
  match dst with
  | [] => !(s.actLanes h).isEmpty
  | d :: _ => !(s.resultLanes h d).isEmpty

/-- A lane-class instruction has an effect. -/
def laneEffect (h : Hdr) (s : State) : Bool := !(s.actLanes h).isEmpty

/-- A uniform instruction has an effect. -/
def uniformEffect (h : Hdr) (s : State) : Bool := s.uniform h

/-- Issue an instruction whose fetch and decode have passed: the grant, the checks `pre` (profile and privilege), the
token wait, the scoreboard, its operands' errors (R319), then the body (R54, R44). `dst` and `src` are the registers it
writes and reads; `eff` tells whether it reads its sources here, `gd` whether it comes to evaluate its guard.
Assumption 9 (DESIGN CHOICE). -/
def issueWith (pre : State → Option (Cause × W64)) (h : Hdr) (dst src : List Spec) (s : State) (body : State → Res)
    (eff : State → Bool := hasEffect h dst) (gd : State → Bool := fun _ => true) : Host.Outcome State Fault Refusal :=
  let pc := s.curPc
  let regs := dst ++ src
  if regs.any s.curG.refuses then .next ((Res.trap .ill s.cur.word s).finish h pc)
  else
    match pre s with
    | some (c, info) => .next ((Res.trap c info s).finish h pc)
    | none =>
      if !s.curT.tokensZero h.wt then .next (s.waitTokens h.wt)
      else
        match s.busyOn regs with
        | [] =>
          let s := s.modCur fun g => g.setWait s.cur.slices .none
          match s.badSource h src (eff s) (gd s) with
          | some r => .next ((Res.trap .memErr (regErrInfo r) s).finish h pc)
          | none => .next ((body s).finish h pc)
        | l => .next (s.passOver.waitFor l)

/-- Issue with no further check. -/
def issue (h : Hdr) (dst src : List Spec) (s : State) (body : State → Res) (eff : State → Bool := hasEffect h dst) :
    Host.Outcome State Fault Refusal :=
  issueWith (fun _ => none) h dst src s body eff

/-- An instruction the stage manager's profile leaves out takes `ILL` there (R347). -/
def onTile (s : State) : Option (Cause × W64) := if s.curG.level = .m then some (.ill, s.cur.word) else none

/-- Issue on the tile of a group or of the stage manager. Assumption 22 (DEDUCED). -/
def issueTile (h : Hdr) (dst src : List Spec) (s : State) (body : State → Res) (eff : State → Bool := hasEffect h dst)
    (gd : State → Bool := fun _ => true) : Host.Outcome State Fault Refusal :=
  issueWith onTile h dst src s body eff gd

/-- A register range of consecutive `v` registers. -/
def vRange (d : Spec) (n : Nat) : List Spec :=
  match d with
  | .v b => (List.range n).map fun i => if b.toNat + i < 256 then .v (b + BitVec.ofNat 8 i) else .zero
  | _ => [d]

end Sys2Proof.Machine
end

