-- ==== Sys2Proof/Machine/Operands.lean ====
section
/-! DEFINITION. Every operand form: immediates by the type the instruction gives the operand (R48), and sources read in
a lane (R171, R23). -/

namespace Sys2Proof.Machine

/-- How an operand of 0x1FF expands (R48). -/
inductive Expand where
  | zx64 | sx64 | rep32 | rep16 | rep8 | rep4
  deriving DecidableEq, Repr

/-- An immediate as an operand (R48). -/
def Expand.imm (e : Expand) (x : BitVec 32) : W64 :=
  match e with
  | .zx64 => x.zeroExtend 64
  | .sx64 => x.signExtend 64
  | .rep32 => x ++ x
  | .rep16 => let y : BitVec 16 := x.truncate 16; y ++ y ++ y ++ y
  | .rep8 => let y : BitVec 8 := x.truncate 8; y ++ y ++ y ++ y ++ y ++ y ++ y ++ y
  | .rep4 =>
    let y : BitVec 4 := x.truncate 4
    y ++ y ++ y ++ y ++ y ++ y ++ y ++ y ++ y ++ y ++ y ++ y ++ y ++ y ++ y ++ y

end Sys2Proof.Machine

namespace Sys2Proof

open Sys2Proof.Machine

/-- The expansion of an integer type (R48, R50): untyped is `.ui64`. -/
def IntM.expand (m : IntM) : Expand :=
  match m.w.toNat, m.sgn with
  | 0, false => .zx64
  | 0, true => .sx64
  | 1, _ => .rep32
  | 2, _ => .rep16
  | _, _ => .rep8

end Sys2Proof

namespace Sys2Proof.Machine

/-- The expansion of a float type (R48, R51). -/
def ftExpand (ft : BitVec 2) : Expand := if ft.toNat ≤ 1 then .rep32 else .rep16

/-- The expansion of an element width alone (R48). -/
def wExpand (w : BitVec 2) : Expand :=
  match w.toNat with
  | 0 => .zx64 | 1 => .rep32 | 2 => .rep16 | _ => .rep8

/-- The expansion of a conversion source type (R48, R214): codes of R213. -/
def cvtExpand (ty : BitVec 4) : Expand :=
  match cvtWidth ty with
  | 4 => .rep4 | 8 => .rep8 | 16 => .rep16 | 32 => .rep32 | _ => .sx64

/-- The format and element count of a float type (R51, R52). -/
def ftFmt (ft : BitVec 2) : Fmt := if ft.toNat ≤ 1 then fp32 else if ft = 2 then fp16 else bf16
def ftCount (ft : BitVec 2) : Nat :=
  match ft.toNat with
  | 0 => 1 | 1 => 2 | _ => 4
def ftWidth (ft : BitVec 2) : Nat := if ft.toNat ≤ 1 then 32 else 16

/-- A source operand read in a lane (R171): `v` in the lane, `g` and `t` as the lane's slice and group see them,
predicates as 0 or 1. -/
def State.src (s : State) (h : Hdr) (e : Expand) (x : Spec) (lane : Nat) : W64 :=
  let g := s.curG
  match x with
  | .v n => g.laneV n.toNat lane
  | .g n => g.viewG n.toNat (lane / 4)
  | .t n => s.curT.viewT n.toNat g.idx
  | .p n => if g.laneP n.toNat lane then 1 else 0
  | .sp n => s.special g n.val lane
  | .imm => e.imm h.imm
  | _ => 0

/-- A predicate operand of SEL (R178): `zero` reads false. -/
def State.srcP (s : State) (x : Spec) (lane : Nat) : Bool :=
  match x with
  | .p n => s.curG.laneP n.toNat lane
  | _ => false

/-- An operand read in the leader lane (R24). -/
def State.leaderSrc (s : State) (h : Hdr) (e : Expand) (x : Spec) : W64 := s.src h e x (s.leader.getD 0)

/-- A buffer record (R62). -/
def State.record (s : State) (x : Spec) : BitVec 256 :=
  match x with
  | .b n => s.curG.b.getD n.toNat 0
  | _ => 0

/-- An arithmetic instruction (R170): its result in every result lane, written at the destination's rank. -/
def State.arith (s : State) (h : Hdr) (d : Spec) (f : Nat → W64) : Res :=
  Res.ofTry s (s.writeTo d (s.resultLanes h d) f)

end Sys2Proof.Machine
end

