-- ==== Sys2Proof/Machine/Control.lean ====
section
/-! DEFINITION. Structured control, jumps, exit, rejoins and copies of names (R258-R277). -/

namespace Sys2Proof.Machine

/-! ### What every slice does on its own state -/

/-- The lanes of a slice active under its mask stack (R258). -/
def Slice.on (x : Slice) : BitVec 4 := x.am &&& x.live

/-- A slice that goes on past its instruction. -/
def Slice.past (x : Slice) (n : Nat) : Slice := { x with pc := x.pc + BitVec.ofNat 56 n }

/-- A slice that goes to a target (R260): a signed offset from its PC. Assumption 16 (DEDUCED). -/
def Slice.target (x : Slice) (h : Hdr) : Slice := { x with pc := x.pc + h.imm.signExtend 56 }

/-- A slice with its top mask-stack entry gone (R262). -/
def Slice.pop (x : Slice) : Slice := { x with masks := x.masks.drop 1 }

/-- A slice with an entry pushed. -/
def Slice.push (x : Slice) (e : MaskEntry) : Slice := { x with masks := e :: x.masks }

/-- What a slice does, or the STACK_OVF code it meets (R264): 0 mask overflow, 1 call overflow, 2 mask underflow or wrong
kind, 3 call underflow. -/
abbrev SliceTry := Except Nat Slice

/-- IF (R262); `cond` are the lanes whose condition holds. -/
def Slice.ifStep (x : Slice) (h : Hdr) (els : Bool) (cond : BitVec 4) : SliceTry :=
  if 16 ≤ x.masks.length then .error 0
  else
    let t := x.on &&& cond
    let r := x.on &&& ~~~ t
    if t ≠ 0 then .ok (({ x with am := t }.push ⟨false, false, x.am, r⟩).past 16)
    else if els then .ok (({ x with am := r }.push ⟨false, true, x.am, r⟩).target h)
    else .ok (x.target h)

/-- ELSE (R262). -/
def Slice.elseStep (x : Slice) (h : Hdr) : SliceTry :=
  match x.masks with
  | e :: r =>
    if e.loop || e.els then .error 2
    else if e.aux &&& x.live ≠ 0 then .ok ({ x with am := e.aux, masks := { e with els := true } :: r }.past 16)
    else .ok ({ x with am := e.outer &&& x.live, masks := r }.target h)
  | [] => .error 2

/-- ENDIF (R262). -/
def Slice.endifStep (x : Slice) (h : Hdr) : SliceTry :=
  match x.masks with
  | e :: r => if e.loop then .error 2 else .ok ({ x with am := e.outer &&& x.live, masks := r }.past h.len.bytes)
  | [] => .error 2

/-- LOOP (R263). -/
def Slice.loopStep (x : Slice) (h : Hdr) : SliceTry :=
  if 16 ≤ x.masks.length then .error 0
  else if x.on = 0 then .ok (x.target h)
  else .ok ((x.push ⟨true, false, x.am, 0⟩).past 16)

/-- ENDLOOP (R263). -/
def Slice.endloopStep (x : Slice) (h : Hdr) : SliceTry :=
  match x.masks with
  | e :: r =>
    if !e.loop then .error 2
    else
      let am := (x.am ||| e.aux) &&& x.live
      if am ≠ 0 then .ok ({ x with am := am, masks := { e with aux := 0 } :: r }.target h)
      else .ok ({ x with am := e.outer &&& x.live, masks := r }.past 16)
  | [] => .error 2

/-- BREAK and CONT (R263); `cond` are the lanes whose condition holds. -/
def Slice.leaveStep (x : Slice) (h : Hdr) (isBreak : Bool) (cond : BitVec 4) : SliceTry :=
  let ifs := x.masks.takeWhile fun e => !e.loop
  match x.masks.dropWhile fun e => !e.loop with
  | [] => .error 2
  | lp :: r =>
    let b := x.on &&& cond
    let am := x.am &&& ~~~ b
    let ifs' := ifs.map fun e => { e with outer := e.outer &&& ~~~ b, aux := e.aux &&& ~~~ b }
    let lp := if isBreak then lp else { lp with aux := lp.aux ||| b }
    let w : BitVec 4 := match ifs'.getLast? with
      | some e => e.outer &&& x.live
      | none => 0
    if am ≠ 0 || w ≠ 0 then .ok ({ x with am := am, masks := ifs' ++ lp :: r }.past 16)
    else if !isBreak then .ok ({ x with am := am, masks := lp :: r }.target h)
    else if lp.aux ≠ 0 then
      .ok { x with am := am, masks := lp :: r, pc := x.pc + h.imm.signExtend 56 - 16 }
    else .ok ({ x with am := lp.outer &&& x.live, masks := r }.target h)

/-! ### The sub-gang -/

/-- The lanes of slice `i` in which a predicate, negated or not, holds (R259). -/
def Group.condMask (g : Group) (a : Spec) (neg : Bool) (i : Nat) : BitVec 4 :=
  match a with
  | .p n => (List.range 4).foldl (fun m j =>
      if g.laneP n.toNat (4 * i + j) != neg then m ||| BitVec.ofNat 4 (2 ^ j) else m) 0
  | _ => 0

/-- Every slice of the sub-gang does its step, or the lowest one that fails takes the trap for all (R262, R264). -/
def State.eachSlice (s : State) (f : Nat → Slice → SliceTry) : Res :=
  let bad := (slicesOf s.cur.slices).findSome? fun i =>
    match f i (s.curG.slice i) with
    | .error c => some (i, c)
    | .ok _ => none
  match bad with
  | some (i, c) => .trap .stackOvf (BitVec.ofNat 64 (c + 4 * i)) s
  | none => .jump (s.modCur fun g => g.mapSlices s.cur.slices fun i x =>
      match f i x with
      | .ok y => y
      | .error _ => x)

def execIfOp (h : Hdr) (neg els : Bool) (a b : Spec) (s : State) : Host.Outcome State Fault Refusal :=
  issue h [] [a, b] s fun s => s.eachSlice fun i x => x.ifStep h els (s.curG.condMask a neg i)

def execElseOp (h : Hdr) (b : Spec) (s : State) : Host.Outcome State Fault Refusal :=
  issue h [] [b] s fun s => s.eachSlice fun _ x => x.elseStep h

def execEndif (h : Hdr) (s : State) : Host.Outcome State Fault Refusal :=
  issue h [] [] s fun s => s.eachSlice fun _ x => x.endifStep h

def execLoop (h : Hdr) (b : Spec) (s : State) : Host.Outcome State Fault Refusal :=
  issue h [] [b] s fun s => s.eachSlice fun _ x => x.loopStep h

def execEndloop (h : Hdr) (b : Spec) (s : State) : Host.Outcome State Fault Refusal :=
  issue h [] [b] s fun s => s.eachSlice fun _ x => x.endloopStep h

def execBrk (h : Hdr) (neg : Bool) (a b : Spec) (s : State) : Host.Outcome State Fault Refusal :=
  issue h [] [a, b] s fun s => s.eachSlice fun i x => x.leaveStep h true (s.curG.condMask a neg i)

def execCont (h : Hdr) (neg : Bool) (a b : Spec) (s : State) : Host.Outcome State Fault Refusal :=
  issue h [] [a, b] s fun s => s.eachSlice fun i x => x.leaveStep h false (s.curG.condMask a neg i)

/-! ### Transfers (R266) -/

/-- The active lanes of slice `i` whose guard is true. -/
def Group.guardMask (g : Group) (h : Hdr) (i : Nat) : BitVec 4 :=
  (List.range 4).foldl (fun m j => if g.guard h.grd (4 * i + j) then m ||| BitVec.ofNat 4 (2 ^ j) else m) 0
    &&& (g.slice i).on

/-- A transfer: a slice whose guards disagree takes `GANG_MISMATCH` for all (R266); else each slice transfers or goes on.
Assumption 18 (DEDUCED). -/
def State.transfer (s : State) (h : Hdr) (f : Slice → SliceTry) : Res :=
  let g := s.curG
  let mixed := (slicesOf s.cur.slices).find? fun i => g.guardMask h i ≠ 0 && g.guardMask h i ≠ (g.slice i).on
  match mixed with
  | some i => .trap .gangMismatch (BitVec.ofNat 64 (2 ^ 63 + i * 16 + (g.guardMask h i).toNat)) s
  | none => s.eachSlice fun i x => if g.guardMask h i ≠ 0 then f x else .ok (x.past h.len.bytes)

/-- CALL in one slice (R266, R267). -/
def Slice.callStep (x : Slice) (h : Hdr) : SliceTry :=
  if 8 ≤ x.calls.length then .error 1
  else .ok ({ x with calls := ⟨x.masks.length, x.pc + 16⟩ :: x.calls }.target h)

/-- RET in one slice (R266). -/
def Slice.retStep (x : Slice) : SliceTry :=
  match x.calls with
  | [] => .error 3
  | c :: r => if c.depth ≠ x.masks.length then .error 2 else .ok { x with pc := c.retpc, calls := r }

def execJmp (h : Hdr) (b : Spec) (s : State) : Host.Outcome State Fault Refusal :=
  issue h [] [b] s fun s => s.transfer h fun x => .ok (x.target h)

/-- CALL (R17, R266, R267). Assumption 18 (DEDUCED). -/
def execCall (h : Hdr) (b : Spec) (s : State) : Host.Outcome State Fault Refusal :=
  issue h [] [b] s fun s => s.transfer h fun x => x.callStep h

/-- RET (R17, R266, R267). Assumption 18 (DEDUCED). -/
def execRet (h : Hdr) (s : State) : Host.Outcome State Fault Refusal :=
  issue h [] [] s fun s => s.transfer h fun x => x.retStep

/-- EXIT (R268): the pending rejoin is examined again. -/
def execExit (h : Hdr) (s : State) : Host.Outcome State Fault Refusal :=
  issue h [] [] s fun s =>
    let g := s.curG
    let s := s.modCur fun g => g.advance s.cur.slices h.len.bytes
    let s := s.endLanes s.cur.gid fun i => if s.cur.slices.getLsbD i then g.guardMask h i else 0
    .jump (if (s.group s.cur.gid).ended then s else s.examine s.cur.gid)

/-! ### Rejoins and merges -/

/-- Arrive at a rejoin instruction (R17). -/
def State.arriveRejoin (s : State) (op : Instr) : Res :=
  .wait ((s.modCur fun g => g.setWait s.cur.slices (.rejoin op)).examine s.cur.gid)

def execRegang (h : Hdr) (s : State) : Host.Outcome State Fault Refusal :=
  issue h [] [] s fun s => s.arriveRejoin (.regang h)

def execMergeS (h : Hdr) (m : MergeM) (d a : Spec) (s : State) : Host.Outcome State Fault Refusal :=
  issue h [d] [d, a] s fun s => s.arriveRejoin (.mergeS h m d a)

/-- Accesses that come before what the issuing sub-gang issues and have not performed (R253, R255).
Assumption 58 (DESIGN CHOICE). -/
def State.myAccesses (s : State) : List Nat :=
  (s.accs.filter fun p => p.2.gid == s.cur.gid && p.2.order &&& s.cur.slices != 0).map (·.1)

/-- TINFO of `MERGE_COUNT` (R273). -/
def mergeInfo (rp exp : Nat) (atPoint : Bool) : W64 :=
  BitVec.ofNat 64 (rp + (if atPoint then 256 else 0) + exp * 65536)

/-- MERGE.G (R273): checks 1 and 2 at issue, check 3 when the arrival reaches the point, after the accesses of R255.
Assumption 58 (DESIGN CHOICE). -/
def execMergeG (h : Hdr) (m : MergeM) (d a : Spec) (s : State) : Host.Outcome State Fault Refusal :=
  issueTile h [d] [a] s fun s =>
    let t := s.curT
    let rp := m.rp.toNat
    let pt := t.points.getD rp RvPoint.reset
    let name := match d with
      | .t n => n.toNat
      | _ => 0
    let pred := match a with
      | .p n => some n.toNat
      | _ => none
    let arr : MergeArr := ⟨s.cur.gid, name, m.mode.toNat, m.ty.toNat, pred, h.len.bytes⟩
    let open' := t.merges.getD rp []
    if !s.curG.whole s.cur.slices then .trap .rankPart 0 s
    else if open'.any fun x => x.group == s.cur.gid then
      .wait (s.modCur fun g => g.setWait s.cur.slices (.mergeG rp h.len.bytes))
    else if pt.exp ≠ t.groups.length then .trap .mergeCount (mergeInfo rp pt.exp false) s
    else if !s.myAccesses.isEmpty then .hold s
    else if (0 < pt.arr && !pt.merge) || open'.any (fun x => x.name ≠ name || x.mode ≠ arr.mode || x.ty ≠ arr.ty) then
      .trap .mergeCount (mergeInfo rp pt.exp true) s
    else
      let s := s.modTeam s.curG.team fun t => { t with
        points := t.points.set rp { pt with merge := true, arr := pt.arr + 1 }
        merges := t.merges.set rp (open' ++ [arr]) }
      let s := s.modCur fun g => g.setWait s.cur.slices (.mergeG rp h.len.bytes)
      .wait (s.mergeRound s.curG.team rp)

/-! ### Copies of names -/

/-- DROP (R275). -/
def execDrop (h : Hdr) (d : Spec) (s : State) : Host.Outcome State Fault Refusal :=
  issue h [d] [] s fun s =>
    if !s.uniform h then .done s
    else
      let g := s.curG
      let on := g.slicesOn s.cur.slices
      match d with
      | .g n =>
        if g.shadowed n.toNat then .done s
        else .done (s.setGroup s.cur.gid { g with gc := g.gc.filter fun p => !(p.1 / 8 == n.toNat && on.contains (p.1 % 8)) })
      | .t n =>
        if !g.whole s.cur.slices || on != g.liveSlices then .trap .rankPart 0 s
        else .done (s.modTeam g.team fun t => { t with tc := t.tc.del (tKey n.toNat g.idx) })
      | _ => .done s

/-- RANKQ (R276). -/
def execRankq (h : Hdr) (d a : Spec) (s : State) : Host.Outcome State Fault Refusal :=
  issue h [d] [a] s (fun s =>
    let g := s.curG
    s.arith h d fun l =>
      let held := match a with
        | .g n => !g.shadowed n.toNat && (g.gc.get? (gKey n.toNat (l / 4))).isSome
        | .t n => (s.curT.tc.get? (tKey n.toNat g.idx)).isSome
        | _ => false
      if held then 1 else 0) fun _ => false

end Sys2Proof.Machine
end

