-- ==== Sys2Proof/Machine/Block.lean ====
section
/-! DEFINITION. Described blocks (R85, R93, R94, R97) and the fixed-point form of deterministic reductions (R98). -/

namespace Sys2Proof.Machine

/-- An element format of a described block (R93), DFM codes 0-7 of R217. -/
inductive Elt where
  | bf16 | fp16 | e4m3 | e5m2 | sp2 | int8 | e2m1 | int4
  deriving DecidableEq, Repr

def Elt.ofDfm (n : Nat) : Elt :=
  match n with
  | 0 => .bf16 | 1 => .fp16 | 2 => .e4m3 | 3 => .e5m2 | 4 => .sp2 | 5 => .int8 | 6 => .e2m1 | _ => .int4

/-- The format byte (R93). -/
def Elt.byte : Elt → Nat
  | .bf16 => 0x10 | .fp16 => 0x11 | .e4m3 => 0x20 | .e5m2 => 0x21 | .sp2 => 0x22 | .int8 => 0x23 | .e2m1 => 0x30
  | .int4 => 0x31

/-- The format a descriptor names; none for raw and for bytes outside the table (R93). -/
def eltOf (d : Desc) : Option Elt :=
  match d.toNat / 256 with
  | 0x10 => some .bf16 | 0x11 => some .fp16 | 0x20 => some .e4m3 | 0x21 => some .e5m2 | 0x22 => some .sp2
  | 0x23 => some .int8 | 0x30 => some .e2m1 | 0x31 => some .int4 | _ => none

/-- Bits of an element. -/
def Elt.bits : Elt → Nat
  | .bf16 | .fp16 => 16
  | .e4m3 | .e5m2 | .sp2 | .int8 => 8
  | .e2m1 | .int4 => 4

/-- Elements in a 64-byte block (R85). -/
def Elt.count (e : Elt) : Nat := 512 / e.bits

/-- The width class of a descriptor: 0 raw, 1 16-bit, 2 8-bit, 3 4-bit (R93). -/
def widthClass (d : Desc) : Nat :=
  match eltOf d with
  | none => 0
  | some e => if e.bits = 16 then 1 else if e.bits = 8 then 2 else 3

/-- The value of an element's bits (R84, R86). -/
def Elt.value (e : Elt) (x : Nat) : Num :=
  match e with
  | .bf16 => Machine.bf16.decode x
  | .fp16 => Machine.fp16.decode x
  | .e4m3 => fpE4M3.decode x
  | .e5m2 => fpE5M2.decode x
  | .e2m1 => fpE2M1.decode x
  | .sp2 => Num.ofInt (sp2Value x) (-6) false
  | .int8 => Num.ofInt (asSigned 8 (x % 256)) 0 false
  | .int4 => Num.ofInt (asSigned 4 (x % 16)) 0 false

/-- Conversion of a value into the format, saturating, round to nearest even; SP2 under R88 (R90, R91). An integer format
clamps to its largest magnitude of either sign, so that a block never holds -128 or -8 (R97). -/
def Elt.ofNum (e : Elt) (x : Num) : Nat :=
  match e with
  | .bf16 => Machine.bf16.encode .near true x
  | .fp16 => Machine.fp16.encode .near true x
  | .e4m3 => fpE4M3.encode .near true x
  | .e5m2 => fpE5M2.encode .near true x
  | .e2m1 => fpE2M1.encode .near true x
  | .sp2 => x.toSp2
  | .int8 => wrapInt 8 (x.toInt .near (-127) 127)
  | .int4 => wrapInt 4 (x.toInt .near (-7) 7)

/-- fmt_max of R97, as a magnitude and an exponent. -/
def Elt.top (e : Elt) : Nat × Int :=
  match e with
  | .bf16 => (255, 120) | .fp16 => (65504, 0) | .e4m3 => (448, 0) | .e5m2 => (57344, 0) | .sp2 => (2, 0)
  | .int8 => (127, 0) | .e2m1 => (6, 0) | .int4 => (7, 0)

/-- Element `i` of block data (R85). -/
def Elt.get (e : Elt) (data i : Nat) : Nat := data / 2 ^ (e.bits * i) % 2 ^ e.bits

/-- Block data from its elements. -/
def Elt.pack (e : Elt) (f : Nat → Nat) : Nat :=
  (List.range e.count).foldl (fun a i => a + f i % 2 ^ e.bits * 2 ^ (e.bits * i)) 0

/-- The scale of a descriptor as a power of two; none for 0xFF (R89). -/
def scaleOf (d : Desc) : Option Int :=
  let x := d.toNat % 256
  if x = 255 then none else some ((x : Int) - 127)

/-- The value of element `i` of a described block (R94). -/
def Elt.scaled (e : Elt) (d : Desc) (data i : Nat) : Num :=
  match scaleOf d with
  | none => .nan
  | some k => (e.value (e.get data i)).scale k

/-- The larger magnitude of two, NaN ignored. -/
def absMax (a b : Num) : Num :=
  match a, b with
  | .nan, y => y.abs
  | x, .nan => x.abs
  | x, y => if x.abs.lt y.abs then y.abs else x.abs

/-- The largest magnitude of some values, NaN ignored; zero for none (R97, R219). -/
def amaxOf (xs : List Num) : Num := xs.foldl (fun a x => if x.isNan then a else absMax a x) .zero

/-- The smallest e with `m * 2^k <= t * 2^u * 2^e`, for m, t nonzero: exact (R97). -/
def scaleExp (m : Nat) (k : Int) (t : Nat) (u : Int) : Int :=
  -- m <= t * 2^(e + u - k); start below and step up
  let lo : Int := (Nat.log2 m : Int) - (Nat.log2 t : Int) - 1
  let fits (x : Int) : Bool := if 0 ≤ x then m ≤ t * 2 ^ x.toNat else m * 2 ^ (-x).toNat ≤ t
  let x := if fits lo then lo else if fits (lo + 1) then lo + 1 else lo + 2
  x + k - u

/-- The exponent R97 gives a block. -/
def Elt.exponent (e : Elt) (amax : Num) : Int :=
  match amax with
  | .nan => 0
  | .inf _ => 127
  | .fin _ m k =>
    if m = 0 then 0
    else max (-127) (min 127 (scaleExp m k e.top.1 e.top.2))

/-- SatTo of an infinite element: the largest finite magnitude, also in formats that have infinities (R97). -/
def Elt.satInf (e : Elt) (x : Num) : Num :=
  match x with
  | .inf s => .fin s e.top.1 e.top.2
  | x => x

/-- Quantise values into a block and its descriptor (R97, R219): SCALE 0xFF under `.nanprop` with a NaN, where the elements
are converted as they stand (R91). -/
def Elt.quantise (e : Elt) (nanprop : Bool) (xs : List Num) : Nat × Desc :=
  let bad := nanprop && xs.any Num.isNan
  let k := if bad then 0 else e.exponent (amaxOf xs)
  let scale := if bad then 255 else (k + 127).toNat
  let elt (x : Num) : Nat := if bad then e.ofNum x else e.ofNum (e.satInf (x.scale (-k)))
  (e.pack fun i => elt ((xs[i]?).getD .zero), BitVec.ofNat 16 (e.byte * 256 + scale))

/-! ### The fixed-point form (R98) -/

/-- E clamped to its range (R98). -/
def clampE (x : W64) : Int := max (-149) (min 127 x.toInt)

/-- q of a contribution at E (R98). Assumption 15 (DEDUCED). -/
def quantQ (x : Num) (e : Int) : Nat :=
  match x with
  | .nan => 0
  | .inf s => if s then 2 ^ 63 + 1 else 2 ^ 63 - 1
  | .fin _ _ _ => wrapInt 64 ((x.scale (42 - e)).toInt .near (-(2 ^ 63 - 1)) (2 ^ 63 - 1))

/-- The value of q at E (R98). -/
def valueQ (q : Nat) (e : Int) : Num := Num.ofInt (asSigned 64 (q % 2 ^ 64)) (e - 42) false

end Sys2Proof.Machine
end

