-- ==== Sys2Proof/Machine/Lanes.lean ====
section
/-! DEFINITION. Cross-lane instructions (R196-R206). -/

namespace Sys2Proof.Machine

/-- A lane is reachable when its slice belongs to the issuing sub-gang (R197). -/
def State.reach (s : State) (lane : Nat) : Bool := lane < 32 && s.cur.slices.getLsbD (lane / 4)

/-- Element `m` of an operand seen as a vector of elements across the lanes (R196). -/
def State.elem (s : State) (h : Hdr) (e : Expand) (x : Spec) (w m : Nat) : Nat :=
  Machine.sub w (s.src h e x (m / perReg w)) (m % perReg w)

/-- Element `m` exists and its lane is reachable. -/
def State.elemOk (s : State) (w : Nat) (m : Int) : Bool :=
  0 ≤ m && m < ((32 * perReg w : Nat) : Int) && s.reach (m.toNat / perReg w)

/-- The lanes a vote or reduction ranges over: the active lanes, guarded for a `v` or `p` destination (R43, R202). -/
def State.foldLanes (s : State) (h : Hdr) (d : Spec) : List Nat :=
  match d with
  | .v _ | .p _ => s.actLanes h
  | _ => if s.uniform h then s.curG.lanesOn s.cur.slices else []

/-- SHFL (R199). -/
def execShfl (h : Hdr) (w : BitVec 2) (z : Bool) (mode : BitVec 2) (d a b : Spec) (s : State) :
    Host.Outcome State Fault Refusal :=
  issue h [d] [a, b] s fun s =>
    let n := widthOf w
    let k := perReg n
    s.arith h d fun l => pack n k fun i =>
      let j := k * l + i
      let sel := sub n (s.src h (wExpand w) b l) i
      let m : Int := match mode.toNat with
        | 0 => sel
        | 1 => (j : Int) - sel
        | 2 => (j : Int) + sel
        | _ => (j ^^^ sel : Nat)
      if s.elemOk n m then s.elem h (wExpand w) a n m.toNat
      else if z then 0 else s.elem h (wExpand w) a n j

/-- The elements an instruction's active lanes send, and where (R200): (target, sender), senders ascending. -/
def State.senders (s : State) (h : Hdr) (w : BitVec 2) (b : Spec) : List (Nat × Nat) :=
  let n := widthOf w
  let k := perReg n
  ((s.actLanes h).flatMap fun l => (List.range k).map fun i => (Machine.sub n (s.src h (wExpand w) b l) i, k * l + i)).filter
    fun p => s.elemOk n (p.1 : Int)

/-- The sender an element takes: the highest (R200). -/
def winner (snd : List (Nat × Nat)) (m : Nat) : Option Nat := ((snd.filter fun p => p.1 == m).getLast?).map (·.2)

/-- PUSH (R200). -/
def execPush (h : Hdr) (w : BitVec 2) (d a b c : Spec) (s : State) : Host.Outcome State Fault Refusal :=
  issue h [d] [a, b, c] s fun s =>
    let n := widthOf w
    let k := perReg n
    let snd := s.senders h w b
    let lanes := (List.range 32).filter fun l => (List.range k).any fun i => (winner snd (k * l + i)).isSome
    let val (l : Nat) : W64 := pack n k fun i =>
      match winner snd (k * l + i) with
      | some j => s.elem h (wExpand w) a n j
      | none => sub n (s.src h .zx64 d l) i
    let lost (l : Nat) : Bool := (List.range k).any fun i =>
      let j := k * l + i
      !(snd.any fun p => p.2 == j && winner snd p.1 == some j)
    let g := match d with
      | .v r => s.curG.writeV r.toNat lanes val
      | _ => s.curG
    let g := match c with
      | .p r => g.writeP r.toNat (s.actLanes h) lost
      | _ => g
    let full := (List.range 32).filter fun l => (List.range k).all fun i => (winner snd (k * l + i)).isSome
    .done (((s.setGroup s.cur.gid g).freshReg s.cur.gid d full).freshReg s.cur.gid c (s.actLanes h))

/-- READL (R201). -/
def execReadl (h : Hdr) (w : BitVec 2) (sgn : Bool) (d a b : Spec) (s : State) : Host.Outcome State Fault Refusal :=
  issue h [d] [a, b] s fun s =>
    let n := widthOf w
    let read (lead : Nat) : W64 :=
      let m := sub n (s.src h (wExpand w) b lead) 0
      let x := if s.elemOk n (m : Int) then s.elem h (wExpand w) a n m else 0
      if sgn then signExt64 n x else BitVec.ofNat 64 x
    match d with
    | .v _ => s.arith h d fun _ => read ((s.actLanes h).headD 0)
    | _ => s.arith h d read

/-- WRITEL (R201). -/
def execWritel (h : Hdr) (w : BitVec 2) (d a b : Spec) (s : State) : Host.Outcome State Fault Refusal :=
  issue h [d] [a, b] s fun s =>
    let n := widthOf w
    let k := perReg n
    match (s.actLanes h).head?, d with
    | some lead, .v r =>
      let m := sub n (s.src h (wExpand w) b lead) 0
      let x := sub n (s.src h (wExpand w) a lead) 0
      if s.elemOk n (m : Int) then
        .done (s.setGroup s.cur.gid (s.curG.writeV r.toNat [m / k] fun l =>
          pack n k fun i => if i = m % k then x else sub n (s.curG.laneV r.toNat l) i))
      else .done s
    | _, _ => .done s

/-- VOTE (R202). -/
def execVote (h : Hdr) (mode : BitVec 2) (d a : Spec) (s : State) : Host.Outcome State Fault Refusal :=
  issue h [d] [a] s fun s =>
    let lanes := s.foldLanes h d
    let x (l : Nat) : W64 := s.src h .zx64 a l
    let t (l : Nat) : Bool := x l != 0
    let r : W64 := match mode.toNat with
      | 0 => if lanes.all t then 1 else 0
      | 1 => if lanes.any t then 1 else 0
      | 2 => if allEqual lanes x then 1 else 0
      | _ => BitVec.ofNat 64 (lanes.foldl (fun m l => if t l then m + 2 ^ l else m) 0)
    s.arith h d fun _ => r

/-! ### Reductions and scans -/

end Sys2Proof.Machine

namespace Sys2Proof

open Sys2Proof.Machine

/-- The element width of a reduction (R203). -/
def RedM.width (m : RedM) : Nat := if 8 ≤ m.op.toNat then ftWidth m.w else widthOf m.w
def RedM.count (m : RedM) : Nat := if 8 ≤ m.op.toNat then ftCount m.w else perReg (widthOf m.w)
/-- How an immediate A expands: a W of 64 bits by its zero extension, signed operations too. Assumption 83 (DESIGN CHOICE). -/
def RedM.expand (m : RedM) : Expand := if 8 ≤ m.op.toNat then ftExpand m.w else wExpand m.w

/-- One combination step on element bits (R203). -/
def RedM.comb (m : RedM) (a b : Nat) : Nat :=
  let w := m.width
  let f := ftFmt m.w
  match m.op.toNat with
  | 0 => (a + b) % 2 ^ w
  | 1 => min a b
  | 2 => max a b
  | 3 => if asSigned w b < asSigned w a then b else a
  | 4 => if asSigned w a < asSigned w b then b else a
  | 5 => a &&& b
  | 6 => a ||| b
  | 7 => a ^^^ b
  | 8 => let r := Rm.ofBits m.rm.toNat; f.encode r false ((f.decode a).add r (f.decode b))
  | 9 => fminmax f false false a b
  | 10 => fminmax f true false a b
  | 11 => fminmax f false true a b
  | _ => fminmax f true true a b

/-- The identity an exclusive scan starts from (R203). -/
def RedM.ident (m : RedM) : Nat :=
  let w := m.width
  let f := ftFmt m.w
  match m.op.toNat with
  | 1 | 5 => 2 ^ w - 1
  | 3 => 2 ^ (w - 1) - 1
  | 4 => 2 ^ (w - 1)
  | 8 => f.signBit
  | 9 | 11 => f.infBits false false
  | 10 | 12 => f.infBits true false
  | _ => 0

/-- A float result that is a NaN is canonical (R203, R92). -/
def RedM.canon (m : RedM) (x : Nat) : Nat :=
  if m.op.toNat < 8 then x
  else match (ftFmt m.w).decode x with
    | .nan => (ftFmt m.w).nan
    | _ => x

end Sys2Proof

namespace Sys2Proof.Machine

/-- One level of the fixed tree: neighbours combine, an absent member passes the other on (R204). -/
def treeLevel (f : Nat → Nat → Nat) : List (Option Nat) → List (Option Nat)
  | a :: b :: r =>
    (match a, b with
      | some x, some y => some (f x y)
      | some x, none => some x
      | none, y => y) :: treeLevel f r
  | l => l

/-- The five levels over lane positions 0-31 (R204). -/
def treeFold (f : Nat → Nat → Nat) (l : List (Option Nat)) : Option Nat :=
  ((treeLevel f (treeLevel f (treeLevel f (treeLevel f (treeLevel f l)))))[0]?).getD none

/-- REDL (R204). -/
def execRedl (h : Hdr) (m : RedM) (d a : Spec) (s : State) : Host.Outcome State Fault Refusal :=
  issue h [d] [a] s fun s =>
    let lanes := s.foldLanes h d
    let r : W64 := pack m.width m.count fun i =>
      m.canon <| (treeFold m.comb ((List.range 32).map fun l =>
        if lanes.contains l then some (sub m.width (s.src h m.expand a l) i) else none)).getD 0
    s.arith h d fun _ => r

/-- The running results of a scan over lanes, ascending: (lane, inclusive result, exclusive result) (R205). -/
def scanGo (f : Nat → Nat → Nat) (x : Nat → Nat) (ident : Nat) : Option Nat → List Nat → List (Nat × Nat × Nat)
  | _, [] => []
  | none, l :: r => (l, x l, ident) :: scanGo f x ident (some (x l)) r
  | some a, l :: r => let b := f a (x l); (l, b, a) :: scanGo f x ident (some b) r

/-- SCANL (R205). -/
def execScanl (h : Hdr) (m : RedM) (d a : Spec) (s : State) : Host.Outcome State Fault Refusal :=
  issue h [d] [a] s fun s =>
    let lanes := s.actLanes h
    let col (i : Nat) : List (Nat × Nat × Nat) :=
      scanGo m.comb (fun l => sub m.width (s.src h m.expand a l) i) m.ident none lanes
    s.arith h d fun l => pack m.width m.count fun i =>
      match (col i).find? fun p => p.1 == l with
      | some p => m.canon (if m.excl then p.2.2 else p.2.1)
      | none => 0

/-- PERM (R206). -/
def execPerm (h : Hdr) (w : BitVec 2) (d a b c : Spec) (s : State) : Host.Outcome State Fault Refusal :=
  issue h [d] [a, b, c] s fun s =>
    let n := widthOf w
    let k := perReg n
    s.arith h d fun l => pack n k fun i =>
      let f := field (s.src h .zx64 c l) (4 * i) 4
      if f < k then sub n (s.src h (wExpand w) a l) f
      else if f < 2 * k then sub n (s.src h (wExpand w) b l) (f - k)
      else 0

end Sys2Proof.Machine
end

