-- ==== Sys2Proof/Machine/Convert.lean ====
section
/-! DEFINITION. Conversion (R213-R216), statistics (R210-R212), AMAX (R222). -/

namespace Sys2Proof.Machine

/-- A floating type of R213. -/
def cvtFmt (ty : Nat) : Option Fmt :=
  match ty with
  | 0 => some fp32 | 1 => some fp16 | 2 => some bf16 | 3 => some fpE4M3 | 4 => some fpE5M2 | 5 => some fpE2M1
  | _ => none

/-- A signed integer type of R213. -/
def cvtSigned (ty : Nat) : Bool := ty != 9 && ty != 11 && ty != 13

/-- The exact value of a source element (R215). -/
def cvtValue (ty : BitVec 4) (e : Int) (x : Nat) : Num :=
  match cvtFmt ty.toNat with
  | some f => f.decode x
  | none =>
    if ty = 6 then Num.ofInt (sp2Value x) (-6) false
    else if ty = 15 then valueQ x e
    else Num.ofInt (readInt (cvtSigned ty.toNat) (cvtWidth ty) x) 0 false

/-- A value written into a destination type (R215). -/
def cvtEncode (ty : BitVec 4) (sat : Bool) (rm : Rm) (e : Int) (x : Num) : Nat :=
  match cvtFmt ty.toNat with
  | some f => f.encode rm (sat || ty == 5) x
  | none =>
    if ty = 6 then x.toSp2
    else if ty = 15 then quantQ x e
    else
      let w := cvtWidth ty
      let sg := cvtSigned ty.toNat
      wrapInt w (x.toInt rm (intMin sg w) (intMax sg w))

end Sys2Proof.Machine

namespace Sys2Proof

open Sys2Proof.Machine

/-- Convert the elements of a register, by part; `old` is what D reads (R214). Assumption 15 (DEDUCED). -/
def CvtM.apply (m : CvtM) (conv : Nat → Nat) (a old : W64) : W64 :=
  let ws := cvtWidth m.sty
  let wd := cvtWidth m.dty
  let n := 64 / max ws wd
  let p := m.part.toNat * n
  if ws < wd then pack wd n fun i => conv (sub ws a (p + i))
  else pack wd (64 / wd) fun i => if p ≤ i && i < p + n then conv (sub ws a (i - p)) else sub wd old i

/-- The registers a conversion reads: a narrowing one keeps bits of D (R214). -/
def CvtM.reads (m : CvtM) (d a b : Spec) : List Spec := if cvtWidth m.dty < cvtWidth m.sty then [a, b, d] else [a, b]

end Sys2Proof

namespace Sys2Proof.Machine

/-- CVT (R215). -/
def execCvt (h : Hdr) (m : CvtM) (d a b : Spec) (s : State) : Host.Outcome State Fault Refusal :=
  issue h [d] (m.reads d a b) s fun s => s.arith h d fun l =>
    let e := clampE (s.src h .sx64 b l)
    m.apply (fun x => cvtEncode m.dty m.sat (Rm.ofBits m.rm.toNat) e (cvtValue m.sty e x))
      (s.src h (cvtExpand m.sty) a l) (s.src h .zx64 d l)

/-- CVTI (R216): the exact product with 2^e before the one rounding. -/
def execCvti (h : Hdr) (m : CvtM) (d a b : Spec) (s : State) : Host.Outcome State Fault Refusal :=
  issue h [d] (m.reads d a b) s fun s => s.arith h d fun l =>
    let e := (s.src h .sx64 b l).toInt
    m.apply (fun x => cvtEncode m.dty m.sat (Rm.ofBits m.rm.toNat) 0 ((cvtValue m.sty 0 x).scale e))
      (s.src h (cvtExpand m.sty) a l) (s.src h .zx64 d l)

/-! ### Pairs of registers (R210) -/

/-- The second register of a pair. -/
def Spec.second : Spec → Spec
  | .v n => .v (n + 1)
  | .g n => .g (n + 1)
  | .t n => .t (n + 1)
  | x => x

/-- New split-store entries a write would need (R25, R26). -/
def State.entriesNeeded (s : State) (d : Spec) (lanes : List Nat) (f : Nat → W64) : Nat :=
  let g := s.curG
  match d with
  | .g n =>
    if g.shadowed n.toNat || (lanes.map (· / 4) == g.liveSlices && allEqual lanes f) then 0
    else (lanes.filter fun l => (g.gc.get? (gKey n.toNat (l / 4))).isNone).length
  | .t n => if s.curT.groups.length = 1 || (s.curT.tc.get? (tKey n.toNat g.idx)).isSome then 0 else 1
  | _ => 0

/-- A pair destination: one write of two registers, the split store checked for both before either changes (R210). -/
def State.writePair (s : State) (h : Hdr) (d : Spec) (f g : Nat → W64) : Res :=
  let lanes := s.resultLanes h d
  let d2 := Spec.second d
  let need := s.entriesNeeded d lanes f + s.entriesNeeded d2 lanes g
  let full : Bool := match d with
    | .g _ => 16 - s.curG.gc.length < need
    | .t _ => 32 - s.curT.tc.length < need
    | _ => false
  match d with
  | .t _ =>
    if lanes.isEmpty then .done s
    else if !s.teamWrite lanes f || !s.teamWrite lanes g then .trap .rankPart 0 s
    else if full then .trap .splitFull 1 s
    else Res.ofTry s ((s.writeTo d lanes f).bind fun s' => s'.writeTo d2 lanes g)
  | _ =>
    if full then .trap .splitFull 0 s
    else Res.ofTry s ((s.writeTo d lanes f).bind fun s' => s'.writeTo d2 lanes g)

/-! ### Statistics (R210-R212) -/

/-- A Welford triple: N, MEAN and M2 as FP32 bits. -/
structure Welford where
  n : Nat
  mean : Nat
  m2 : Nat
  deriving DecidableEq, Repr

def Welford.ofPair (x y : W64) : Welford := ⟨sub 32 x 0, sub 32 x 1, sub 32 y 0⟩
def Welford.first (w : Welford) : W64 := BitVec.ofNat 64 (w.n % 2 ^ 32 + w.mean * 2 ^ 32)
def Welford.last (w : Welford) : W64 := BitVec.ofNat 64 w.m2

/-- FP32 steps, each rounded to nearest even. -/
def rneAdd (a b : Nat) : Nat := fp32.encode .near false ((fp32.decode a).add .near (fp32.decode b))
def rneSub (a b : Nat) : Nat := fp32.encode .near false ((fp32.decode a).add .near (fp32.decode b).neg)
def rneMul (a b : Nat) : Nat := fp32.encode .near false ((fp32.decode a).mul (fp32.decode b))

/-- WELF (R211). -/
def Welford.add (w : Welford) (x : Nat) : Welford :=
  if w.n = 0 then
    if (fp32.decode x).isNan then ⟨1, fp32.nan, fp32.nan⟩ else ⟨1, x, 0⟩
  else
    let n := min (w.n + 1) (2 ^ 32 - 1)
    let d := rneSub x w.mean
    let mean := rneAdd w.mean (fp32.div .near false (fp32.decode d) (Num.ofInt n 0 false))
    ⟨n, mean, rneAdd w.m2 (rneMul d (rneSub x mean))⟩

/-- WMERGE (R212). -/
def Welford.merge (a b : Welford) : Welford :=
  if b.n = 0 then a
  else if a.n = 0 then b
  else
    let t := a.n + b.n
    let d := rneSub b.mean a.mean
    let frac := fp32.div .near false (Num.ofInt b.n 0 false) (Num.ofInt t 0 false)
    let prod := fp32.div .near false (Num.ofInt ((a.n * b.n : Nat) : Int) 0 false) (Num.ofInt t 0 false)
    ⟨min t (2 ^ 32 - 1), rneAdd a.mean (rneMul d frac), rneAdd (rneAdd a.m2 b.m2) (rneMul (rneMul d d) prod)⟩

/-- The triple a pair names in a lane. -/
def State.welford (s : State) (h : Hdr) (d : Spec) (lane : Nat) : Welford :=
  Welford.ofPair (s.src h .zx64 d lane) (s.src h .zx64 (Spec.second d) lane)

/-- A pair whose second `v` register lies beyond the grant takes `ILL` (R210). Assumption 17 (DEDUCED). -/
def State.pairRefused (s : State) (d : Spec) : Bool :=
  match d with
  | .v n => s.curG.refuses (.v n) || n.toNat + 1 ≥ (if s.curG.level = .m then 32 else s.curG.regs)
  | _ => s.curG.refuses d

def execWelf (h : Hdr) (d a : Spec) (s : State) : Host.Outcome State Fault Refusal :=
  issueWith (fun s => if s.pairRefused d then some (.ill, s.cur.word) else none) h [d, Spec.second d]
    [d, Spec.second d, a] s fun s =>
    let f (l : Nat) : Welford := (s.welford h d l).add (sub 32 (s.src h .rep32 a l) 0)
    s.writePair h d (fun l => (f l).first) (fun l => (f l).last)

def execWmerge (h : Hdr) (d a : Spec) (s : State) : Host.Outcome State Fault Refusal :=
  issueWith (fun s => if s.pairRefused d || s.pairRefused a then some (.ill, s.cur.word) else none) h
    [d, Spec.second d] [d, Spec.second d, a, Spec.second a] s fun s =>
    -- an unmerged triple keeps the bits of D
    let keep (l : Nat) : Bool := (s.welford h a l).n == 0
    let f (l : Nat) : Welford := (s.welford h d l).merge (s.welford h a l)
    s.writePair h d (fun l => if keep l then s.src h .zx64 d l else (f l).first)
      (fun l => if keep l then s.src h .zx64 (Spec.second d) l else (f l).last)

/-! ### Running maximum (R220, R222) -/

/-- The new value of a running maximum register: NaN if either is, else the larger (R220). `m` is an FP32 value. -/
def runMax (old : W64) (m : Num) : W64 :=
  let x := fp32.decode (sub 32 old 0)
  if x.isNan || m.isNan then BitVec.ofNat 64 fp32.nan
  else BitVec.ofNat 64 (if x.below m then fp32.encode .near false m else sub 32 old 0)

/-- AMAX (R222). -/
def execAmax (h : Hdr) (ft : BitVec 2) (nanprop : Bool) (d a : Spec) (s : State) : Host.Outcome State Fault Refusal :=
  issue h [d] [d, a] s fun s =>
    let xs := (s.foldLanes h d).flatMap fun l =>
      (List.range (ftCount ft)).map fun i => (ftFmt ft).decode (sub (ftWidth ft) (s.src h (ftExpand ft) a l) i)
    let m := if nanprop && xs.any Num.isNan then .nan else amaxOf xs
    s.arith h d fun l => runMax (s.src h .zx64 d l) m

end Sys2Proof.Machine
end

