-- ==== Sys2Proof/Machine/Tiles.lean ====
section
/-! DEFINITION. Who owns a physical accumulator tile (R335, R336), reading and writing tiles (R224), and taking saved
MLOOPs up again after a restore (R237). -/

namespace Sys2Proof.Machine

/-! ### Tiles -/

/-- Minus infinity, what a missing ROWMAX reads (R224). -/
def fp32NegInf : W32 := 0xFF800000

/-- Element (i, j) of a tile, and its side registers. -/
def AccTile.get (x : AccTile) (i j : Nat) : W32 := ((((x.el[i]?).getD [])[j]?)).getD 0
def AccTile.rowMax (x : AccTile) (i : Nat) : W32 := (x.mx[i]?).getD fp32NegInf
def AccTile.rowSum (x : AccTile) (i : Nat) : W32 := (x.sm[i]?).getD 0

/-- A tile given by its values. -/
def AccTile.make (el : Nat → Nat → W32) (mx sm : Nat → W32) : AccTile :=
  ⟨lanesOf fun i => lanesOf fun j => el i j, lanesOf mx, lanesOf sm⟩

/-- Every ROWMAX is minus infinity and every ROWSUM +0 (R243). -/
def AccTile.sideClean (x : AccTile) : Bool := (List.range 32).all fun i => x.rowMax i == fp32NegInf && x.rowSum i == 0

/-- Physical tile `p` of a group's sub-core. -/
def State.accAt (s : State) (gid p : Nat) : AccTile := (s.subOf gid).acc.getD p AccTile.fresh
def State.putAcc (s : State) (gid p : Nat) (x : AccTile) : State :=
  s.modSubOf gid fun c => { c with acc := c.acc.set p x }

/-- Where an uncorrectable error of a physical tile stands (R319). -/
def State.accPlace (s : State) (gid p : Nat) : ErrPlace :=
  .acc (s.team (s.group gid).team).tile (s.group gid).q p

/-! ### Ownership -/

/-- ACCOWN names a context (R336). -/
def SubCore.ownedBy (c : SubCore) (ctx : Nat) : Bool := field c.accown 0 5 == 16 + ctx % 16

/-- Check 4 of R230 for tile `n` of a group at physical tile `p` (R336). -/
def State.ownsTile (s : State) (gid n p : Nat) : Bool :=
  let g := s.group gid
  let c := s.subOf gid
  c.ownedBy (s.ctxOf g) && c.acclive.getLsbD p && c.acctag.getD p 0 == s.accTag g n

/-- Another group of the sub-core is between `ACC_FIRST` entry and its `ERET` (R336). -/
def State.accFirstElse (s : State) (gid : Nat) : Bool :=
  let g := s.group gid
  s.groups.any fun p => p.1 != gid && p.2.inAccFirst && !p.2.ended && p.2.q == g.q
    && (s.team p.2.team).tile == (s.team g.team).tile

/-- No MMA is executing and no MLOOP queued or running (R336). -/
def SubCore.quiet (c : SubCore) : Bool := c.mma.isNone && c.mloops.isEmpty

/-- The tile number an `ACCLD` fills. -/
def Access.tileNum (a : Access) : Nat := match a.info.dest with
  | .a n => n.toNat
  | _ => 0

/-- An `ACCLD` whose tile is not there: after a restore its group takes `ACC_FIRST` before it fills the tile (a choice of
the model). `info.flag2` tells one that names a physical tile. Assumption 38 (DESIGN CHOICE). -/
def State.accHeld (s : State) (a : Access) : Bool :=
  a.kind == .accld && !a.info.flag2 && !s.ownsTile a.gid a.tileNum a.info.aux

/-! ### Saved MLOOPs (R237) -/

/-- A saved MLOOP finds its tile: `tile` is the tile's number in its group, or 4 and more for one named physically.
Assumption 36 (DESIGN CHOICE). -/
def State.loopReady (s : State) (m : MLoop) : Bool := 4 ≤ m.tile || s.ownsTile m.gid m.tile m.phys

/-- An MLOOP still has its tile: that of a group which has ended may have been left behind at a switch, and nothing reads it any
more. Assumption 36 (DESIGN CHOICE). -/
def State.loopHasTile (s : State) (m : MLoop) : Bool := !(s.group m.gid).ended || s.loopReady m

/-- An MLOOP is queued, running or saved: what a FENCE waits for (R251). Assumption 36 (DESIGN CHOICE). -/
def State.loopPending (s : State) (id : Nat) : Bool :=
  (s.subs.any fun c => c.2.mloops.any (·.id == id)) || s.clusters.any fun c => c.2.loops.any (·.id == id)

end Sys2Proof.Machine
end

