-- ==== Sys2Proof/Machine/Fetch.lean ====
section
/-! DEFINITION. Fetching an instruction (R33-R35, R389, R347): translation of its block, the bytes, and checks 1 to 4 of
R54 in their order. -/

namespace Sys2Proof.Machine

/-- TINFO of an `ACCESS` trap (R64). -/
def accessInfo (replay : Bool) (reason va : Nat) : W64 :=
  BitVec.ofNat 64 ((if replay then 2 ^ 63 else 0) + reason % 128 * 2 ^ 56 + va / 128 * 128 % 2 ^ 56)

/-- TINFO of a `MEM_ERR` trap (R319). -/
def memErrInfo (replay : Bool) (source detail : Nat) : W64 :=
  BitVec.ofNat 64 ((if replay then 2 ^ 63 else 0) + source % 128 * 2 ^ 56 + detail % 2 ^ 56)

/-- A line as a fetch of a launch reads it at device scope. Where the line was written while the launch had groups on the
device, each fetch reads it as it is or as it was before one of the writes (R35), a free choice. A peer's line is free:
its home is outside. Assumption 23 (DESIGN CHOICE). Assumption 68 (DESIGN CHOICE). -/
def State.fetchLine (s : State) (launch line : Nat) : Nat × State :=
  if isPeerLine line then s.takeFree
  else
    let now := (s.cohLine line).1
    match s.oldLines launch line with
    | [] => (now, s)
    | olds =>
      let (x, s) := s.takeFree
      ((olds[x % (olds.length + 1)]?).getD now, s)

/-- The bytes from a PC to the end of its fetch block, and the eight bytes of check 2 where they run past it. Those past
the end of the line are read through their own translation; where that fails they are free. -/
def State.blockBytes (s : State) (tile ctx launch pc line : Nat) (um : Bool) : Nat × State :=
  let n := 32 - pc % 32
  let (x, s) := s.fetchLine launch line
  if 8 ≤ n || pc % 128 ≠ 124 then (bytesOf x (pc % 128) (max n 8), s)
  else
    let lo := bytesOf x 124 4
    match s.translate tile ctx (pc + 4) um .r with
    | (.ok l _, s) =>
      let (x, s) := s.fetchLine launch l
      (lo + bytesOf x 0 4 * 2 ^ 32, s)
    | (_, s) =>
      let (hi, s) := s.takeFree
      (lo + hi % 2 ^ 32 * 2 ^ 32, s)

/-- What a fetch finds. -/
inductive Fetched where
  | instr (i : Instr)
  | trap (c : Cause) (info : W64)
  | stall
  deriving DecidableEq, Repr

/-- Checks 2 to 4 on the bytes of a block (R54). -/
def fetchDecode (pc : Nat) (x : Nat) : Fetched :=
  let word : W64 := BitVec.ofNat 64 x
  match lenOfBytes (natToBytes 1 x) with
  | none => .trap .ill word
  | some l =>
    if 32 < pc % 32 + l.bytes then .trap .fetchAlign 1
    else
      match decode (natToBytes 16 (x % 256 ^ l.bytes)) with
      | .ok i => .instr i
      | .error _ => .trap .ill word

/-- A fetch consumes an uncorrectable error in the newest copy of its block (R319). -/
def State.fetchBad (s : State) (line pc : Nat) : Bool := s.newestErr line (pc % 128 / 64) != 0

/-- Fetch and decode for a sub-gang; the bits [63:0] of the word go into the issue register for TINFO of `ILL`. A line
not present stalls the sub-gang with an entry of kind 0 (R389). On the stage manager a byte at or past the end of its
512 KiB SRAM reads zero. Assumption 69 (DESIGN CHOICE). -/
def State.fetch (s : State) (gid : Nat) (slices : BitVec 8) : Fetched × State :=
  let g := s.group gid
  let pc := (g.pcOf slices).toNat
  if pc % 4 ≠ 0 then (.trap .fetchAlign 0, s)
  else if g.level = .m then
    let x := s.sm.sram.readN pc (max (32 - pc % 32) 8)
    (fetchDecode pc x, { s with cur := ⟨gid, slices, BitVec.ofNat 64 x⟩ })
  else
    let tile := (s.team g.team).tile
    let ctx := s.ctxOf g
    let aborted : Option Nat := g.gangs.findSome? fun x => match x.wait with
      | .retry v true => if x.slices == slices then some v else none
      | _ => none
    let va := pc / 128 * 128
    match aborted with
    | some v => (.trap .access (accessInfo false 0x30 v), s)
    | none =>
      match s.translate tile ctx va (g.level == .u) .r with
      | (.access r, s) => (.trap .access (accessInfo false r va), s)
      | (.missing, s) =>
        (.stall, (s.modGroup gid fun g => g.setWait slices (.retry va false)).fqPost 0 va ctx tile g.q 0xFF 0)
      | (.ok line _, s) =>
        if s.fetchBad line pc then (.trap .memErr (memErrInfo false 7 va), s)
        else
          let (x, s) := s.blockBytes tile ctx (s.launchIdOf g) pc line (g.level == .u)
          (fetchDecode pc x, { s with cur := ⟨gid, slices, BitVec.ofNat 64 x⟩ })

end Sys2Proof.Machine
end

