-- ==== Sys2Proof/Machine/Ready.lean ====
section
/-! DEFINITION. When a sub-gang or a group can issue (R287, R288), and the age a group takes when it becomes ready. -/

namespace Sys2Proof.Machine

/-- Every line has performed or was refused. -/
def Access.finished (a : Access) : Bool := a.lines.all fun l => l.status == .done || l.status == .refused

/-- THERMAL or TIMER is pending (R326, R330). -/
def State.smPending (s : State) : Bool := !s.sm.evseq.isEmpty || s.sm.timerPend != 0

/-- A wait that no longer holds the sub-gang (R44, R146, R389, R326). Assumption 9 (DESIGN CHOICE). -/
def State.waitOver (s : State) (t : Team) : Wait → Bool
  | .none => true
  | .freed => true
  | .tokens m => t.tokensZero m
  | .yield m _ => t.tokensZero m
  | .retry _ a => a
  | .wfi => s.smPending
  | _ => false

/-- While a group runs a handler only the slices of TSTATE.SG issue (R317). Assumption 60 (DEDUCED). -/
def Group.inHandler (g : Group) (slices : BitVec 8) : Bool :=
  g.level != .s || slices &&& ~~~ (g.tstate.extractLsb' 32 8) = 0

/-- Pending traps a group may take now: one of an instruction issued in U mode waits while the group is in S mode
(R110). Assumption 60 (DEDUCED). -/
def Group.duePend (g : Group) : List PendTrap :=
  g.pend.filter fun p => p.fromS || g.level != .s || p.cause == .phaseTimeout

/-- The pending trap taken first: that of the instruction issued first (R110). Assumption 19 (DESIGN CHOICE). -/
def Group.nextPend (g : Group) : Option PendTrap :=
  g.duePend.foldl (fun o p => match o with
    | none => some p
    | some q => if p.order < q.order then some p else some q) none

/-- The sub-gang that takes a pending trap (R110, R317). Assumption 59 (DESIGN CHOICE). -/
def Group.pendGang (g : Group) (p : PendTrap) : Option SubGang :=
  let slice := if p.cause != .phaseTimeout && g.sliceLive p.low then p.low else g.liveSlices.headD 8
  g.gangs.find? fun x => x.slices.getLsbD slice

/-- A `TSTORE` of some slices has still to reserve its lines: they issue nothing before (R135).
Assumption 85 (DESIGN CHOICE). -/
def State.reserving (s : State) (g : Group) (slices : BitVec 8) : Bool :=
  s.copies.any fun c => c.2.reserving && c.2.team == g.team && (s.group c.2.gid).idx == g.idx && c.2.slices &&& slices != 0

/-- A sub-gang can issue: it waits for nothing, nor its group for the end of a time-slice yield (R289), or it has a trap to
take (R287). -/
def State.gangReady (s : State) (g : Group) (x : SubGang) : Bool :=
  g.inHandler x.slices && (g.slicing != .taken && s.waitOver (s.team g.team) x.wait && !s.reserving g x.slices
    || (g.nextPend.bind g.pendGang) == some x)

/-- A copy of the group's cluster has not been taken up again after a restore: no group issues before it (R147). -/
def State.copiesRest (s : State) (g : Group) : Bool :=
  s.copies.any fun c => c.2.stopped && (s.team c.2.team).cluster == (s.team g.team).cluster

/-- Its cluster is resident, and neither it nor its tile's issue is stopped; the cycle in which a change of gear is decided still
issues (R303, R332). -/
def State.groupRuns (s : State) (g : Group) : Bool :=
  !g.ended && !g.stopped && ((s.tile (s.team g.team).tile).change.isNone || (s.tile (s.team g.team).tile).lastCycle)
    && !s.copiesRest g

/-- A group in the wings whose data have not all reached it: an access that its instruction waits on misses them, or has them
and not yet delivered them (R32). -/
def State.inWings (s : State) (gid : Nat) : Bool :=
  match (s.group gid).place with
  | .wings l => (s.group gid).nextPend.isNone && l.any fun k => (s.accs.get? k).any fun a => a.missing || a.finished
  | _ => false

/-- A group is in the wings. -/
def Place.isWings : Place → Bool
  | .wings _ => true
  | _ => false

def State.groupReady (s : State) (gid : Nat) : Bool :=
  s.groupRuns (s.group gid) && !s.inWings gid && (s.group gid).gangs.any (s.gangReady (s.group gid))

/-- The groups of a sub-core, in order of team admission and group index (R288). -/
def State.groupsOn (s : State) (tile q : Nat) : List Nat :=
  (s.groups.filter fun p => (s.team p.2.team).tile == tile && p.2.q == q && !p.2.ended && p.2.level != .m).map (·.1)

/-- A group that has no slot and that a change has made ready takes its age then (R288, R289). -/
def State.readied (before s : State) (gid : Nat) : State :=
  let slotless : Bool := match (s.group gid).place with
    | .slot _ => false
    | _ => true
  if slotless && !before.groupReady gid && s.groupReady gid then s.stamp gid else s

/-- A trap waits for a group's issue point (R110, R296). -/
def State.addPend (s : State) (gid : Nat) (p : PendTrap) : State :=
  s.readied (s.modGroup gid fun g => { g with pend := g.pend ++ [p] }) gid

end Sys2Proof.Machine
end

