-- ==== Sys2Proof/Machine/Ports.lean ====
section
/-! DEFINITION. Ports, routes, and the failure of a peer or of the host (R342-R345). -/

namespace Sys2Proof.Machine

/-- The device a line belongs to, if that is another device or the host. -/
def lineDevice (l : Nat) : Option Nat :=
  if isPeerLine l then some (peerOf l) else if isHostLine l then some 0x1FFF else none

/-- The holder ID of a device (R102). -/
def deviceId (dev : Nat) : BitVec 16 := if dev = 0x1FFF then hostId else BitVec.ofNat 16 (0x6000 + dev)

/-- End the requests under way to the lines of a failed device (R345): with reason 0x27, as new ones end.
Assumption 63 (DESIGN CHOICE). -/
def State.endRequests (s : State) (dev : Nat) : State :=
  let gone := s.net.filter fun p => lineDevice p.2.line == some dev
  let s := gone.foldl (fun s p => (s.unNet p.1).answer p.2 (.fail 0x27)) s
  let held := s.dir.filter fun p => lineDevice p.1 == some dev
  held.foldl (fun s p =>
    let s := (p.2.queue ++ p.2.pend.toList).foldl (fun s r => s.answer r (.fail 0x27)) s
    { s with dir := s.dir.del p.1 }) s

/-- Declare a device failed (R345). `how` is 1 after port loss, 0 after a PEERFAIL write.
Assumption 50 (DESIGN CHOICE). -/
def State.declareFailed (s : State) (dev how : Nat) : State :=
  if s.ports.failed.contains dev then s
  else
    let s := { s with ports := { s.ports with failed := dev :: s.ports.failed } }
    let s := s.answerFor (deviceId dev)
    let s := s.endRequests dev
    (s.fqPost 9 dev 0xFF 0xFFFF 0xFF 0xFF how).logEvent 6 dev

/-- Clear the mark (R345). -/
def State.clearFailed (s : State) (dev : Nat) : State :=
  { s with ports := { s.ports with failed := s.ports.failed.filter (· != dev) } }

/-- A write of PEERFAIL (R342, R345). -/
def State.writePeerfail (s : State) (x : W64) : State :=
  if x.getLsbD 15 then s.declareFailed (field x 0 13) 0 else s.clearFailed (field x 0 13)

/-- A message from this device to another is under way (R343). -/
def State.routeInUse (s : State) (n : Nat) : Bool :=
  s.net.any (fun p => lineDevice p.2.line == some n)
    || s.pushes.any (fun p => p.2.agent == deviceId n) || s.recs.any (fun p => p.2.agent == deviceId n)
    || s.ports.outbox.any fun p => p.2.2.1 == n

/-- Perform the oldest pending write of ROUTE[n] once nothing is in flight to device n (R343). Where no route leads to the device
any more, what would be sent again to it is discarded, and the rounds that wait on it are answered (R125, R343). -/
def State.performRoute (s : State) (n : Nat) : State :=
  match s.ports.pend.find? fun p => p.1 == n with
  | none => s
  | some p =>
    if s.routeInUse n then s
    else
      let s : State := { s with ports := { s.ports with
        route := s.ports.route.set n (BitVec.ofNat 64 (field p.2 0 5))
        pend := s.ports.pend.erase p } }
      if s.peerReachable n then s else s.answerFor (deviceId n)

def State.writeRoute (s : State) (n : Nat) (x : W64) : State :=
  ({ s with ports := { s.ports with pend := s.ports.pend ++ [(n, x)] } }).performRoute n

def execRouteWrite (n : Nat) (s : State) : Host.Outcome State Fault Refusal := .next (s.performRoute n)

/-- ROUTE[n] as a read finds it: the last write of it, performed or not (R349). -/
def State.routeRead (s : State) (n : Nat) : W64 :=
  match (s.ports.pend.filter fun p => p.1 == n).getLast? with
  | some p => BitVec.ofNat 64 (field p.2 0 5)
  | none => s.ports.route.getD n 0

/-- A read of a register of the block (R342). -/
def State.portsRead (s : State) (a : Nat) : W64 :=
  if a = 0x400000 then s.ports.devid
  else if 0x400100 ≤ a && a < 0x400100 + 8 * 17 then s.ports.stat.getD ((a - 0x400100) / 8) 0
  else if 0x410000 ≤ a && a < 0x410000 + 8 * 8192 then s.routeRead ((a - 0x410000) / 8)
  else if 0x420000 ≤ a && a < 0x420000 + 8 * 128 then
    let w := (a - 0x420000) / 8
    BitVec.ofNat 64 ((List.range 64).foldl (fun x b => if s.ports.failed.contains (64 * w + b) then x + 2 ^ b else x) 0)
  else 0

/-- A write to a register of the block (R342, R343). -/
def State.portsWrite (s : State) (who : Master) (a : Nat) (x : W64) : State :=
  if a = 0x400008 then s.writePeerfail x
  else if who = .host then s
  else if a = 0x400000 then { s with ports := { s.ports with devid := BitVec.ofNat 64 (field x 0 13) } }
  else if 0x410000 ≤ a && a < 0x410000 + 8 * 8192 then s.writeRoute ((a - 0x410000) / 8) x
  else s

/-- A port loses its link (R345): UP clears. The port is training again until it retrains.
Assumption 50 (DESIGN CHOICE). -/
def execPortDown (port : Nat) (s : State) : Host.Outcome State Fault Refusal :=
  if 17 ≤ port then .next s
  else .next { s with ports := { s.ports with
    stat := s.ports.stat.set port (setField (setField (s.ports.stat.getD port 0) 0 2 2) 8 8 0)
    down := if s.ports.down.contains port then s.ports.down else port :: s.ports.down } }

/-- The lanes of a port (R1). -/
def portLanes (port : Nat) : Nat := if port = 16 then 32 else 8

/-- A port comes up again after a retrain, with some or all of its lanes (R1, R342, R345). Assumption 50 (DESIGN CHOICE). -/
def execPortRetrain (port lanes : Nat) (s : State) : Host.Outcome State Fault Refusal :=
  if 17 ≤ port || lanes = 0 || portLanes port < lanes then .next s
  else
    let n := field (s.ports.stat.getD port 0) 16 32 + 1
    .next { s with ports := { s.ports with
      stat := s.ports.stat.set port (BitVec.ofNat 64 (1 + lanes % 256 * 256 + n % 2 ^ 32 * 65536))
      down := s.ports.down.filter (· != port) } }

/-- A peer port has stayed down for 10 ms (R345): every device it routes to is declared failed. -/
def execPortLossTimeout (port : Nat) (s : State) : Host.Outcome State Fault Refusal :=
  if !s.ports.down.contains port || 16 ≤ port then .next s
  else
    let devs := (s.ports.route.filter fun p => p.2.getLsbD 4 && field p.2 0 4 == port).map (·.1)
    .next (devs.foldl (fun s d => s.declareFailed d 1) s)

/-- A message leaves for a device, by the port of its route, where one leads there. -/
def State.sendOut (s : State) (src dst : Nat) (payload : W64) : State :=
  if dst = field s.ports.devid 0 13 || !s.peerReachable dst then s
  else { s with ports := { s.ports with
    outbox := s.ports.outbox ++ [(field (s.ports.route.getD dst 0) 0 4, src, dst, payload)] } }

/-- A message for another device (R343): it leaves by the port of its route; `depart` is its leaving that port. One that no route
takes on is discarded, and an answer in the name of its addressee goes to its sender (R125). Assumption 86 (DESIGN CHOICE). -/
def execPeerMessageForward (depart : Bool) (src dst : Nat) (payload : W64) (s : State) :
    Host.Outcome State Fault Refusal :=
  if depart then
    .next { s with ports := { s.ports with
      outbox := s.ports.outbox.eraseP fun p => p.2 == (src, dst, payload) } }
  else if s.ports.failed.contains src || dst = field s.ports.devid 0 13 then .next s
  else if s.peerReachable dst then .next (s.sendOut src dst payload)
  else
    let (n, s) := s.takeFree
    .next (s.sendOut dst src (BitVec.ofNat 64 n))

end Sys2Proof.Machine
end

