-- ==== Sys2Proof/Machine/Sync.lean ====
section
/-! DEFINITION. Rendezvous points (R291-R294, R255, R305, R306), NAP (R290), GEAR (R302), changeovers (R303) and the
curtain release (R307). -/

namespace Sys2Proof.Machine

/-! ### Points -/

/-- Points 24-31 belong to the cluster (R291). -/
def clusterPoint (rp : Nat) : Bool := 24 ≤ rp

/-- The tile that keeps a cluster's points: that of `%team` 0 (R291). -/
def State.pointTile (s : State) (cid : Nat) : Nat :=
  (((s.cluster cid).teams.head?).map fun i => (s.team i).tile).getD 0

/-- A point as the issuing group's team or cluster holds it. -/
def State.pointOf (s : State) (tid rp : Nat) : RvPoint :=
  if clusterPoint rp then (s.cluster (s.team tid).cluster).points.getD rp RvPoint.reset
  else (s.team tid).points.getD rp RvPoint.reset

def State.setPoint (s : State) (tid rp : Nat) (p : RvPoint) : State :=
  if clusterPoint rp then s.modCluster (s.team tid).cluster fun c => { c with points := c.points.set rp p }
  else s.modTeam tid fun t => { t with points := t.points.set rp p }

/-- The round of a point as a team's tile has seen it: a cluster point's release reaches it as a message (R293). -/
def State.roundSeen (s : State) (tid rp : Nat) : BitVec 16 :=
  if clusterPoint rp then (s.team tid).seen.getD rp 0 else (s.pointOf tid rp).round

/-- A group's arrival state at a point (R291). -/
def Group.arm (g : Group) (rp : Nat) : RvArm := g.rv.getD rp ⟨false, 0, 0⟩
def Group.setArm (g : Group) (rp : Nat) (a : RvArm) : Group := { g with rv := g.rv.set rp a }

/-- The group has an armed arrival that is not counted yet, or whose round the team has not seen released (R293). -/
def State.unreleased (s : State) (gid rp : Nat) : Bool :=
  let g := s.group gid
  (g.arm rp).armed && ((g.arm rp).sent != 0 || (g.arm rp).round == s.roundSeen g.team rp)

/-- A release seen by a team (R293, R294, R306): its groups blocked on the point are no longer idle, the gear is decided
again, and they are freed in waves. -/
def State.freePoint (s : State) (tid rp : Nat) : State :=
  let t := s.team tid
  let mine (w : Wait) : Bool := match w with
    | .rv q _ => q == rp
    | _ => false
  let gids := t.groups.filter fun i => !s.unreleased i rp && (s.group i).gangs.any fun x => mine x.wait
  let s := gids.foldl (fun s i => s.mapWait i fun w => if mine w then .curtain rp true else w) s
  (s.arbitrate t.tile).freeWaiters t.tile rp gids fun _ => false

/-- A later round than the one seen, in 16-bit order. -/
def newer (a b : BitVec 16) : Bool := a != b && (a - b).toNat < 32768

/-- A team learns a round of a cluster point. -/
def State.learnRound (s : State) (tid rp : Nat) (r : BitVec 16) : State :=
  s.modTeam tid fun t => if newer r (t.seen.getD rp 0) then { t with seen := t.seen.set rp r } else t

/-- Release a point (R293): its round counts on, its tiles are notified. A message goes to every other tile. -/
def State.releasePoint (s : State) (tid rp : Nat) : State :=
  let p := s.pointOf tid rp
  let r := p.round + 1
  let s := s.setPoint tid rp { p with arr := 0, merge := false, round := r }
  if !clusterPoint rp then s.freePoint tid rp
  else
    let cid := (s.team tid).cluster
    let home := s.pointTile cid
    (s.cluster cid).teams.foldl (fun s i =>
      let tile := (s.team i).tile
      if tile = home then (s.learnRound i rp r).freePoint i rp
      else
        let (k, s) := s.fresh
        { s with releases := s.releases.set k ⟨cid, rp, tile, i, r, [], [], none⟩ }) s

/-- Count an arrival at its point (R293). -/
def State.countArrival (s : State) (gid rp : Nat) : State :=
  let tid := (s.group gid).team
  let p := s.pointOf tid rp
  let s := s.modGroup gid fun g => g.setArm rp { g.arm rp with armed := true, round := p.round }
  let s := if clusterPoint rp then s.learnRound tid rp p.round else s
  let p := { p with arr := p.arr + 1 }
  let s := s.setPoint tid rp p
  if p.exp ≠ 0 && p.exp ≤ p.arr then s.releasePoint tid rp else s

/-! ### The instructions (R293) -/

/-- RVINIT. Assumption 58 (DESIGN CHOICE). -/
def execRvinit (h : Hdr) (rp : BitVec 5) (a : Spec) (s : State) : Host.Outcome State Fault Refusal :=
  issueTile h [] [a] s (fun s =>
    let n := (s.leaderSrc h .zx64 a).toNat
    let tid := s.curG.team
    let p := s.pointOf tid rp.toNat
    if !s.uniform h || p.exp ≠ 0 || n = 0 then .done s
    else
      let p := { p with exp := min n (if clusterPoint rp.toNat then 384 else 32) }
      let s := s.setPoint tid rp.toNat p
      .done (if p.exp ≤ p.arr then s.releasePoint tid rp.toNat else s)) (uniformEffect h)

/-- RVARR. It waits at the instruction until the accesses before it have performed (R255); at a cluster point the tile's
dirty bytes are then written back, and the arrival goes to the tile of team 0. Assumption 58 (DESIGN CHOICE). -/
def execRvarr (h : Hdr) (rp : BitVec 5) (s : State) : Host.Outcome State Fault Refusal :=
  issueTile h [] [] s fun s =>
    let tid := s.curG.team
    let n := rp.toNat
    let p := s.pointOf tid n
    if !s.uniform h then .done s
    else if !s.curG.whole s.cur.slices then .trap .rankPart 0 s
    else if !s.myAccesses.isEmpty then .hold s
    else if !clusterPoint n then
      if p.merge then .trap .mergeCount (mergeInfo n p.exp true) s
      else .done (s.countArrival s.cur.gid n)
    else
      let cid := s.curT.cluster
      let (wbs, s) := s.writeBackAll s.curTile
      if wbs.isEmpty && s.curTile = s.pointTile cid then .done (s.countArrival s.cur.gid n)
      else
        let s := s.modCur fun g => g.setArm n { g.arm n with armed := true, sent := (g.arm n).sent + 1 }
        let (k, s) := s.fresh
        .done { s with arrivals := s.arrivals.set k ⟨cid, n, s.curTile, s.cur.gid, 0, [], wbs, none⟩ }

/-- A group observes a release (R255): at a cluster point R153 applies at cluster scope. -/
def State.observe (s : State) (rp : Nat) : State :=
  let s := s.modCur fun g => g.setArm rp { g.arm rp with armed := false }
  if clusterPoint rp then s.acquireAt s.curTile 2 else s

/-- RVWAIT: a blocked group leaves its slot (R288) and may lower its team's request (R299).
Assumption 9 (DESIGN CHOICE). -/
def execRvwait (h : Hdr) (rp : BitVec 5) (idle : Bool) (s : State) : Host.Outcome State Fault Refusal :=
  issueTile h [] [] s fun s =>
    let n := rp.toNat
    if !s.uniform h then .done s
    else if !s.curG.whole s.cur.slices then .trap .rankPart 0 s
    else if !(s.curG.arm n).armed then .done s
    else if s.unreleased s.cur.gid n then
      let s := s.modCur fun g => g.setWait s.cur.slices (.rv n idle)
      .wait ((s.leaveSlot s.cur.gid .pool).arbitrate s.curTile)
    else .done ((s.monLatency (tileMon s.curTile) 2).observe n)

/-- RVTEST. -/
def execRvtest (h : Hdr) (rp : BitVec 5) (d : Spec) (s : State) : Host.Outcome State Fault Refusal :=
  issueTile h [d] [] s fun s =>
    let n := rp.toNat
    let fin := !s.unreleased s.cur.gid n
    if (s.resultLanes h d).isEmpty then .done s
    else
      match s.writeTo d (s.resultLanes h d) fun _ => if fin then 1 else 0 with
      | .error (c, info) => .trap c info s
      | .ok s => .done (if fin then s.observe n else s)

/-- NAP (R290): its PC stays at the instruction until the cycles have passed, as at any wait (R316); the group leaves its
slot while every sub-gang naps. -/
def execNap (h : Hdr) (a : Spec) (s : State) : Host.Outcome State Fault Refusal :=
  issue h [] [a] s (fun s =>
    let n := min (s.leaderSrc h .zx64 a).toNat (2 ^ 20)
    if !s.uniform h || n = 0 then .done s
    else .wait ((s.modCur fun g => g.setWait s.cur.slices (.nap n h.len.bytes)).napOut s.cur.gid)) (uniformEffect h)

/-- GEAR.F and GEAR.N (R302): the request, then the decision of R300. -/
def State.setReq (s : State) (tid : Nat) (f : Bool) : State :=
  (s.modTeam tid fun t => { t with req := f }).arbitrate (s.team tid).tile

def execGearSet (h : Hdr) (f : Bool) (s : State) : Host.Outcome State Fault Refusal :=
  issueTile h [] [] s fun s => .done (if s.uniform h then s.setReq s.curG.team f else s)

/-- GEAR.Q (R302). -/
def execGearQ (h : Hdr) (d : Spec) (s : State) : Host.Outcome State Fault Refusal :=
  issueTile h [d] [] s fun s => s.arith h d fun _ => if s.curT.req then 1 else 0

/-! ### The device's own steps. One that has nothing to do leaves the state as it is. -/

/-- An arrival from a tile reaches its cluster point once the write-backs it covers have been accepted (R255, R293).
Assumption 58 (DESIGN CHOICE). -/
def execRvArrival (k : Nat) (s : State) : Host.Outcome State Fault Refusal :=
  match s.arrivals.get? k with
  | none => .next s
  | some m =>
    if m.wbs.any s.inFlight then .next s
    else
      let s := ({ s with arrivals := s.arrivals.del k }).modGroup m.gid fun g =>
        g.setArm m.rp { g.arm m.rp with sent := (g.arm m.rp).sent - 1 }
      .next (s.countArrival m.gid m.rp)

/-- A release reaches a tile (R293, R306); releases of one point reach a tile in their order.
Assumption 58 (DESIGN CHOICE). -/
def execRvRelease (k : Nat) (s : State) : Host.Outcome State Fault Refusal :=
  match s.releases.get? k with
  | none => .next s
  | some m =>
    if (s.tile m.tile).change.isSome
        || s.releases.any (fun p => p.1 < k && p.2.cluster == m.cluster && p.2.rp == m.rp && p.2.tile == m.tile) then
      .next s
    else
      let s := { s with releases := s.releases.del k }
      .next ((s.learnRound m.gid m.rp m.round).freePoint m.gid m.rp)

/-- The next wave of a release, or, once a changeover is over, the first (R294, R304, R307). -/
def execCurtainWave (tile : Nat) (s : State) : Host.Outcome State Fault Refusal :=
  match (s.tile tile).waves with
  | [] => .next s
  | w :: r =>
    if (s.tile tile).change.isSome then .next s
    else
      let (later, s) : List Wave × State :=
        if !w.begun then s.firstWave tile w
        else
          let left := w.groups.drop w.size
          (if left.isEmpty then [] else [{ w with groups := left }], (w.groups.take w.size).foldl State.freeOne s)
      .next (s.modTile tile fun t => { t with waves := later ++ r })

/-- The sub-gang of a group with a lowest slice. -/
def Group.gangAt (g : Group) (low : Nat) : Option SubGang := g.gangs.find? fun x => lowSlice x.slices == low

/-- A nap ends (R290): the sub-gang goes on behind its NAP. -/
def execNapExpire (gid low : Nat) (s : State) : Host.Outcome State Fault Refusal :=
  match (s.group gid).gangAt low with
  | some ⟨m, .nap _ n, _⟩ => .next (s.readied (s.modGroup gid fun g => (g.advance m n).setWait m .none) gid)
  | _ => .next s

/-- The end of a sub-gang's wait for tokens, once every one of them reads zero: a YIELD goes on at its target (R146), what
waited for WT or in WAITT issues its instruction (R44). The wait has acquired (R139). -/
def State.endTokenWait (s : State) (gid : Nat) (x : SubGang) : State :=
  let tid := (s.group gid).team
  if !(s.team tid).tokensZero x.wait.tokenMask then s
  else
    match x.wait with
    | .tokens _ => s.modGroup gid fun g => g.setWait x.slices .none
    | .yield m off => (s.tokenAcquire tid m).modGroup gid fun g =>
        (g.mapSlices x.slices fun _ y => { y with pc := y.pc + off }).setWait x.slices .none
    | _ => s

/-- A token wait ends (R44, R146): every named token reads zero. -/
def execWaitSatisfied (gid low : Nat) (s : State) : Host.Outcome State Fault Refusal :=
  match (s.group gid).gangAt low with
  | some x => .next (s.readied (s.endTokenWait gid x) gid)
  | none => .next s

/-! ### Stopping a group (R332 steps 1 and 2) -/

/-- A waiting group leaves its wait, but for the waits R274 saves. Assumption 42 (DESIGN CHOICE). -/
def Wait.leave : Wait → Wait
  | .rejoin op => .rejoin op
  | .mergeG rp n => .mergeG rp n
  | _ => .none

/-- A group stops: it gives up its slot; one in the fly loft stays there (R31). -/
def State.halt (s : State) (gid : Nat) : State :=
  (if (s.group gid).place = .loft then s else s.leaveSlot gid .pool).modGroup gid fun g => { g with
    stopped := true
    preempting := false
    slicing := .no }

/-- One group stops; in U mode with PNOTE it takes `PREEMPT`, and stops when its handler returns.
Assumption 42 (DESIGN CHOICE). -/
def State.stopGroup (s : State) (note : Bool) (gid : Nat) : State :=
  let g := s.group gid
  if g.ended || g.stopped || g.preempting then s
  else
    let before := s
    let s := (s.mapWait gid Wait.leave).modGroup gid fun g => { g with slicing := .no }
    match (if note && g.level == .u then g.gangs.find? fun x => x.slices.getLsbD (g.liveSlices.headD 8) else none) with
    | some x =>
      before.readied ((s.takeTrap gid x.slices .preempt (g.pcOf x.slices) 1).modGroup gid fun g => { g with
        preempting := true }) gid
    | none => s.halt gid

/-- The groups of a team stop, unless its tile is in a changeover: then they stop at its end (R304, R332). -/
def State.stopTeam (s : State) (tid : Nat) : State :=
  let t := s.team tid
  let c := s.cluster t.cluster
  if t.tile < 192 && c.state = .stopping && (s.tile t.tile).change.isNone then
    t.groups.foldl (fun s i => s.stopGroup (s.ctxPnote (s.launch c.launch).ctx) i) s
  else s

/-! ### Targets and changeovers -/

/-- A new pair of targets (R298): while a changeover is under way it is recorded for its end (R304). -/
def State.applyFreq (s : State) (n : Nat) (x : W64) : State :=
  let ff := max 40 (min 132 (field x 0 8))
  let nf := max 20 (min 44 (field x 8 8))
  let sq := field x 32 16
  let old := (s.tile n).nfNow
  let s := s.modTile n fun t =>
    let t := { t with
      tfreq := BitVec.ofNat 64 (sq * 2 ^ 32 + nf * 256 + ff)
      ffTarget := ff
      tgtSeq := sq }
    if t.fll = ff then { t with ramp := false, ackseq := sq } else { t with ramp := true }
  if nf ≠ old && !(s.tile n).gear && (s.tile n).change.isNone then
    s.modTile n fun t => { t with change := some false, lastCycle := true }
  else s

/-- A write of TFREQ[n] (R298, R304). Assumption 50 (DESIGN CHOICE). -/
def State.writeFreq (s : State) (n : Nat) (x : W64) : State :=
  if (s.tile n).change.isSome then s.modTile n fun t => { t with freqPend := some x } else s.applyFreq n x

/-- A changeover ends (R303, R304): the rails have switched, a NF that changed is in force, recorded targets apply, and
the groups of a cluster that is to stop do so, and R300 is evaluated again. -/
def execChangeoverComplete (tile : Nat) (s : State) : Host.Outcome State Fault Refusal :=
  match (s.tile tile).change with
  | none => .next s
  | some f =>
    let s := s.modTile tile fun t => { t with
      change := none
      lastCycle := false
      gear := f
      nfNow := if f then t.nfNow else field t.tfreq 8 8 }
    let s := match (s.tile tile).freqPend with
      | some x => (s.modTile tile fun t => { t with freqPend := none }).applyFreq tile x
      | none => s
    let s := ((s.teams.filter fun t => t.2.tile == tile && !t.2.ended).map (·.1)).foldl (fun s i => s.stopTeam i) s
    .next (s.arbitrate tile)

/-- One step of a ramp (R298). -/
def execFllRampStep (tile : Nat) (s : State) : Host.Outcome State Fault Refusal :=
  let t := s.tile tile
  if !t.ramp then .next s
  else
    let f := if t.fll < t.ffTarget then t.fll + 1 else if t.ffTarget < t.fll then t.fll - 1 else t.fll
    .next (s.modTile tile fun t =>
      if f = t.ffTarget then { t with fll := f, ramp := false, ackseq := t.tgtSeq } else { t with fll := f })

end Sys2Proof.Machine
end

