-- ==== Sys2Proof/Machine/Thermal.lean ====
section
/-! DEFINITION. Temperature, frequency and the timer: R298, R300, R309-R313. -/

namespace Sys2Proof.Machine

/-- A limit of a threshold register (R313): 0 WARN, 1 THROTTLE, 2 CRIT, signed as readings are. -/
def limitOf (x : W64) (i : Nat) : Int := asSigned 16 (field x (16 * i) 16)

/-- One threshold at a sample (R310): its state and its dwell after. Assumption 51 (DESIGN CHOICE). -/
def thresholdStep (on : Bool) (dwell : Nat) (reading limit hyst : Int) : Bool × Nat :=
  let d := dwell + 1
  if d < 20 then (on, d)
  else if !on && limit ≤ reading then (true, 0)
  else if on && reading < limit - hyst then (false, 0)
  else (on, d)

/-- The threshold register of a sensor (R310). -/
def State.limits (s : State) (n : Nat) : W64 := if n < 192 then s.sm.tthr else s.sm.tthrd

/-- States of a sensor, lowest bit WARN (R384). -/
def Sensor.bits (x : Sensor) : Nat := (if x.warn then 1 else 0) + (if x.thr then 2 else 0) + (if x.crit then 4 else 0)

/-- The tiles a sensor's CRIT forces (R312). -/
def critTiles (n : Nat) : List Nat :=
  if n < 192 then [n] else (List.range 192).filter fun t => dieOf t == (n - 192) / 12

/-- A sample (R310, R312): every change is an event, and a CRIT acts at once on its tiles.
Assumption 50 (DESIGN CHOICE). -/
def State.sample (s : State) (n : Nat) (reading : BitVec 16) : State :=
  let x := s.sensors.getD n Sensor.reset
  let lim := s.limits n
  let r := reading.toInt
  let h : Int := field lim 48 16
  let (w, dw) := thresholdStep x.warn x.dWarn r (limitOf lim 0) h
  let (t, dt) := thresholdStep x.thr x.dThr r (limitOf lim 1) h
  let (c, dc) := thresholdStep x.crit x.dCrit r (limitOf lim 2) h
  let y : Sensor := ⟨reading, w, t, c, dw, dt, dc⟩
  let s := { s with sensors := s.sensors.set n y }
  let changes := (if w != x.warn then 1 else 0) + (if t != x.thr then 1 else 0) + (if c != x.crit then 1 else 0)
  let s := (List.range changes).foldl (fun s _ => s.thermalEvent n y.bits) s
  if c != x.crit then (critTiles n).foldl (fun s t => s.arbitrate t) s else s

def execSensorSample (n : Nat) (reading : BitVec 16) (s : State) : Host.Outcome State Fault Refusal :=
  if n < 216 then .next (s.sample n reading) else .next s

/-- A HYST below 2 degrees is stored as 2 degrees (R313). Assumption 51 (DESIGN CHOICE). -/
def storeLimits (x : W64) : W64 := if field x 48 16 < 0x20 then setField x 48 16 0x20 else x

/-- Some sensor of a class has each threshold asserted (R313). -/
def State.classBits (s : State) (tiles : Bool) : Nat :=
  let l := s.sensors.filter fun p => (p.1 < 192) == tiles
  (if l.any fun p => p.2.warn then 1 else 0) + (if l.any fun p => p.2.thr then 2 else 0)
    + (if l.any fun p => p.2.crit then 4 else 0)

/-- Time since the latest change of a sensor's thresholds, in ms (R313). Assumption 51 (DESIGN CHOICE). -/
def Sensor.sinceMs (x : Sensor) : Nat := min 65535 (min x.dWarn (min x.dThr x.dCrit) / 20)

/-! ### Timer (R313) -/

def State.writeTimer (s : State) (x : W64) : State :=
  { s with sm := { s.sm with
    timer := BitVec.ofNat 64 (field x 0 32)
    timerEn := x.getLsbD 32
    timerPend := 0
    timerLost := false } }

/-- A read of TIMER: the time remaining is a free value from 1 to the interval. Assumption 51 (DESIGN CHOICE). -/
def State.readTimer (s : State) : W64 × State :=
  let flags := (if s.sm.timerEn then 2 ^ 32 else 0) + s.sm.timerPend % 256 * 2 ^ 40 + (if s.sm.timerLost then 2 ^ 48 else 0)
  let iv := s.sm.timer.toNat
  if !s.sm.timerEn || iv = 0 then (BitVec.ofNat 64 flags, s)
  else
    let (n, s) := s.takeFree
    (BitVec.ofNat 64 (flags + (1 + n % iv)), s)

/-- The interval elapses (R313, R330). -/
def execTimerElapse (s : State) : Host.Outcome State Fault Refusal :=
  if !s.sm.timerEn || s.sm.timer = 0 then .next s
  else if s.sm.timerPend < 255 then .next { s with sm := { s.sm with timerPend := s.sm.timerPend + 1 } }
  else .next { s with sm := { s.sm with timerLost := true } }

/-- GCAP[n] (R300, R312, R313). -/
def State.writeGcap (s : State) (n : Nat) (x : W64) : State :=
  (s.modTile n fun t => { t with gcap := BitVec.ofNat 64 (field x 0 1) }).arbitrate n

/-- TFSTAT[n] (R313). -/
def Tile.freqStat (t : Tile) : W64 :=
  BitVec.ofNat 64 (t.ackseq % 65536 * 2 ^ 32 + (if t.ramp then 2 ^ 17 else 0) + (if t.gear then 2 ^ 16 else 0)
    + t.fll % 256 * 256 + (if t.gear then t.fll else t.nfNow) % 256)

/-- TFREQ[n] as last written (R313): a write recorded during a changeover reads back too. -/
def Tile.freqRead (t : Tile) : W64 :=
  match t.freqPend with
  | some x => BitVec.ofNat 64 (field x 32 16 * 2 ^ 32 + max 20 (min 44 (field x 8 8)) * 256 + max 40 (min 132 (field x 0 8)))
  | none => t.tfreq

/-! ### The block's registers (R313, R350, R390) -/

/-- A read of a register of the block by the stage manager. -/
def State.thermalRead (s : State) (a : Nat) : W64 × State :=
  let n (base : Nat) : Nat := (a - base) / 8
  if a < 0x100000 + 8 * 216 then ((s.sensors.getD (n 0x100000) Sensor.reset).reading.signExtend 64, s)
  else if 0x100800 ≤ a && a < 0x100800 + 8 * 216 then
    let x := s.sensors.getD (n 0x100800) Sensor.reset
    (BitVec.ofNat 64 (x.bits + x.sinceMs * 65536), s)
  else if a = 0x101000 then (s.sm.tthr, s)
  else if a = 0x101008 then (BitVec.ofNat 64 (s.classBits true + 16 * s.classBits false), s)
  else if a = 0x101010 then (s.sm.tthrd, s)
  else if 0x110000 ≤ a && a < 0x110000 + 8 * 192 then ((s.tile (n 0x110000)).throt, s)
  else if 0x110800 ≤ a && a < 0x110800 + 8 * 192 then ((s.tile (n 0x110800)).gcap, s)
  else if 0x111000 ≤ a && a < 0x111000 + 8 * 192 then ((s.tile (n 0x111000)).freqRead, s)
  else if 0x111800 ≤ a && a < 0x111800 + 8 * 192 then ((s.tile (n 0x111800)).freqStat, s)
  else if a = 0x120000 then s.readEvseq
  else if a = 0x120100 then s.readTimer
  else if a = 0x120200 then s.readEvlog
  else if a = 0x120300 then s.readStallq
  else if a = 0x120308 then (s.sm.stallseq, s)
  else if a = 0x120310 then (s.sm.stallh, s)
  else (0, s)

/-- A write to a register of the block by the stage manager. -/
def State.thermalWrite (s : State) (a : Nat) (x : W64) : State :=
  let n (base : Nat) : Nat := (a - base) / 8
  if a = 0x101000 then { s with sm := { s.sm with tthr := storeLimits x } }
  else if a = 0x101010 then { s with sm := { s.sm with tthrd := storeLimits x } }
  else if 0x110000 ≤ a && a < 0x110000 + 8 * 192 then
    s.modTile (n 0x110000) fun t => { t with throt := BitVec.ofNat 64 (field x 0 4) }
  else if 0x110800 ≤ a && a < 0x110800 + 8 * 192 then s.writeGcap (n 0x110800) x
  else if 0x111000 ≤ a && a < 0x111000 + 8 * 192 then s.writeFreq (n 0x111000) x
  else if a = 0x120100 then s.writeTimer x
  else s

end Sys2Proof.Machine
end

