-- ==== Sys2Proof/Machine/Registers.lean ====
section
/-! DEFINITION. The device register space (R339, R349, R350): every register as the host and the stage manager reach it. -/

namespace Sys2Proof.Machine

/-! ### Fault queue registers (R75) -/

/-- Write what waits once the queue has room. -/
def State.flushAll (s : State) : State := s.fqFlush s.fq.waiting.length

def State.writeFqConfig (s : State) (size : Bool) (x : W64) : State :=
  ({ s with fq := if size then { s.fq with size := x } else { s.fq with base := x } }).flushAll

/-- A write of FQHEAD (R75): an index has 32 bits. Assumption 72 (DESIGN CHOICE). -/
def State.writeFqHead (s : State) (x : W64) : State :=
  ({ s with fq := { s.fq with head := BitVec.ofNat 64 (field x 0 32) } }).flushAll

def execFqConfigWrite (size : Bool) (val : W64) (s : State) : Host.Outcome State Fault Refusal :=
  .next (s.writeFqConfig size val)

def execFqheadWrite (val : W64) (s : State) : Host.Outcome State Fault Refusal := .next (s.writeFqHead val)

def State.fqRead (s : State) (off : Nat) : W64 :=
  match off with
  | 0 => s.fq.base
  | 8 => s.fq.size
  | 0x10 => s.fq.head
  | 0x18 => s.fq.tail
  | _ => 0

/-- A write to the block. A write to FQRETRY is the next event. Assumption 64 (DESIGN CHOICE). -/
def State.fqWrite (s : State) (off : Nat) (x : W64) : State :=
  match off with
  | 0 => s.writeFqConfig false x
  | 8 => s.writeFqConfig true x
  | 0x10 => s.writeFqHead x
  | 0x20 =>
    let e : Instr := if x.getLsbD 8 then .fqretryAbort (field x 0 4) else .fqretryRetry (field x 0 4)
    { s with agenda := .event e :: s.agenda }
  | _ => s

/-! ### Distributor registers (R278) -/

def lcmapReset (n : Nat) : W64 := BitVec.ofNat 64 (128 + n % 96)

/-- A write of LQCTL[q]: one that sets EN also clears ERR. -/
def State.writeLqctl (s : State) (q : Nat) (x : W64) : State :=
  let old := s.dist.lqctl.getD q 0
  let err := if x.getLsbD 3 then 0 else field old 8 8
  { s with dist := { s.dist with lqctl := s.dist.lqctl.set q (BitVec.ofNat 64 (field x 0 8 + err * 256)) } }

/-- Clusters resident (R278). -/
def State.residentCount (s : State) : Nat := (s.clusters.filter fun c => !c.2.ended && c.2.state != .out).length

def State.distRead (s : State) (off : Nat) : W64 :=
  if off = 0 then s.dist.lqtab
  else if off = 8 then BitVec.ofNat 64 (s.dist.overflows % 2 ^ 32 * 2 ^ 32 + s.residentCount % 2 ^ 32)
  else if 0x100 ≤ off && off < 0x300 then s.dist.lqctl.getD ((off - 0x100) / 8) 0
  else if 0x400 ≤ off && off < 0x400 + 8 * 192 then s.dist.lcmap.getD ((off - 0x400) / 8) (lcmapReset ((off - 0x400) / 8))
  else 0

/-- A write of the distributor block (R279, R284, R286). Assumption 61 (DESIGN CHOICE). -/
def State.distWrite (s : State) (who : Master) (off : Nat) (x : W64) : State :=
  if off = 0 then { s with dist := { s.dist with lqtab := x } }
  else if 0x100 ≤ off && off < 0x300 then s.writeLqctl ((off - 0x100) / 8) x
  else if 0x400 ≤ off && off < 0x400 + 8 * 192 then
    (if who = .host then s
     else { s with dist := { s.dist with lcmap := s.dist.lcmap.set ((off - 0x400) / 8) (BitVec.ofNat 64 (field x 0 8)) } })
  else s

/-! ### The space (R339) -/

def inThermal (a : Nat) : Bool := 0x100000 ≤ a && a < 0x121000
def inDist (a : Nat) : Bool := 0x310000 ≤ a && a < 0x320000
def inPorts (a : Nat) : Bool := 0x400000 ≤ a && a < 0x500000
def inAtt (a : Nat) : Bool := 0x600000 ≤ a && a < 0x601000

/-- The block of a coherence register (R122): its die and offset. -/
def cohAt (a : Nat) : Option (Nat × Nat) :=
  if 0x200000 ≤ a && a < 0x220000 then some ((a - 0x200000) / 0x10000, a % 0x10000) else none

/-- A read of the register at an IO address, with its side effect. The host reads zero where it has no access. -/
def State.regRead (s : State) (who : Master) (a : Nat) : W64 × State :=
  if a % 8 ≠ 0 then (0, s)
  else if inThermal a then (if who = .host then (0, s) else s.thermalRead a)
  else if inDist a then (s.distRead (a - 0x310000), s)
  else if inPorts a then (s.portsRead a, s)
  else if inAtt a then (s.attRead who (a - 0x600000), s)
  else if 0x300000 ≤ a && a < 0x300100 then (s.fqRead (a - 0x300000), s)
  else
    match cohAt a, monitorAt a with
    | some (d, off), _ => (if who = .host then 0 else s.cohRegRead d off, s)
    | none, some (m, off) => ((s.mon m).read off, s)
    | none, none => (0, s)

/-- The arbiter's sequence number for every write to the distributor, ports, thermal and attestation blocks, those a host
may not make included (R349, R350). Assumption 50 (DESIGN CHOICE). -/
def State.logWrite (s : State) (who : Master) (a : Nat) : State :=
  if inDist a || inPorts a || inAtt a || inThermal a then
    s.logEvent (if who = .host then 1 else 2) (a / 8 % 2 ^ 24)
  else s

/-- A write to the register at an IO address (R349): the whole value in one step. A write the host may not make is
ignored. -/
def State.regWrite (s : State) (who : Master) (a : Nat) (x : W64) : State :=
  if a % 8 ≠ 0 then s
  else
    let s := s.logWrite who a
    if inThermal a then (if who = .host then s else s.thermalWrite a x)
    else if inDist a then s.distWrite who (a - 0x310000) x
    else if inPorts a then s.portsWrite who a x
    else if inAtt a then s.attWrite who (a - 0x600000) x
    else if 0x300000 ≤ a && a < 0x300100 then s.fqWrite (a - 0x300000) x
    else
      match cohAt a, monitorAt a with
      | some (d, off), _ => if who = .host then s else s.cohRegWrite true d off x
      | none, some (m, off) => s.modMon m fun y => y.write off x
      | none, none => s

/-! ### Writes with a step of their own. Each is the write of its register by the host or the stage manager. -/

def execRegisterWrite (who : Master) (addr : Nat) (val : W64) (s : State) : Host.Outcome State Fault Refusal :=
  .next (s.regWrite who addr val)

def execLqctlWrite (who : Master) (q : Nat) (val : W64) (s : State) : Host.Outcome State Fault Refusal :=
  .next (if q < 64 then s.regWrite who (0x310100 + 8 * q) val else s)

def execTfreqWrite (who : Master) (tile : Nat) (val : W64) (s : State) : Host.Outcome State Fault Refusal :=
  .next (if tile < 192 then s.regWrite who (0x111000 + 8 * tile) val else s)

def execGcapWrite (who : Master) (tile : Nat) (val : W64) (s : State) : Host.Outcome State Fault Refusal :=
  .next (if tile < 192 then s.regWrite who (0x110800 + 8 * tile) val else s)

def execTimerWrite (val : W64) (s : State) : Host.Outcome State Fault Refusal := .next (s.regWrite .mgmt 0x120100 val)

def execPeerfailDeclare (who : Master) (dev : Nat) (s : State) : Host.Outcome State Fault Refusal :=
  .next (s.regWrite who 0x400008 (BitVec.ofNat 64 (2 ^ 15 + dev % 2 ^ 13)))

def execPeerfailClear (who : Master) (dev : Nat) (s : State) : Host.Outcome State Fault Refusal :=
  .next (s.regWrite who 0x400008 (BitVec.ofNat 64 (dev % 2 ^ 13)))

def execAttcmdStart (who : Master) (s : State) : Host.Outcome State Fault Refusal :=
  .next (s.regWrite who 0x600328 1)

/-- Reads that remove an entry (R313, R350, R390); the value is what the stage manager's read returns. -/
def execEvseqRead (s : State) : Host.Outcome State Fault Refusal :=
  let (x, s) := s.readEvseq
  .next { s with sm := { s.sm with ioRead := x } }

def execEvlogRead (s : State) : Host.Outcome State Fault Refusal :=
  let (x, s) := s.readEvlog
  .next { s with sm := { s.sm with ioRead := x } }

def execStallqRead (s : State) : Host.Outcome State Fault Refusal :=
  let (x, s) := s.readStallq
  .next { s with sm := { s.sm with ioRead := x } }

end Sys2Proof.Machine
end

