-- ==== Sys2Proof/Machine/Access.lean ====
section
/-! DEFINITION. How a memory instruction accesses memory (R60-R78, R148-R157, R164-R167): checks on its record, element
addresses, translation of its lines, the local store, the L1, requests to a home, and what it does once every line has
performed. -/

namespace Sys2Proof.Machine

/-! ### Buffer records (R62, R63) -/

def recField (r : BitVec 256) (lo len : Nat) : Nat := r.toNat / 2 ^ lo % 2 ^ len
def recBase (r : BitVec 256) : Nat := recField r 0 56
def recExt (r : BitVec 256) : Nat := recField r 64 40
def recEsz (r : BitVec 256) : Nat := recField r 104 3
def recSwz (r : BitVec 256) : Nat := recField r 107 2
def recSpc (r : BitVec 256) : Nat := recField r 109 2
def recR (r : BitVec 256) : Bool := r.getLsbD 111
def recW (r : BitVec 256) : Bool := r.getLsbD 112
def recA (r : BitVec 256) : Bool := r.getLsbD 113
def recRt (r : BitVec 256) : Nat := recField r 114 2
def recL2 (r : BitVec 256) : Nat := recField r 116 2
def recAff (r : BitVec 256) : Nat := recField r 118 2
def recStr (r : BitVec 256) : Nat := recField r 128 40

/-- SPC codes. -/
def spcGlobal : Nat := 0
def spcLocal : Nat := 1
def spcDesc : Nat := 2
def spcIo : Nat := 3

/-- The first condition of R63 that fails. Assumption 13 (DEDUCED). -/
def recordFault (inM : Bool) (r : BitVec 256) : Option Nat :=
  let sz := 2 ^ recEsz r
  if 4 < recEsz r then some 0x01
  else if recStr r < sz || recStr r % sz ≠ 0 then some 0x02
  else if recBase r % sz ≠ 0 then some 0x03
  else if recRt r = 3 || recL2 r = 3 then some 0x04
  else if recField r 56 8 ≠ 0 || recField r 120 8 ≠ 0 || recField r 168 88 ≠ 0 then some 0x05
  else if recSpc r = spcDesc && (recEsz r ≠ 1 || recStr r ≠ 2 || recSwz r ≠ 0 || recBase r % 64 ≠ 0) then some 0x06
  else if recSpc r = spcIo && (recEsz r ≠ 3 || recSwz r ≠ 0 || 2 ^ 32 < recBase r + recExt r * recStr r) then some 0x07
  else if recSpc r = spcIo && !inM then some 0x08
  else none

/-- The request type: CH.L1 when nonzero, else DEFRT (R154). Assumption 21 (DEDUCED). -/
def reqType (r : BitVec 256) (l1 : BitVec 2) : ReqType :=
  match (if l1 = 0 then recRt r else l1.toNat - 1) with
  | 0 => .owned | 1 => .through | _ => .uncached

/-- The L2 hint: CH.L2 when nonzero, else DEFL2. -/
def l2Hint (r : BitVec 256) (l2 : BitVec 2) : Nat := if l2 = 0 then recL2 r else l2.toNat

/-- The swizzle of R65: address bits above are folded into bits [6:4]. -/
def swizzle (mode ea : Nat) : Nat :=
  let m := match mode with
    | 1 => 1 | 2 => 3 | 3 => 7 | _ => 0
  ea ^^^ ((ea / 128 &&& m) * 16)

/-- The address of element `x`, of `size` bytes; none where it is out of range (R65, R218). -/
def elemAddr (r : BitVec 256) (grant size x : Nat) : Option Nat :=
  if recExt r ≤ x then none
  else
    let ea := if recSpc r = spcDesc then recBase r + 64 * x else swizzle (recSwz r) (recBase r + x * recStr r)
    let limit := if recSpc r = spcLocal then grant else if recSpc r = spcIo then 2 ^ 32 else 2 ^ 56
    if limit < ea + size then none else some ea

/-! ### Elements and lines -/

/-- An element before its line is known: lane, position, address, width, operand, compare value. -/
structure RawElem where
  lane : Nat
  k : Nat
  addr : Nat
  w : Nat
  val : Nat
  cmp : Nat
  deriving DecidableEq, Repr

/-- The lines some elements touch, in the order in which the lowest lanes reach them (R64). -/
def rawLines (es : List RawElem) : List Nat := (es.map fun e => e.addr / 128).eraseDups

/-- An element within its line. -/
def RawElem.place (lines : List Nat) (e : RawElem) : Elem :=
  ⟨e.lane, e.k, lines.findIdx (· == e.addr / 128), e.addr % 128, e.w, e.val, e.cmp, none⟩

def AccKind.writes : AccKind → Bool
  | .store | .quant | .accst => true
  | _ => false

def AccKind.atomic : AccKind → Bool
  | .atom | .red | .redq => true
  | _ => false

/-- The right a line needs (R64). -/
def AccKind.right (k : AccKind) : Right := if k.reads then .r else if k.writes then .w else .a

def Access.space (a : Access) : Nat := recSpc a.record

/-- Where a line number lies: the local store, or beyond. -/
def Access.isLocal (a : Access) : Bool := a.space == spcLocal

/-! ### Translation (R68, R148, R348) -/

/-- The physical line of one virtual line for a group. -/
def State.lineTarget (s : State) (g : Group) (spc : Nat) (kind : AccKind) (va : Nat) : WalkRes × State :=
  let t := s.team g.team
  if spc = spcLocal then
    (if g.level = .m then .ok (va / 128) false
     else .ok (((t.gmap[va / 4096]?).getD 0 * 4096 + va % 4096) / 128) false, s)
  else
    let (r, s) :=
      if g.level = .m then ((if paOk va then .ok (va / 128) true else .access 0x22 : WalkRes), s)
      else s.translate t.tile (s.ctxOf g) va (g.level == .u) kind.right
    match r with
    | .ok l unc =>
      if spc = spcDesc && isHostLine l then (.access 0x25, s)
      else if kind = .redq && isHostLine l then (.access 0x26, s)
      else (.ok l unc, s)
    | r => (r, s)

/-- Every line in turn. -/
def State.lineTargets (s : State) (g : Group) (spc : Nat) (kind : AccKind) : List Nat → List WalkRes × State
  | [] => ([], s)
  | l :: r =>
    let (x, s) := s.lineTarget g spc kind (l * 128)
    let (xs, s) := s.lineTargets g spc kind r
    (x :: xs, s)

/-- A line of an access from the end of its walk. -/
def lineOf (va : Nat) : WalkRes → LineAcc
  | .ok l unc => ⟨va, l, unc, .todo⟩
  | _ => ⟨va, 0, false, .missing⟩

/-- The first line whose walk ended in `ACCESS` (R64). -/
def firstRefused : List Nat → List WalkRes → Option (Nat × Nat)
  | l :: ls, r :: rs => match r with
    | .access x => some (l * 128, x)
    | _ => firstRefused ls rs
  | _, _ => none

/-! ### Reading and writing the state of an access -/

def State.modAcc (s : State) (k : Nat) (f : Access → Access) : State := { s with accs := s.accs.alter k f }

def State.setStatus (s : State) (k i : Nat) (st : LineStatus) : State :=
  s.modAcc k fun a => { a with
    lines := (List.range a.lines.length).map fun j =>
      let l := (a.lines[j]?).getD ⟨0, 0, false, .todo⟩
      if j = i then { l with status := st } else l }

/-- A line fails: the first failing line in lane order decides (R64, R110). Assumption 19 (DESIGN CHOICE). -/
def State.failLine (s : State) (k i : Nat) (c : Cause) (info : W64) : State :=
  (s.modAcc k fun a =>
    if (a.lines.take i).any (fun l => l.status == .refused) then a else { a with failed := some (c, info) }).setStatus
      k i .refused

/-- The elements of line `i`. -/
def Access.on (a : Access) (i : Nat) : List Elem := a.elems.filter fun e => e.ln == i

/-- The mask of the bytes those elements touch. -/
def Access.maskOn (a : Access) (i : Nat) : LineMask :=
  (a.on i).foldl (fun m e => m ||| runMask e.off e.w) 0

/-- The halves of line `i` that an access touches. -/
def Access.halves (a : Access) (i : Nat) : List Nat := [0, 1].filter fun h => (a.on i).any fun e => e.off / 64 == h

/-- What an element takes from a line (R94, R221): bits, a descriptor, or a block with its descriptor above. -/
def Access.take (a : Access) (data : Nat) (descs : BitVec 32) (e : Elem) : Nat :=
  let d := (descOf descs (e.off / 64)).toNat
  if a.space = spcDesc then d
  else if a.kind = .deq then bytesOf data e.off 64 + d * 2 ^ 512
  else bytesOf data e.off e.w

/-- The elements of line `i` take their values; the line is done. -/
def State.takeLine (s : State) (k i data : Nat) (descs : BitVec 32) : State :=
  (s.modAcc k fun a => { a with
    elems := a.elems.map fun e => if e.ln = i then { e with res := some (a.take data descs e) } else e }).setStatus
      k i .done

/-- Old values in the order of the elements of line `i` (R164). -/
def giveOlds (i : Nat) : List Elem → List Nat → List Elem
  | [], _ => []
  | e :: r, olds =>
    if e.ln = i then { e with res := some (olds.headD 0) } :: giveOlds i r (olds.drop 1) else e :: giveOlds i r olds

/-- What an access writes into line `i`: bytes, their mask, descriptors and which of them (R164, R219, R241). -/
def Access.writeOn (a : Access) (i : Nat) : Nat × LineMask × BitVec 32 × BitVec 2 :=
  (a.on i).foldl (fun (x : Nat × LineMask × BitVec 32 × BitVec 2) e =>
    let h := e.off / 64
    let dw (n : Nat) : BitVec 32 × BitVec 2 := (setDesc x.2.2.1 h (BitVec.ofNat 16 n), x.2.2.2 ||| BitVec.ofNat 2 (2 ^ h))
    if a.space = spcDesc then (x.1, x.2.1, (dw e.val).1, (dw e.val).2)
    else
      let d := setBytes x.1 e.off e.w e.val
      let m := x.2.1 ||| runMask e.off e.w
      match a.kind with
      | .quant => (d, m, (dw (e.val / 2 ^ 512)).1, (dw (e.val / 2 ^ 512)).2)
      | .accst => (d, m, (dw a.info.aux).1, (dw a.info.aux).2)
      | _ => (d, m, x.2.2.1, x.2.2.2)) (0, 0, 0, 0)

/-! ### Local store (R148-R151, R348) -/

/-- A local line with its descriptors; the stage manager's SRAM keeps none. -/
def State.localLine (s : State) (tile l : Nat) : Nat × BitVec 32 :=
  if 192 ≤ tile then (s.sm.sram.readN (l * 128) 128, 0)
  else
    let t := s.tile tile
    (t.store.readN (l * 128) 128,
      BitVec.ofNat 32 ((t.storeDesc.getD (2 * l) 0).toNat + 65536 * (t.storeDesc.getD (2 * l + 1) 0).toNat))

/-- Write masked bytes and selected descriptors of a local line. A whole block written with its descriptor clears an
error there (R319). -/
def State.putLocal (s : State) (tile l data : Nat) (m : LineMask) (descs : BitVec 32) (dw : BitVec 2) : State :=
  if 192 ≤ tile then { s with sm := { s.sm with sram := s.sm.sram.writeMasked (l * 128) 128 data m.toNat } }
  else
    let fix (s : State) (h : Nat) : State :=
      if dw.getLsbD h then
        let d := descOf descs h
        let s := s.modTile tile fun t => { t with
          storeDesc := if d = 0 then t.storeDesc.del (2 * l + h) else t.storeDesc.set (2 * l + h) d }
        if m.toNat / 2 ^ (64 * h) % 2 ^ 64 = 2 ^ 64 - 1 then s.clearBad (.store tile (2 * l + h)) else s
      else s
    fix (fix (s.modTile tile fun t => { t with store := t.store.writeMasked (l * 128) 128 data m.toNat }) 0) 1

/-- A block a copy has reserved (R135). -/
def State.blockBusy (s : State) (tile b : Nat) : Bool := !((s.tile tile).busy.getD b []).isEmpty

/-- The tile of an access's group. Assumption 22 (DEDUCED). -/
def State.accTile (s : State) (a : Access) : Nat := (s.team (s.group a.gid).team).tile

/-- An element of line `i` of a local access lies in a block with an uncorrectable error: its offset (R319). -/
def State.localBad (s : State) (a : Access) (i : Nat) (l : LineAcc) : Option Nat :=
  ((a.halves i).find? fun h => s.isBad (.store (s.accTile a) (2 * l.pa + h))).map fun h => l.va + 64 * h

/-- A line of a local access at the banks (R151): it waits for reserved blocks. Assumption 22 (DEDUCED). -/
def State.tryLocal (s : State) (k i : Nat) (a : Access) (l : LineAcc) : State :=
  let tile := s.accTile a
  if (a.halves i).any fun h => s.blockBusy tile (2 * l.pa + h) then s
  else if a.kind.writes then
    let (d, m, ds, dw) := a.writeOn i
    (s.putLocal tile l.pa d m ds dw).setStatus k i .done
  else
    match s.localBad a i l with
    | some off => s.failLine k i .memErr (memErrInfo a.log.isSome 4 off)
    | none =>
      let (d, ds) := s.localLine tile l.pa
      if a.kind.reads then s.takeLine k i d ds
      else
        let (d, olds) := performElems a.info.op a.info.aty d (a.on i)
        ((s.putLocal tile l.pa d fullMask 0 0).modAcc k fun a => { a with elems := giveOlds i a.elems olds }).setStatus
          k i .done

/-! ### Global lines (R154, R156) -/

/-- Send the request of line `i`. -/
def State.sendFor (s : State) (k i : Nat) (r : Req) : State := (s.send r).2.setStatus k i .sent

/-- The plain request of line `i`, with its evict-first hint (R49). -/
def State.accReq (s : State) (k i ev : Nat) (a : Access) (l : LineAcc) : Req :=
  { s.newReq ev l.pa (s.accTile a) (.acc k i) with launch := s.launchIdOf (s.group a.gid), ef := a.evict }

/-- A store's write-through over some bytes of a line has not been accepted or refused (R154). -/
def State.writing (s : State) (tile line : Nat) (m : LineMask) : Bool :=
  s.flying.any fun r => r.tile == tile && r.line == line && r.ev == evWrite && r.tag.isAcc && r.mask &&& m != 0

/-- The tile has an L1: the stage manager has none (R348). Assumption 22 (DEDUCED). -/
def hasL1 (tile : Nat) : Bool := tile < 192

/-- A load hits: every byte dirty, or the line current; a block with its descriptor needs a current line.
Assumption 21 (DEDUCED). -/
def L1Line.hits (x : L1Line) (t : Tile) (whole : Bool) (m : LineMask) : Bool :=
  x.current t || (!whole && m &&& ~~~ x.dmask == 0)

/-- An error in the bytes a load takes from an L1 line (R319). -/
def State.hitBad (s : State) (tile line : Nat) (m : LineMask) : Bool := s.badMask tile line &&& m != 0

/-- The write-back that an uncached request, or a DESC access, makes first (R154). A line that it frees is freed again when
the access is answered: a fill served before it may have come meanwhile (R165). -/
def State.flushLine (s : State) (tile line : Nat) (free : Bool) : State :=
  if hasL1 tile then
    let s := (s.writeBack tile line).2
    if free then s.freeL1 tile line else s
  else s

/-- A load of a line (R154). -/
def State.loadLine (s : State) (k i : Nat) (a : Access) (l : LineAcc) : State :=
  let tile := s.accTile a
  let ev := if a.rep then evReplica else evRead
  if a.space = spcDesc then s.sendFor k i { s.accReq k i evRead a l with alloc := false }
  else if a.rtype = .uncached || l.unc || !hasL1 tile then
    let s := s.flushLine tile l.pa false
    s.sendFor k i { s.accReq k i ev a l with alloc := false }
  else
    let m := a.maskOn i
    match s.l1 tile l.pa with
    | some x =>
      if !x.hits (s.tile tile) (a.kind == .deq) m then s.sendFor k i (s.accReq k i ev a l)
      else if s.writing tile l.pa m then s
      else if s.hitBad tile l.pa m then s.failLine k i .memErr (memErrInfo a.log.isSome 3 l.va)
      else s.takeLine k i x.data x.descs
    | none => s.sendFor k i (s.accReq k i ev a l)

/-- A store of a line (R154, R156): a write-through takes the line's dirty bytes with it, or replaces them.
Assumption 21 (DEDUCED). -/
def State.storeLine (s : State) (k i : Nat) (a : Access) (l : LineAcc) : State :=
  let tile := s.accTile a
  let (d, m, ds, dw) := a.writeOn i
  let req (s : State) (d : Nat) (dirty : LineMask) (was : Nat) : State :=
    s.sendFor k i { s.accReq k i evWrite a l with
      data := d, mask := m ||| dirty, descs := ds, descW := dw, carry := dirty, was := was }
  if a.space = spcDesc then req (s.flushLine tile l.pa true) d 0 0
  else if !hasL1 tile then req s d 0 0
  else
    match s.l1 tile l.pa with
    | none => req s d 0 0
    | some x =>
      let merged := mergeData x.data d m
      if a.rtype = .owned && !l.unc && x.wok && dw = 0 then
        (s.setL1 tile l.pa { x with data := merged, dmask := x.dmask ||| m }).setStatus k i .done
      else
        let (dirty, s) := s.takeDirty tile l.pa x m
        req s merged dirty x.data

/-- An atomic or reduction on a line (R154, R159). -/
def State.atomLine (s : State) (k i : Nat) (a : Access) (l : LineAcc) : State :=
  let s := s.flushLine (s.accTile a) l.pa true
  s.sendFor k i { s.accReq k i (if a.kind = .atom then evAtomic else evReduce) a l with
    elems := a.on i, op := a.info.op, aty := a.info.aty }

/-- Line `i` of an access performs, or its request goes out. -/
def State.tryLine (s : State) (k i : Nat) : State :=
  match s.accs.get? k with
  | none => s
  | some a =>
    match a.lines[i]? with
    | none => s
    | some l =>
      if l.status ≠ .todo then s
      else if a.isLocal then s.tryLocal k i a l
      else if a.kind.reads then s.loadLine k i a l
      else if a.kind.writes then s.storeLine k i a l
      else s.atomLine k i a l

/-! ### An access that has performed -/

/-- The lanes all of whose elements have performed. -/
def Access.performed (a : Access) : List Nat :=
  ((a.elems.map (·.lane)).eraseDups).filter fun l => a.elems.all fun e => e.lane != l || match a.lines[e.ln]? with
    | some x => x.status == .done
    | none => false

/-- The result of element `k` of a lane. -/
def Access.resOf (a : Access) (lane k : Nat) : Nat :=
  ((a.elems.find? fun e => e.lane == lane && e.k == k).bind (·.res)).getD 0

/-- A load's register value (R161): `info.ty` is TY, `info.n` the elements, `info.esz` the element size. -/
def Access.loadValue (a : Access) (lane : Nat) : W64 :=
  let w := 8 * 2 ^ a.info.esz
  if a.info.n = 1 then
    (if a.info.flag then signExt64 w (a.resOf lane 0) else BitVec.ofNat 64 (a.resOf lane 0))
  else pack w a.info.n fun i => a.resOf lane i

/-- An atomic's result (R162). Assumption 56 (DEDUCED). -/
def Access.atomValue (a : Access) (lane : Nat) : W64 :=
  if a.info.op < 8 && a.info.aty % 2 = 1 then signExt64 (8 * atWidth a.info.op a.info.aty) (a.resOf lane 0)
  else BitVec.ofNat 64 (a.resOf lane 0)

/-- Register `j` of a `DEQ` in a lane (R221): `info.ty` is FT, `info.aty` WC, `info.op` RM, `info.flag` SAT. -/
def Access.deqValue (a : Access) (lane j : Nat) : W64 :=
  let ft := BitVec.ofNat 2 a.info.ty
  let f := ftFmt ft
  let blk := a.resOf lane 0
  let d : Desc := BitVec.ofNat 16 (blk / 2 ^ 512)
  pack (ftWidth ft) (ftCount ft) fun i =>
    match eltOf d with
    | some e =>
      if widthClass d = a.info.aty then
        f.encode (Rm.ofBits a.info.op) a.info.flag (e.scaled d (blk % 2 ^ 512) (ftCount ft * j + i))
      else f.nan
    | none => f.nan

/-- A register of the access's group, written in some lanes. -/
def State.putV (s : State) (gid n : Nat) (lanes : List Nat) (f : Nat → W64) : State :=
  (s.modGroup gid fun g => g.writeV n lanes f).freshReg gid (.v (BitVec.ofNat 8 n)) lanes

/-- An `ACCLD` fills its tile (R240): `info.ty` the type, `info.flag` `.side`, `info.aux` the physical tile. -/
def Access.fillTile (a : Access) (x : AccTile) : AccTile :=
  let got (i j : Nat) : Option W32 := (a.elems.find? fun e => e.lane == i && e.k == j).bind fun e =>
    e.res.map fun r =>
      if a.info.ty = 2 then BitVec.ofNat 32 (fp32.encode .near false (bf16.decode r))
      else if a.info.ty = 3 then BitVec.ofNat 32 (fp32.encode .near false (fp16.decode r))
      else BitVec.ofNat 32 r
  if a.info.flag then
    AccTile.make x.get (fun i => (got i 0).getD (x.rowMax i)) fun i => (got i 1).getD (x.rowSum i)
  else AccTile.make (fun i j => (got i j).getD (x.get i j)) x.rowMax x.rowSum

/-- What the destination takes when an access has performed. A load that meets an error writes nothing (R319). -/
def State.giveResult (s : State) (a : Access) : State :=
  let lanes := a.performed
  let memErr : Bool := match a.failed with
    | some (c, _) => c == .memErr
    | none => false
  match a.kind, a.info.dest with
  | .load, .v n =>
    if memErr then s
    else if a.info.esz = 4 then
      (s.putV a.gid n.toNat lanes fun l => BitVec.ofNat 64 (a.resOf l 0)).putV a.gid (n.toNat + 1) lanes fun l =>
        BitVec.ofNat 64 (a.resOf l 0 / 2 ^ 64)
    else s.putV a.gid n.toNat lanes a.loadValue
  | .deq, .v n =>
    if memErr then s
    else (List.range a.info.n).foldl (fun s j => s.putV a.gid (n.toNat + j) lanes fun l => a.deqValue l j) s
  | .atom, .v n => s.putV a.gid n.toNat lanes a.atomValue
  | .accld, .a _ =>
    if memErr then s
    else
      let s := s.putAcc a.gid a.info.aux (a.fillTile (s.accAt a.gid a.info.aux))
      if !a.info.flag && a.elems.length == 1024 && a.failed.isNone then s.clearBad (s.accPlace a.gid a.info.aux) else s
  | _, _ => s

/-- The access is no longer outstanding: what waited for it need wait no more. -/
def State.dropAcc (s : State) (k : Nat) : State :=
  { s with accs := (s.accs.del k).map fun p => (p.1, { p.2 with gate := p.2.gate.filter (· != k) }) }

/-- An access has performed (R157, R167, R110): results, the acquire's effect, unless every line was refused, a trap for a
failure, and its rejoin if the log entry held one back (R77). The last of a team whose groups have ended lets the team end (R12).
Assumption 79 (DESIGN CHOICE). -/
def State.finish (s : State) (k : Nat) : State :=
  match s.accs.get? k with
  | none => s
  | some a =>
    let tile := s.accTile a
    let before := s
    let s := s.dropAcc k
    if (s.group a.gid).ended then s.teamEnd (s.group a.gid).team
    else
      let s := s.giveResult a
      let s := if a.kind.reads && hasL1 tile then s.monLatency (tileMon tile) 0 else s
      let s := match a.acq with
        | some sc => if a.failed.isNone || a.lines.any (·.status == .done) then s.acquireAt tile sc else s
        | none => s
      let s := match a.failed with
        | some (c, info) => s.addPend a.gid ⟨c, a.pc, info, lowSlice a.slices, a.level == .s, k⟩
        | none => s
      before.readied (if a.log.isSome then s.examine a.gid else s) a.gid

/-- A `QUANT` with a running maximum retires in a step of its own (R220). -/
def Access.retires (a : Access) : Bool := a.kind == .quant && a.info.dest != .zero

/-- A release at cluster scope or wider (R166). -/
def Access.flushes (a : Access) : Bool := match a.rel with
  | some sc => 2 ≤ sc
  | none => false

/-- The operand-log entries in use on a sub-core (R76). Assumption 57 (DESIGN CHOICE). -/
def State.logUsed (s : State) (tile q : Nat) : List Nat :=
  (s.accs.filter fun p => s.accTile p.2 == tile && (s.group p.2.gid).q == q).filterMap fun p => p.2.log

/-- Fault-queue kind of a line not present (R75). -/
def missKind (kind : AccKind) (spc : Nat) : Nat :=
  if spc = spcDesc then (if kind.reads then 3 else 4)
  else if kind.reads then 0 else if kind.writes then 1 else 2

/-- Post one entry for each line not present (R76). -/
def State.postMissing (s : State) (a : Access) : State :=
  let g := s.group a.gid
  (a.lines.filter fun l => l.status == .missing).foldl (fun s l =>
    s.fqPost (missKind a.kind a.space) l.va (s.ctxOf g) (s.accTile a) g.q (a.log.getD 0) (recAff a.record)) s

/-- An access with a line not present takes an entry of the operand log once one is free: one translated again after its
issue may have to wait for it (R76). Assumption 42 (DESIGN CHOICE). -/
def State.enterLog (s : State) (k : Nat) : State :=
  match s.accs.get? k with
  | none => s
  | some a =>
    if a.log.isSome || !(a.lines.any fun l => l.status == .missing) then s
    else
      let used := s.logUsed (s.accTile a) (s.group a.gid).q
      match (List.range 8).find? fun n => !used.contains n with
      | none => s
      | some n => (s.modAcc k fun a => { a with log := some n }).postMissing { a with log := some n }

/-- A copy that issued before an access has still to be taken up again after the restore of their cluster: the access comes
after what it reserves then (R147). -/
def State.copyRests (s : State) (k : Nat) (a : Access) : Bool :=
  let cl := (s.team (s.group a.gid).team).cluster
  (s.cluster cl).state == .resident && s.copies.any fun c => c.1 < k && c.2.stopped && (s.team c.2.team).cluster == cl

/-- Make what an access can make now (R165, R166): once the accesses it waits for have performed, and the write-backs
of a release been accepted, its lines go ahead; with all of them done at once it has performed. -/
def State.tryAcc (s : State) (k : Nat) : State :=
  match s.accs.get? k with
  | none => s
  | some a =>
    if s.accTile a = awayTile || s.copyRests k a then s
    else if a.lines.any fun l => l.status == .missing then s.enterLog k
    else if s.accHeld a || !a.gate.isEmpty || !(a.lines.any fun l => l.status == .todo) then s
    else
      let s := if a.flushes && !a.ready && hasL1 (s.accTile a) then
          let (wbs, s) := s.writeBackAll (s.accTile a)
          s.modAcc k fun a => { a with wbs := wbs, ready := true }
        else s
      if ((s.accs.get? k).map (·.wbs)).any fun w => w.any s.inFlight then s
      else
        let s := (List.range a.lines.length).foldl (fun s i => s.tryLine k i) s
        match s.accs.get? k with
        | some a => if a.finished && !a.retires then s.finish k else s
        | none => s

/-- A try would get an access further. Assumption 38 (DESIGN CHOICE). -/
def State.nowTries (s : State) (k : Nat) (a : Access) : Bool := (s.tryAcc k).accs.get? k != some a

/-- Every access that waits tries again, in issue order. -/
def State.kick (s : State) : State := (s.accs.map (·.1)).foldl (fun s k => s.tryAcc k) s

/-- An access has performed, and others may go on. -/
def State.finishAcc (s : State) (k : Nat) : State := (s.finish k).kick

/-! ### Issue -/

/-- Two accesses touch a common line (R77, R165). Assumption 57 (DESIGN CHOICE). -/
def Access.meets (a b : Access) : Bool :=
  a.isLocal == b.isLocal && a.lines.any fun x => b.lines.any fun y =>
    x.va == y.va || (x.status != .missing && y.status != .missing && x.pa == y.pa)

/-- The accesses a new one waits for: the group's own on a common line, an acquire of its slices, and for a release
every earlier access of its slices, those issued before the last rejoin among them (R77, R165-R167, R253).
Assumption 57 (DESIGN CHOICE). -/
def State.gateOf (s : State) (a : Access) : List Nat :=
  (s.accs.filter fun p => p.2.gid == a.gid &&
    (p.2.meets a || (p.2.order &&& a.slices != 0 && (p.2.acq.isSome || a.rel.isSome)))).map (·.1)

/-- An acquire of the issuing slices is outstanding: nothing they issue later reads before it is done (R167). -/
def State.acquiring (s : State) (gid : Nat) (slices : BitVec 8) : Bool :=
  s.accs.any fun p => p.2.gid == gid && p.2.order &&& slices != 0 && p.2.acq.isSome

/-- A local access of some slices that issued before a number has not performed, or an acquire: what an engine reads of local
store for an instruction issued there waits for it (R136, R236, R254). -/
def State.localPending (s : State) (gid : Nat) (slices : BitVec 8) (n : Nat) : Bool :=
  s.accs.any fun p => p.1 < n && p.2.gid == gid && p.2.order &&& slices != 0 && (p.2.isLocal || p.2.acq.isSome)

/-- An error that a load would consume at issue (R319). Assumption 19 (DESIGN CHOICE). -/
def State.issueError (s : State) (a : Access) : Option W64 :=
  if !a.kind.reads || !a.gate.isEmpty || a.lines.any (fun l => l.status == .missing) then none
  else (List.range a.lines.length).findSome? fun i =>
    match a.lines[i]? with
    | none => none
    | some l =>
      if a.isLocal then (s.localBad a i l).map (memErrInfo false 4)
      else if a.space = spcDesc || a.rtype = .uncached || l.unc then none
      else match s.l1 (s.accTile a) l.pa with
        | some x =>
          if x.hits (s.tile (s.accTile a)) (a.kind == .deq) (a.maskOn i) && s.hitBad (s.accTile a) l.pa (a.maskOn i) then
            some (memErrInfo false 3 l.va)
          else none
        | none => none

/-- Issue an access (R65-R68, R76): `a` with everything but its lines, `raw` its elements in range, `out` the lanes out of
range. One whose failure is found after its issue keeps the LFM bits of its lanes out of range (R66).
Assumption 70 (DESIGN CHOICE). -/
def State.startAccess (s : State) (a : Access) (raw : List RawElem) (out : List Nat) : Res :=
  let g := s.curG
  let tile := s.curTile
  let mark (s : State) : State := s.modCur fun g => { g with lfm := out.foldl (fun m l => m ||| BitVec.ofNat 32 (2 ^ l)) g.lfm }
  let lines := rawLines raw
  let used := s.logUsed tile g.q
  if raw.isEmpty && !a.retires then .done (mark s)
  else if g.level ≠ .m && a.space ≠ spcLocal && 8 ≤ used.length then .hold s
  else
    let (ends, s1) := s.lineTargets g a.space a.kind lines
    match firstRefused lines ends with
    | some (va, r) => .trap .access (accessInfo false r va) s1
    | none =>
      let ls := (lines.zip ends).map fun p => lineOf (p.1 * 128) p.2
      let miss := ls.any fun l => l.status == .missing
      let a := { a with
        elems := raw.map (RawElem.place lines)
        lines := ls
        log := if miss then (List.range 8).find? fun n => !used.contains n else none }
      let a := { a with gate := s1.gateOf a }
      match s1.issueError a with
      | some info => .trap .memErr info s1
      | none =>
        let (k, s2) := (mark s1).fresh
        let s2 := { s2 with accs := s2.accs.set k a }
        .done ((s2.postMissing a).tryAcc k)

/-! ### Replies -/

/-- The source of an uncorrectable error in the bytes of a reply that an access takes, with the tile's dirty bytes over it
(R319). -/
def Access.replyErr (a : Access) (i : Nat) (dirty : LineMask) (errs : Nat × Nat) : Option Nat :=
  (a.halves i).findSome? fun h =>
    let err := if h = 0 then errs.1 else errs.2
    if err ≠ 0 && (a.space == spcDesc || a.maskOn i &&& ~~~ dirty &&& runMask (64 * h) 64 != 0) then some err else none

/-- TINFO of `PROT` (R110). -/
def protInfo (ev slot va : Nat) : W64 :=
  BitVec.ofNat 64 (ev % 16 * 2 ^ 60 + slot % 8 * 2 ^ 57 + va / 128 * 128 % 2 ^ 56)

/-- A `TSTORE` of a tile has reserved a line (R135). -/
def State.reservedLine (s : State) (tile line : Nat) : Bool :=
  s.copies.any fun p => p.2.kind == .store && (s.team p.2.team).tile == tile
    && p.2.phys.any fun q => q.2 == line && (p.2.asked.contains q.1 || p.2.owned.contains q.1)

/-- A block of a present line takes what a DESC load has read: the descriptor, and its data with it (R154, R96). -/
def State.refreshBlock (s : State) (r : Req) (data : Nat) (descs : BitVec 32) (errs : Nat × Nat) (h : Nat) : State :=
  match s.l1 r.tile r.line with
  | none => s
  | some x =>
    let (d, own) := s.underOwn r.tile r.line data
    let others := ~~~ runMask (64 * h) 64
    (s.fillBad r.tile r.line (own ||| others) (if h = 0 then (errs.1, 0) else (0, errs.2))).setL1 r.tile r.line { x with
      data := mergeData d x.data others
      descs := setDesc x.descs h (descOf descs h) }

/-- What the L1 keeps of a reply with data (R154): a fill, or a refreshed line; of a replica's copy nothing (R106).
`desc` are the blocks of a DESC load, which refreshes them. Of a line that a `TSTORE` of the tile has reserved nothing is
kept (R135). Assumption 28 (DESIGN CHOICE). Assumption 76 (DEDUCED). -/
def State.keepReply (s : State) (r : Req) (right data : Nat) (descs : BitVec 32) (wok : Bool) (errs : Nat × Nat)
    (desc : List Nat) : State :=
  if !hasL1 r.tile || right = fromReplica || s.reservedLine r.tile r.line then s
  else if r.alloc then s.fillL1 r.tile r.line r data descs wok errs
  else if (s.l1 r.tile r.line).isNone then s
  else if !desc.isEmpty then desc.foldl (fun s h => s.refreshBlock r data descs errs h) s
  else s.fillL1 r.tile r.line r data descs (((s.l1 r.tile r.line).map (·.wok)).getD false) errs

/-- A store's write-through is accepted (R154, R156): its bytes go into the L1 line if it is present, bytes dirtied
since apart; an owned store allocates it and sets WOK. A host line keeps no descriptor (R95), and a block written whole
with its descriptor no error (R319). Assumption 20 (DEDUCED). -/
def State.acceptStore (s : State) (r : Req) (owned : Bool) : State :=
  let put (s : State) : State := s.modL1 r.tile r.line fun x => { x with
    data := mergeData x.data r.data (r.mask &&& ~~~ x.dmask)
    descs := keepDescs r.line x.descs r.descs r.descW
    wok := x.wok || owned
    ef := x.ef || r.ef }
  let fix (s : State) (h : Nat) : State :=
    if wholeBlock r.mask r.descW h then s.clearBad (.l1 r.tile r.line h) else s
  match s.l1 r.tile r.line with
  | some _ => put (fix (fix s 0) 1)
  | none =>
    if owned then
      let s := s.makeRoom r.tile r.line
      put (((s.clearBad (.l1 r.tile r.line 0)).clearBad (.l1 r.tile r.line 1)).setL1 r.tile r.line L1Line.fresh)
    else s

/-- The answer to the request of line `i` of access `k`. What it takes of a reply lies under the tile's own newer bytes (R154).
A refused store leaves the line as it was. Assumption 79 (DESIGN CHOICE). -/
def State.accReply (s : State) (k i : Nat) (r : Req) (ans : Answer) : State :=
  match s.accs.get? k with
  | none => s
  | some a =>
    match a.lines[i]? with
    | none => s
    | some l =>
      match ans with
      | .data right data descs wok errs =>
        let (x, dirty) := if r.alloc then s.underOwn r.tile r.line data else (data, 0)
        let own := dirty &&& a.maskOn i &&& s.badMask r.tile r.line != 0
        let s := s.keepReply r right data descs wok errs (if a.space = spcDesc then a.halves i else [])
        match a.replyErr i dirty errs with
        | some src => s.failLine k i .memErr (memErrInfo a.log.isSome src l.va)
        | none =>
          if own then s.failLine k i .memErr (memErrInfo a.log.isSome 3 l.va) else s.takeLine k i x descs
      | .result olds =>
        ((s.flushLine r.tile r.line true).modAcc k fun a => { a with elems := giveOlds i a.elems olds }).setStatus k i .done
      | .ack =>
        let cached := a.kind.writes && a.space == spcGlobal && a.rtype != .uncached && !l.unc
        let s := if !hasL1 r.tile then s
          else if cached then s.acceptStore r (a.rtype == .owned) else s.flushLine r.tile r.line true
        s.setStatus k i .done
      | .nack ev slot => s.failLine k i .prot (protInfo ev slot l.va)
      | .fail reason =>
        if 256 ≤ reason then s.failLine k i .memErr (memErrInfo a.log.isSome (reason - 256) l.va)
        else s.failLine k i .access (accessInfo a.log.isSome reason l.va)

/-- After a reply: what writes no register has performed once its last line has; the rest waits for its data to reach
the group (R32). What waited on the line tries again. -/
def State.afterReply (s : State) (k : Nat) : State :=
  match s.accs.get? k with
  | some a =>
    if a.finished && !a.retires && (a.kind.writes || (a.kind.atomic && a.info.dest == .zero)) then s.finishAcc k
    else s.kick
  | none => s.kick

/-! ### The operand log (R78) -/

/-- Retry a logged access: every line is translated again; it performs, or stays logged, or fails. -/
def State.retryAcc (s : State) (k : Nat) : State :=
  match s.accs.get? k with
  | none => s
  | some a =>
    if !(a.lines.any fun l => l.status == .missing) then s
    else
      let g := { s.group a.gid with level := a.level }
      let lines := a.lines.map fun l => l.va / 128
      let (ends, s) := s.lineTargets g a.space a.kind lines
      match firstRefused lines ends with
      | some (va, r) =>
        (s.modAcc k fun a => { a with failed := some (.access, accessInfo true r va), elems := [] }).finishAcc k
      | none =>
        let a := { a with lines := (lines.zip ends).map fun p => lineOf (p.1 * 128) p.2 }
        let s := s.modAcc k fun _ => a
        (if a.log.isSome then s.postMissing a else s).tryAcc k

/-- End a logged access: its first line not present, or, where all are, its first that waits (R78). -/
def State.abortAcc (s : State) (k : Nat) : State :=
  match s.accs.get? k with
  | none => s
  | some a =>
    let firstIn (st : LineStatus) : Option LineAcc := a.lines.find? fun l => l.status == st
    match if a.log.isNone then none else (firstIn .missing).or (firstIn .todo) with
    | none => s
    | some l => (s.modAcc k fun a => { a with
        failed := some (.access, accessInfo true 0x30 l.va)
        elems := [] }).finish k

end Sys2Proof.Machine
end

