-- ==== Sys2Proof/Machine/CopyEngine.lean ====
section
/-! DEFINITION. The stagehand (R126-R147): tensor maps, where a box element lies, reservations, the walk, its messages,
its end, checkpoints, and its answer to a recall. -/

namespace Sys2Proof.Machine

/-! ### Tensor maps (R126, R127) -/

def mapField (m lo len : Nat) : Nat := m / 2 ^ lo % 2 ^ len
def mapBase (m : Nat) : Nat := mapField m 0 56
def mapNdim (m : Nat) : Nat := mapField m 64 3
def mapEsz (m : Nat) : Nat := mapField m 72 3
def mapFill (m : Nat) : Nat := mapField m 80 2
def mapMcast (m : Nat) : Nat := mapField m 96 12
def mapSwz (m : Nat) : Nat := mapField m 112 2
def mapRop (m : Nat) : Nat := mapField m 120 8
def mapFillFmt (m : Nat) : Nat := mapField m 128 8
def mapFillScale (m : Nat) : Nat := mapField m 136 8
def mapBtva (m : Nat) : Nat := mapField m 192 56
def mapBtblk (m : Nat) : Nat := mapField m 256 32
def mapBtcnt (m : Nat) : Nat := mapField m 288 32
def mapBten (m : Nat) : Bool := mapField m 320 1 == 1
def mapBtdim (m : Nat) : Nat := mapField m 321 3
def mapDim (m d lo len : Nat) : Nat := mapField m (512 + 256 * d + lo) len
def mapExt (m d : Nat) : Nat := mapDim m d 0 32
def mapBox (m d : Nat) : Nat := if d < mapNdim m then mapDim m d 32 9 else 1
def mapCirc (m d : Nat) : Bool := mapDim m d 56 1 == 1
def mapStr (m d : Nat) : Int := asSigned 64 (mapDim m d 64 64)

/-- Format bytes listed in R93. -/
def fmtByteListed (x : Nat) : Bool := [0x00, 0x10, 0x11, 0x20, 0x21, 0x22, 0x23, 0x30, 0x31].contains x

/-- A dimension record below NDIM is well formed. -/
def mapDimOk (m d : Nat) : Bool :=
  1 ≤ mapExt m d && 1 ≤ mapBox m d && mapBox m d ≤ 256
    && mapStr m d % (2 ^ mapEsz m : Nat) == 0 && -(2 ^ 47) ≤ mapStr m d && mapStr m d < 2 ^ 47
    && mapDim m d 41 15 == 0 && mapDim m d 57 7 == 0 && mapDim m d 128 128 == 0

/-- A map is well formed (R127). -/
def mapOk (m : Nat) (isTred : Bool) : Bool :=
  mapField m 88 8 == 1 && 1 ≤ mapNdim m && mapNdim m ≤ 5 && mapEsz m ≤ 4 && mapFill m ≤ 2 && fmtByteListed (mapFillFmt m)
    && [(56, 8), (67, 5), (75, 5), (82, 6), (108, 4), (114, 6), (144, 48), (248, 8), (324, 188), (1792, 256)].all
      (fun p => mapField m p.1 p.2 == 0)
    && (List.range 5).all (fun d => if d < mapNdim m then mapDimOk m d else mapDim m d 0 256 == 0)
    && mapBase m % 2 ^ mapEsz m == 0
    && (!mapBten m || (mapBtdim m < mapNdim m && 1 ≤ mapBtblk m && mapBtva m % 8 == 0))
    && (!isTred || ropOk (mapRop m) (mapEsz m))

/-- Elements of the box. -/
def mapTotal (m : Nat) : Nat := (List.range 5).foldl (fun n d => n * mapBox m d) 1

/-- The offset of element `e` in dimension `d` (R128). -/
def mapOffset (m e d : Nat) : Nat := e / (List.range d).foldl (fun n i => n * mapBox m i) 1 % mapBox m d

/-! ### Where an element lies (R128) -/

/-- What becomes of an element: a line is still needed, out of bounds, a failure, or a global address. -/
inductive Locus where
  | needs (line : Nat)
  | oob
  | fails (cause reason : Nat)
  | at (addr : Nat)
  deriving DecidableEq, Repr

/-- The coordinate of a dimension: none out of bounds; clamped where edge fill applies. -/
def Copy.coord (c : Copy) (e d : Nat) : Option Int :=
  let x := (c.coords[d]?).getD 0 + (mapOffset c.map e d : Int)
  let n : Int := mapExt c.map d
  if mapCirc c.map d then some (x % n)
  else if 0 ≤ x && x < n then some x
  else if mapFill c.map = 2 && c.kind = .load then some (if x < 0 then 0 else n - 1)
  else none

/-- The address of coordinates from a base, or a failure with reason 0x18. -/
def Copy.addrOf (c : Copy) (base : Nat) (xs : List Int) : Locus :=
  let g : Int := base + ((List.range xs.length).map fun d => (xs[d]?).getD 0 * mapStr c.map d).sum
  if g < 0 || 2 ^ 56 < g + (2 ^ mapEsz c.map : Nat) then .fails 0x0C 0x18 else .at g.toNat

/-- A refusal code as a failure. -/
def failOf (x : Nat) : Locus := .fails (x / 256) (x % 256)

/-- Element `e` of a copy (R128). -/
def Copy.locate (c : Copy) (e : Nat) : Locus :=
  let m := c.map
  let xs := (List.range (mapNdim m)).map fun d => c.coord e d
  if xs.any Option.isNone then .oob
  else
    let xs := xs.map fun x => x.getD 0
    if !mapBten m then c.addrOf (mapBase m) xs
    else
      let o := mapBtdim m
      let x := ((xs[o]?).getD 0).toNat
      let blk := x / mapBtblk m
      if mapBtcnt m ≤ blk then .oob
      else
        let va := mapBtva m + 8 * blk
        match c.refused.get? (va / 64), c.srcs.get? (va / 128) with
        | some r, _ => failOf r
        | none, none => .needs (va / 128)
        | none, some (data, _) =>
          let ent := bytesOf data (va % 128) 8
          if ent = 2 ^ 64 - 1 then .oob
          else if 2 ^ 56 ≤ ent then .fails 0x0C 0x17
          else c.addrOf ent (setAt xs o ((x % mapBtblk m : Nat) : Int))

/-- The lines an element at an address touches. -/
def Copy.linesAt (c : Copy) (g : Nat) : List Nat :=
  let b := (g + 2 ^ mapEsz c.map - 1) / 128
  if g / 128 = b then [b] else [g / 128, b]

/-- The 64-byte blocks an element at an address touches. -/
def Copy.blocksAt (c : Copy) (g : Nat) : List Nat :=
  let b := (g + 2 ^ mapEsz c.map - 1) / 64
  if g / 64 = b then [b] else [g / 64, b]

/-- Element `e` with the lines it touches taken into account: source lines for `TCOPY`, destination lines else (R136). -/
def Copy.fate (c : Copy) (e : Nat) : Locus :=
  match c.locate e with
  | .at g =>
    match (c.blocksAt g).findSome? fun b => c.refused.get? b with
    | some r => failOf r
    | none =>
      let here (l : Nat) : Bool := match c.kind with
        | .load => (c.srcs.get? l).isSome
        | .store => c.owned.contains l
        | .red => (c.phys.get? l).isSome
      match (c.linesAt g).find? fun l => !here l with
      | some l => .needs l
      | none => .at g
  | x => x

/-- The block-table line that an element needs. -/
def Copy.tableLine (c : Copy) (e : Nat) : Option Nat :=
  match ({ c with srcs := [], refused := [] } : Copy).locate e with
  | .needs l => some l
  | _ => none

/-! ### The local side -/

/-- Bytes of an element. -/
def Copy.sz (c : Copy) : Nat := 2 ^ mapEsz c.map

/-- The team-relative offset of element `e` (R128): as a thread reaches it through the record. -/
def Copy.localOff (c : Copy) (e : Nat) : Nat := swizzle (mapSwz c.map) (recBase c.record + e * c.sz)

/-- The physical local address of a team's offset (R148). -/
def State.plaOf (s : State) (tid off : Nat) : Nat := (((s.team tid).gmap[off / 4096]?).getD 0) * 4096 + off % 4096

/-- The elements of the 64-byte beat that starts at element `e`. Assumption 32 (DESIGN CHOICE). -/
def Copy.beat (c : Copy) (e : Nat) : List Nat :=
  (List.range (64 / c.sz)).filterMap fun i => if e + i < mapTotal c.map then some (e + i) else none

/-- The first elements of the beats of a box. -/
def Copy.beats (c : Copy) : List Nat :=
  (List.range (mapTotal c.map)).filter fun e => e % (64 / c.sz) == 0

/-- The local block of a beat on a team's tile. -/
def State.beatBlock (s : State) (c : Copy) (tid e : Nat) : Nat := s.plaOf tid (c.localOff e) / 64

/-! ### State of copies, failures -/

/-- The first failure of a copy, in its token on the issuing tile and on every tile it writes (R140).
Assumption 35 (DESIGN CHOICE). -/
def State.failElem (s : State) (cid e cause reason : Nat) : State :=
  match s.copies.get? cid with
  | none => s
  | some c =>
    if c.fail.isSome then s
    else
      let s := s.modCopy cid fun c => { c with fail := some (cause, reason, e) }
      ((c.team :: c.tiles).eraseDups).foldl (fun s t => s.modToken t c.tok fun k => k.fail cause reason e) s

/-- Reserve the local blocks of a copy on a team's tile (R135): from beat `c.next` on. A team that has ended has none any
more (R143, R150). Assumption 35 (DESIGN CHOICE). -/
def State.reserveOn (s : State) (cid : Nat) (c : Copy) (tid : Nat) : State :=
  let tile := (s.team tid).tile
  if (s.team tid).ended then s
  else (c.beats.filter fun e => c.next ≤ e).foldl (fun s e =>
    let b := s.beatBlock c tid e
    s.modTile tile fun t => { t with busy := t.busy.set b (t.busy.getD b [] ++ [cid]) }) s

/-- A copy reserves for itself (R135). -/
def State.reserve (s : State) (cid tid : Nat) : State :=
  match s.copies.get? cid with
  | none => s
  | some c => (s.reserveOn cid c tid).modCopy cid fun c => { c with reserved := tid :: c.reserved }

/-! ### Requests of a walk -/

/-- The right a line needs: sources and block-table lines R, destinations W or A (R136). -/
def Copy.right (c : Copy) (dst : Bool) : Right :=
  if !dst then .r else if c.kind = .store then .w else .a

/-- A block of the walk refused: its elements fail (R136). -/
def Copy.refuse (c : Copy) (b cause reason : Nat) : Copy := { c with refused := c.refused.set b (cause * 256 + reason) }

/-- A line of the walk refused: its elements fail (R136). -/
def State.refuseLine (s : State) (cid l cause reason : Nat) : State :=
  s.modCopy cid fun c => { (c.refuse (2 * l) cause reason).refuse (2 * l + 1) cause reason with
    asked := c.asked.filter (· != l) }

/-- Translate a line for a walk; `dst` tells a destination. A line not present pauses the walk with an entry, or fails
after an abort (R137). The physical line where there is one. -/
def State.walkLine (s : State) (cid l : Nat) (dst : Bool) : Option Nat × State :=
  match s.copies.get? cid with
  | none => (none, s)
  | some c =>
    let tile := s.copyTile c
    match s.translate tile c.ctx (l * 128) (c.level == .u) (c.right dst) with
    | (.missing, s) =>
      if c.abort then (none, s.refuseLine cid l 0x0C 0x30)
      else
        let kind := if !dst then 0 else if c.kind = .store then 1 else 2
        (none, (s.fqPost kind (l * 128) c.ctx tile 0xFF 0xFF 0).modCopy cid fun c => { c with paused := some l })
    | (.access r, s) => (none, s.refuseLine cid l 0x0C r)
    | (.ok p _, s) =>
      if dst && c.kind = .red && mapRop c.map = 7 && isHostLine p then (none, s.refuseLine cid l 0x0C 0x26)
      else (some p, s)

/-- Ask for a source or block-table line: a replica-read event (R136). Assumption 34 (DESIGN CHOICE). -/
def State.askSource (s : State) (cid l : Nat) : State :=
  match s.copies.get? cid with
  | none => s
  | some c =>
    if c.asked.contains l then s
    else
      match s.walkLine cid l false with
      | (some p, s) =>
        let s := s.modCopy cid fun c => { c with asked := l :: c.asked }
        (s.send { s.newReq evReplica p (s.copyTile c) (.copy cid l) with alloc := false }).2
      | (none, s) => s

/-- Take a destination line (R135): the tile's dirty bytes go home, its L1 copy is freed, engine-own is presented. -/
def State.askOwn (s : State) (cid l : Nat) : State :=
  match s.copies.get? cid with
  | none => s
  | some c =>
    if c.asked.contains l || c.owned.contains l || (c.refused.get? (2 * l)).isSome then s
    else
      match s.walkLine cid l true with
      | (some p, s) =>
        let tile := s.copyTile c
        let s := (s.modCopy cid fun c => { c with asked := l :: c.asked, phys := c.phys.set l p }).flushLine tile p true
        (s.send { s.newReq evEngineOwn p tile (.copy cid l) with holder := some (stagehandId tile) }).2
      | (none, s) => s

/-- Give a destination line back with what has been walked of it, or clean (R108). -/
def State.giveBack (s : State) (cid l : Nat) : State :=
  match s.copies.get? cid with
  | none => s
  | some c =>
    let tile := s.copyTile c
    let x := c.img l
    let ev := if x.mask = 0 then evEvictClean else evEvictDirty
    let (k, s) := s.send { s.newReq ev (c.phys.getD l 0) tile (.copy cid l) with
      holder := some (stagehandId tile), data := x.data, mask := x.mask, descs := x.descs, descW := x.descW }
    s.modCopy cid fun c => { c with
      owned := c.owned.filter (· != l), outs := k :: c.outs, imgs := c.imgs.set l x.sent }

/-! ### Issue -/

/-- A line's newest copy is with the host or a peer, or it is reserved or in a transient state: a read cannot have it now. -/
def State.mustAsk (s : State) (l : Nat) : Bool :=
  let d := s.dirOf l
  !isPeerLine l && (d.engine.isSome || (s.scriptOf l).cls d.state == 3 || s.away l)

/-- Reserve a destination line at issue; one that is not present is left to the walk (R137).
Assumption 33 (DESIGN CHOICE). -/
def State.reserveLine (s : State) (cid l : Nat) : State :=
  match s.copies.get? cid with
  | none => s
  | some c =>
    match s.translate (s.copyTile c) c.ctx (l * 128) (c.level == .u) .w with
    | (.missing, s) => s
    | (_, s) => s.askOwn cid l

/-- Reserve the destination line of an element of a `TSTORE`, as its block table was read. Assumption 33 (DESIGN CHOICE). -/
def State.reserveElem (s : State) (cid e : Nat) : State :=
  match s.copies.get? cid with
  | none => s
  | some c =>
    match c.locate e with
    | .at g => (c.linesAt g).foldl (fun s l => s.reserveLine cid l) s
    | _ => s

/-- What has been walked of a line that is refused now is lost: its lowest element fails (R136, R140). -/
def State.loseRefused (s : State) (cid l : Nat) : State :=
  match s.copies.get? cid with
  | none => s
  | some c =>
    match c.refused.get? (2 * l) with
    | none => s
    | some x =>
      if (c.img l).mask = 0 then s
      else
        let on (e : Nat) : Bool := match c.locate e with
          | .at g => (c.linesAt g).contains l
          | _ => false
        (s.failElem cid (((List.range c.next).find? on).getD c.next) (x / 256) (x % 256)).modCopy cid fun c => { c with
          imgs := c.imgs.del l }

/-- Reserve the destination lines of a `TSTORE` (R135), with those it has walked and not written. The walk reads the block
table again (R128). -/
def State.reserveLines (s : State) (cid : Nat) (c : Copy) : State :=
  let s := (List.range (mapTotal c.map)).foldl (fun s e => if c.next ≤ e then s.reserveElem cid e else s) s
  let kept := (c.imgs.filter fun p => p.2.mask != 0).map (·.1)
  (kept.foldl (fun s l => (s.reserveLine cid l).loseRefused cid l) s).modCopy cid fun c => { c with srcs := [], reserving := false }

/-- The block-table lines that a `TSTORE` reads to reserve its destinations. -/
def Copy.tableLines (c : Copy) : List Nat := ((List.range (mapTotal c.map)).filterMap c.tableLine).eraseDups

/-- A line of the block table is asked for, as the walk asks (R136), unless it has come, was refused, or is not present: such a
one is left to the walk, which pauses there (R137). Assumption 33 (DESIGN CHOICE). -/
def State.askTable (s : State) (cid l : Nat) : State :=
  match s.copies.get? cid with
  | none => s
  | some c =>
    if (c.srcs.get? l).isSome || (c.refused.get? (2 * l)).isSome || c.asked.contains l then s
    else
      match s.translate (s.copyTile c) c.ctx (l * 128) (c.level == .u) .r with
      | (.missing, s) => s
      | (_, s) => s.askSource cid l

/-- A `TSTORE` reads its block table and then reserves its lines; its sub-gang issues nothing before (R135).
Assumption 33 (DESIGN CHOICE). -/
def State.reserveStep (s : State) (cid : Nat) : State :=
  match s.copies.get? cid with
  | none => s
  | some c =>
    let s := c.tableLines.foldl (fun s l => s.askTable cid l) s
    match s.copies.get? cid with
    | none => s
    | some c => if c.tableLines.any c.asked.contains then s else s.reserveLines cid c

/-- Reserve all destinations (R135). A receiving tile is told by a message. -/
def State.reserveAll (s : State) (cid : Nat) : State :=
  match s.copies.get? cid with
  | none => s
  | some c =>
    match c.kind with
    | .load => c.tiles.foldl (fun s t =>
        if t = c.team then s.reserve cid t
        else
          let (k, s) := s.fresh
          { s with mcasts := s.mcasts.set k (cid, t) }) s
    | .store => s.reserveStep cid
    | .red => s

/-- MCAST_RESERVATION (R135). -/
def execMcastReservation (k : Nat) (s : State) : Host.Outcome State Fault Refusal :=
  match s.mcasts.get? k with
  | none => .next s
  | some (cid, t) => .next (({ s with mcasts := s.mcasts.del k }).reserve cid t)

/-! ### The walk (R129-R131, R136, R137) -/

/-- The fill pattern of an element (R130). -/
def Copy.fillBytes (c : Copy) : Nat :=
  let fmt := mapFillFmt c.map
  let rep (n pat : Nat) : Nat := (List.range (16 / n)).foldl (fun a i => a + pat * 256 ^ (n * i)) 0
  (if mapFill c.map = 1 then
      match fmt with
      | 0x10 => rep 2 0x7FC0 | 0x11 => rep 2 0x7E00 | 0x20 => rep 1 0x7F | 0x21 => rep 1 0x7E | _ => 0
    else if fmt = 0x22 then rep 1 0x77 else 0) % 256 ^ c.sz

/-- Bytes of an element from its source lines. -/
def Copy.sourceBytes (c : Copy) (g : Nat) : Nat :=
  let line (l : Nat) : Nat := ((c.srcs.get? l).map (·.1)).getD 0
  (line (g / 128) + line (g / 128 + 1) * 256 ^ 128) / 256 ^ (g % 128) % 256 ^ c.sz

/-- Descriptor of the source block of an address. -/
def Copy.sourceDesc (c : Copy) (g : Nat) : Desc := descOf (((c.srcs.get? (g / 128)).map (·.2)).getD 0) (g / 64 % 2)

/-- An earlier copy holds a local block (R135, R136): one that stands before copy `cid` in the block's queue. -/
def State.heldBefore (s : State) (tile b cid : Nat) : Bool :=
  ((s.tile tile).busy.getD b []).any fun i => i < cid

/-- Lines a beat still needs: asked for, or waited for. -/
def State.askBeat (s : State) (cid : Nat) (es : List Nat) : State :=
  es.foldl (fun s e =>
    match s.copies.get? cid with
    | none => s
    | some c =>
      if c.paused.isSome then s
      else
        match c.locate e, c.fate e with
        | .needs l, _ => s.askSource cid l
        | _, .needs l =>
          match c.kind with
          | .load => s.askSource cid l
          | .store => s.askOwn cid l
          | .red =>
            match s.walkLine cid l true with
            | (some p, s) => s.modCopy cid fun c => { c with phys := c.phys.set l p }
            | (none, s) => s
        | _, _ => s) s

def Locus.waits : Locus → Bool
  | .needs _ => true
  | _ => false

/-- Record the failures of a beat, lowest element first (R140); `bad` tells an error in the local block it reads (R319).
Assumption 35 (DESIGN CHOICE). -/
def State.failBeat (s : State) (cid : Nat) (c : Copy) (es : List Nat) (bad : Bool) : State :=
  es.foldl (fun s e => match c.fate e with
    | .fails x r => s.failElem cid e x r
    | .at _ => if bad then s.failElem cid e 0x0A 0x04 else s
    | _ => s) s

/-- The bytes, their mask and the descriptor of a beat of a `TCOPY` in its local block (R129-R131). -/
def Copy.loadBeat (c : Copy) (es : List Nat) : Nat × LineMask × Desc :=
  let el (e : Nat) : Nat := match c.fate e with
    | .at g => c.sourceBytes g
    | .oob => c.fillBytes
    | _ => 0
  let off (e : Nat) : Nat := c.localOff e % 64
  let data := es.foldl (fun d e => setBytes d (off e) c.sz (el e)) 0
  let m := es.foldl (fun m e => m ||| runMask (off e) c.sz) 0
  let copied := es.filterMap fun e => match c.fate e with
    | .at g => some (off e, g)
    | _ => none
  let low := copied.foldl (fun (o : Option (Nat × Nat)) p => match o with
    | none => some p
    | some q => if p.1 < q.1 then some p else some q) none
  (data, m, match low with
    | some p => c.sourceDesc p.2
    | none => BitVec.ofNat 16 (mapFillFmt c.map * 256 + mapFillScale c.map))

/-- Write a beat on one tile and release its block (R135); nothing for a team that has ended. Assumption 34 (DESIGN CHOICE).
Assumption 35 (DESIGN CHOICE). -/
def State.landBeat (s : State) (cid : Nat) (c : Copy) (es : List Nat) (tid : Nat) : State :=
  if (s.team tid).ended then s
  else
  let tile := (s.team tid).tile
  let b := s.beatBlock c tid (es.headD 0)
  let (data, m, d) := c.loadBeat es
  let h := b % 2
  let s := s.putLocal tile (b / 2) (data * 256 ^ (64 * h)) (BitVec.ofNat 128 (m.toNat * 2 ^ (64 * h)))
    (setDesc 0 h d) (BitVec.ofNat 2 (2 ^ h))
  s.modTile tile fun t =>
    let q := (t.busy.getD b []).filter (· != cid)
    { t with busy := if q.isEmpty then t.busy.del b else t.busy.set b q }

/-- The local bytes of a beat, its descriptor, and whether an error stands there (R136, R319). -/
def State.localBeat (s : State) (c : Copy) (e : Nat) : Nat × Desc × Bool :=
  let tile := s.copyTile c
  let b := s.beatBlock c c.team e
  let (d, ds) := s.localLine tile (b / 2)
  (bytesOf d (64 * (b % 2)) 64, descOf ds (b % 2), s.isBad (.store tile b))

/-- The local bytes of one element. -/
def State.localElem (s : State) (c : Copy) (e : Nat) : Nat :=
  bytesOf (s.localBeat c e).1 (c.localOff e % 64) c.sz

/-- The part of an element's bytes that lies in a line: offset, width, bytes. -/
def Copy.clip (c : Copy) (g l x : Nat) : Nat × Nat × Nat :=
  if l * 128 ≤ g then
    let w := min c.sz (128 - (g - l * 128))
    (g - l * 128, w, x % 256 ^ w)
  else
    let cut := l * 128 - g
    (0, c.sz - cut, x / 256 ^ cut)

/-- One element walked into a line: its bytes, and the descriptor of its local block where it is the lowest-addressed element
of a block so far (R129, R131). -/
def Copy.walkInto (c : Copy) (l g x : Nat) (d : Desc) : Copy :=
  let (off, w, v) := c.clip g l x
  let y := c.img l
  let half (y : LineImg) (h : Nat) : LineImg :=
    let low := if h = 0 then y.low0 else y.low1
    if off / 64 ≤ h && h ≤ (off + w - 1) / 64 && low.all fun a => g ≤ a then
      { y with
        descs := setDesc y.descs h d
        descW := y.descW ||| BitVec.ofNat 2 (2 ^ h)
        low0 := if h = 0 then some g else y.low0
        low1 := if h = 1 then some g else y.low1 }
    else y
  { c with imgs := c.imgs.set l (half (half { y with data := setBytes y.data off w v, mask := y.mask ||| runMask off w } 0) 1) }

/-- The elements of a beat of a `TSTORE` walked into their lines, ascending: the highest one wins (R129). -/
def State.walkLines (s : State) (cid : Nat) (c : Copy) (es : List Nat) : State :=
  let d := (s.localBeat c (es.headD 0)).2.1
  es.foldl (fun s e => match c.fate e with
    | .at g => (c.linesAt g).foldl (fun s l => s.modCopy cid fun c => c.walkInto l g (s.localElem c e) d) s
    | _ => s) s

/-- The owned lines that no element after a beat touches: with a block table, whose entries are still to be read (R128), none
before the last beat. -/
def Copy.lastLines (c : Copy) (es : List Nat) : List Nat :=
  let touch (e : Nat) : List Nat := match c.locate e with
    | .at g => c.linesAt g
    | _ => []
  let after := (List.range (mapTotal c.map)).filter fun e => es.getLastD 0 < e
  if after.isEmpty then c.owned
  else if mapBten c.map then []
  else ((es.flatMap touch).eraseDups).filter fun l => c.owned.contains l && !(after.any fun e => (touch e).contains l)

/-- A beat of a `TSTORE`: its bytes join those of their lines, and lines with no further element go home (R135).
Assumption 32 (DESIGN CHOICE). -/
def State.storeBeat (s : State) (cid : Nat) (c : Copy) (es : List Nat) (bad : Bool) : State :=
  let s := if bad then s else s.walkLines cid c es
  (c.lastLines es).foldl (fun s l => s.giveBack cid l) s

/-- A beat of a `TRED`: each element is presented at its home (R137); one that lies in two lines goes as one, with the second
line's number beside it (R129). Assumption 33 (DESIGN CHOICE). -/
def State.redBeat (s : State) (cid : Nat) (c : Copy) (es : List Nat) : State :=
  let (op, aty) := ropAtom (mapRop c.map)
  es.foldl (fun s e => match c.fate e with
    | .at g =>
      let second := c.phys.getD (g / 128 + 1) 0
      let (k, s) := s.send { s.newReq evReduce (c.phys.getD (g / 128) 0) (s.copyTile c) (.copy cid e) with
        elems := [⟨0, e, 0, g % 128, c.sz, s.localElem c e, second, none⟩], op := op, aty := aty }
      s.modCopy cid fun c => { c with outs := k :: c.outs }
    | _ => s) s

/-- The mark of a block whose line was not present after an abort: one that is present later does not fail (R137). -/
def notPresent : Nat := 0x0C * 256 + 0x30

/-- The walk of one beat (R136). What it read of global memory is read anew for the next (R128, R129). Local sources wait for
the issuing group's earlier local accesses. Assumption 32 (DESIGN CHOICE). -/
def State.walkBeat (s : State) (cid : Nat) (c : Copy) : State :=
  let es := c.beat c.next
  let past (s : State) : State := s.modCopy cid fun c => { c with
    next := c.next + es.length, srcs := [], refused := c.refused.filter fun p => p.2 != notPresent }
  match c.kind with
  | .load =>
    if !(c.tiles.all fun t => (s.team t).ended
        || c.reserved.contains t && !s.heldBefore (s.team t).tile (s.beatBlock c t c.next) cid) then s
    else if es.any fun e => (c.fate e).waits then s.askBeat cid es
    else past (c.tiles.foldl (fun s t => s.landBeat cid c es t) (s.failBeat cid c es false)).kick
  | k =>
    if s.heldBefore (s.copyTile c) (s.beatBlock c c.team c.next) cid || s.localPending c.gid c.slices cid then s
    else if es.any fun e => (c.fate e).waits then s.askBeat cid es
    else
      let bad := (s.localBeat c c.next).2.2
      let s := s.failBeat cid c es bad
      past (if k = .store then s.storeBeat cid c es bad else if bad then s else s.redBeat cid c es)

/-- Give up an owned line as it was: what has been walked of it stays with the copy. -/
def State.yieldLine (s : State) (cid l : Nat) : State :=
  match s.copies.get? cid with
  | none => s
  | some c =>
    let tile := s.copyTile c
    let (k, s) := s.send { s.newReq evEvictClean (c.phys.getD l 0) tile (.copy cid l) with holder := some (stagehandId tile) }
    s.modCopy cid fun c => { c with owned := c.owned.filter (· != l), outs := k :: c.outs }

/-- Translate an owned line again that a TLBI covered while the walk was paused (R73, R327): one that lies elsewhere now is given
up and its new place taken. Assumption 85 (DESIGN CHOICE). -/
def State.refreshLine (s : State) (cid l : Nat) : State :=
  match s.copies.get? cid with
  | none => s
  | some c =>
    match s.walkLine cid l true with
    | (some p, s) => if c.phys.getD l 0 = p then s else (s.yieldLine cid l).askOwn cid l
    | (none, s) => if (s.copies.get? cid).any (·.paused.isSome) then s else (s.yieldLine cid l).loseRefused cid l

/-- Every such line of a copy. -/
def State.refreshLines (s : State) (cid : Nat) : State :=
  match s.copies.get? cid with
  | none => s
  | some c =>
    let s := (c.stale.filter c.owned.contains).foldl (fun s l => s.refreshLine cid l) s
    s.modCopy cid fun c => if c.paused.isSome then c else { c with stale := [] }

/-! ### Replies -/

/-- The answer to a request of a copy. A line granted to a copy that is checkpointed, or through, goes back at once. An
uncorrectable error fails the elements of its 64-byte block (R136, R319). -/
def State.copyReply (s : State) (cid n : Nat) (r : Req) (ans : Answer) : State :=
  match s.copies.get? cid with
  | none => s
  | some c =>
    let fails (cause reason : Nat) : State :=
      if r.ev = evReduce then s.failElem cid n cause reason
      else if r.ev = evReplica || r.ev = evEngineOwn then s.refuseLine cid n cause reason
      else s
    match ans with
    | .data _ data descs _ errs =>
      let s := s.modCopy cid fun c => { c with asked := c.asked.filter (· != n) }
      if r.ev = evEngineOwn then
        let s := s.modCopy cid fun c => { c with owned := n :: c.owned }
        if c.stopped || mapTotal c.map ≤ c.next then s.giveBack cid n else s
      else
        let bad (c : Copy) (h err : Nat) : Copy := if err = 0 then c else c.refuse (2 * n + h) 0x0A err
        s.modCopy cid fun c => bad (bad { c with srcs := c.srcs.set n (data, descs) } 0 errs.1) 1 errs.2
    | .nack ev _ => fails 0x0B ev
    | .fail reason => if 256 ≤ reason then fails 0x0A (reason - 256) else fails 0x0C reason
    | _ => s

/-! ### The end of a copy (R139, R143) -/

/-- Every element is written, and every message of the copy has arrived. -/
def State.copyDone (s : State) (c : Copy) : Bool :=
  mapTotal c.map ≤ c.next && c.asked.isEmpty && c.owned.isEmpty && !(c.outs.any s.inFlight)

/-- The scope of a copy's decrement, where it is cluster or wider (R139). -/
def Copy.scope (c : Copy) : Nat :=
  if c.kind = .load then (if mapMcast c.map = 0 then 0 else 2)
  else if c.phys.any fun p => !isDramLine p.2 then 4 else 3

/-- COPY_COMPLETE (R139): the token of one team's tile; with the last one the copy is over and its team may end. -/
def execCopyComplete (cid tile : Nat) (s : State) : Host.Outcome State Fault Refusal :=
  match s.copies.get? cid with
  | none => .next s
  | some c =>
    match c.left.find? fun t => (s.team t).tile == tile with
    | none => .next s
    | some t =>
      if !s.copyDone c || c.stopped then .next s
      else
        let s := s.decTokenAt t c.tok c.scope
        let s := if c.kind = .load then s.monLatency (tileMon tile) 1 else s
        let left := c.left.filter (· != t)
        if left.isEmpty then .next (({ s with copies := s.copies.del cid }).teamEnd c.team)
        else .next (s.modCopy cid fun c => { c with left := left })

/-! ### Checkpoints (R147) -/

/-- Stop a copy at a beat boundary: its owned lines go back to their homes with what it has walked of them, those it has to
translate again without; its busy bits stay until they are saved with the local store. -/
def State.stopCopy (s : State) (cid : Nat) : State :=
  match s.copies.get? cid with
  | none => s
  | some c =>
    if c.stopped then s
    else
      let s := s.modCopy cid fun c => { c with stopped := true, paused := none, stale := [] }
      c.owned.foldl (fun s l => if c.stale.contains l then s.yieldLine cid l else s.giveBack cid l) s

/-- A copy's busy bits leave a tile. -/
def State.dropBusy (s : State) (cid tile : Nat) : State :=
  s.modTile tile fun x => { x with
    busy := (x.busy.map fun p => (p.1, p.2.filter (· != cid))).filter fun p => !p.2.isEmpty }

/-- Take a copy up again after a restore: it reserves what it has not finished, and reads its sources anew (R147). -/
def State.resumeCopy (s : State) (cid : Nat) : State :=
  match s.copies.get? cid with
  | none => s
  | some c =>
    if !c.stopped then s
    else
      let c := { c with
        stopped := false, srcs := [], refused := [], asked := [], phys := [], owned := [], outs := [], reserved := []
        reserving := c.kind == .store }
      let s := s.modCopy cid fun _ => c
      match c.kind with
      | .load => c.tiles.foldl (fun s t => s.reserve cid t) s
      | .store => s.reserveStep cid
      | .red => s

/-- STAGEHAND_WALK (R136): one beat, unless the walk is paused or checkpointed, its tile changes gear (R303) or throttles
(R311). A `TSTORE` that still reads its block table goes on with that (R135). -/
def execStagehandWalk (cid : Nat) (s : State) : Host.Outcome State Fault Refusal :=
  match s.copies.get? cid with
  | none => .next s
  | some c =>
    let tile := s.copyTile c
    if (s.tile tile).change.isSome || !s.mayIssue tile then .next s
    else if c.stopped then .next s
    else if c.reserving then .next (s.readied (s.reserveStep cid) c.gid)
    else if c.paused.isSome || mapTotal c.map ≤ c.next then .next s
    else if !c.stale.isEmpty then .next (s.refreshLines cid)
    else .next (s.walkBeat cid c)

/-- COPY_CHECKPOINT (R147): once its cluster has been draining for its budget. -/
def execCopyCheckpoint (cid : Nat) (s : State) : Host.Outcome State Fault Refusal :=
  match s.copies.get? cid with
  | none => .next s
  | some c => .next (if (s.cluster (s.team c.team).cluster).state = .draining then s.stopCopy cid else s)

/-! ### Recalls of an engine's line (R108, R121) -/

/-- An engine answers a recall with what it has walked of the line, and takes the line again before it writes more (R108,
R121). Assumption 32 (DESIGN CHOICE). -/
def State.engineAnswer (s : State) (m : Recall) : State :=
  let tile := m.agent.toNat - 0x8000
  let none' := s.sendAnswer ⟨m.line, m.agent, none, false, m.rnd⟩
  match s.copies.find? fun p => s.copyTile p.2 == tile && p.2.owned.any fun l => p.2.phys.getD l 0 == m.line with
  | none => none'
  | some (cid, c) =>
    match c.owned.find? fun l => c.phys.getD l 0 == m.line with
    | none => none'
    | some l =>
      let x := c.img l
      let whole := (mergeData (s.lineData m.line) x.data x.mask, mergeDescs (s.lineDescs m.line) x.descs x.descW)
      let s := s.sendAnswer ⟨m.line, m.agent, if x.mask = 0 then none else some whole, false, m.rnd⟩
      s.takeAgain cid l m.line tile m.agent

/-- A recall of an L2's line waits while an engine of its die owns the line there (R135, R340). -/
def State.recallWaits (s : State) (m : Recall) : Bool :=
  isL2Id m.agent && match s.l2Line (m.agent.toNat / 2 ^ 13) m.line with
    | some h => h.eng.isSome
    | none => false

/-- HOLDER_RECALL (R108, R109): a die's L2 or an engine answers; the host's or a peer's answer is an input, and so is a recall
of a peer's home (R343). An answer that its agent orders after its earlier requests waits for them (R377).
Assumption 65 (DESIGN CHOICE). -/
def execHolderRecall (src : ReqSrc) (s : State) : Host.Outcome State Fault Refusal :=
  match src with
  | .ext x => .next (s.peerRecall x)
  | .net k =>
    match s.recs.get? k with
    | none => .next s
    | some m =>
      let granting := s.reps.any fun p => p.1 < k && p.2.req.line == m.line && p.2.req.holder == some m.agent
      if s.earlierRecall k m.line m.agent || s.recallWaits m || (isEngineId m.agent && granting) then .next s
      else
        let s' := { s with recs := s.recs.del k }
        if isL2Id m.agent then .next (s'.l2Answer m)
        else if isEngineId m.agent then .next (s'.engineAnswer m)
        else .next s
  | .peer k a =>
    match s.recs.get? k with
    | none => .next s
    | some m =>
      if isOutsideId m.agent && !s.earlierRecall k m.line m.agent && !(a.ord && s.extPending m.agent) then
        .next (({ s with recs := s.recs.del k }).extAnswer m a)
      else .next s

end Sys2Proof.Machine
end

