-- ==== Sys2Proof/Machine/Sched.lean ====
section
/-! DEFINITION. The group scheduler (R287, R288, R16, R45, R110): which group and sub-gang issues in a cycle, and what
waits at its issue point. -/

namespace Sys2Proof.Machine

/-- The oldest of the listed groups. -/
def State.oldest (s : State) (l : List Nat) : Option Nat :=
  l.foldl (fun o i => match o with
    | none => some i
    | some j => if (s.group i).age < (s.group j).age then some i else some j) none

/-- Fill one empty slot (R288): the oldest ready group of the wings, else of the pool. -/
def State.fillSlot (s : State) (tile q n : Nat) : State :=
  if ((s.sub tile q).slots[n]?).getD none != none then s
  else
    let ready := (s.groupsOn tile q).filter s.groupReady
    let pick := match s.oldest (ready.filter fun i => (s.group i).place.isWings) with
      | some i => some i
      | none => s.oldest (ready.filter fun i => (s.group i).place == .pool)
    match pick with
    | none => s
    | some i =>
      (s.modGroup i fun g => { g with place := .slot n }).modSub tile q fun c => { c with slots := setAt c.slots n (some i) }

def State.fillSlots (s : State) (tile q : Nat) : State := (List.range 8).foldl (fun s n => s.fillSlot tile q n) s

/-- A sub-gang can issue and has not been passed over (R287). -/
def State.canIssue (s : State) (gid : Nat) (x : SubGang) : Bool :=
  s.gangReady (s.group gid) x && !s.held.contains (gid, x.slices)

/-- A slot whose group can issue (R287). -/
def State.slotReady (s : State) (tile q n : Nat) : Bool :=
  match ((s.sub tile q).slots[n]?).getD none with
  | some i => s.groupRuns (s.group i) && !s.inWings i && (s.group i).gangs.any (s.canIssue i)
  | none => false

/-- The slot issues again in precedence: it issued last, is ready, and has neither issued 16 times on end nor given its
precedence up (R45, R287). -/
def State.keepsSlot (s : State) (tile q : Nat) : Bool :=
  let c := s.sub tile q
  s.slotReady tile q c.last && c.streak < 16 && !c.passed

/-- The slot that issues this cycle (R287). -/
def State.pickSlot (s : State) (tile q : Nat) : Option Nat :=
  let c := s.sub tile q
  if s.keepsSlot tile q then some c.last
  else ((List.range 8).map fun i => (c.last + 1 + i) % 8).find? (s.slotReady tile q)

/-- The sub-gang that issues within a group: the first that can, in ascending order of its place from the group's turn
(R287, R16). -/
def State.pickGang (s : State) (gid : Nat) : Option SubGang :=
  let g := s.group gid
  ((List.range 8).map fun i => (g.turn + i) % 8).findSome? fun i => g.gangs.find? fun x => x.place == i && s.canIssue gid x

/-- The turn of a group after one of its sub-gangs has issued (R16, R45): in a parted group `.stay` keeps it for at most 16
instructions on end. Where the instruction parted the sub-gang, the part with its lowest slice stands in its place.
Assumption 81 (DESIGN CHOICE). -/
def Group.turnAfter (g : Group) (x : SubGang) (sch : Sch) : Group :=
  let n := if g.turn = x.place then g.stay else 0
  if sch = .stay && 1 < g.gangs.length && n < 16 then { g with turn := x.place, stay := n + 1 }
  else { g with turn := (x.place + 1) % 8, stay := 0 }

/-- A sub-core after an instruction of slot `n` has issued; `keep` tells that the slot had precedence (R287). -/
def SubCore.issued (c : SubCore) (n : Nat) (keep : Bool) (sch : Sch) : SubCore :=
  { c with last := n, streak := if keep then c.streak + 1 else 1, passed := sch == .pass }

/-- Which slot and sub-gang issues. -/
structure Pick where
  tile : Nat
  q : Nat
  slot : Nat
  gid : Nat
  gang : SubGang
  keep : Bool

/-- An instruction has issued: the turns move, and whoever was passed over may look again (R45, R287). -/
def State.noteIssue (s : State) (p : Pick) (sch : Sch) : State :=
  { (s.modSub p.tile p.q fun c => c.issued p.slot p.keep sch).modGroup p.gid fun g => g.turnAfter p.gang sch with held := [] }

/-- The hint of an instruction counts, unless it has taken a trap that is not its own effect (R45, R323). -/
def State.hintCounts (before t : State) (gid : Nat) : Bool :=
  !((before.group gid).level == .u && (t.group gid).level == .s)
    || [Cause.trap, Cause.bkpt].any fun c => (t.group gid).tcause == BitVec.ofNat 64 c.code

/-- After the meaning of an instruction: where it could not issue, it has been passed over and nothing moves; an RVWAIT that
returns had issued when it blocked (R45, R287). -/
def State.afterIssue (before : State) (p : Pick) (sch : Sch) (t : State) : State :=
  if t.held != before.held then t
  else if p.gang.wait == .freed then { t with held := [] }
  else t.noteIssue p (if before.hintCounts t p.gid then sch else .none)

/-- What a turn comes to: an instruction to execute and what follows it, or a state. -/
inductive Choice where
  | run (i : Instr) (s : State) (after : State → State)
  | idle (s : State)

/-- What the issue of an instruction or a trap moves beside its effect: `none` on the stage manager, which has one sub-gang
and no slots. -/
def State.noted (s : State) (p : Option Pick) (sch : Sch) : State :=
  match p with
  | some p => s.noteIssue p sch
  | none => s

/-- The sub-gang `(gid, x)` takes a pending trap at its issue point (R110, R317). Assumption 19 (DESIGN CHOICE).
Assumption 59 (DESIGN CHOICE). -/
def State.takePending (s : State) (gid : Nat) (x : SubGang) (p : PendTrap) : State :=
  let g := s.group gid
  let tpc := if p.cause == .phaseTimeout then g.pcOf x.slices else p.pc
  (s.modGroup gid fun g => { g with
    pend := g.pend.filter (· != p)
    slicing := .no
    level := if p.fromS && g.level != .s then .s else g.level }).takeTrap gid x.slices p.cause tpc p.info

/-- Fetch and decode, and hand the instruction to its meaning (R54). A WT wait that its tokens have satisfied acquires
(R139). -/
def State.fetchRun (s : State) (gid : Nat) (x : SubGang) (p : Option Pick) : Choice :=
  let s := { s with cur := ⟨gid, x.slices, 0⟩ }
  match s.fetch gid x.slices with
  | (.stall, s) => .idle s
  | (.trap c info, s) => .idle ((s.noted p .none).takeTrap gid x.slices c ((s.group gid).pcOf x.slices) info)
  | (.instr i, s) =>
    let wt := (i.hdr.map (·.wt)).getD 0
    let s := if wt != 0 && s.curT.tokensZero wt then s.tokenAcquire s.curG.team wt else s
    .run i s (match p with
      | some p => s.afterIssue p ((i.hdr.map (·.sch)).getD .none)
      | none => id)

/-- The issue point of a sub-gang that has no trap to take: a time-slice yield asked for (R289); the end of a YIELD (R146);
an `ACCLD` held back for its tile; the saved MLOOPs of its group, after `ACC_FIRST` where a tile is not there, whose handler
returns first (R237); else its next instruction. -/
def State.startPoint (s : State) (gid : Nat) (x : SubGang) (p : Option Pick) : Choice :=
  if (s.group gid).slicing = .asked then
    .idle ((s.leaveSlot gid .pool).modGroup gid fun g => { g with slicing := .taken })
  else
    let s := match x.wait with
      | .yield _ _ => s.endTokenWait gid x
      | _ => s
    let ms := s.savedLoops gid
    let g := s.group gid
    let lost := ((ms.filter fun m => !s.loopReady m).map (·.phys))
      ++ (s.accs.filter fun a => a.2.gid == gid && s.accHeld a.2).map (·.2.info.aux)
    let due := (s.accs.filter fun a => a.2.gid == gid && a.2.kind == .accld && s.nowTries a.1 a.2).map (·.1)
    if !due.isEmpty then .idle (due.foldl (fun s k => s.tryAcc k) s)
    else if (g.level ≠ .u && (g.inAccFirst || !lost.isEmpty)) || (ms.isEmpty && lost.isEmpty) then s.fetchRun gid x p
    else if lost.isEmpty then .idle (s.takeUpLoops gid)
    else if s.accFirstElse gid || !(s.subOf gid).quiet then .idle { s with held := (gid, x.slices) :: s.held }
    else .idle ((s.noted p .none).takeTrap gid x.slices .accFirst (g.pcOf x.slices) (BitVec.ofNat 64 (2 * lost.headD 0 + 1)))

/-- A sub-gang at its issue point: a pending trap first. -/
def State.issuePoint (s : State) (gid : Nat) (x : SubGang) (p : Option Pick) : Choice :=
  match (s.group gid).nextPend with
  | some t => if (s.group gid).pendGang t == some x then .idle ((s.noted p .none).takePending gid x t) else s.startPoint gid x p
  | none => s.startPoint gid x p

/-- A group without a slot whose wait for tokens is over at the start of a cycle is ready again (R44, R146, R288). -/
def State.wakeGroup (s : State) (gid : Nat) : State :=
  s.readied ((s.group gid).gangs.foldl (fun s x => s.endTokenWait gid x) s) gid

/-- The start of a cycle on a tile: the tokens as they stand are what its waits examine (R44). -/
def State.examineTokens (s : State) (tile : Nat) : State :=
  let s : State := { s with teams := s.teams.map fun p => (p.1, if p.2.tile = tile then p.2.sample else p.2) }
  ((s.groups.filter fun p => (s.team p.2.team).tile == tile && !p.2.ended && match p.2.place with
    | .slot _ => false
    | _ => true).map (·.1)).foldl State.wakeGroup s

/-- The tile's clock `d` cycles on, at the turn of one of its sub-cores. -/
def State.tick (s : State) (tile q d : Nat) : State :=
  let s := s.modTile tile fun t => { t with clock := t.clock + BitVec.ofNat 64 d, subNow := q }
  if d = 0 then s else s.examineTokens tile

/-- What issues in a cycle of a sub-core (R287). -/
def State.pick (s : State) (tile q : Nat) : Option Pick :=
  match s.pickSlot tile q with
  | none => none
  | some n =>
    match ((s.sub tile q).slots[n]?).getD none with
    | none => none
    | some gid => (s.pickGang gid).map fun x => ⟨tile, q, n, gid, x, s.keepsSlot tile q⟩

/-- One issue cycle of a sub-core (R287, R311). How far `%clock` has gone is a free value, at least 1 where the turn belongs to a
later cycle, since the sub-cores of one cycle come in ascending order (R302). The tile decides its gear again at the cycle's
start (R300, R306), and issue stops after the cycle in which a change was decided (R303). -/
def State.cycleTurn (s : State) (tile q : Nat) : Choice :=
  if tile ≥ 192 || q ≥ 4 then .idle s
  else
    let (n, s) := s.takeFree
    let d := if (s.tile tile).subNow < q then n else n + 1
    if (s.tile tile).change.isSome && !(d == 0 && (s.tile tile).lastCycle) then
      .idle (s.modTile tile fun t => { t with lastCycle := false })
    else
      let s := (s.tick tile q d).arbitrate tile
      if !s.mayIssue tile then .idle s
      else
        let s := s.fillSlots tile q
        match s.pick tile q with
        | none => .idle s
        | some p => s.issuePoint p.gid p.gang (some p)

/-- A pending THERMAL or TIMER may be taken: IE = 1 and no handler is running (R330). -/
def Group.takesEvents (g : Group) : Bool := g.tstate.getLsbD tsIe && !g.tstate.getLsbD tsInTrap

/-- A turn of the stage manager (R347): THERMAL before TIMER (R330), else its next instruction. -/
def State.managerTurn (s : State) : Choice :=
  if s.sm.halted then .idle s
  else
    let (n, s) := s.takeFree
    let s := { (s.modTeam 0 Team.sample) with held := [], sm := { s.sm with clock := s.sm.clock + BitVec.ofNat 64 n } }
    if (s.group 0).takesEvents && !s.sm.evseq.isEmpty then .run .thermal s id
    else if (s.group 0).takesEvents && s.sm.timerPend != 0 then .run .timer s id
    else
      match s.pickGang 0 with
      | none => .idle s
      | some x => s.issuePoint 0 x none

/-- The event that presents a request in the network (R113). -/
def reqEvent (k : Nat) (r : Req) : Instr :=
  match r.ev with
  | 0 => .read (.net k) | 1 => .readOwn (.net k) | 2 => .writeThrough (.net k) | 3 => .update (.net k)
  | 4 => .evictClean (.net k) | 5 => .evictDirty (.net k) | 7 => .atomic (.net k) | 8 => .reduce (.net k)
  | 9 => .engineOwn (.net k) | _ => .replicaRead (.net k)

/-- One event for each entry of a table. -/
def eventsOf {α : Type} (t : Table α) (f : Nat → Instr) : List Turn := t.map fun p => Turn.event (f p.1)

/-- The issue cycles of the tiles that hold teams. -/
def State.cycles (s : State) : List Turn :=
  ((s.teams.filter fun t => !t.2.ended && t.2.tile < 192).map (·.2.tile)).flatMap fun t =>
    (List.range 4).map fun q => Turn.cycle t q

/-- Events of the groups: ends of waits, residence, retirement. -/
def State.groupTurns (s : State) : List Turn :=
  s.groups.flatMap fun p => Turn.event (.groupPark p.1) :: Turn.event (.groupReloadDone p.1) :: p.2.gangs.flatMap fun x =>
    match x.wait with
    | .nap _ _ => [Turn.event (.napExpire p.1 (lowSlice x.slices))]
    | .tokens _ | .yield _ _ => [Turn.event (.waitSatisfied p.1 (lowSlice x.slices))]
    | _ => []

/-- Events of the tiles and sub-cores. -/
def State.tileTurns (s : State) : List Turn :=
  List.flatten [(s.tiles.filter fun t => t.1 < awayTile).flatMap fun t =>
      [Turn.event (.curtainWave t.1), Turn.event (.changeoverComplete t.1), Turn.event (.fllRampStep t.1)],
    s.subs.flatMap fun c =>
      [Turn.event (.mloopStart (c.1 / 4) (c.1 % 4) 1), Turn.event (.mloopComplete (c.1 / 4) (c.1 % 4)),
        Turn.event (.mmaComplete (c.1 / 4) (c.1 % 4)), Turn.event (.timeSliceYield (c.1 / 4) (c.1 % 4))],
    s.tiles.flatMap fun t => t.2.l1.map fun l => Turn.event (.l1WritebackTimeout t.1 l.1),
    s.teams.flatMap fun t => (List.range 8).map fun m => Turn.event (.mmaQMeeting t.1 m)]

/-- Events of the distributor and of switches. -/
def State.distTurns (s : State) : List Turn :=
  List.flatten [[Turn.event .notify, Turn.event .distributorPlace],
    (s.dist.lqctl.filter fun p => p.2.getLsbD 3).flatMap fun p => [Turn.event (.packetCopy p.1), Turn.event (.waitCounterPoll p.1)],
    s.launches.flatMap fun p => [Turn.event (.launchCompletion p.1), Turn.event (.phaseStart p.1),
      Turn.event (.phaseWatchdogExpire p.1), Turn.event (.rotationTimeout p.1)],
    (s.clusters.filter fun p => p.2.state == .stopping || p.2.state == .draining).flatMap fun p =>
      [Turn.event (.clusterSwitchOut p.1), Turn.event (.switchDrainTimeout p.1)]]

/-- The turns that could come next when the agenda names none: every agent, every message under way.
Assumption 4 (DESIGN CHOICE). -/
def State.turns (s : State) : List Turn :=
  List.flatten [[Turn.manager], s.cycles, s.net.map fun p => Turn.event (reqEvent p.1 p.2),
    eventsOf s.reps Instr.fillReply, eventsOf s.reps Instr.writeAccept, eventsOf s.reps Instr.lineNack,
    eventsOf s.recs (fun k => Instr.holderRecall (ReqSrc.net k)), eventsOf s.answers Instr.recallAnswer,
    eventsOf s.pushes Instr.pushUpdateReceive, eventsOf s.accs Instr.loadDataArrival, eventsOf s.accs Instr.quantRetire,
    eventsOf s.copies Instr.stagehandWalk, eventsOf s.copies Instr.copyCheckpoint,
    s.copies.flatMap fun p => p.2.left.map fun t => Turn.event (.copyComplete p.1 (s.team t).tile),
    eventsOf s.mcasts Instr.mcastReservation, eventsOf s.fences Instr.fenceComplete, eventsOf s.tlbis Instr.tlbiComplete,
    eventsOf s.arrivals Instr.rvArrival, eventsOf s.releases Instr.rvRelease, eventsOf s.dir Instr.timeout,
    s.groupTurns, s.tileTurns, s.distTurns,
    [Turn.event .timerElapse, Turn.event .attestReportDone, Turn.event (.scriptLoadDone 0), Turn.event (.scriptLoadDone 1),
      Turn.event (.rangeRetireDone 0), Turn.event (.rangeRetireDone 1)]]

/-- The next turn: the first of the agenda, or a free choice (assumption 4 (DESIGN CHOICE)). -/
def State.nextTurn (s : State) : Turn × State :=
  match s.agenda with
  | t :: r => (t, { s with agenda := r })
  | [] =>
    let (n, s) := s.takeFree
    let ts := s.turns
    ((ts[n % ts.length]?).getD .manager, s)

/-- What a turn comes to. An event's instruction stands for itself. Assumption 4 (DESIGN CHOICE). -/
def State.choose (s : State) : Turn → Choice
  | .cycle tile q => s.cycleTurn tile q
  | .manager => s.managerTurn
  | .event e => if e.hdr.isNone then .run e { s with held := [] } id else .idle s

end Sys2Proof.Machine
end

