-- ==== Sys2Proof/Machine/Residence.lean ====
section
/-! DEFINITION. Residence in the register file (R31, R32, R289): parking, reloading, and the time-slice yield. -/

namespace Sys2Proof.Machine

/-- A ready group in the fly loft waits to become resident. -/
def State.waitsForRoom (s : State) (gid : Nat) : Bool := (s.group gid).place == .loft && s.groupReady gid

/-- The group of a sub-core that has waited longest to become resident. Assumption 49 (DESIGN CHOICE). -/
def State.nextResident (s : State) (tile q : Nat) : Option Nat := s.oldest ((s.groupsOn tile q).filter s.waitsForRoom)

/-- A group with registers in the register file. -/
def State.resident (s : State) (tile q : Nat) : List Nat := (s.groupsOn tile q).filter fun i => (s.group i).place != .loft

/-- The register file has room for a group (R31). -/
def State.roomFor (s : State) (gid : Nat) : Bool :=
  let g := s.group gid
  let l := s.resident (s.team g.team).tile g.q
  l.length < 16 && (l.map fun i => (s.group i).regs).sum + g.regs ≤ 1024

/-- Waits in which a group may be parked (R32): a wait for tokens while one of them is a copy token (R288). -/
def Team.parks (t : Team) : Wait → Bool
  | .rv _ _ => true
  | .tokens m => t.copyWait m
  | .yield _ _ => true
  | _ => false

/-- A resident group without a slot that is blocked in RVWAIT, YIELD, a wait on a copy token or a time-slice yield. A
napping group is not. Assumption 49 (DESIGN CHOICE). -/
def State.blocked (s : State) (gid : Nat) : Bool :=
  let g := s.group gid
  g.place == .pool && !g.ended && !g.stopped && !s.groupReady gid
    && (g.slicing == .taken || g.gangs.any fun x => (s.team g.team).parks x.wait)
    && g.gangs.all fun x => match x.wait with
      | .nap _ _ => false
      | _ => true

/-- The group on a sub-core that has been blocked longest. Assumption 49 (DESIGN CHOICE). -/
def State.nextParked (s : State) (tile q : Nat) : Option Nat := s.oldest ((s.resident tile q).filter s.blocked)

/-- A ready group waits for room that the register file has not. -/
def State.crowded (s : State) (tile q : Nat) : Bool :=
  match s.nextResident tile q with
  | some i => !s.roomFor i
  | none => false

/-- GROUP_PARK (R289): while a group waits for room, the one blocked longest goes to the fly loft. -/
def execGroupPark (gid : Nat) (s : State) : Host.Outcome State Fault Refusal :=
  let g := s.group gid
  let tile := (s.team g.team).tile
  if s.crowded tile g.q && s.nextParked tile g.q == some gid then .next (s.modGroup gid fun g => { g with place := .loft })
  else .next s

/-- A group's time-slice yield is over, or no longer asked for. -/
def State.endSlicing (s : State) (gid : Nat) : State :=
  if (s.group gid).slicing = .no then s else (s.stamp gid).modGroup gid fun g => { g with slicing := .no }

/-- GROUP_RELOAD_DONE (R32, R289): the group that has waited longest becomes resident, if there is room. A time-slice
yield of its sub-core is over. -/
def execGroupReloadDone (gid : Nat) (s : State) : Host.Outcome State Fault Refusal :=
  let g := s.group gid
  let tile := (s.team g.team).tile
  if s.nextResident tile g.q == some gid && s.roomFor gid then
    let (n, s) := s.fresh
    let s := s.modGroup gid fun g => { g with place := .pool, since := n }
    .next ((s.groupsOn tile g.q).foldl State.endSlicing s)
  else .next s

/-- TIME_SLICE_YIELD (R289): a group has waited for room and no resident group is blocked; the one resident longest is to
yield at its next issue point. With no group left that waits, a yield is over. Assumption 49 (DESIGN CHOICE). -/
def execTimeSliceYield (tile sub : Nat) (s : State) : Host.Outcome State Fault Refusal :=
  let l := s.resident tile sub
  if (s.nextResident tile sub).isNone then .next ((s.groupsOn tile sub).foldl State.endSlicing s)
  else if !s.crowded tile sub || (s.nextParked tile sub).isSome || l.any (fun i => (s.group i).slicing != .no) then .next s
  else
    let pick := l.foldl (fun o i => match o with
      | none => some i
      | some j => if (s.group i).since < (s.group j).since then some i else some j) none
    match pick with
    | none => .next s
    | some i => .next (s.modGroup i fun g => { g with slicing := .asked })

end Sys2Proof.Machine
end

