-- ==== Sys2Proof/Machine/MemInstr.lean ====
section
/-! DEFINITION. The memory instructions (R79-R83, R158-R164, R217-R221) and the split-phase fence (R250-R252). -/

namespace Sys2Proof.Machine

/-! ### Checks on the record (R160, R218) -/

/-- Checks 2: the record is valid and has the right (R63, R64). -/
def State.recordCheck (s : State) (r : BitVec 256) (right : Bool) : Option Nat :=
  match recordFault (s.curG.level == .m) r with
  | some x => some x
  | none => if right then none else some 0x10

/-- Width of a typed access in bytes (R158). -/
def tyWidth (ty : Nat) : Nat :=
  match ty with
  | 1 | 2 => 1 | 3 | 4 => 2 | 5 | 6 => 4 | _ => 8

/-- A pair of registers that a 16-byte element can name: even and granted (R160); `g` and `t` registers are always granted.
Assumption 55 (DEDUCED). -/
def State.pairOk (s : State) (x : Spec) : Bool :=
  match x with
  | .v n => n.toNat % 2 == 0 && n.toNat + 1 < (if s.curG.level = .m then 32 else s.curG.regs)
  | .g n => n.toNat % 2 == 0
  | .t n => n.toNat % 2 == 0
  | _ => false

/-- Check 5 of `LD` and `ST`. -/
def State.widthOk (s : State) (r : BitVec 256) (m : MemM) (reg : Spec) : Bool :=
  let n := 2 ^ m.n.toNat
  let sz := 2 ^ recEsz r
  (m.ty == 0 || tyWidth m.ty.toNat == sz) && (n == 1 || n * sz ≤ 8) && (recEsz r != 4 || s.pairOk reg)

/-- The record of a described block (R218). -/
def blockRecordOk (r : BitVec 256) : Bool :=
  (recSpc r == spcGlobal || recSpc r == spcLocal) && recSwz r == 0 && recBase r % 64 == 0 && recStr r % 64 == 0

/-! ### Elements of the lanes -/

/-- The second register of a 16-byte element, where it has one (R161). -/
def pairSecond (r : BitVec 256) (x : Spec) : List Spec := if recEsz r = 4 then [Spec.second x] else []

/-- The elements of the lanes in range, and the lanes out of range (R65, R161). -/
def State.rawElems (s : State) (r : BitVec 256) (size n : Nat) (lanes : List Nat) (idx : Nat → Nat)
    (val cmp : Nat → Nat → Nat) : List RawElem × List Nat :=
  let grant := s.grantOf s.curG
  let addrs (l : Nat) : List (Option Nat) := (List.range n).map fun k => elemAddr r grant size (idx l + k)
  let out := lanes.filter fun l => (addrs l).any Option.isNone
  let ins := lanes.filter fun l => !out.contains l
  (ins.flatMap fun l => (List.range n).map fun k =>
    ⟨l, k, (((addrs l)[k]?).getD none).getD 0, size, val l k, cmp l k⟩, out)

/-- An access with nothing but what its instruction says. -/
def State.newAccess (s : State) (kind : AccKind) (info : AccInfo) (r : BitVec 256) (ch : Hint) (acq rel : Option Nat) :
    Access where
  gid := s.cur.gid
  slices := s.cur.slices
  order := s.cur.slices
  level := s.curG.level
  pc := s.curPc
  kind := kind
  info := info
  record := r
  rtype := reqType r ch.l1
  rep := kind.reads && l2Hint r ch.l2 == 1
  evict := l2Hint r ch.l2 == 2
  elems := []
  lines := []
  acq := acq
  rel := rel
  gate := []
  wbs := []
  log := none
  ready := false
  failed := none

/-- Parameters that only a destination needs. -/
def AccInfo.dst (d : Spec) : AccInfo := ⟨d, 0, 0, 0, 1, 0, false, false, 0, []⟩

/-- A trap with cause `ACCESS` on the record. Assumption 13 (DEDUCED). -/
def Res.access (reason : Nat) (s : State) : Res := .trap .access (accessInfo false reason 0) s

/-! ### Device registers through IO records (R161, R385) -/

/-- Read each named register once, in ascending lane order. -/
def State.ioReads : List RawElem → Table W64 → State → Table W64 × State
  | [], t, s => (t, s)
  | e :: r, t, s =>
    match t.get? e.addr with
    | some _ => State.ioReads r t s
    | none =>
      let (x, s) := s.regRead .mgmt e.addr
      State.ioReads r (t.set e.addr x) s

/-- An IO `LD`. The value of the last register read stays in the read latch. -/
def State.ioLoad (s : State) (d : Spec) (raw : List RawElem) : State :=
  let (t, s) := State.ioReads raw [] s
  let s := match raw.getLast? with
    | some e => { s with sm := { s.sm with ioRead := t.getD e.addr 0 } }
    | none => s
  match d with
  | .v n => s.putV s.cur.gid n.toNat (raw.map (·.lane)) fun l =>
      match raw.find? fun e => e.lane == l with
      | some e => t.getD e.addr 0
      | none => 0
  | _ => s

/-- An IO `ST`: each register once, with the highest lane's value (R164). Assumption 57 (DESIGN CHOICE). -/
def State.ioStore (s : State) (raw : List RawElem) : State :=
  ((raw.map (·.addr)).eraseDups).foldl (fun s a =>
    match raw.reverse.find? fun e => e.addr == a with
    | some e => s.regWrite .mgmt a (BitVec.ofNat 64 e.val)
    | none => s) s

/-- The lanes out of range set their LFM bits (R66). -/
def State.markOut (s : State) (out : List Nat) : State :=
  s.modCur fun g => { g with lfm := out.foldl (fun m l => m ||| BitVec.ofNat 32 (2 ^ l)) g.lfm }

/-! ### LD and ST (R161) -/

/-- An operand's expansion under a TY code (R48). -/
def tyExpand (ty : Nat) : Expand :=
  match ty with
  | 1 | 2 => .rep8 | 3 | 4 => .rep16 | 5 | 6 => .rep32 | _ => .zx64

/-- LD (R158, R160, R161). Assumption 13 (DEDUCED). -/
def execLd (h : Hdr) (m : MemM) (ch : Hint) (d a b : Spec) (s : State) : Host.Outcome State Fault Refusal :=
  issue h [d] [a, b] s fun s =>
    let lanes := s.actLanes h
    let r := s.record a
    if lanes.isEmpty then .done s
    else
      match s.recordCheck r (recR r) with
      | some x => .access x s
      | none =>
        if !s.widthOk r m d then .access 0x19 s
        else if !(s.busyOn (pairSecond r d)).isEmpty then .hold (s.waitFor (s.busyOn (pairSecond r d)))
        else if recSpc r = spcIo && s.acquiring s.cur.gid s.cur.slices then .hold s
        else
          let n := 2 ^ m.n.toNat
          let (raw, out) := s.rawElems r (2 ^ recEsz r) n lanes (fun l => (s.src h .zx64 b l).toNat) (fun _ _ => 0)
            fun _ _ => 0
          if recSpc r = spcIo then .done ((s.ioLoad d raw).markOut out)
          else
            let signed := m.ty == 2 || m.ty == 4 || m.ty == 6
            let info := { AccInfo.dst d with ty := m.ty.toNat, n := n, esz := recEsz r, flag := signed }
            s.startAccess (s.newAccess .load info r ch (if m.ord then some m.sc.toNat else none) none) raw out

/-- The data of element `k` of a lane of a store. -/
def State.storeData (s : State) (h : Hdr) (r : BitVec 256) (ty : Nat) (b : Spec) (l k : Nat) : Nat :=
  let x := (s.src h (tyExpand ty) b l).toNat
  let w := 8 * 2 ^ recEsz r
  if recEsz r = 4 then x + (s.src h .zx64 (Spec.second b) l).toNat * 2 ^ 64 else x / 2 ^ (w * k) % 2 ^ w

def execSt (h : Hdr) (m : MemM) (ch : Hint) (d a b : Spec) (s : State) : Host.Outcome State Fault Refusal :=
  issue h [] [d, a, b] s fun s =>
    let lanes := s.actLanes h
    let r := s.record d
    if lanes.isEmpty then .done s
    else
      match s.recordCheck r (recW r) with
      | some x => .access x s
      | none =>
        if !s.widthOk r m b then .access 0x19 s
        else if !(s.busyOn (pairSecond r b)).isEmpty then .hold (s.waitFor (s.busyOn (pairSecond r b)))
        else
          match s.badReg (pairSecond r b) with
          | some x => .trap .memErr (regErrInfo x) s
          | none =>
          if recSpc r = spcIo && (s.acquiring s.cur.gid s.cur.slices || m.ord && !s.myAccesses.isEmpty) then .hold s
          else
          let n := 2 ^ m.n.toNat
          let (raw, out) := s.rawElems r (2 ^ recEsz r) n lanes (fun l => (s.src h .zx64 a l).toNat)
            (s.storeData h r m.ty.toNat b) fun _ _ => 0
          let rel := if m.ord then some m.sc.toNat else none
          if recSpc r = spcIo then .done ((s.ioStore raw).markOut out)
          else s.startAccess (s.newAccess .store (.dst .zero) r ch none rel) raw out

/-! ### ATOM, RED and REDQ (R162, R163) -/

/-- Acquire and release of an ORD code. -/
def ordAcq (m : AtomM) : Option Nat := if m.ord = 1 || m.ord = 3 then some m.sc.toNat else none
def ordRel (m : AtomM) : Option Nat := if 2 ≤ m.ord.toNat then some m.sc.toNat else none

/-- An atomic's operand expansion (R48): AT's type. -/
def atExpand (op aty : Nat) : Expand :=
  if 8 ≤ op then (if aty = 0 then .rep32 else .rep16)
  else if aty < 2 then .rep32
  else if aty = 2 then .zx64 else .sx64

/-- Checks 2 to 5 of R160 for the three instructions. -/
def State.atomCheck (s : State) (r : BitVec 256) (width : Nat) : Option Nat :=
  match s.recordCheck r (recA r) with
  | some x => some x
  | none =>
    if recSpc r = spcDesc then some 0x12
    else if recSpc r = spcIo then some 0x1A
    else if 2 ^ recEsz r ≠ width then some 0x19
    else none

/-- The three instructions after their checks. -/
def State.atomAccess (s : State) (h : Hdr) (kind : AccKind) (m : AtomM) (ch : Hint) (d : Spec) (r : BitVec 256) (op aty : Nat)
    (idx : Spec) (val cmp : Nat → Nat) : Res :=
  let w := atWidth op aty
  let lanes := s.actLanes h
  if lanes.isEmpty then .done s
  else if op = 8 && s.detOf s.curG then .trap .detFp 0 s
  else
    match s.atomCheck r w with
    | some x => .access x s
    | none =>
      let (raw, out) := s.rawElems r w 1 lanes (fun l => (s.src h .zx64 idx l).toNat)
        (fun l _ => val l % 2 ^ (8 * w)) fun l _ => cmp l % 2 ^ (8 * w)
      let a := s.newAccess kind { AccInfo.dst d with op := op, aty := aty } r ch (ordAcq m) (ordRel m)
      s.startAccess { a with rtype := .uncached } raw out

def execAtom (h : Hdr) (m : AtomM) (ch : Hint) (d a b c e : Spec) (s : State) : Host.Outcome State Fault Refusal :=
  issue h [d] [a, b, c, e] s (fun s =>
    let x := atExpand m.op.toNat m.aty.toNat
    s.atomAccess h .atom m ch d (s.record a) m.op.toNat m.aty.toNat b (fun l => (s.src h x c l).toNat)
      fun l => (s.src h x e l).toNat) (laneEffect h)

def execRed (h : Hdr) (m : AtomM) (ch : Hint) (d a b : Spec) (s : State) : Host.Outcome State Fault Refusal :=
  issue h [] [d, a, b] s fun s =>
    s.atomAccess h .red m ch .zero (s.record d) m.op.toNat m.aty.toNat a
      (fun l => (s.src h (atExpand m.op.toNat m.aty.toNat) b l).toNat) fun _ => 0

/-- The contribution of a lane of `REDQ` (R163): `m.op` is Q. Assumption 55 (DEDUCED). -/
def State.redqValue (s : State) (h : Hdr) (q : Bool) (b c : Spec) (l : Nat) : Nat :=
  if q then (s.src h .zx64 b l).toNat
  else quantQ (fp32.decode (Machine.sub 32 (s.src h .rep32 b l) 0)) (clampE (s.src h .sx64 c l))

def execRedq (h : Hdr) (m : AtomM) (ch : Hint) (d a b c : Spec) (s : State) : Host.Outcome State Fault Refusal :=
  issue h [] [d, a, b, c] s fun s =>
    s.atomAccess h .redq m ch .zero (s.record d) opAddq 0 a (s.redqValue h (m.op == 1) b c) fun _ => 0

/-! ### QUANT and DEQ (R218-R221) -/

/-- Registers a block takes at an element format and a register type. -/
def blockRegs (e : Elt) (ft : BitVec 2) : Nat := e.count / ftCount ft

/-- A range of registers from one specifier leaves the grant (R217). -/
def State.rangeOut (s : State) (x : Spec) (n : Nat) : Bool :=
  match x with
  | .v b => (if s.curG.level = .m then 32 else s.curG.regs) < b.toNat + n
  | _ => true

def rangeCheck (x : Spec) (n : Nat) (s : State) : Option (Cause × W64) :=
  if s.rangeOut x n then some (.ill, s.cur.word) else none

/-- The values a lane's registers hold. -/
def State.blockValues (s : State) (h : Hdr) (e : Elt) (ft : BitVec 2) (b : Spec) (l : Nat) : List Num :=
  let k := ftCount ft
  let base := match b with
    | .v n => n.toNat
    | _ => 0
  (List.range e.count).map fun i =>
    (ftFmt ft).decode (Machine.sub (ftWidth ft) (s.src h .zx64 (.v (BitVec.ofNat 8 (base + i / k))) l) (i % k))

/-- The write C needs is possible at issue, and its split-store entries are taken (R220). Assumption 55 (DEDUCED). -/
def State.holdMax (s : State) (h : Hdr) (c : Spec) : Try :=
  s.writeTo c ((s.curG.slicesOn s.cur.slices).map s.curG.firstLane) fun l => s.src h .zx64 c l

/-- A lane's block with its descriptor above it, as an element's value. -/
def blockWord (x : Nat × Desc) : Nat := x.1 + x.2.toNat * 2 ^ 512

/-- QUANT (R217-R219). Assumption 21 (DEDUCED). -/
def execQuant (h : Hdr) (m : QuantM) (d a b c : Spec) (s : State) : Host.Outcome State Fault Refusal :=
  let e := Elt.ofDfm m.dfm.toNat
  let n := blockRegs e m.sft
  issueWith (rangeCheck b n) h (if c = .zero then [] else [c]) ([d, a, c] ++ vRange b n) s fun s =>
    let lanes := s.actLanes h
    let r := s.record d
    if lanes.isEmpty then .done s
    else
      match s.recordCheck r (recW r) with
      | some x => .access x s
      | none =>
        if !blockRecordOk r then .access 0x1B s
        else
          match s.holdMax h c with
          | .error (cause, info) => .trap cause info s
          | .ok held =>
            let vals := s.blockValues h e m.sft b
            let (raw, out) := s.rawElems r 64 1 lanes (fun l => (s.src h .zx64 a l).toNat)
              (fun l _ => blockWord (e.quantise m.nanprop (vals l))) fun _ _ => 0
            let firsts := (s.curG.slicesOn s.cur.slices).map s.curG.firstLane
            let info := { AccInfo.dst c with
              flag := m.nanprop
              aux := firsts.foldl (fun x l => x + 2 ^ l) 0
              qmax := raw.map fun x =>
                (x.lane, fp32.encode .near false (amaxOf (vals x.lane)), (vals x.lane).any Num.isNan) }
            match held.startAccess (s.newAccess .quant info r ⟨0, 0⟩ none none) raw out with
            | .trap cause info _ => .trap cause info s
            | .hold _ => .hold s
            | x => x

/-- DEQ (R217, R221). Assumption 21 (DEDUCED). -/
def execDeq (h : Hdr) (m : DeqM) (d a b : Spec) (s : State) : Host.Outcome State Fault Refusal :=
  let count := match m.wc.toNat with
    | 1 => 32 | 2 => 64 | _ => 128
  let n := count / ftCount m.flt.ft
  issueWith (rangeCheck d n) h (vRange d n) [a, b] s fun s =>
    let lanes := s.actLanes h
    let r := s.record a
    if lanes.isEmpty then .done s
    else
      match s.recordCheck r (recR r) with
      | some x => .access x s
      | none =>
        if !blockRecordOk r then .access 0x1B s
        else
          let (raw, out) := s.rawElems r 64 1 lanes (fun l => (s.src h .zx64 b l).toNat) (fun _ _ => 0) fun _ _ => 0
          let info := { AccInfo.dst d with
            op := m.flt.rm.toNat
            aty := m.wc.toNat
            ty := m.flt.ft.toNat
            n := n
            flag := m.flt.sat }
          s.startAccess (s.newAccess .deq info r ⟨0, 0⟩ none none) raw out

/-- The running maximum M over the lanes that performed (R220). Assumption 55 (DEDUCED). -/
def Access.quantMax (a : Access) : Option Num :=
  let mine := a.info.qmax.filter fun x => a.performed.contains x.1
  if mine.isEmpty then none
  else if a.info.flag && mine.any (fun x => x.2.2) then some .nan
  else some (amaxOf (mine.map fun x => fp32.decode x.2.1))

/-- QUANT_RETIRE (R220): C takes its new value once, in the slices that issued. -/
def execQuantRetire (k : Nat) (s : State) : Host.Outcome State Fault Refusal :=
  match s.accs.get? k with
  | none => .next s
  | some a =>
    if !a.retires || !a.finished then .next s
    else
      let back := s.cur
      let level := (s.group a.gid).level
      let s1 := { (s.modGroup a.gid fun g => { g with level := a.level }) with cur := ⟨a.gid, a.slices, back.word⟩ }
      let lanes := (List.range 32).filter fun l => a.info.aux.testBit l && s1.curG.sliceLive (l / 4)
      let new (l : Nat) : W64 :=
        let old := s1.src ⟨.b64, ⟨7, 0, 0, false⟩, 0, .none, 0⟩ .zx64 a.info.dest l
        match a.quantMax with
        | some m => runMax old m
        | none => runMax old (.inf true)
      let s2 := match s1.writeTo a.info.dest lanes new with
        | .ok s => s
        | .error _ => s1
      .next (({ (s2.modGroup a.gid fun g => { g with level := level }) with cur := back }).finishAcc k)

/-! ### PREF (R82) -/

/-- Prefetch one line for a tile: `rt` and `ef` are what CH or the record ask for, `own` that CH.L1 asks for ownership. A page
that makes every access uncached makes CH count for nothing (R71). `.l2` with `.own` raises a plain read.
Assumption 74 (DESIGN CHOICE). -/
def State.prefLine (s : State) (tile : Nat) (l2 own ef : Bool) (rt : ReqType) (l : Nat) (unc : Bool) : State :=
  let ask (s : State) (ev : Nat) : Req := { s.newReq ev l tile (.pref tile l2) with ef := ef }
  if l2 then
    if isDramLine l && homeDie l == dieOf tile then s
    else (s.send { ask s evRead with alloc := false }).2
  else if !hasL1 tile then s
  else if unc || rt = .uncached then
    let s := s.flushLine tile l false
    (s.send { ask s evRead with alloc := false }).2
  else if own then (s.send (ask s evReadOwn)).2
  else
    match s.l1 tile l with
    | some x => if x.current (s.tile tile) then s else (s.send (ask s evRead)).2
    | none => (s.send (ask s evRead)).2

def execPref (h : Hdr) (l2 : Bool) (ch : Hint) (d a : Spec) (s : State) : Host.Outcome State Fault Refusal :=
  issue h [] [d, a] s fun s =>
    let r := s.record d
    if s.recordCheck r (recR r) != none || recSpc r ≠ spcGlobal then .done s
    else
      let (raw, _) := s.rawElems r (2 ^ recEsz r) 1 (s.actLanes h) (fun l => (s.src h .zx64 a l).toNat) (fun _ _ => 0)
        fun _ _ => 0
      let lines := rawLines raw
      let (ends, s) := s.lineTargets s.curG spcGlobal .load lines
      .done (ends.foldl (fun s e => match e with
        | .ok l unc => s.prefLine s.curTile l2 (ch.l1 == 1) (l2Hint r ch.l2 == 2) (reqType r ch.l1) l unc
        | _ => s) s)

/-! ### Records and the lane fault mask (R80, R81, R83) -/

/-- The record a `BUFSET` builds in a lane, or the reason of its trap (R80). -/
def State.bufNew (s : State) (h : Hdr) (form : Nat) (a b c e : Spec) (l : Nat) : Except Nat (BitVec 256) :=
  let x (r : Spec) : Nat := (s.src h .zx64 r l).toNat
  match form with
  | 0 =>
    if 2 ^ 56 ≤ x a || 2 ^ 40 ≤ x b || 2 ^ 40 ≤ x e || 2 ^ 16 ≤ x c then .error 0x05
    else .ok (BitVec.ofNat 256 (x a + x b * 2 ^ 64 + x c * 2 ^ 104 + x e * 2 ^ 128))
  | 1 => .ok (s.record a)
  | _ =>
    let r := s.record a
    let base := recBase r + x b * recStr r
    if recExt r < x b + x c || 2 ^ 56 ≤ base then .error 0x11
    else .ok (BitVec.ofNat 256 (r.toNat - recBase r + base - recExt r * 2 ^ 64 + x c * 2 ^ 64))

def execBufset (h : Hdr) (form : BitVec 2) (d a b c e : Spec) (s : State) : Host.Outcome State Fault Refusal :=
  issue h [d] [a, b, c, e] s fun s =>
    if !s.uniform h then .done s
    else
      let inM : Bool := s.curG.level == .m
      let recs := ((s.curG.slicesOn s.cur.slices).map s.curG.firstLane).map fun l =>
        match s.bufNew h form.toNat a b c e l with
        | .error x => Except.error x
        | .ok r => match recordFault inM r with
          | some x => .error x
          | none => .ok r
      match recs.findSome? fun x => match x with
        | .error c => some c
        | .ok _ => none with
      | some x => .access x s
      | none =>
        let oks := recs.filterMap fun x => match x with
          | .ok r => some r
          | .error _ => none
        let first := (oks[0]?).getD 0
        match d with
        | .b n => Res.ofTry s (s.writeB n.toNat first (oks.all (· == first)))
        | _ => .done s

def execBufq (h : Hdr) (fld : BitVec 2) (d a : Spec) (s : State) : Host.Outcome State Fault Refusal :=
  issue h [d] [a] s fun s => s.arith h d fun _ =>
    let r := s.record a
    BitVec.ofNat 64 (match fld.toNat with
      | 0 => recBase r | 1 => recExt r | 2 => recStr r | _ => recField r 104 16)

def execLfmr (h : Hdr) (clr : Bool) (d : Spec) (s : State) : Host.Outcome State Fault Refusal :=
  issue h [d] [] s fun s =>
    if !s.uniform h then .done s
    else
      let x := s.curG.lfm
      match s.writeTo d (s.resultLanes h d) fun _ => x.zeroExtend 64 with
      | .error (c, info) => .trap c info s
      | .ok s => .done (if clr then s.modCur fun g => { g with lfm := 0 } else s)

/-! ### FENCE and WAITT (R251, R252) -/

/-- The kinds a fence covers (R251). -/
def fenceCovers (m : FenceM) (k : AccKind) : Bool :=
  match k with
  | .load | .deq | .accld => m.ldK
  | .store | .quant | .accst => m.stK
  | .atom => m.ldK || m.atK
  | .red | .redq => m.atK

/-- The MLOOPs of a group: queued, running, or saved over a switch. -/
def State.loopsOf (s : State) (gid : Nat) : List MLoop :=
  (s.subs.flatMap fun c => c.2.mloops.filter (·.gid == gid)) ++ s.savedLoops gid

def tokenOf (d : Spec) : Nat := match d with
  | .k n => n.toNat
  | _ => 0

def execFence (h : Hdr) (m : FenceM) (d : Spec) (s : State) : Host.Outcome State Fault Refusal :=
  issue h [d] [] s fun s =>
    let tid := s.curG.team
    let tok := tokenOf d
    if !s.uniform h then .done s
    else if 65535 ≤ (s.curT.token tok).count then .hold s
    else
      let mine (gid : Nat) (sl : BitVec 8) : Bool := gid == s.cur.gid && sl &&& s.cur.slices != 0
      let f : Fence := {
        team := tid
        tok := tok
        tile := s.curTile
        scope := m.sc.toNat
        ld := m.ldK
        accs := (s.accs.filter fun p => mine p.2.gid p.2.order && fenceCovers m p.2.kind).map (·.1)
        copies := if m.eng then (s.copies.filter fun p => mine p.2.gid p.2.slices).map (·.1) else []
        loops := if m.eng then ((s.loopsOf s.cur.gid).filter fun x => mine x.gid x.slices).map (·.id) else []
        st := m.stK && 2 ≤ m.sc.toNat && hasL1 s.curTile
        flushed := false
        wbs := [] }
      let s := s.modToken tid tok fun k => { k with count := k.count + 1, byTokset := false }
      let (k, s) := s.fresh
      .done { s with fences := s.fences.set k f }

def execWaitt (h : Hdr) (s : State) : Host.Outcome State Fault Refusal := issue h [] [] s Res.done

/-- FENCE_COMPLETE (R251): once the covered accesses have performed and, for stores at cluster scope or wider, the tile's
dirty bytes have been accepted, the acquire side applies and the token is decremented. Assumption 8 (DESIGN CHOICE). -/
def execFenceComplete (k : Nat) (s : State) : Host.Outcome State Fault Refusal :=
  match s.fences.get? k with
  | none => .next s
  | some f =>
    if f.accs.any (fun i => (s.accs.get? i).isSome) || f.copies.any (fun i => (s.copies.get? i).isSome)
        || f.loops.any s.loopPending then .next s
    else
      let (f, s) := if f.st && !f.flushed then
          let (wbs, s) := s.writeBackAll f.tile
          ({ f with flushed := true, wbs := wbs }, s)
        else (f, s)
      if f.wbs.any s.inFlight then .next { s with fences := s.fences.set k f }
      else
        let s := { s with fences := s.fences.del k }
        let s := if f.ld && 2 ≤ f.scope then s.acquireAt f.tile f.scope else s
        .next (s.decTokenAt f.team f.tok f.scope)

end Sys2Proof.Machine
end

