-- ==== Sys2Proof/Machine/System.lean ====
section
/-! DEFINITION. The system instructions (R321-R327), the CSRs (R328, R329, R335, R307, R314), and the traps only the
stage manager takes (R330). -/

namespace Sys2Proof.Machine

/-! ### Privilege (R322) -/

/-- U, S and M as numbers. -/
def Level.rank : Level → Nat
  | .u => 0 | .s => 1 | .m => 2

/-- TINFO of `PRIV`: reason, write, CSR number. -/
def privInfo (reason : Nat) (write : Bool) (csr : Nat) : W64 :=
  BitVec.ofNat 64 (reason * 2 ^ 56 + (if write then 256 else 0) + csr % 64)

/-- An instruction below its level. -/
def needLevel (n : Nat) (s : State) : Option (Cause × W64) :=
  if s.curG.level.rank < n then some (.priv, privInfo 1 false 0) else none

/-- The lowest levels that may read and write a CSR; 3 for none, and nothing for a number the map leaves unassigned. -/
def csrLevels (n : Nat) : Option (Nat × Nat) :=
  match n with
  | 0x00 => some (0, 2)
  | 0x01 | 0x02 | 0x03 | 0x04 | 0x05 | 0x06 => some (1, 1)
  | 0x08 | 0x09 | 0x0A | 0x0B => some (1, 1)
  | 0x0C => some (1, 2)
  | 0x0D => some (1, 1)
  | 0x0E => some (0, 1)
  | 0x0F => some (0, 3)
  | 0x10 => some (0, 1)
  | 0x11 | 0x12 | 0x13 => some (1, 1)
  | _ => none

/-- The grant a CSR access needs is absent (R328): COHG, or SSG for a write of SSTAB in S mode. -/
def State.grantAbsent (s : State) (n : Nat) (write : Bool) : Bool :=
  let ctx := s.ctxOf s.curG
  if n = 0x11 || n = 0x12 then !s.ctxCohg ctx
  else n == 0x13 && write && s.curG.level == .s && !s.ctxSsg ctx

/-- Checks 4 and 5 of R54 for a CSR access (R321, R322). -/
def csrCheck (n : Nat) (write : Bool) (s : State) : Option (Cause × W64) :=
  let onSm : Bool := s.curG.level == .m && ((0x08 ≤ n && n ≤ 0x0B) || (0x0E ≤ n && n ≤ 0x12))
  match csrLevels n with
  | none => some (.ill, s.cur.word)
  | some (r, w) =>
    if onSm then some (.ill, s.cur.word)
    else if s.curG.level.rank < (if write then w else r) then some (.priv, privInfo 2 write n)
    else if s.grantAbsent n write then some (.priv, privInfo 3 write n)
    else none

/-! ### The CSRs (R328) -/

/-- The die and offset COHADDR selects (R122). -/
def cohSel (x : W64) : Nat × Nat := (field x 16 1, field x 0 16)

/-- GEARREQ (R314). -/
def State.gearReq (s : State) : W64 :=
  let t := s.curT
  BitVec.ofNat 64 ((if t.req then 1 else 0) + (if s.teamIdle t then 2 else 0) + (if (s.tile t.tile).gear then 4 else 0)
    + if s.fok t.tile then 8 else 0)

/-- THROT (R314). -/
def State.throtRead (s : State) : W64 :=
  BitVec.ofNat 64 (s.issueCode s.curTile + if s.critOn s.curTile then 16 else 0)

/-- A CSR as the issuing sub-gang reads it. -/
def State.csrRead (s : State) (n : Nat) : W64 :=
  let g := s.curG
  let c := s.subOf s.cur.gid
  match n with
  | 0x00 => BitVec.ofNat 64 (s.ctxOf g)
  | 0x01 => s.tvecOf g
  | 0x02 => g.tcause
  | 0x03 => g.tpc
  | 0x04 => g.tinfo
  | 0x05 => g.tscratch
  | 0x06 => g.tstate
  | 0x08 => c.accown
  | 0x09 => c.acclive.zeroExtend 64
  | 0x0A => g.accsel.zeroExtend 64
  | 0x0B => c.acctag.getD (g.accsel.toNat % 8) 0
  | 0x0C => s.dev.ctxtab
  | 0x0D => BitVec.ofNat 64 (field (s.ctxWord (s.ctxOf g) 5) 0 56)
  | 0x0E => s.gearReq
  | 0x0F => s.throtRead
  | 0x10 => (s.tile s.curTile).cslew
  | 0x11 => g.cohaddr
  | 0x12 => s.cohRegRead (cohSel g.cohaddr).1 (cohSel g.cohaddr).2
  | 0x13 => s.dev.sstab
  | _ => 0

/-- Write a word of a context-table entry (R328). Assumption 11 (DEDUCED). -/
def State.setCtxWord (s : State) (ctx w : Nat) (x : W64) : State :=
  s.cohWrite (s.dev.ctxtab.toNat + 64 * ctx + 8 * w) 8 x.toNat

/-- The bits `[lo+len-1 : lo]` alone. -/
def keepField (x : W64) (lo len : Nat) : W64 := BitVec.ofNat 64 (field x lo len * 2 ^ lo)

/-- TSTATE after a write (R329): IE and PIE only in M mode; reserved bits read zero. -/
def tstateWrite (m : Bool) (old x : W64) : W64 :=
  let keep := keepField x 0 32 ||| keepField x 32 8 ||| keepField x 44 2
  keep ||| (if m then keepField x 46 2 else keepField old 46 2)

/-- The writable fields of ACCTAG (R335). -/
def acctagFields (x : W64) : W64 :=
  keepField x 63 1 ||| keepField x 24 36 ||| keepField x 20 4 ||| keepField x 8 5 ||| keepField x 0 2

/-- A write of a CSR. -/
def State.csrWrite (s : State) (n : Nat) (x : W64) : State :=
  let g := s.curG
  let inM : Bool := g.level == .m
  let q := s.cur.gid
  match n with
  | 0x00 => { s with sm := { s.sm with ctxid := keepField x 0 4 } }
  | 0x01 => if inM then { s with sm := { s.sm with tvec := keepField x 0 56 } } else s.setCtxWord (s.ctxOf g) 4 (keepField x 0 56)
  | 0x02 => s.modCur fun g => { g with tcause := keepField x 0 8 }
  | 0x03 => s.modCur fun g => { g with tpc := keepField x 0 56 }
  | 0x04 => s.modCur fun g => { g with tinfo := x }
  | 0x05 => s.modCur fun g => { g with tscratch := x }
  | 0x06 => s.modCur fun g => { g with tstate := tstateWrite inM g.tstate x }
  | 0x08 => s.modSubOf q fun c => { c with accown := keepField x 0 5 }
  | 0x09 => s.modSubOf q fun c => { c with acclive := x.truncate 8 }
  | 0x0A => s.modCur fun g => { g with accsel := x.truncate 4 }
  | 0x0B => s.modSubOf q fun c => { c with acctag := c.acctag.set (g.accsel.toNat % 8) (acctagFields x) }
  | 0x0C => { s with dev := { s.dev with ctxtab := keepField x 10 42 } }
  | 0x0D => s.setCtxWord (s.ctxOf g) 5 (keepField x 0 56)
  | 0x0E => s.setReq g.team (x.getLsbD 0)
  | 0x10 => s.modTile s.curTile fun t => { t with cslew := keepField x 0 24 }
  | 0x11 => s.modCur fun g => { g with cohaddr := x }
  | 0x12 => s.cohRegWrite false (cohSel g.cohaddr).1 (cohSel g.cohaddr).2 x
  | 0x13 => { s with dev := { s.dev with sstab := keepField x 16 36 } }
  | _ => s

def execCsrr (h : Hdr) (csr : BitVec 6) (d : Spec) (s : State) : Host.Outcome State Fault Refusal :=
  issueWith (csrCheck csr.toNat false) h [d] [] s fun s => s.arith h d fun _ => s.csrRead csr.toNat

def execCsrw (h : Hdr) (csr : BitVec 6) (a : Spec) (s : State) : Host.Outcome State Fault Refusal :=
  issueWith (csrCheck csr.toNat true) h [] [a] s (fun s =>
    .done (if s.uniform h then s.csrWrite csr.toNat (s.leaderSrc h .zx64 a) else s)) (uniformEffect h)

/-! ### Traps by instruction, and the return (R323, R324) -/

def execTrap (h : Hdr) (a : Spec) (s : State) : Host.Outcome State Fault Refusal :=
  issue h [] [a] s (fun s => if s.uniform h then .trapNext .trap (s.leaderSrc h .zx64 a) s else .done s) (uniformEffect h)

def execBkpt (h : Hdr) (s : State) : Host.Outcome State Fault Refusal :=
  issue h [] [] s fun s => if s.uniform h then .trap .bkpt 0 s else .done s

/-- ERET: a group that a switch-out gave `PREEMPT` stops at TPC (R332). -/
def execEret (h : Hdr) (s : State) : Host.Outcome State Fault Refusal :=
  issueWith (needLevel 1) h [] [] s fun s =>
    if !s.uniform h then .done s
    else if s.cur.slices != s.curG.tstate.extractLsb' 32 8 then .trap .ill s.cur.word s
    else
      let s := s.returnTrap s.cur.gid s.cur.slices
      .jump (if s.curG.preempting then s.halt s.cur.gid else s)

/-! ### HALT and WFI (R326) -/

def execHalt (h : Hdr) (s : State) : Host.Outcome State Fault Refusal :=
  issueWith (needLevel 1) h [] [] s fun s =>
    let g := s.curG
    if !s.uniform h then .done s
    else if g.level = .m then .done { s with sm := { s.sm with halted := true } }
    else
      .jump ((s.fqPost 7 s.curPc.toNat (s.ctxOf g) s.curTile g.q (g.tcause.toNat % 256) g.idx).endAll s.cur.gid)

def execWfi (h : Hdr) (s : State) : Host.Outcome State Fault Refusal :=
  issueWith (needLevel 2) h [] [] s fun s =>
    if !s.uniform h || s.smPending then .done s
    else .wait (s.modCur fun g => g.setWait s.cur.slices .wfi)

/-! ### TLBI (R327) -/

/-- TLBI.ALL needs M mode, or S mode with SSG. Assumption 39 (DEDUCED). -/
def tlbiCheck (kind : BitVec 2) (s : State) : Option (Cause × W64) :=
  match needLevel 1 s with
  | some x => some x
  | none =>
    if kind = 2 && s.curG.level == .s && !s.ctxSsg (s.ctxOf s.curG) then some (.priv, privInfo 1 false 0) else none

/-- An access that has not begun: it waits for another, or for its accumulator tile. -/
def State.unbegun (s : State) (a : Access) : Bool :=
  (!a.gate.isEmpty || s.accHeld a) && a.lines.all fun l => l.status == .todo

/-- An access with a line translated and under way. One that has not begun is translated again, one that is logged when it is
retried, one of a cluster that is switched out at its restore. -/
def State.translated (s : State) (a : Access) : Bool :=
  !a.isLocal && s.accTile a != awayTile && !s.unbegun a && !(a.lines.any fun l => l.status == .missing)

/-- A cached entry that a TLBI covers: those of its page, or of any table above it. -/
def Tlbi.covers (x : Tlbi) (t : TlbEntry) : Bool :=
  match x.kind with
  | 0 => t.ctx == x.ctx
      && (if t.lvl == 1 && pteC64 t.pte then t.vpre / 16 == x.va / 65536 else t.vpre == x.va / 2 ^ levelShift t.lvl)
  | 1 => t.ctx == x.ctx
  | _ => true

/-- A line that may lie in a page a TLBI covers: the largest page has 1 GiB. Assumption 12 (DESIGN CHOICE). -/
def Tlbi.reaches (x : Tlbi) (ctx l : Nat) : Bool :=
  match x.kind with
  | 0 => ctx == x.ctx && l * 128 / 2 ^ 30 == x.va / 2 ^ 30
  | 1 => ctx == x.ctx
  | _ => true

/-- Remove what a TLBI covers. Assumption 12 (DESIGN CHOICE). -/
def State.dropTlb (s : State) (x : Tlbi) : State :=
  let keep (l : List TlbEntry) : List TlbEntry := l.filter fun t => !x.covers t
  { s with
    dev := { s.dev with tcache := s.dev.tcache.map fun p => (p.1, keep p.2) }
    tiles := s.tiles.map fun p => (p.1, { p.2 with tlb := keep p.2.tlb, stripe := if x.kind = 2 then [] else p.2.stripe }) }

/-- An access ends with `ACCESS`, found after its issue. Assumption 82 (DESIGN CHOICE). -/
def State.failLate (s : State) (k va r : Nat) : State :=
  (s.modAcc k fun a => { a with failed := some (.access, accessInfo true r va), elems := [] }).finishAcc k

/-- An LFM store is dropped with an entry of kind 5 (R67). -/
def State.dropLfm (s : State) (k : Nat) (a : Access) : State :=
  let g := s.group a.gid
  let va := (a.lines.headD ⟨0, 0, false, .todo⟩).va + (a.elems.headD ⟨0, 0, 0, 0, 0, 0, 0, none⟩).off
  (s.fqPost 5 va (s.ctxOf g) (s.accTile a) g.q 0xFF 0).finishAcc k

/-- Translate the lines of an access that has not begun again: one whose line is not present takes an entry of the operand
log, or, where it has one, posts its entries again (R76, R78). Assumption 12 (DESIGN CHOICE). Assumption 82 (DESIGN CHOICE). -/
def State.retranslate (s : State) (k : Nat) : State :=
  match s.accs.get? k with
  | none => s
  | some a =>
    if s.accTile a = awayTile || a.isLocal || !s.unbegun a then s
    else
      let g := { s.group a.gid with level := a.level }
      let lines := a.lines.map fun l => l.va / 128
      let (ends, s) := s.lineTargets g a.space a.kind lines
      match firstRefused lines ends with
      | some (va, r) => if a.isLfm then s.dropLfm k a else s.failLate k va r
      | none =>
        let a := { a with lines := (lines.zip ends).map fun p => lineOf (p.1 * 128) p.2 }
        if a.isLfm && ends.contains .missing then s.dropLfm k a
        else
          let s := s.modAcc k fun _ => a
          if a.log.isSome then s.postMissing a else s.enterLog k

/-- What a TLBI does as it issues: the cached entries it covers go; a copy keeps only the translations of lines under way, and
accesses that have not begun translate again. Assumption 12 (DESIGN CHOICE). -/
def State.dropTranslations (s : State) (x : Tlbi) : State :=
  let s := s.dropTlb x
  let s : State := { s with copies := s.copies.map fun p =>
    (p.1, { p.2 with phys := p.2.phys.filter fun y => p.2.asked.contains y.1 || p.2.owned.contains y.1 }) }
  (s.accs.map (·.1)).foldl (fun s k => s.retranslate k) s

/-- A prefetch, or an increment of the distributor: a request with a translation that no access or copy stands for. -/
def Req.translatedAlone (r : Req) : Bool :=
  match r.tag with
  | .pref _ _ => true
  | .ext => r.ev == evAtomic && r.tile < 0x200
  | _ => false

def execTlbi (h : Hdr) (kind : BitVec 2) (d a : Spec) (s : State) : Host.Outcome State Fault Refusal :=
  issueWith (tlbiCheck kind) h [d] [a] s (fun s =>
    let tid := s.curG.team
    let tok := tokenOf d
    if !s.uniform h then .done s
    else if 65535 ≤ (s.curT.token tok).count then .hold s
    else
      let x : Tlbi := {
        team := tid, tok := tok, kind := kind.toNat, ctx := s.ctxOf s.curG, va := field (s.leaderSrc h .zx64 a) 0 56
        accs := (s.accs.filter fun p => s.translated p.2).map (·.1)
        copies := s.copies.map (·.1)
        flushed := false
        wbs := (s.flying.filter Req.translatedAlone).map (·.id) }
      let s := s.modToken tid tok fun k => { k with count := k.count + 1, byTokset := false }
      let (k, s) := s.fresh
      .done ({ s with tlbis := s.tlbis.set k x }.dropTranslations x)) (uniformEffect h)

/-- A copy whose walk is paused keeps its lines (R137), and the TLBI does not wait for it: it translates those that the TLBI
covers again before it writes them. Assumption 85 (DESIGN CHOICE). -/
def State.markStale (s : State) (x : Tlbi) (cid : Nat) : State :=
  s.modCopy cid fun c =>
    if c.paused.isNone then c else { c with stale := (c.stale ++ c.owned.filter (x.reaches c.ctx)).eraseDups }

/-- What a TLBI waits for has performed. -/
def State.tlbiReady (s : State) (x : Tlbi) : Bool :=
  !(x.accs.any fun k => (s.accs.get? k).isSome) && !x.copies.any fun k => match s.copies.get? k with
    | some c => c.asked.any (x.reaches c.ctx) || (c.owned.any fun l => x.reaches c.ctx l && !c.stale.contains l)
      || c.outs.any s.inFlight
    | none => false

/-- Write back every dirty line of every tile; the numbers of all requests not yet accepted that carry dirty bytes. -/
def State.writeBackTiles (s : State) : List Nat × State :=
  (s.tiles.filter fun p => hasL1 p.1).foldl (fun (x : List Nat × State) p =>
    let (ks, s) := x.2.writeBackAll p.1
    (x.1 ++ ks, s)) ([], s)

/-- TLBI_COMPLETE (R327): the accesses, copies, prefetches and increments under way with translations made before it have
performed, and what they left dirty in an L1 has been accepted. Assumption 12 (DESIGN CHOICE). -/
def execTlbiComplete (k : Nat) (s : State) : Host.Outcome State Fault Refusal :=
  match s.tlbis.get? k with
  | none => .next s
  | some x =>
    let s := x.copies.foldl (fun s c => s.markStale x c) s
    if !s.tlbiReady x || (!x.flushed && x.wbs.any s.inFlight) then .next s
    else
      let (x, s) : Tlbi × State := if x.flushed then (x, s) else
        let (ks, s) := s.writeBackTiles
        ({ x with flushed := true, wbs := ks }, s)
      if x.wbs.any s.inFlight then .next { s with tlbis := s.tlbis.set k x }
      else .next ((({ s with tlbis := s.tlbis.del k }).dropTlb x).decToken x.team x.tok)

/-! ### THERMAL and TIMER (R330) -/

/-- The stage manager takes an asynchronous trap (R316, R317). -/
def State.smTrap (s : State) (c : Cause) : State :=
  let g := s.group 0
  match g.gangs.find? fun x => x.slices.getLsbD (g.liveSlices.headD 8) with
  | some x => s.takeTrap 0 x.slices c (g.pcOf x.slices) 0
  | none => s

/-- The stage manager can take one: IE = 1, and no handler is running (R330). -/
def State.smOpen (s : State) : Bool := !s.sm.halted && (s.group 0).takesEvents

def execThermal (s : State) : Host.Outcome State Fault Refusal :=
  .next (if s.smOpen && !s.sm.evseq.isEmpty then s.smTrap .thermal else s)

def execTimer (s : State) : Host.Outcome State Fault Refusal :=
  .next (if s.smOpen && s.sm.evseq.isEmpty && s.sm.timerPend != 0 then
    ({ s with sm := { s.sm with timerPend := s.sm.timerPend - 1 } }).smTrap .timer else s)

end Sys2Proof.Machine
end

