-- ==== Sys2Proof/Machine/Admit.lean ====
section
/-! DEFINITION. Placing teams: the grants of a tile (R30, R31, R286), rectangles (R284), the mapping of accumulator tiles
(R374), save-record accesses (R333), the launch's records (R391), and the admission of a cluster (R286). -/

namespace Sys2Proof.Machine

/-! ### Grants (R30, R31) -/

/-- The teams a tile holds; a team's grants last until it ends. Assumption 46 (DEDUCED). -/
def State.teamsAt (s : State) (tile : Nat) : List Team :=
  (s.teams.filter fun t => t.2.tile == tile && !t.2.ended).map (·.2)

def State.granulesUsed (s : State) (tile : Nat) : List Nat := (s.teamsAt tile).flatMap (·.gmap)

/-- Groups with scheduling state on a sub-core. Assumption 46 (DEDUCED). -/
def State.groupsGranted (s : State) (tile q : Nat) : List Nat :=
  ((s.teamsAt tile).flatMap (·.groups)).filter fun i => (s.group i).q == q

/-- Physical accumulator tiles granted on a sub-core. Assumption 46 (DEDUCED). -/
def State.tilesGranted (s : State) (tile q : Nat) : List Nat :=
  (s.groupsGranted tile q).flatMap fun i => (s.group i).phys

/-- How many of a team's groups sub-core `q` takes (R13). -/
def Packet.groupsOn (p : Packet) (q : Nat) : Nat := (p.ngroup + 3 - q) / 4

/-- A tile can admit a team, but for its fly-loft space (R286). -/
def State.fits (s : State) (p : Packet) (tile : Nat) : Bool :=
  decide ((s.granulesUsed tile).length + p.lgran ≤ 256) && (List.range 4).all fun q =>
    (s.tilesGranted tile q).length + p.groupsOn q * p.acc ≤ 8
      && (s.groupsGranted tile q).length + p.groupsOn q ≤ 64

/-- Bytes of fly loft granted on a die. -/
def State.loftUsed (s : State) (die : Nat) : Nat :=
  ((s.teams.filter fun t => t.2.tile < awayTile && dieOf t.2.tile == die && !t.2.ended).map fun t =>
    (t.2.groups.map fun i => (s.group i).regs * 256).sum).sum

/-- Fly-loft space of a die. -/
def loftBytes : Nat := 67108864

/-! ### Rectangles (R284) -/

/-- A logical tile is present: LCMAP bit 7 (R284). Assumption 61 (DESIGN CHOICE). -/
def State.tilePresent (s : State) (n : Nat) : Bool := (s.dist.lcmap.getD n (lcmapReset n)).getLsbD 7

/-- The tiles of a rectangle from its origin, row-major; none where it leaves the die. -/
def rectOf (p : Packet) (n : Nat) : Option (List Nat) :=
  if 8 < n % 96 / 12 + p.h || 12 < n % 12 + p.w then none
  else some ((List.range (p.w * p.h)).map fun i => n + 12 * (i / p.w) + i % p.w)

/-- The first rectangle that fits; `need` tells which teams of the cluster have to be admitted. -/
def State.findRect (s : State) (p : Packet) (need : Nat → Bool) : Option (List Nat) :=
  (List.range 192).findSome? fun n =>
    match rectOf p n with
    | none => none
    | some ts =>
      let ok := (List.range ts.length).all fun i =>
        let t := (ts[i]?).getD 0
        s.tilePresent t && (!need i || s.fits p t)
      let bytes := ((List.range ts.length).filter need).length * (p.ngroup * p.regs * 4096)
      if ok && s.loftUsed (dieOf n) + bytes ≤ loftBytes then some ts else none

/-! ### Accumulator tiles (R374) -/

/-- Tile `n` of a group takes the physical tile that carries its tag, else the lowest one not granted.
Assumption 45 (DESIGN CHOICE). -/
def State.mapTile (s : State) (gid n : Nat) : State :=
  let g := s.group gid
  let tile := (s.team g.team).tile
  let used := s.tilesGranted tile g.q
  let free := (List.range 8).filter fun p => !used.contains p
  let tagged := free.find? fun p => (s.sub tile g.q).acctag.getD p 0 == s.accTag g n
  let p := tagged.getD (free.headD 0)
  s.modGroup gid fun g => { g with phys := g.phys ++ [p] }

def State.mapTiles (s : State) (gid : Nat) : State :=
  (List.range (s.group gid).accN).foldl (fun s n => s.mapTile gid n) s

/-! ### The register file (R31) -/

/-- A group in the fly loft becomes resident if there is room (R286). -/
def State.takeRoom (s : State) (gid : Nat) : State :=
  let room := s.roomFor gid
  let (n, s) := s.fresh
  s.modGroup gid fun g => if g.ended then g else { g with place := if room then .pool else .loft, age := n, since := n }

/-! ### Local store (R148, R150) -/

/-- The granules a team takes: the lowest free ones (a choice of the model). Assumption 45 (DESIGN CHOICE). -/
def State.freeGranules (s : State) (tile n : Nat) : List Nat :=
  let used := s.granulesUsed tile
  ((List.range 256).filter fun g => !used.contains g).take n

/-- Clear granules: bytes zero, descriptors zero, no busy bit, no error. -/
def State.clearGranules (s : State) (tile : Nat) (gs : List Nat) : State :=
  gs.foldl (fun s g =>
    let s := s.modTile tile fun t => { t with
      store := t.store.clear (g * 4096) 4096
      storeDesc := t.storeDesc.filter fun p => p.1 / 64 != g
      busy := t.busy.filter fun p => p.1 / 64 != g }
    { s with bad := s.bad.filter fun p => match p with
      | .store t b => !(t == tile && b / 64 == g)
      | _ => true }) s

/-! ### Save records (R333) -/

/-- The block of team `i` of cluster `c` in the save records of a context. Assumption 40 (DESIGN CHOICE). -/
def State.saveBase (s : State) (ctx c i : Nat) : Nat := field (s.ctxWord ctx 2) 16 40 * 65536 + 50331648 * c + 4194304 * i

/-- A cluster has a save record (R285, R332). -/
def State.switchable (s : State) (cid : Nat) : Bool :=
  let c := s.cluster cid
  c.idx < s.ctxNrec (s.launch c.launch).ctx

/-- Write bytes of one line of a save record. A line that is not present, or whose walk ends in `ACCESS`, is not written
and costs an entry of kind 1. -/
def State.saveBytes (s : State) (tile ctx va n x : Nat) : State :=
  match s.translate tile ctx va false .w with
  | (.ok l _, s) => if isPeerLine l then s else s.cohWrite (l * 128 + va % 128) n x
  | (_, s) => s.fqPost 1 (va / 128 * 128) ctx tile 0xFF 0xFF 0

/-- Write ACCSV = 0 at first admission: a line that fails is not written, and R333 gives an entry at switch-out only.
Assumption 41 (DEDUCED). -/
def State.clearAccsv (s : State) (tile ctx va : Nat) : State :=
  match s.translate tile ctx va false .w with
  | (.ok l _, s) => if isPeerLine l then s else s.cohWrite (l * 128 + va % 128) 8 0
  | (_, s) => s

/-- Write whole lines from an address on. -/
def State.saveLines (s : State) (tile ctx : Nat) : Nat → List Nat → State
  | _, [] => s
  | va, x :: r => (s.saveBytes tile ctx va 128 x).saveLines tile ctx (va + 128) r

/-- `n` bytes of a line as the distributor and a switch read it, at system scope. A peer's line is free: its home is
outside. Assumption 23 (DESIGN CHOICE). -/
def State.lineBytes (s : State) (line off n : Nat) : Nat × State :=
  if isPeerLine line then
    let (x, s) := s.takeFree
    (x % 256 ^ n, s)
  else (bytesOf (s.cohLine line).1 off n, s)

/-- Read a line of a save record: zero bytes, and an entry of kind 0, where it fails. -/
def State.savedLine (s : State) (tile ctx va : Nat) : Nat × State :=
  match s.translate tile ctx va false .r with
  | (.ok l _, s) => s.lineBytes l 0 128
  | (_, s) => (0, s.fqPost 0 va ctx tile 0xFF 0xFF 0)

/-- Read `n` lines from an address on. -/
def State.savedLines (s : State) (tile ctx : Nat) : Nat → Nat → List Nat × State
  | _, 0 => ([], s)
  | va, n + 1 =>
    let (x, s) := s.savedLine tile ctx va
    let (r, s) := s.savedLines tile ctx (va + 128) n
    (x :: r, s)

/-- Word 0 of a group's state area, ACCSV. -/
def State.accsvVa (s : State) (ctx c i g : Nat) : Nat := s.saveBase ctx c i + 0x388000 + 4096 * g

/-! ### The records at RECVA (R391) -/

/-- What reading the launch's records comes to. -/
inductive Recs where
  | ok (recs : List (BitVec 256))
  | wait (va : Nat)
  | refuse

/-- Walk lines of a context as the distributor does. -/
def State.walkAll (s : State) (tile ctx : Nat) (need : Right) : List Nat → List WalkRes × State
  | [] => ([], s)
  | l :: r =>
    let (x, s) := s.translate tile ctx (l * 128) false need
    let (xs, s) := s.walkAll tile ctx need r
    (x :: xs, s)

/-- The sixteen records; a record lies in one line. -/
def State.takeRecs (s : State) (lines : List (Nat × Nat)) : List Nat → List (BitVec 256) × State
  | [] => ([], s)
  | va :: r =>
    let l := ((lines.find? fun p => p.1 == va / 128).map (·.2)).getD 0
    let (x, s) := s.lineBytes l (va % 128) 32
    let (xs, s) := s.takeRecs lines r
    (BitVec.ofNat 256 x :: xs, s)

/-- The records of a launch from RECVA, or the failure of a line (R281, R286). Assumption 47 (DESIGN CHOICE). -/
def State.readRecs (s : State) (tile ctx va : Nat) : Recs × State :=
  let ls := (List.range ((va + 511) / 128 + 1 - va / 128)).map fun i => va / 128 + i
  let (ends, s) := s.walkAll tile ctx .r ls
  let acc := ends.any fun e => match e with
    | .access _ => true
    | _ => false
  let miss := (ls.zip ends).find? fun e => match e.2 with
    | .missing => true
    | _ => false
  if acc then (.refuse, s)
  else
    match miss with
    | some (l, _) => (.wait (l * 128), s)
    | none =>
      let lines := (ls.zip ends).map fun e => match e.2 with
        | .ok p _ => (e.1, p)
        | _ => (e.1, 0)
      let (xs, s) := s.takeRecs lines ((List.range 16).map fun i => va + 32 * i)
      (.ok xs, s)

/-! ### Refusals (R281) -/

/-- EN = 0 and ERR = code. -/
def State.refuseQueue (s : State) (q code : Nat) : State :=
  let x := s.dist.lqctl.getD q 0
  { s with dist := { s.dist with lqctl := s.dist.lqctl.set q (setField (setField x 3 1 0) 8 8 code) } }

/-- A launch is refused after its copy (R391): no further cluster of it is placed. -/
def State.refuseLaunch (s : State) (lid : Nat) : State :=
  (s.refuseQueue (s.launch lid).queue 0x0A).modLaunch lid fun l => { l with refused := true }

/-- A cluster whose admission waits goes, with its grants. -/
def State.dropCluster (s : State) (cid : Nat) : State :=
  let c := s.cluster cid
  let gids := c.teams.flatMap fun i => (s.team i).groups
  let tiles := c.teams.map fun i => (s.team i).tile
  let s := { s with
    groups := gids.foldl (fun t i => t.del i) s.groups
    teams := c.teams.foldl (fun t i => t.del i) s.teams
    clusters := s.clusters.del cid }
  tiles.foldl (fun s t => s.arbitrate t) s

/-! ### Admission (R286) -/

/-- The slices of a group whose lanes below LIVE are live (R12). -/
def startSlices (pc live : Nat) : List Slice :=
  (List.range 8).map fun i => Slice.start (BitVec.ofNat 56 pc) (BitVec.ofNat 4 (2 ^ min 4 (live - 4 * i) - 1))

/-- Group `g` of a team as its launch starts it (R10, R14, R30). -/
def Packet.newGroup (p : Packet) (tid g : Nat) : Group :=
  { Group.blank with
    team := tid
    idx := g
    regs := 16 * p.regs
    accN := p.acc
    slices := startSlices p.codeva p.live
    gangs := [⟨maskOf (those 8 fun i => 4 * i < p.live), .none, 0⟩]
    place := .loft
    stopped := true }

/-- Add group `g` of a team. -/
def State.addGroup (s : State) (p : Packet) (tid g : Nat) : State :=
  let (gid, s) := s.fresh
  ((s.setGroup gid (p.newGroup tid g)).modTeam tid fun t => { t with groups := t.groups ++ [gid] }).mapTiles gid

/-- Add team `i` of a cluster on a tile: its grants, its local store cleared. -/
def State.addTeam (s : State) (cid i tile : Nat) (p : Packet) : State :=
  let (tid, s) := s.fresh
  let gs := s.freeGranules tile p.lgran
  let s := (s.clearGranules tile gs).setTeam tid { Team.blank with
    cluster := cid, idx := i, tile := tile, lgran := p.lgran, gmap := gs, prod := p.prod, admitted := tid }
  let s := s.modCluster cid fun c => { c with teams := c.teams ++ [tid] }
  (List.range p.ngroup).foldl (fun s g => s.addGroup p tid g) s

/-- The rest of an admission, once the records are read: `b0`-`b15` of every group, ACCSV zero (R333), R153 at system
scope (R256), the gear (R300), residence (R31). -/
def State.startCluster (s : State) (cid : Nat) (recs : List (BitVec 256)) : State :=
  let c := s.cluster cid
  let ctx := (s.launch c.launch).ctx
  c.teams.foldl (fun s tid =>
    let t := s.team tid
    let s := if s.switchable cid then
        t.groups.foldl (fun s i => s.clearAccsv t.tile ctx (s.accsvVa ctx c.idx t.idx (s.group i).idx)) s
      else s
    let s := (s.acquireAt t.tile 4).arbitrate t.tile
    t.groups.foldl (fun s i =>
      (s.modGroup i fun g => { g with
        stopped := false
        b := (List.range 16).map fun n => (n, (recs[n]?).getD 0) }).takeRoom i) s) s

/-- Read the records of a cluster that has its grants, and start it, wait, or refuse the launch (R391). -/
def State.tryStart (s : State) (lid cid : Nat) : State :=
  let l := s.launch lid
  let t := s.team (((s.cluster cid).teams.head?).getD 0)
  match s.readRecs t.tile l.ctx l.pkt.recva with
  | (.ok recs, s) => (s.modLaunch lid fun l => { l with waiting := 0 }).startCluster cid recs
  | (.wait va, s) => (s.modLaunch lid fun l => { l with waiting := cid }).fqPost 0 va l.ctx t.tile 0xFF 0xFF 0
  | (.refuse, s) =>
    ((s.modLaunch lid fun l => { l with waiting := 0, next := l.next - 1 }).dropCluster cid).refuseLaunch lid

/-- Admit the next cluster of a launch on a rectangle. -/
def State.admitNext (s : State) (lid : Nat) (ts : List Nat) : State :=
  let l := s.launch lid
  let (cid, s) := s.fresh
  let prio := field (s.dist.lqctl.getD l.queue 0) 0 3
  let s := { s with clusters := s.clusters.set cid { Cluster.blank with
    launch := lid, idx := l.next, prio := prio, placedAt := cid } }
  let s := s.modLaunch lid fun l => { l with next := l.next + 1 }
  let s := (List.range ts.length).foldl (fun s i => s.addTeam cid i ((ts[i]?).getD 0) l.pkt) s
  s.tryStart lid cid

end Sys2Proof.Machine
end

