-- ==== Sys2Proof/Machine/Matrix.lean ====
section
/-! DEFINITION. The matrix unit (R224-R243): checks, MMA and its quad meeting, the sequencer of MLOOP, SMX, and the
instructions that clear, load, store, move and query accumulator tiles. -/

namespace Sys2Proof.Machine

/-! ### Checks 1 to 5 of R230 -/

/-- The number of an accumulator specifier. -/
def accNum (x : Spec) : Nat := match x with
  | .a n => n.toNat
  | _ => 0

/-- ACCSEL names physical tiles: S mode with EN = 1 (R335). -/
def Group.direct (g : Group) : Bool := g.level == .s && g.accsel.getLsbD 3

/-- The physical tile an accumulator specifier names; none outside the grant (R224, R335). -/
def Group.physFor (g : Group) (x : Spec) : Option Nat :=
  if g.direct then some ((g.accsel.toNat % 8 + accNum x) % 8) else g.phys[accNum x]?

/-- What checks 3 and 4 come to: the physical tiles, a trap, or a wait. -/
inductive Tiles where
  | ok (ps : List Nat)
  | trap (c : Cause) (info : W64)
  | wait

/-- Check 4 of one tile (R336, R224). -/
def State.ownCheck (s : State) (gid : Nat) (x : Spec) (p : Nat) : Tiles :=
  let g := s.group gid
  if s.accFirstElse gid then .wait
  else if s.ownsTile gid (accNum x) p then .ok [p]
  else if g.level ≠ .u then .trap .priv (BitVec.ofNat 64 (4 * 2 ^ 56 + 2 * p))
  else if (s.subOf gid).quiet then .trap .accFirst (BitVec.ofNat 64 (2 * p))
  else .wait

/-- Checks 3 and 4 for the tiles an instruction names; skipped with ACCSEL.EN = 1 (R335). -/
def State.tilesOf (s : State) (gid : Nat) (xs : List Spec) : Tiles :=
  let g := s.group gid
  match xs.find? fun x => (g.physFor x).isNone with
  | some x => .trap .accUnalloc (BitVec.ofNat 64 x.bits.toNat)
  | none =>
    let ps := xs.map fun x => (g.physFor x).getD 0
    if g.direct then .ok ps
    else
      let ends := (xs.zip ps).map fun p => s.ownCheck gid p.1 p.2
      match ends.find? fun e => match e with
        | .ok _ => false
        | _ => true with
      | some e => e
      | none => .ok ps

/-- A tile that an instruction has to wait for: under an MMA, an MLOOP or an ACCLD (R226, R240). -/
def State.tileBusy (s : State) (gid p : Nat) : Bool :=
  let c := s.subOf gid
  (c.mma.any fun m => m.2 == p) || (c.mloops.any fun m => m.phys == p) || s.accs.any fun a =>
    a.2.kind == .accld && a.2.info.aux == p && !s.accHeld a.2 && s.accPlace a.2.gid p == s.accPlace gid p

/-- TINFO of `MEM_ERR` for a tile (R319). -/
def accErr (p : Nat) : W64 := memErrInfo false 6 p

/-- A read of a tile with an uncorrectable error (R319). -/
def State.accBad (s : State) (gid : Nat) (ps : List Nat) : Option Nat := ps.find? fun p => s.isBad (s.accPlace gid p)

/-- Issue a matrix instruction on the tiles `xs` (R225, R230 checks 1-4): it waits for a busy tile. -/
def State.onTiles (s : State) (h : Hdr) (xs : List Spec) (body : State → List Nat → Res) : Res :=
  if !s.curG.wholeMx s.cur.slices then .trap .rankPart 0 s
  else if !s.uniform h then .done s
  else
    match s.tilesOf s.cur.gid xs with
    | .trap c info => .trap c info s
    | .wait => .hold s
    | .ok ps =>
      if ps.any (s.tileBusy s.cur.gid) then .hold s else body s ps

/-- A matrix instruction reads registers and physical tiles: an uncorrectable error in one is `MEM_ERR` (R319). It comes after
checks 1-5 of R230. Assumption 37 (DESIGN CHOICE). -/
def State.reading (s : State) (regs : List Spec) (ps : List Nat) (body : Res) : Res :=
  match s.badReg regs with
  | some r => .trap .memErr (regErrInfo r) s
  | none =>
    match s.accBad s.cur.gid ps with
    | some p => .trap .memErr (accErr p) s
    | none => body

/-- Issue a matrix instruction (R225): its guard is evaluated only by the whole gang, its operands read in its body. -/
def issueMx (pre : State → Option (Cause × W64)) (h : Hdr) (dst src : List Spec) (s : State) (body : State → Res) :
    Host.Outcome State Fault Refusal :=
  issueWith pre h dst src s body (fun _ => false) fun s => s.curG.wholeMx s.cur.slices

/-- Write all of a tile's elements: an error in it ends. -/
def State.putWhole (s : State) (gid p : Nat) (x : AccTile) : State := (s.putAcc gid p x).clearBad (s.accPlace gid p)

/-! ### Operands (R227, R228) -/

/-- A 64-byte block with its descriptor. -/
structure Blk where
  data : Nat
  d : Desc
  deriving DecidableEq, Repr

/-- The elements of a block as values. -/
def Blk.vals (b : Blk) : List Num := match eltOf b.d with
  | some e => (List.range e.count).map fun i => e.value (e.get b.data i)
  | none => []

/-- An operand: for each row of A or column of B, its blocks. -/
abbrev Rows := List (List Blk)

def Rows.blk (x : Rows) (i p : Nat) : Blk := (((x[i]?).getD [])[p]?).getD ⟨0, 0⟩

/-- Number of a `v` specifier. -/
def vNum (x : Spec) : Nat := match x with
  | .v n => n.toNat
  | _ => 0

/-- A value put together from parts of `w` bits, lowest first. -/
def join (w : Nat) (xs : List Nat) : Nat := xs.foldr (fun x a => x + 2 ^ w * a) 0

/-- The blocks that take part (R227). -/
def blocksOf (kh : Bool) : List Nat := if kh then [0] else [0, 1]

/-- A from registers. -/
def Group.rowsA (g : Group) (a c : Spec) (kh : Bool) : Rows :=
  (List.range 32).map fun i => (blocksOf kh).map fun p =>
    ⟨join 64 ((List.range 8).map fun j => (g.laneV (vNum a + 8 * p + j) i).toNat),
      BitVec.ofNat 16 (sub 16 (g.laneV (vNum c) i) p)⟩

/-- `n` columns of B from registers: 32 solo, 8 of a quarter. -/
def Group.colsB (g : Group) (b e : Spec) (kh : Bool) (n : Nat) : Rows :=
  (List.range n).map fun c => (blocksOf kh).map fun p =>
    ⟨join 32 ((List.range 16).map fun m => sub 32 (g.laneV (vNum b + c / 2) (16 * p + m)) (c % 2)),
      BitVec.ofNat 16 (sub 16 (g.laneV (vNum e) c) p)⟩

/-- The field combinations that some pair admits (R228). -/
def classesOk (m : MmaM) : Bool :=
  match m.acls.toNat, m.bcls.toNat, m.si32 with
  | 1, 1, false => true
  | 2, 2, _ => true
  | 3, 3, _ => true
  | _, _, _ => false

/-- The width class a class field stands for (R229): 1 16-bit, 2 8-bit, 3 4-bit. -/
def pairOf (si32 : Bool) (a b : Elt) : Bool :=
  let f8 (e : Elt) : Bool := e == .e4m3 || e == .e5m2
  if si32 then (a == .sp2 && b == .int8) || (a == .int8 && (b == .sp2 || b == .int8)) || (a == .int4 && b == .int4)
  else (a.bits == 16 && b.bits == 16) || ((f8 a || a == .sp2) && f8 b) || (f8 a && b == .sp2) || (a == .e2m1 && b == .e2m1)

/-- Check 7 for one operand: the first block of another width class. `side` is 0 for A, 1 for B. -/
def widthCheck (x : Rows) (cls side : Nat) (kh : Bool) (pos : Nat → Nat) : Option (Cause × W64) :=
  ((List.range x.length).flatMap fun i => (blocksOf kh).map fun p => (i, p)).findSome? fun ip =>
    let d := (x.blk ip.1 ip.2).d
    if widthClass d = cls then none
    else some (.mxWidth, BitVec.ofNat 64 (ip.1 + side * 2 ^ 5 + ip.2 * 2 ^ 6 + d.toNat * 2 ^ 7 + pos ip.1 * 2 ^ 23))

/-- Check 8: the first pair of blocks that forms no row of R228. -/
def pairCheck (x y : Rows) (si32 kh : Bool) (pos : Nat → Nat) : Option (Cause × W64) :=
  ((blocksOf kh).flatMap fun p => (List.range 32).flatMap fun i => (List.range 32).map fun n => (p, i, n)).findSome? fun t =>
    let (p, i, n) := t
    let da := (x.blk i p).d
    let db := (y.blk n p).d
    let ok : Bool := match eltOf da, eltOf db with
      | some a, some b => pairOf si32 a b
      | _, _ => false
    if ok then none
    else some (.mxCombo, BitVec.ofNat 64 (i + n * 2 ^ 5 + p * 2 ^ 10 + da.toNat * 2 ^ 11 + db.toNat * 2 ^ 27 + pos n * 2 ^ 43
      + 2 ^ 45))

/-- Checks 7 and 8 of R230. `posA` is the quad position of the group with A, `pos n` that with column `n`; a silent mate
has no A of its own (R232). -/
def blockChecks (x : Option Rows) (y : Rows) (m : MmaM) (posA : Nat) (pos : Nat → Nat) : Option (Cause × W64) :=
  match x with
  | none => widthCheck y m.bcls.toNat 1 m.kh pos
  | some x =>
    match widthCheck x m.acls.toNat 0 m.kh fun _ => posA with
    | some t => some t
    | none =>
      match widthCheck y m.bcls.toNat 1 m.kh pos with
      | some t => some t
      | none => pairCheck x y m.si32 m.kh pos

/-! ### The arithmetic (R231) -/

/-- The exact sum of a pair of blocks; an exact zero is +0. -/
def blockSum (a b : Blk) : Num :=
  let x := Num.sum .near (List.zipWith Num.mul a.vals b.vals)
  if x.isZero then .zero else x

/-- One block pair added into an FP32 element. -/
def accFp (c : W32) (a b : Blk) : W32 :=
  let v : Num := match scaleOf a.d, scaleOf b.d with
    | some j, some k => (blockSum a b).scale (j + k)
    | _, _ => .nan
  BitVec.ofNat 32 (fp32.encode .near false ((fp32.decode c.toNat).add .near v))

/-- One block pair added into an INT32 element: an SP2 value enters 64 times. -/
def accInt (c : W32) (a b : Blk) : W32 :=
  let sp2 : Bool := eltOf a.d == some .sp2 || eltOf b.d == some .sp2
  let s := ((blockSum a b).scale (if sp2 then 6 else 0)).toInt .near (-(2 ^ 31)) (2 ^ 31 - 1)
  c + BitVec.ofInt 32 s

/-- `C + A * B` (R231). -/
def mmaTile (t : AccTile) (x y : Rows) (m : MmaM) : AccTile :=
  AccTile.make (fun i n => (blocksOf m.kh).foldl (fun c p =>
      if m.si32 then accInt c (x.blk i p) (y.blk n p) else accFp c (x.blk i p) (y.blk n p)) (t.get i n))
    t.rowMax t.rowSum

/-! ### MMA (R230-R232) -/

/-- The register ranges of an MMA, by its form (R227). -/
def mmaRegs (m : MmaM) (a b c e : Spec) : List Spec :=
  vRange a (if m.kh then 8 else 16) ++ vRange b (if m.quad then 4 else 16) ++ [c, e]

/-- The registers a mate's `MMA.Q` reads: a silent one only its quarter of B and the descriptors (R232). -/
def mateRegs (silent : Bool) (m : MmaM) (a b c e : Spec) : List Spec :=
  if silent then vRange b 4 ++ [e] else mmaRegs m a b c e

/-- The four groups of a group's quad. -/
def State.quadOf (s : State) (gid : Nat) : List Nat :=
  let g := s.group gid
  (s.team g.team).groups.filter fun i => (s.group i).idx / 4 == g.idx / 4

/-- A quad is complete while the team holds all four of its groups (R13, R232). -/
def State.quadComplete (s : State) (gid : Nat) : Bool :=
  (s.quadOf gid).length == 4 && !((s.quadOf gid).any fun i => (s.group i).ended)

/-- Register ranges in the grant, and a complete quad (R229). -/
def mmaCheck (m : MmaM) (a b : Spec) (s : State) : Option (Cause × W64) :=
  if s.curG.level == .m || s.rangeOut a (if m.kh then 8 else 16) || s.rangeOut b (if m.quad then 4 else 16)
      || (m.quad && !s.quadComplete s.cur.gid) then some (.ill, s.cur.word)
  else none

/-- MMA (R226-R233). Assumption 37 (DESIGN CHOICE). -/
def execMma (h : Hdr) (m : MmaM) (d a b c e : Spec) (s : State) : Host.Outcome State Fault Refusal :=
  issueMx (mmaCheck m a b) h [] ([d] ++ mmaRegs m a b c e) s fun s =>
    let gid := s.cur.gid
    let g := s.curG
    if !m.quad then s.onTiles h [d] fun s ps =>
      let p := ps.headD 0
      if !classesOk m then .trap .mxCombo 0 s
      else if (s.subOf gid).mma.isSome then .hold s
      else s.reading (mmaRegs m a b c e) ps <|
        let x := g.rowsA a c m.kh
        let y := g.colsB b e m.kh 32
        match blockChecks (some x) y m 0 fun _ => 0 with
        | some (cause, info) => .trap cause info s
        | none =>
          .done ((s.putAcc gid p (mmaTile (s.accAt gid p) x y m)).modSubOf gid fun k => { k with mma := some (gid, p) })
    else
      let held (s : State) (ps : List Nat) : Res :=
        if !classesOk m then .trap .mxCombo 0 s
        else s.reading (mateRegs (!s.uniform h) m a b c e) ps <|
          .hold (s.modCur fun g => g.setWait s.cur.slices (.meeting (.mma h m d a b c e)))
      if !g.wholeMx s.cur.slices then .trap .rankPart 0 s
      else if !s.uniform h then held s []
      else s.onTiles h [d] held

/-- What a mate brings to a meeting. -/
structure Mate where
  gid : Nat
  slices : BitVec 8
  h : Hdr
  m : MmaM
  silent : Bool
  phys : Nat
  a : Rows
  b : Rows

/-- A mate that holds at check 6, seen as the issuing group; `none` where its checks no longer pass. -/
def State.mateOf (s : State) (gid : Nat) : Option (SubGang × Option Mate) :=
  let g := s.group gid
  g.gangs.findSome? fun x => match x.wait with
    | .meeting (.mma h m d a b c e) =>
      let s := { s with cur := ⟨gid, x.slices, 0⟩ }
      let silent := !s.uniform h
      let mate (p : Nat) : Mate :=
        ⟨gid, x.slices, h, m, silent, p, g.rowsA a c m.kh, g.colsB b e m.kh 8⟩
      if (s.badSource h (mateRegs silent m a b c e) true).isSome then some (x, none)
      else if silent then some (x, some (mate 0))
      else
        match s.tilesOf gid [d] with
        | .ok (p :: _) => some (x, if s.tileBusy gid p || (s.accBad gid [p]).isSome then none else some (mate p))
        | _ => some (x, none)
    | _ => none

/-- The trap a meeting ends in: differing modifiers, or that of the failing mate with the lowest position (R232). -/
def meetingTrap (ms : List Mate) (y : Rows) : Option (Cause × W64) :=
  match ms with
  | [] => none
  | k :: r =>
    if r.any fun x => x.m != k.m then some (.mxCombo, 0)
    else (List.range ms.length).findSome? fun q =>
      match ms[q]? with
      | some x => blockChecks (if x.silent then none else some x.a) y x.m q (· / 8)
      | none => none

/-- A successful meeting for one mate: its tile, QSEQ, and the instruction after. -/
def State.meetOne (y : Rows) (s : State) (k : Mate) : State :=
  let s := if k.silent then s
    else (s.putAcc k.gid k.phys (mmaTile (s.accAt k.gid k.phys) k.a y k.m)).modSubOf k.gid fun c =>
      { c with mma := some (k.gid, k.phys) }
  s.modGroup k.gid fun g => { (g.advance k.slices k.h.len.bytes).setWait k.slices .none with qseq := g.qseq + 1 }

/-- MMA_Q_MEETING (R232): once all four mates of a quad hold at check 6 with one QSEQ, in a cycle in which the tile issues (R303,
R311). A mate whose earlier checks no longer pass makes them again at its next issue. -/
def execMmaQMeeting (team quad : Nat) (s : State) : Host.Outcome State Fault Refusal :=
  let gids := (s.team team).groups.filter fun i => (s.group i).idx / 4 == quad
  let mates := gids.filterMap s.mateOf
  let q0 := ((gids.head?).map fun i => (s.group i).qseq).getD 0
  let tile := (s.team team).tile
  if (s.tile tile).change.isSome || !s.mayIssue tile || gids.length ≠ 4 || mates.length ≠ 4
      || gids.any (fun i => (s.group i).ended || (s.group i).stopped)
      || gids.any (fun i => (s.group i).qseq != q0) then .next s
  else
    let ms := mates.filterMap (·.2)
    if ms.length ≠ 4 then
      .next ((gids.zip mates).foldl (fun s p => if p.2.2.isNone then
        s.modGroup p.1 fun g => g.setWait p.2.1.slices .none else s) s)
    else if ms.any fun k => (s.subOf k.gid).mma.isSome then .next s
    else
      let y := ms.flatMap (·.b)
      match meetingTrap ms y with
      | some (c, info) => .next (ms.foldl (fun s k => s.takeTrap k.gid k.slices c ((s.group k.gid).pcOf k.slices) info) s)
      | none => .next (ms.foldl (State.meetOne y) s)

/-- MMA_COMPLETE (R226): the array and the tile are free. Assumption 37 (DESIGN CHOICE). -/
def execMmaComplete (tile sub : Nat) (s : State) : Host.Outcome State Fault Refusal :=
  .next (if (s.sub tile sub).mma.isSome then s.modSub tile sub fun c => { c with mma := none } else s)

/-! ### MLOOP and the sequencer (R233-R237) -/

/-- Bytes a step reads through a record. -/
def stepBytes (kh : Bool) : Int := if kh then 4032 else 4096

/-- Every byte of every step lies in the record and in the grant (R234 check 8). The offset is linear in the step, so the
first and the last step decide. -/
def stepsInside (r : BitVec 256) (grant off : Nat) (inc : Int) (count : Nat) (kh : Bool) : Bool :=
  off % 64 == 0 && inc % 64 == 0 && (count == 0 || [0, count - 1].all fun s =>
    let o : Int := off + s * inc
    0 ≤ o && o + stepBytes kh ≤ recExt r * recStr r && recBase r + o + stepBytes kh ≤ grant)

def execMloop (h : Hdr) (m : MmaM) (d a b c e : Spec) (s : State) : Host.Outcome State Fault Refusal :=
  let base := match c with
    | .g n => n.toNat
    | _ => 0
  let params := (List.range 3).map fun i => Spec.g (BitVec.ofNat 7 (base + i))
  issueMx onTile h [] ([d, a, b, e] ++ params) s fun s => s.onTiles h [d] fun s ps =>
    let p := ps.headD 0
    let ra := s.record a
    let rb := s.record b
    let g (i : Nat) : W64 := s.curG.viewG (base + i) (s.leader.getD 0 / 4)
    let offA := field (g 0) 0 32
    let offB := field (g 0) 32 32
    let incA := asSigned 32 (field (g 1) 0 32)
    let incB := asSigned 32 (field (g 1) 32 32)
    let count := field (g 2) 0 16
    let grant := s.grantOf s.curG
    if !classesOk m then .trap .mxCombo 0 s
    else s.reading ([a, b] ++ params) [] <|
      match s.recordCheck ra (recR ra), s.recordCheck rb (recR rb) with
      | some x, _ => .access x s
      | none, some x => .access x s
      | none, none =>
        if recSpc ra ≠ spcLocal || recSpc rb ≠ spcLocal then .access 0x1C s
        else if field (g 2) 16 48 ≠ 0 || !stepsInside ra grant offA incA count m.kh
            || !stepsInside rb grant offB incB count m.kh then .access 0x1D s
        else
          let (k, s) := s.fresh
          let l : MLoop := {
            id := k, gid := s.cur.gid, slices := s.cur.slices
            tile := if s.curG.direct then 4 + p else accNum d
            phys := p, m := m, recA := ra, recB := rb, offA := offA, offB := offB, incA := incA, incB := incB
            count := count, next := 0, running := false, tok := tokenOf e, failed := none }
          .done (s.modSubOf s.cur.gid fun c => { c with mloops := c.mloops ++ [l] })

/-- The physical local address of byte `o` of a record, for a team (R233, R148). -/
def State.recByte (s : State) (tid : Nat) (r : BitVec 256) (o : Nat) : Nat :=
  let ea := swizzle (recSwz r) (recBase r + o)
  (((s.team tid).gmap[ea / 4096]?).getD 0) * 4096 + ea % 4096

/-- A block of local store as the sequencer reads it: its 64 bytes and the descriptor beside the first.
Assumption 36 (DESIGN CHOICE). -/
def State.localBlk (s : State) (tid : Nat) (r : BitVec 256) (o : Nat) : Blk :=
  let t := s.tile (s.team tid).tile
  ⟨join 8 ((List.range 64).map fun i => (t.store.read (s.recByte tid r (o + i))).toNat),
    t.storeDesc.getD (s.recByte tid r o / 64) 0⟩

/-- Rows of a step, and the local blocks it reads. -/
def State.stepRows (s : State) (tid : Nat) (r : BitVec 256) (off : Nat) (kh : Bool) : Rows :=
  (List.range 32).map fun i => (blocksOf kh).map fun p => s.localBlk tid r (off + 128 * i + 64 * p)

/-- The local blocks an MLOOP step reads (R235, R236). Assumption 36 (DESIGN CHOICE). -/
def State.stepBlocks (s : State) (tid : Nat) (r : BitVec 256) (off : Nat) (kh : Bool) : List Nat :=
  ((List.range 32).flatMap fun i => (blocksOf kh).flatMap fun p =>
    [s.recByte tid r (off + 128 * i + 64 * p) / 64, s.recByte tid r (off + 128 * i + 64 * p + 63) / 64]).eraseDups

/-- One step of an MLOOP, whose bytes are read in one moment: the loop after it and the machine; `none` while it has to wait: for
reserved blocks (R135), a changeover (R237), a permitted cycle (R311), or earlier accesses of its group (R236). An uncorrectable
error is recorded with its source (R138, R235).
Assumption 36 (DESIGN CHOICE). Assumption 84 (DESIGN CHOICE). -/
def State.loopStep (s : State) (l : MLoop) : Option (MLoop × State) :=
  let tid := (s.group l.gid).team
  let tile := (s.team tid).tile
  if (s.tile tile).change.isSome || !s.mayIssue tile || l.failed.isSome || l.count ≤ l.next
      || s.localPending l.gid l.slices l.id then none
  else
    let oa := (l.offA + l.next * l.incA).toNat
    let ob := (l.offB + l.next * l.incB).toNat
    let blks := s.stepBlocks tid l.recA oa l.m.kh ++ s.stepBlocks tid l.recB ob l.m.kh
    if blks.any (s.blockBusy tile) then none
    else
      let fail (c r : Nat) : Option (MLoop × State) := some ({ l with failed := some (c, r, l.next) }, s)
      if blks.any fun b => s.isBad (.store tile b) then fail 0x0A 4
      else if s.loopHasTile l && (s.accBad l.gid [l.phys]).isSome then fail 0x0A 6
      else
        let x := s.stepRows tid l.recA oa l.m.kh
        let y := s.stepRows tid l.recB ob l.m.kh
        match blockChecks (some x) y l.m 0 fun _ => 0 with
        | some (c, _) => fail c.code 0
        | none => some ({ l with next := l.next + 1 },
          if s.loopHasTile l then s.putAcc l.gid l.phys (mmaTile (s.accAt l.gid l.phys) x y l.m) else s)

/-- Up to `n` steps. -/
def State.loopSteps : Nat → MLoop → State → MLoop × State
  | 0, l, s => (l, s)
  | n + 1, l, s =>
    match s.loopStep l with
    | some (l, s) => State.loopSteps n l s
    | none => (l, s)

/-- Put a sub-core's first MLOOP back. -/
def State.setLoop (s : State) (tile sub : Nat) (l : MLoop) : State :=
  s.modSub tile sub fun c => { c with mloops := l :: c.mloops.drop 1 }

/-- MLOOP_START (R235, R236): the sequencer starts its next MLOOP, or goes on with the one it runs; it may be through
`steps` steps before anything else happens. -/
def execMloopStart (tile sub steps : Nat) (s : State) : Host.Outcome State Fault Refusal :=
  match (s.sub tile sub).mloops with
  | [] => .next s
  | l :: _ =>
    let (l, s) := State.loopSteps (min steps l.count) { l with running := true } s
    .next (s.setLoop tile sub l)

/-- MLOOP_COMPLETE (R235): the steps that are left, then the failure in the token and its decrement. -/
def execMloopComplete (tile sub : Nat) (s : State) : Host.Outcome State Fault Refusal :=
  match (s.sub tile sub).mloops with
  | [] => .next s
  | l :: _ =>
    if !l.running then .next s
    else
      let (l, s) := State.loopSteps l.count l s
      if l.next < l.count && l.failed.isNone then .next (s.setLoop tile sub l)
      else
        let tid := (s.group l.gid).team
        let s := s.modSub tile sub fun c => { c with mloops := c.mloops.drop 1 }
        let s := match l.failed with
          | some (c, r, i) => s.modToken tid l.tok fun k => k.fail c r i
          | none => s
        .next ((s.decToken tid l.tok).teamEnd tid)

/-! ### SMX (R238) -/

def fp32Mul (a b : Nat) : Nat := fp32.encode .near false ((fp32.decode a).mul (fp32.decode b))
def fp32Sub (a b : Nat) : Nat := fp32.encode .near false ((fp32.decode a).add .near (fp32.decode b).neg)

/-- One row of a step: P as BF16 bits, alpha and the new ROWMAX. -/
def smxRow (scale mo : Nat) (row : List Nat) : List Nat × Nat × Nat :=
  let t := row.map (fp32Mul scale)
  let mx := t.foldl (fminmax fp32 true true) mo
  if mx = fp32NegInf.toNat then (row.map fun _ => 0, fp32.encode .near false .one, mx)
  else (t.map fun x => Fmt.ex2 bf16 .near false (fp32.decode (fp32Sub x mx)),
    Fmt.ex2 fp32 .near false (fp32.decode (fp32Sub mo mx)), mx)

/-- ROWSUM after a step. -/
def smxSum (sm alpha : Nat) (ps : List Nat) : Nat :=
  fp32.encode .near false ((fp32.decode (fp32Mul sm alpha)).add .near (Num.sum .near (ps.map bf16.decode)))

def execSmx (h : Hdr) (d a b c : Spec) (s : State) : Host.Outcome State Fault Refusal :=
  issueMx (fun s => if s.curG.level == .m || s.rangeOut d 8 then some (.ill, s.cur.word) else none) h (vRange d 8)
    [a, b, c] s fun s => s.onTiles h [a, b] fun s ps => s.reading [c] ps <|
      let gid := s.cur.gid
      let sp := ps.headD 0
      let op := (ps[1]?).getD 0
      let st := s.accAt gid sp
      let o := s.accAt gid op
      let scale := Machine.sub 32 (s.leaderSrc h .rep32 c) 0
      let rows := (List.range 32).map fun i =>
        smxRow scale (o.rowMax i).toNat ((List.range 32).map fun j => (st.get i j).toNat)
      let row (i : Nat) : List Nat × Nat × Nat := (rows[i]?).getD ([], 0, 0)
      let o' := AccTile.make (fun i j => BitVec.ofNat 32 (fp32Mul (o.get i j).toNat (row i).2.1))
        (fun i => BitVec.ofNat 32 (row i).2.2) fun i => BitVec.ofNat 32 (smxSum (o.rowSum i).toNat (row i).2.1 (row i).1)
      let s := s.putAcc gid op o'
      .done ((List.range 8).foldl (fun s j => s.putV gid (vNum d + j) (List.range 32) fun l =>
        pack 16 4 fun k => (((row l).1)[4 * j + k]?).getD 0) s)

/-! ### Clearing, moving, querying (R239, R242, R243) -/

def execAccz (h : Hdr) (part : BitVec 2) (d : Spec) (s : State) : Host.Outcome State Fault Refusal :=
  issueMx onTile h [] [d] s fun s => s.onTiles h [d] fun s ps =>
    let gid := s.cur.gid
    let p := ps.headD 0
    let x := s.accAt gid p
    let el := if part = 2 then x.el else []
    let mx := if part = 1 then x.mx else []
    let sm := if part = 1 then x.sm else []
    .done (if part = 2 then s.putAcc gid p ⟨el, mx, sm⟩ else s.putWhole gid p ⟨el, mx, sm⟩)

/-- Elements or side registers of a tile as its lane's registers (R242). -/
def AccTile.reg (x : AccTile) (side : Bool) (l j : Nat) : W64 :=
  if side then pack 32 2 fun k => if k = 0 then (x.rowMax l).toNat else (x.rowSum l).toNat
  else pack 32 2 fun k => (x.get l (2 * j + k)).toNat

def execAccmv (h : Hdr) (side : Bool) (d a : Spec) (s : State) : Host.Outcome State Fault Refusal :=
  let n := if side then 1 else 16
  let out (s : State) (x : Spec) : Bool := match x with
    | .v _ => s.rangeOut x n
    | _ => false
  issueMx (fun s => if s.curG.level == .m || out s d || out s a then some (.ill, s.cur.word) else none) h (vRange d n)
    (vRange a n) s fun s =>
      let gid := s.cur.gid
      match d, a with
      | .v b, .a _ => s.onTiles h [a] fun s ps => s.reading [] ps <|
        let x := s.accAt gid (ps.headD 0)
        .done ((List.range n).foldl (fun s j => s.putV gid (b.toNat + j) (List.range 32) fun l => x.reg side l j) s)
      | .a _, .v b => s.onTiles h [d] fun s ps => s.reading (vRange a n) [] <|
        let p := ps.headD 0
        let x := s.accAt gid p
        let v (l j : Nat) : W64 := s.curG.laneV (b.toNat + j) l
        let half (w : W64) (k : Nat) : W32 := BitVec.ofNat 32 (Machine.sub 32 w k)
        .done (if side then s.putAcc gid p (AccTile.make x.get (fun i => half (v i 0) 0) fun i => half (v i 0) 1)
          else s.putWhole gid p (AccTile.make (fun i j => half (v i (j / 2)) (j % 2)) x.rowMax x.rowSum))
      | _, _ => s.onTiles h [d, a] fun s ps => s.reading [] (ps.drop 1) <|
        let p := ps.headD 0
        let x := s.accAt gid p
        let y := s.accAt gid ((ps[1]?).getD 0)
        .done (if side then s.putAcc gid p { x with mx := y.mx, sm := y.sm } else s.putWhole gid p { x with el := y.el })

/-- ACCQ (R243): checks 3 and 4 only, from any sub-gang. -/
def execAccq (h : Hdr) (d a : Spec) (s : State) : Host.Outcome State Fault Refusal :=
  issueTile h [d] [a] s (fun s =>
    let gid := s.cur.gid
    if (s.resultLanes h d).isEmpty then .done s
    else
      match s.tilesOf gid [a] with
      | .trap c info => .trap c info s
      | .wait => .hold s
      | .ok ps =>
        let p := ps.headD 0
        let pend : Bool := (s.subOf gid).mloops.any fun m => m.phys == p
        if !pend && s.tileBusy gid p then .hold s
        else s.arith h d fun _ =>
          BitVec.ofNat 64 (4 * p + (if (s.accAt gid p).sideClean then 2 else 0) + if pend then 1 else 0)) fun _ => false

/-! ### Loading and storing tiles (R240, R241) -/

/-- Width of a tile element in memory. -/
def accBytes (ty : BitVec 3) : Nat := if 2 ≤ ty.toNat then 2 else 4

/-- Record index of each part of a tile: row, position in the row, index. -/
def accParts (side : Bool) (x rs : Nat) : List (Nat × Nat × Nat) :=
  if side then (List.range 32).flatMap fun i => [(i, 0, x + i), (i, 1, x + 32 + i)]
  else (List.range 32).flatMap fun i => (List.range 32).map fun j => (i, j, x + i * rs + j)

/-- The parts in range, each with its value, and the rows with a part out of range (R240). -/
def State.accElems (s : State) (r : BitVec 256) (w : Nat) (parts : List (Nat × Nat × Nat)) (val : Nat → Nat → Nat) :
    List RawElem × List Nat :=
  let grant := s.grantOf s.curG
  (parts.filterMap fun p => (elemAddr r grant w p.2.2).map fun a => ⟨p.1, p.2.1, a, w, val p.1 p.2.1, 0⟩,
    ((parts.filter fun p => (elemAddr r grant w p.2.2).isNone).map (·.1)).eraseDups)

/-- The checks on the record (R240). -/
def State.accRecord (s : State) (r : BitVec 256) (right : Bool) (w : Nat) : Option Nat :=
  match s.recordCheck r right with
  | some x => some x
  | none =>
    if recSpc r ≠ spcGlobal && recSpc r ≠ spcLocal then some 0x1C
    else if 2 ^ recEsz r ≠ w then some 0x19
    else none

/-- The row stride: C[31:0] in the leader lane, zero standing for 32. -/
def State.accStride (s : State) (h : Hdr) (c : Spec) : Nat :=
  let x := (s.leaderSrc h .zx64 c).toNat % 2 ^ 32
  if x = 0 then 32 else x

def execAccld (h : Hdr) (m : AccM) (ch : Hint) (d a b c : Spec) (s : State) : Host.Outcome State Fault Refusal :=
  issueMx onTile h [] [d, a, b, c] s fun s => s.onTiles h [d] fun s ps => s.reading [a, b, c] [] <|
    let r := s.record a
    let w := accBytes m.ty
    match s.accRecord r (recR r) w with
    | some x => .access x s
    | none =>
      let parts := accParts m.side (s.leaderSrc h .zx64 b).toNat (s.accStride h c)
      let (raw, out) := s.accElems r w parts fun _ _ => 0
      let info := { AccInfo.dst d with ty := m.ty.toNat, flag := m.side, flag2 := s.curG.direct, aux := ps.headD 0 }
      s.startAccess (s.newAccess .accld info r ch none none) raw out

/-- What ACCST stores of an element (R240). -/
def accOut (m : AccM) (x sum : W32) : Nat :=
  let y := if m.norm then fp32.div .near false (fp32.decode x.toNat) (fp32.decode sum.toNat) else x.toNat
  if m.ty = 2 then bf16.encode .near m.sat (fp32.decode y)
  else if m.ty = 3 then fp16.encode .near m.sat (fp32.decode y)
  else y

/-- The descriptor ACCST writes (R241). -/
def accDesc (ty : BitVec 3) : Nat := if ty = 2 then 0x107F else if ty = 3 then 0x117F else 0

def execAccst (h : Hdr) (m : AccM) (ch : Hint) (d a b c : Spec) (s : State) : Host.Outcome State Fault Refusal :=
  issueMx onTile h [] [d, a, b, c] s fun s => s.onTiles h [b] fun s ps => s.reading [d, a, c] ps <|
    let r := s.record d
    let w := accBytes m.ty
    match s.accRecord r (recW r) w with
    | some x => .access x s
    | none =>
      let t := s.accAt s.cur.gid (ps.headD 0)
      let val (i j : Nat) : Nat :=
        if m.side then (if j = 0 then (t.rowMax i).toNat else (t.rowSum i).toNat) else accOut m (t.get i j) (t.rowSum i)
      let parts := accParts m.side (s.leaderSrc h .zx64 a).toNat (s.accStride h c)
      let (raw, out) := s.accElems r w parts val
      let info := { AccInfo.dst .zero with aux := accDesc m.ty }
      s.startAccess (s.newAccess .accst info r ch none none) raw out

end Sys2Proof.Machine
end

