-- ==== Sys2Proof/Machine/Switch.lean ====
section
/-! DEFINITION. Context switches: stopping a cluster (R332), draining it (R147, R237), its save record (R333), and its
restore (R334, R338, R374). -/

namespace Sys2Proof.Machine

/-- The groups of a cluster. -/
def State.clusterGroups (s : State) (cid : Nat) : List Nat := (s.cluster cid).teams.flatMap fun i => (s.team i).groups

/-- A tile of a cluster is in a changeover: nothing of the switch happens before its end (R304). -/
def State.changing (s : State) (cid : Nat) : Bool :=
  (s.cluster cid).teams.any fun i => !(s.team i).ended && (s.tile (s.team i).tile).change.isSome

/-- A switch-out begins (R332 steps 1 and 2). -/
def State.startSwitch (s : State) (cid : Nat) : State :=
  let (n, s) := s.fresh
  let s := s.modCluster cid fun c => { c with state := .stopping, outAt := n }
  (s.cluster cid).teams.foldl (fun s i => s.stopTeam i) s

/-! ### The drain (R332 step 3) -/

/-- An access that cannot go on before the restore: it is logged, or waits for one that is, or for a block of a stopped
copy, or for its accumulator tile. -/
def Access.blocked (a : Access) : Bool :=
  !a.finished && !(a.lines.any fun l => l.status == .sent)
    && (!a.gate.isEmpty || a.isLocal || a.kind == .accld || a.lines.any fun l => l.status == .missing)

/-- A copy that has come to rest at its checkpoint. -/
def State.copyAtRest (s : State) (c : Copy) : Bool :=
  c.stopped && c.asked.isEmpty && c.owned.isEmpty && !(c.outs.any s.inFlight)

/-- A pending fence waits only for what the record saves. -/
def State.fenceSaved (s : State) (f : Fence) : Bool :=
  f.accs.any (fun k => (s.accs.get? k).isSome) || f.copies.any (fun k => (s.copies.get? k).isSome)
    || f.loops.any s.loopPending

/-- Every dirty byte of a tile has been written back and accepted. Assumption 43 (DESIGN CHOICE). -/
def State.tileClean (s : State) (tile : Nat) : Bool :=
  ((s.tile tile).l1.all fun l => l.2.dmask == 0) && !(s.flying.any (·.carries tile))

/-- The cluster has drained, but for its tiles' dirty bytes. Assumption 43 (DESIGN CHOICE). -/
def State.drained (s : State) (cid : Nat) : Bool :=
  let ts := (s.cluster cid).teams
  let gs := s.clusterGroups cid
  gs.all (fun i => (s.group i).ended || (s.group i).stopped)
    && s.accs.all (fun a => !gs.contains a.2.gid || a.2.blocked)
    && s.copies.all (fun c => !ts.contains c.2.team || s.copyAtRest c.2)
    && s.mcasts.all (fun m => !ts.contains m.2.2)
    && s.subs.all (fun c => (c.2.mloops.all fun m => !gs.contains m.gid) && !(c.2.mma.any fun m => gs.contains m.1))
    && s.fences.all (fun f => !ts.contains f.2.team || s.fenceSaved f.2)
    && s.tlbis.all (fun x => !ts.contains x.2.team)
    && s.arrivals.all (fun m => m.2.cluster != cid) && s.releases.all (fun m => m.2.cluster != cid)

/-- SWITCH_DRAIN_TIMEOUT (R332): handlers that still run are saved in S mode, copies stop at their next beat (R147), and
MLOOPs that have not finished are saved at the step they have reached (R237). Assumption 43 (DESIGN CHOICE). -/
def execSwitchDrainTimeout (cid : Nat) (s : State) : Host.Outcome State Fault Refusal :=
  if (s.cluster cid).state ≠ .stopping || s.changing cid then .next s
  else
    let gs := s.clusterGroups cid
    let s := gs.foldl (fun s i =>
      if (s.group i).ended || (s.group i).stopped then s else (s.mapWait i Wait.leave).halt i) s
    let loops := s.subs.flatMap fun c => c.2.mloops.filter fun m => gs.contains m.gid
    let s : State := { s with subs := s.subs.map fun c =>
      (c.1, { c.2 with mloops := c.2.mloops.filter fun m => !gs.contains m.gid }) }
    .next (s.modCluster cid fun c => { c with
      state := .draining
      loops := c.loops ++ loops.map fun m => { m with running := false } })

/-! ### The save record (R333) -/

/-- Numbers of a given width packed into line data. -/
def packLine (w : Nat) (xs : List Nat) : Nat := xs.foldr (fun x a => x % 2 ^ w + 2 ^ w * a) 0

/-- The two lines of a register. -/
def Group.regLines (g : Group) (j : Nat) : List Nat :=
  [packLine 64 ((List.range 16).map fun l => (g.laneV j l).toNat),
    packLine 64 ((List.range 16).map fun l => (g.laneV j (16 + l)).toNat)]

/-- Local-store lines, descriptor lines and busy-bit lines of a team. -/
def State.storeLines (s : State) (t : Team) : List Nat :=
  t.gmap.flatMap fun g => (List.range 32).map fun i => (s.localLine t.tile (g * 32 + i)).1
def State.descLines (s : State) (t : Team) : List Nat :=
  t.gmap.map fun g => packLine 16 ((List.range 64).map fun b => ((s.tile t.tile).storeDesc.getD (g * 64 + b) 0).toNat)
def State.busyLines (s : State) (t : Team) : List Nat :=
  let bits := t.gmap.flatMap fun g => (List.range 64).map fun b => if s.blockBusy t.tile (g * 64 + b) then 1 else 0
  (List.range ((t.gmap.length + 15) / 16)).map fun i => packLine 1 ((bits.drop (1024 * i)).take 1024)

/-- Write a group's registers into its record. Assumption 40 (DESIGN CHOICE). -/
def State.saveRegs (s : State) (tile ctx base : Nat) (g : Group) : State :=
  if g.ended then s
  else
    s.saveLines tile ctx (base + 0x100000 + 65536 * g.idx) ((List.range g.regs).flatMap g.regLines)

/-- Write bytes of a state area; a line that fails is not written, with an entry of kind 1, and its state is lost (R333). -/
def State.saveState (s : State) (tile ctx va n x : Nat) : Bool × State :=
  match s.translate tile ctx va false .w with
  | (.ok l _, s) => (false, if isPeerLine l then s else s.cohWrite (l * 128 + va % 128) n x)
  | (_, s) => (true, s.fqPost 1 (va / 128 * 128) ctx tile 0xFF 0xFF 0)

/-- Write lines whose bytes the spec does not lay out, which are free; whether one of them is lost. -/
def State.saveFree (s : State) (tile ctx : Nat) : Nat → Nat → Bool × State
  | _, 0 => (false, s)
  | va, n + 1 =>
    let (x, s) := s.takeFree
    let (lost, s) := s.saveState tile ctx va 128 (x % 256 ^ 128)
    let (more, s) := s.saveFree tile ctx (va + 128) n
    (lost || more, s)

/-- Write the group-state area of a group, its ACCSV word apart (R333). Assumption 40 (DESIGN CHOICE). -/
def State.saveGroup (s : State) (tile ctx base gid : Nat) : State :=
  let g := s.group gid
  if g.ended then s
  else
    let va := base + 0x388000 + 4096 * g.idx
    let (x, s) := s.takeFree
    let (lost, s) := s.saveState tile ctx (va + 8) 120 (x % 256 ^ 120)
    let (more, s) := s.saveFree tile ctx (va + 128) 31
    s.modGroup gid fun g => { g with saveLost := lost || more, mapAns := [] }

/-- Write the team-state area of a team. Assumption 40 (DESIGN CHOICE). -/
def State.saveTeamState (s : State) (tile ctx base tid : Nat) : State :=
  let (lost, s) := s.saveFree tile ctx (base + 0x3A8000) 512
  s.modTeam tid fun t => { t with saveLost := lost }

/-- Write a team's record; its registers, tiles, granules and place go (R332 steps 4 and 5). What the bytes of the
group-state and team-state areas stand for stays in the group and the team. Assumption 40 (DESIGN CHOICE). -/
def State.saveTeam (s : State) (cid tid : Nat) : State :=
  let t := s.team tid
  let c := s.cluster cid
  let ctx := (s.launch c.launch).ctx
  let base := s.saveBase ctx c.idx t.idx
  if t.ended then s
  else
    let s := s.saveLines t.tile ctx base (s.storeLines t)
    let s := t.groups.foldl (fun s i => s.saveRegs t.tile ctx base (s.group i)) s
    let s := t.groups.foldl (fun s i => s.saveGroup t.tile ctx base i) s
    let s := s.saveTeamState t.tile ctx base tid
    let s := s.saveLines t.tile ctx (base + 0x3B8000) (s.descLines t)
    let s := s.saveLines t.tile ctx (base + 0x3C0000) (s.busyLines t)
    let s := (s.copies.map (·.1)).foldl (fun s k => if (s.copies.get? k).any fun x => x.tiles.contains tid || x.team == tid
      then s.dropBusy k t.tile else s) s
    let s := t.groups.foldl (fun s i => s.modGroup i fun g => { g with v := [], phys := [], place := .loft }) s
    let s := { s with bad := s.bad.filter fun p => match p with
      | .reg i (.v _) => !t.groups.contains i
      | _ => true }
    (s.modTeam tid fun t => { t with gmap := [], tile := awayTile }).arbitrate t.tile

/-- CLUSTER_SWITCH_OUT (R332): once the cluster has drained, dirty bytes of its tiles go home; once those are accepted,
its record is written and its grants are released. Assumption 43 (DESIGN CHOICE). -/
def execClusterSwitchOut (cid : Nat) (s : State) : Host.Outcome State Fault Refusal :=
  let c := s.cluster cid
  if c.ended || !(c.state == .stopping || c.state == .draining) || s.changing cid || !s.drained cid then .next s
  else
    let tiles := (c.teams.filter fun i => !(s.team i).ended).map fun i => (s.team i).tile
    if !tiles.all s.tileClean then .next (tiles.foldl (fun s t => (s.writeBackAll t).2) s)
    else .next ((c.teams.foldl (fun s i => s.saveTeam cid i) s).modCluster cid fun c => { c with state := .out })

/-! ### The restore (R334) -/

/-- A local-store line comes back with its two descriptors. -/
def State.restoreLine (s : State) (tile l x d : Nat) : State := s.putLocal tile l x fullMask (BitVec.ofNat 32 d) 3

/-- Local store and descriptors of a team. -/
def State.restoreStore (s : State) (tid ctx base : Nat) : State :=
  let t := s.team tid
  let n := t.gmap.length
  let (xs, s) := s.savedLines t.tile ctx base (32 * n)
  let (ds, s) := s.savedLines t.tile ctx (base + 0x3B8000) n
  let (_, s) := s.savedLines t.tile ctx (base + 0x3C0000) ((n + 15) / 16)
  (List.range (32 * n)).foldl (fun s i =>
    s.restoreLine t.tile ((t.gmap[i / 32]?).getD 0 * 32 + i % 32) ((xs[i]?).getD 0)
      ((ds[i / 32]?).getD 0 / 2 ^ (32 * (i % 32)) % 2 ^ 32)) s

/-- Registers of a group. -/
def State.restoreRegs (s : State) (gid ctx base : Nat) : State :=
  let g := s.group gid
  if g.ended then s
  else
    let (xs, s) := s.savedLines (s.team g.team).tile ctx (base + 0x100000 + 65536 * g.idx) (2 * g.regs)
    let lane (j l : Nat) : W64 := BitVec.ofNat 64 ((xs[2 * j + l / 16]?).getD 0 / 2 ^ (64 * (l % 16)))
    s.modGroup gid fun g => { g with v := (List.range g.regs).map fun j => (j, lanesOf (lane j)) }

/-- Some of the lines a restore reads could not be read: each fails with an entry of kind 0. -/
def State.linesLost (s : State) (tile ctx : Nat) : Nat → Nat → Bool × State
  | _, 0 => (false, s)
  | va, n + 1 =>
    let (r, s) := s.translate tile ctx va false .r
    let (lost, s) : Bool × State := match r with
      | .ok _ _ => (false, s)
      | _ => (true, s.fqPost 0 va ctx tile 0xFF 0xFF 0)
    let (x, s) := s.linesLost tile ctx (va + 128) n
    (lost || x, s)

/-- A mask-stack entry and a call-stack entry of free bits. -/
def MaskEntry.ofBits (x : W64) : MaskEntry := ⟨x.getLsbD 0, x.getLsbD 1, x.extractLsb' 4 4, x.extractLsb' 8 4⟩
def CallEntry.ofBits (x : W64) : CallEntry := ⟨(x.extractLsb' 56 8).toNat, x.truncate 56⟩

/-- The operand-log entries and saved MLOOPs of a group whose record was lost: their values are free (R333).
Assumption 40 (DESIGN CHOICE). -/
def State.loseWork (s : State) (gid : Nat) : State :=
  let (n, s) := s.takeFree
  let x (i w : Nat) : Nat := n / 2 ^ (64 * i) % 2 ^ w
  let elem (e : Elem) : Elem := { e with val := x (64 * e.lane + e.k) (8 * e.w), cmp := x (4096 + 64 * e.lane + e.k) (8 * e.w) }
  { s with
    accs := s.accs.map fun p => (p.1, if p.2.gid = gid ∧ p.2.log.isSome then { p.2 with elems := p.2.elems.map elem } else p.2)
    clusters := s.clusters.map fun p => (p.1, { p.2 with loops := p.2.loops.map fun m =>
      if m.gid = gid then { m with offA := x (9000 + m.id) 20, offB := x (9500 + m.id) 20 } else m }) }

/-- The state of a group whose group-state area was lost: free values, but for which of its lanes, sub-gangs, stack entries and
pending work there are (R333). Assumption 40 (DESIGN CHOICE). -/
def State.loseGroup (s : State) (gid : Nat) : State :=
  let s := s.loseWork gid
  let (n, s) := s.takeFree
  let x (i : Nat) : W64 := BitVec.ofNat 64 (n / 2 ^ (64 * i))
  s.modGroup gid fun g => { g with
    g := (List.range 128).map fun k => (k, x k)
    gc := g.gc.map fun p => (p.1, x (128 + p.1))
    p := (List.range 7).map fun k => (k, lanesOf fun l => (x (1200 + k)).getLsbD l)
    b := (List.range 16).map fun k => (k, BitVec.ofNat 256 (n / 2 ^ (64 * (1210 + 4 * k))))
    slices := (List.range g.slices.length).map fun i =>
      let y := g.slice i
      { y with
        pc := (x (1300 + i)).truncate 56
        am := (x (1310 + i)).truncate 4 &&& y.live
        masks := (List.range y.masks.length).map fun j => MaskEntry.ofBits (x (2000 + 64 * i + j))
        calls := (List.range y.calls.length).map fun j => CallEntry.ofBits (x (3000 + 64 * i + j)) }
    rv := g.rv.map fun p => (p.1, { p.2 with armed := (x (1400 + p.1)).getLsbD 16, round := (x (1400 + p.1)).truncate 16 })
    lfm := (x 1320).truncate 32
    shadow := g.shadow.map fun p => (p.1, x (1330 + p.1))
    tcause := keepField (x 1321) 0 8
    tpc := keepField (x 1322) 0 56
    tinfo := x 1323
    tscratch := x 1324
    tstate := tstateWrite true 0 (x 1325)
    accsel := (x 1326).truncate 4
    cohaddr := x 1327
    qseq := (x 1328).truncate 16 }

/-- The registers, tokens, points and copy coordinates of a team whose team-state area was lost: free values (R333).
Assumption 40 (DESIGN CHOICE). -/
def State.loseTeam (s : State) (tid : Nat) : State :=
  let (n, s) := s.takeFree
  let x (i : Nat) : W64 := BitVec.ofNat 64 (n / 2 ^ (64 * i))
  let s : State := { s with copies := s.copies.map fun p =>
    (p.1, if p.2.team = tid then { p.2 with coords := (List.range 5).map fun i => (x (3300 + i)).toInt } else p.2) }
  s.modTeam tid fun t => { t with
    t := (List.range 64).map fun k => (k, x k)
    tc := t.tc.map fun p => (p.1, x (64 + p.1))
    tokens := t.tokens.map fun p => (p.1, (freeToken (x (3000 + p.1)) p.2))
    points := t.points.map fun p => (p.1, { p.2 with
      round := (x (3100 + p.1)).truncate 16, arr := field (x (3100 + p.1)) 16 16, exp := field (x (3100 + p.1)) 32 16 })
    seen := t.seen.map fun p => (p.1, (x (3200 + p.1)).truncate 16) }
where
  /-- A token of free bits. -/
  freeToken (x : W64) (k : Token) : Token := { k with
    count := field x 0 16, under := x.getLsbD 16, err := x.getLsbD 17, cause := x.extractLsb' 24 8
    reason := x.extractLsb' 32 8, eidx := field x 40 20 }

/-- Read the group-state area of a group: what could not be written, or cannot be read, is lost. -/
def State.restoreGroup (s : State) (gid ctx base : Nat) : State :=
  let g := s.group gid
  if g.ended then s
  else
    let (lost, s) := s.linesLost (s.team g.team).tile ctx (base + 0x388000 + 4096 * g.idx) 32
    if lost || g.saveLost then (s.loseGroup gid).modGroup gid fun g => { g with saveLost := false } else s

/-- Read the team-state area of a team. -/
def State.restoreTeam (s : State) (tid ctx base : Nat) : State :=
  let (lost, s) := s.linesLost (s.team tid).tile ctx (base + 0x3A8000) 512
  if lost || (s.team tid).saveLost then (s.loseTeam tid).modTeam tid fun t => { t with saveLost := false } else s

/-- The lines of an accumulator slot: elements, ROWMAX, ROWSUM (R333). -/
def AccTile.elLines (x : AccTile) : List Nat :=
  (List.range 32).map fun i => packLine 32 ((List.range 32).map fun j => (x.get i j).toNat)
def AccTile.sideLines (x : AccTile) : List Nat :=
  [packLine 32 ((List.range 32).map fun i => (x.rowMax i).toNat), packLine 32 ((List.range 32).map fun i => (x.rowSum i).toNat)]

/-- Write a lazily held tile into the slot of tile `n` of a group, and ACCSV (R338). -/
def State.spillTile (s : State) (gid n : Nat) (x : AccTile) : State :=
  let g := s.group gid
  let t := s.team g.team
  let ctx := s.ctxOf g
  let c := s.clusterIdx g
  let slot := s.saveBase ctx c t.idx + 0x300000 + 4352 * (4 * g.idx + n)
  let sv := s.accsvVa ctx c t.idx g.idx
  let s := s.saveLines t.tile ctx slot x.elLines
  let s := if x.sideClean then s else s.saveLines t.tile ctx (slot + 4096) x.sideLines
  let (old, s) := s.savedLine t.tile ctx sv
  let new := old % 256 ||| 2 ^ n ||| if x.sideClean then 0 else 2 ^ (4 + n)
  s.saveBytes t.tile ctx sv 1 new

/-- The spill of one physical tile, if R338 asks for it. -/
def State.spillOne (s : State) (gid n key p : Nat) : State :=
  let g := s.group gid
  let c := s.subs.getD key SubCore.reset
  let here := key == subKey (s.team g.team).tile g.q && g.phys[n]? == some p
  if here || !c.ownedBy (s.ctxOf g) || !c.acclive.getLsbD p || c.acctag.getD p 0 != s.accTag g n then s
  else
    let s := s.spillTile gid n (c.acc.getD p AccTile.fresh)
    { s with subs := s.subs.alter key fun c => { c with
      acctag := c.acctag.del p
      acclive := c.acclive &&& ~~~ BitVec.ofNat 8 (2 ^ p) } }

/-- Every spill of a group. -/
def State.spillGroup (s : State) (gid : Nat) : State :=
  if (s.group gid).ended then s
  else
    (s.subs.map (·.1)).foldl (fun s key => (List.range (s.group gid).accN).foldl (fun s n =>
      (List.range 8).foldl (fun s p => s.spillOne gid n key p) s) s) s

/-- The physical line of a team's local line (R148). -/
def Team.localLine (t : Team) (va : Nat) : Nat := ((t.gmap[va / 4096]?).getD 0 * 4096 + va % 4096) / 128

/-- Accesses of a group name its new place: a tile by its number, a local line by its granule (R147, R148); log entries are
numbered on the new sub-core, and one that finds none free waits for it (R76). Assumption 42 (DESIGN CHOICE). -/
def State.moveAccesses (s : State) (gid : Nat) : State :=
  let g := s.group gid
  let tile := (s.team g.team).tile
  ((s.accs.filter fun a => a.2.gid == gid).map (·.1)).foldl (fun s k =>
    let others := (s.accs.filter fun a => a.1 != k && s.accTile a.2 == tile && (s.group a.2.gid).q == g.q
      && (a.2.gid != gid || a.1 < k)).filterMap fun a => a.2.log
    s.modAcc k fun a => { a with
      lines := if a.isLocal then a.lines.map fun l => { l with pa := (s.team g.team).localLine l.va } else a.lines
      log := a.log.bind fun _ => (List.range 8).find? fun n => !others.contains n
      info := if a.kind == .accld && !a.info.flag2 then { a.info with aux := (g.phys[a.tileNum]?).getD 0 } else a.info }) s

/-- A team's grants on its new tile (R286, R374). Assumption 42 (DESIGN CHOICE). Assumption 44 (DEDUCED). -/
def State.regrant (s : State) (cid tid tile : Nat) : State :=
  let p := (s.launch (s.cluster cid).launch).pkt
  let gs := s.freeGranules tile p.lgran
  let s := (s.clearGranules tile gs).modTeam tid fun t => { t with tile := tile, gmap := gs }
  (s.team tid).groups.foldl (fun s i => s.mapTiles i) s

/-- A team's state comes back from its record. -/
def State.reload (s : State) (cid tid : Nat) : State :=
  let t := s.team tid
  let c := s.cluster cid
  let ctx := (s.launch c.launch).ctx
  let base := s.saveBase ctx c.idx t.idx
  let s := s.restoreStore tid ctx base
  let s := t.groups.foldl (fun s i => (s.restoreRegs i ctx base).restoreGroup i ctx base) s
  let s := s.restoreTeam tid ctx base
  let s := (s.acquireAt t.tile 4).arbitrate t.tile
  let s := t.groups.foldl (fun s i => s.spillGroup i) s
  let s := t.groups.foldl (fun s i => s.moveAccesses i) s
  { s with fences := s.fences.map fun f => (f.1, if f.2.team = tid then { f.2 with tile := t.tile } else f.2) }

/-- The groups of a team become resident, and its copies reserve again what they have not finished (R147).
Assumption 42 (DESIGN CHOICE). -/
def State.wake (s : State) (tid : Nat) : State :=
  let s := (s.team tid).groups.foldl (fun s i => (s.modGroup i fun g => { g with stopped := false }).takeRoom i) s
  ((s.copies.filter fun c => c.2.team == tid).map (·.1)).foldl (fun s k => s.resumeCopy k) s

/-- What waited for the restore of a team is tried again, once every copy of its cluster has reserved (R147). The saved MLOOPs of
a group that has ended resume at once: it comes to no issue point. Assumption 36 (DESIGN CHOICE).
Assumption 42 (DESIGN CHOICE). -/
def State.takeUp (s : State) (tid : Nat) : State :=
  let t := s.team tid
  let s := ((s.accs.filter fun a => t.groups.contains a.2.gid).map (·.1)).foldl (fun s k => (s.retranslate k).retryAcc k) s
  let s := (t.groups.filter fun i => (s.group i).ended).foldl State.takeUpLoops s
  let s := t.groups.foldl (fun s i => s.examine i) s
  (s.mergeRounds tid).teamEnd tid

/-- CLUSTER_RESTORE (R334): on the tiles of a rectangle, team by team. -/
def State.restore (s : State) (cid : Nat) (ts : List Nat) : State :=
  let c := s.cluster cid
  let live := ((List.range c.teams.length).map fun i => ((c.teams[i]?).getD 0, (ts[i]?).getD 0)).filter fun p =>
    !(s.team p.1).ended
  let s := live.foldl (fun s p => s.regrant cid p.1 p.2) s
  let loops := c.loops.map fun m =>
    if m.tile < 4 then { m with phys := ((s.group m.gid).phys[m.tile]?).getD m.phys } else m
  let (n, s) := s.fresh
  let s := s.modCluster cid fun c => { c with state := .resident, outAt := 0, placedAt := n, loops := loops }
  let s := live.foldl (fun s p => s.reload cid p.1) s
  let s := live.foldl (fun s p => s.wake p.1) s
  let s := live.foldl (fun s p => s.takeUp p.1) s
  s.kick

end Sys2Proof.Machine
end

