-- ==== Sys2Proof/Machine/Dist.lean ====
section
/-! DEFINITION. The distributor (R278-R285, R295, R296, R391) and the completion of launches (R256). -/

namespace Sys2Proof.Machine

/-! ### Queue blocks and packets (R279-R281) -/

/-- The tile number the walks of the distributor carry: it has no L1 and no TLB. -/
def distTile : Nat := 256

def State.queueBlock (s : State) (q : Nat) : Nat := field s.dist.lqtab 14 50 * 16384 + 256 * q

/-- `n` bytes of line data from byte `i`. -/
def byteField (x i n : Nat) : Nat := x / 256 ^ i % 256 ^ n

/-- A queue block: the ring, LOG2N, HEAD, TAIL; none where it is malformed (R279). -/
def State.readBlock (s : State) (q : Nat) : Option (Nat × Nat × Nat × Nat) :=
  let pa := s.queueBlock q
  let x := (s.cohLine (pa / 128)).1
  let y := (s.cohLine (pa / 128 + 1)).1
  let ring := byteField x 0 8
  let log := byteField x 8 1
  if byteField x 9 7 ≠ 0 || byteField x 20 108 ≠ 0 || byteField y 4 124 ≠ 0 || log < 3 || 16 < log
      || ring % 128 ≠ 0 || 2 ^ 52 ≤ ring || !paOk ring then none
  else some (ring, log, byteField x 16 4, byteField y 0 4)

/-- A packet's fields (R280). -/
def parsePacket (x : Nat) : Packet where
  codeva := byteField x 0 8
  recva := byteField x 8 8
  doneva := byteField x 16 8
  wait0 := (byteField x 24 8, byteField x 32 8)
  wait1 := (byteField x 40 8, byteField x 48 8)
  gridx := byteField x 56 2
  gridy := byteField x 58 2
  gridz := byteField x 60 2
  w := byteField x 62 1 % 16
  h := byteField x 62 1 / 16
  ngroup := byteField x 63 1
  live := byteField x 64 1
  regs := byteField x 65 1
  acc := byteField x 66 1
  prod := if byteField x 67 1 / 128 = 1 then none else some (byteField x 67 1 % 32)
  lgran := byteField x 68 2
  det := byteField x 70 1 % 2 == 1
  preempt := byteField x 70 1 / 2 % 2 == 1
  wdog := byteField x 71 1
  phases := byteField x 72 2

/-- A VA of a packet is aligned and has bits [63:56] zero. -/
def vaOk (n va : Nat) : Bool := va % n == 0 && va < 2 ^ 56

/-- The first check of R281 that fails, of the checks made at the copy. Assumption 47 (DESIGN CHOICE). -/
def State.packetFault (s : State) (x ctx : Nat) : Option Nat :=
  let p := parsePacket x
  if byteField x 74 54 ≠ 0 || byteField x 70 1 / 4 ≠ 0 || byteField x 67 1 / 32 % 4 ≠ 0 then some 0x01
  else if p.ngroup < 1 || 32 < p.ngroup || p.live < 1 || 32 < p.live || p.regs < 1 || 16 < p.regs || 4 < p.acc
      || 256 < p.lgran then some 0x02
  else if p.w < 1 || 12 < p.w || p.h < 1 || 8 < p.h || 12 < p.w * p.h then some 0x03
  else if p.gridx = 0 || p.gridy = 0 || p.gridz = 0 then some 0x04
  else if (p.prod.any fun g => p.ngroup ≤ g) then some 0x05
  else if 8 < (p.ngroup + 3) / 4 * p.acc then some 0x06
  else if !(vaOk 32 p.codeva && vaOk 32 p.recva && vaOk 8 p.doneva && vaOk 8 p.wait0.1 && vaOk 8 p.wait1.1) then some 0x07
  else if (if p.det then p.phases < 1 else p.phases ≠ 0 || p.wdog ≠ 0) then some 0x08
  else if !s.ctxValid ctx then some 0x09
  else none

/-! ### The head of a queue (R282) -/

/-- Clusters of a launch's grid. -/
def Packet.total (p : Packet) : Nat := p.gridx * p.gridy * p.gridz

/-- Every cluster of the present phase is placed. -/
def Launch.placed (l : Launch) : Bool := l.pkt.total ≤ l.next

/-- The present phase is the last (R295). -/
def Launch.lastPhase (l : Launch) : Bool := !l.pkt.det || l.pkt.phases ≤ l.phase + 1

/-- The packet has had all its clusters distributed, or is refused. -/
def Launch.distributed (l : Launch) : Bool := l.refused || (l.placed && l.lastPhase)

/-- The launch whose clusters a queue distributes. -/
def State.headOf (s : State) (q : Nat) : Option (Nat × Launch) :=
  match s.dist.head.get? q with
  | none => none
  | some lid =>
    match s.launches.get? lid with
    | some l => if l.distributed then none else some (lid, l)
    | none => none

/-- A queue's EN, CTXID and PRIO. -/
def State.queueOn (s : State) (q : Nat) : Bool := (s.dist.lqctl.getD q 0).getLsbD 3
def State.queueCtx (s : State) (q : Nat) : Nat := field (s.dist.lqctl.getD q 0) 4 4
def State.queuePrio (s : State) (q : Nat) : Nat := field (s.dist.lqctl.getD q 0) 0 3

/-- Copy the next packet of a queue, check it, advance HEAD (R279, R281). Assumption 64 (DESIGN CHOICE). -/
def State.copyPacket (s : State) (q : Nat) : State :=
  if 64 ≤ q || !s.queueOn q || (s.headOf q).isSome then s
  else
    match s.readBlock q with
    | none => s.refuseQueue q 0x0D
    | some (ring, log, head, tail) =>
      if head = tail then s
      else
        let x := (s.cohLine ((ring + 128 * (head % 2 ^ log)) / 128)).1
        let ctx := s.queueCtx q
        match s.packetFault x ctx with
        | some c => s.refuseQueue q c
        | none =>
          let (lid, s) := s.fresh
          let s := s.cohWrite (s.queueBlock q + 16) 4 ((head + 1) % 2 ^ 32)
          { s with
            launches := s.launches.set lid { Launch.blank with queue := q, ctx := ctx, pkt := parsePacket x }
            dist := { s.dist with head := s.dist.head.set q lid } }

def execPacketCopy (q : Nat) (s : State) : Host.Outcome State Fault Refusal := .next (s.copyPacket q)

/-! ### Dependence counters (R282, R391) -/

/-- One counter of a launch read, unless it has been met or its line is reported absent: met, absent, refused, or not yet.
Assumption 47 (DESIGN CHOICE). -/
def State.readCounter (s : State) (lid : Nat) (c : Nat × Nat) (setMet setPosted : Launch → Launch) : State :=
  let l := s.launch lid
  match s.translate distTile l.ctx c.1 false .r with
  | (.ok line _, s) =>
    let (x, s) := s.lineBytes line (c.1 % 128) 8
    if c.2 ≤ x then s.modLaunch lid setMet else s
  | (.missing, s) => (s.modLaunch lid setPosted).fqPost 0 (c.1 / 128 * 128) l.ctx 0xFFFF 0xFF 0xFF 0
  | (.access _, s) => s.refuseLaunch lid

/-- Read the counters of the waiting head of a queue. Assumption 47 (DESIGN CHOICE). -/
def State.pollCounters (s : State) (q : Nat) : State :=
  match s.headOf q with
  | none => s
  | some (lid, l) =>
    let s := if l.pkt.wait0.1 = 0 || l.met0 || l.posted0 then s
      else s.readCounter lid l.pkt.wait0 (fun l => { l with met0 := true }) fun l => { l with posted0 := true }
    if l.pkt.wait1.1 = 0 || l.met1 || l.posted1 || (s.launch lid).refused then s
    else s.readCounter lid l.pkt.wait1 (fun l => { l with met1 := true }) fun l => { l with posted1 := true }

def execWaitCounterPoll (q : Nat) (s : State) : Host.Outcome State Fault Refusal := .next (s.pollCounters q)

/-- Every counter a packet names has been met. -/
def Launch.met (l : Launch) : Bool := (l.pkt.wait0.1 == 0 || l.met0) && (l.pkt.wait1.1 == 0 || l.met1)

/-- NOTIFY (R124, R282): after an overflow the tails of all queues are scanned first; else one notification is consumed
and the queue whose TAIL it reports is looked at. The counters of every waiting head are read.
Assumption 64 (DESIGN CHOICE). -/
def execNotify (s : State) : Host.Outcome State Fault Refusal :=
  let poll (s : State) : State := (List.range 64).foldl (fun s q => s.pollCounters q) s
  if s.dist.rescan then
    let s := { s with dist := { s.dist with rescan := false } }
    .next (poll ((List.range 64).foldl (fun s q => s.copyPacket q) s))
  else
    match s.dist.notifs with
    | [] => .next s
    | (pa, _) :: r =>
      let s := { s with dist := { s.dist with notifs := r } }
      let s := match (List.range 64).find? fun q => s.queueBlock q + 128 == pa with
        | some q => s.copyPacket q
        | none => s
      .next (poll s)

/-! ### Decisions (R283, R285) -/

/-- What a queue would place next: the launch, the switched-out cluster it takes up or none, the priority. -/
structure Cand where
  queue : Nat
  lid : Nat
  out : Option Nat
  prio : Nat
  deriving DecidableEq, Repr

/-- A launch's switched-out clusters. -/
def State.outsOf (s : State) (lid : Nat) : List (Nat × Cluster) :=
  s.clusters.filter fun c => c.2.launch == lid && c.2.state == .out && !c.2.ended

/-- A launch's switched-out cluster to take up next: the one that a rotation has made room for, else the one that has been out
longest; none where the room is for a cluster that has not been distributed. Assumption 44 (DEDUCED). -/
def State.outOf (s : State) (lid : Nat) (l : Launch) : Option (Nat × Cluster) :=
  let outs := s.outsOf lid
  if l.due = some 0 && !l.refused && !l.placed then none
  else
    match outs.find? fun c => l.due == some c.1 with
    | some c => some c
    | none => outs.foldl (fun o c => match o with
        | none => some c
        | some b => if c.2.outAt < b.2.outAt then some c else some b) none

/-- The candidate of a queue (R283): a switched-out cluster of its packets, else the next cluster of its ready head. A refused
packet's EN = 0 keeps no cluster of it out (R391). Assumption 44 (DEDUCED). -/
def State.candOf (s : State) (q : Nat) : Option Cand :=
  let mine := s.launches.filter fun l => l.2.queue == q && (s.queueOn q || l.2.refused)
  match mine.findSome? fun l => (s.outOf l.1 l.2).map fun c => (l.1, c) with
  | some (lid, cid, c) => some ⟨q, lid, some cid, c.prio⟩
  | none =>
    if !s.queueOn q then none
    else
      match s.headOf q with
      | some (lid, l) => if l.met && !l.placed then some ⟨q, lid, none, s.queuePrio q⟩ else none
      | none => none

/-- The rectangle for a candidate. Assumption 44 (DEDUCED). -/
def State.rectFor (s : State) (c : Cand) : Option (List Nat) :=
  let l := s.launch c.lid
  match c.out with
  | some cid =>
    let ts := (s.cluster cid).teams
    s.findRect l.pkt fun i => !(s.team ((ts[i]?).getD 0)).ended
  | none => s.findRect l.pkt fun _ => true

/-- Clusters a switch may take out (R285). -/
def State.victims (s : State) (p : Nat × Cluster → Bool) : List (Nat × Cluster) :=
  s.clusters.filter fun c => c.2.state == .resident && !c.2.ended && s.switchable c.1
    && (s.launch c.2.launch).waiting != c.1 && p c

/-- A switch-out is under way. Assumption 43 (DESIGN CHOICE). -/
def State.switching (s : State) : Bool := s.clusters.any fun c => !c.2.ended && (c.2.state == .stopping || c.2.state == .draining)

/-- Pre-emption (R285): the lowest starting priority first, among equals the one placed most recently. -/
def State.preemptFor (s : State) (c : Cand) : Option Nat :=
  if !(s.launch c.lid).pkt.preempt then none
  else
    ((s.victims fun v => v.2.prio < c.prio).foldl (fun (o : Option (Nat × Cluster)) v => match o with
      | none => some v
      | some b => if v.2.prio < b.2.prio || (v.2.prio == b.2.prio && b.2.placedAt < v.2.placedAt) then some v else some b)
        none).map (·.1)

/-- Place a candidate on a rectangle. -/
def State.place (s : State) (c : Cand) (ts : List Nat) : State :=
  let s := { s with dist := { s.dist with served := s.dist.served.set c.prio c.queue } }
  let s := s.modLaunch c.lid fun l => { l with due := none }
  match c.out with
  | some cid => s.restore cid ts
  | none => s.admitNext c.lid ts

/-- Try the candidates of one priority in their order. While a launch's admission waits for its records no other cluster of it
is placed, and it takes no other's place. One whose packet pre-empts is decided again once a switch-out under way has ended,
before the queues after it (R283). Assumption 44 (DEDUCED). -/
def State.serve (s : State) : List Cand → State
  | [] => s
  | c :: r =>
    if (s.launch c.lid).waiting ≠ 0 then s.serve r
    else
      match s.rectFor c with
      | some ts => s.place c ts
      | none =>
        if (s.launch c.lid).pkt.preempt && s.switching then s
        else
          match s.preemptFor c with
          | some v => s.startSwitch v
          | none => s.serve r

/-- DISTRIBUTOR_PLACE (R283): one decision. -/
def execDistributorPlace (s : State) : Host.Outcome State Fault Refusal :=
  let cand := (List.range 64).filterMap s.candOf
  let top := cand.foldl (fun m c => max m c.prio) 0
  let at_ := cand.filter fun c => c.prio == top
  match s.dist.served.get? top with
  | none => .next (s.serve at_)
  | some last => .next (s.serve ((at_.filter fun c => last < c.queue) ++ at_.filter fun c => c.queue ≤ last))

/-- ROTATION_TIMEOUT (R285): the next cluster of a packet has waited; the switchable one of its packet that has been
resident longest is switched out, and makes room for it. Assumption 44 (DEDUCED). -/
def execRotationTimeout (lid : Nat) (s : State) : Host.Outcome State Fault Refusal :=
  let l := s.launch lid
  match s.candOf l.queue with
  | none => .next s
  | some c =>
    if c.lid ≠ lid || l.pkt.det || s.switching || l.waiting ≠ 0 || (s.rectFor c).isSome then .next s
    else
      let v := (s.victims fun v => v.2.launch == lid).foldl (fun (o : Option (Nat × Cluster)) v => match o with
        | none => some v
        | some b => if v.2.placedAt < b.2.placedAt then some v else some b) none
      match v with
      | some (cid, _) => .next ((s.modLaunch lid fun l => { l with due := some (c.out.getD 0) }).startSwitch cid)
      | none => .next s

/-! ### Phases and completion (R256, R257, R295, R296) -/

/-- Every access of a launch's groups has performed and every write-back its teams left has been accepted. -/
def State.released (s : State) (lid : Nat) : Bool :=
  !(s.accs.any fun a => s.launchIdOf (s.group a.2.gid) == lid && (s.group a.2.gid).level != .m)
    && !((s.launch lid).wbs.any s.inFlight)

/-- Every cluster placed has ended. -/
def Launch.ended (l : Launch) : Bool := l.done == l.next && l.waiting == 0 && (l.placed || l.refused)

/-- The clusters of a launch, with their teams and groups, are no more. -/
def State.dropClusters (s : State) (lid : Nat) : State :=
  let mine := s.clusters.filter fun c => c.2.launch == lid
  let ts := mine.flatMap fun c => c.2.teams
  let gs := ts.flatMap fun i => (s.team i).groups
  { s with
    clusters := s.clusters.filter fun c => c.2.launch != lid
    teams := s.teams.filter fun t => !ts.contains t.1
    groups := s.groups.filter fun g => !gs.contains g.1
    bad := s.bad.filter fun p => match p with
      | .reg g _ => !gs.contains g
      | _ => true }

/-- PHASE_START (R295, R257): the next phase of a deterministic launch may be placed. -/
def execPhaseStart (lid : Nat) (s : State) : Host.Outcome State Fault Refusal :=
  match s.launches.get? lid with
  | none => .next s
  | some l =>
    if l.refused || l.lastPhase || !l.ended || !s.released lid then .next s
    else .next ((s.dropClusters lid).modLaunch lid fun l => { l with
      phase := l.phase + 1, next := 0, done := 0, watchdog := false, wbs := [] })

/-- PHASE_WATCHDOG_EXPIRE (R296): while a cluster of the phase is resident and the phase has not ended, every group of
the phase that has not ended is to take `PHASE_TIMEOUT`. Assumption 60 (DEDUCED). -/
def execPhaseWatchdogExpire (lid : Nat) (s : State) : Host.Outcome State Fault Refusal :=
  match s.launches.get? lid with
  | none => .next s
  | some l =>
    let mine := s.clusters.filter fun c => c.2.launch == lid && !c.2.ended
    if !l.pkt.det || l.watchdog || !(mine.any fun c => c.2.state != .out) then .next s
    else
      let (n, s) := s.fresh
      let gids := mine.flatMap fun c => s.clusterGroups c.1
      let s := gids.foldl (fun s i =>
        if (s.group i).ended then s
        else s.addPend i ⟨.phaseTimeout, 0, BitVec.ofNat 64 (l.phase % 65536), 0, false, n⟩) s
      .next (s.modLaunch lid fun l => { l with watchdog := true })

/-- A launch is over: it goes. -/
def State.dropLaunch (s : State) (lid : Nat) : State :=
  let s := s.dropClusters lid
  { s with
    launches := s.launches.del lid
    code := s.code.filter fun x => x.launch != lid
    dist := { s.dist with head := s.dist.head.filter fun p => p.2 != lid } }

/-- The increment of a completion counter on its way to its home. Assumption 48 (DEDUCED). -/
def State.sendIncrement (s : State) (lid line va : Nat) : State :=
  (s.send { s.newReq evAtomic line distTile .ext with
    launch := lid, op := 0, aty := 2, elems := [⟨0, 0, 0, va % 128, 8, 1, 0, none⟩] }).2

/-- The increment is dropped (R391). Assumption 48 (DEDUCED). -/
def State.dropIncrement (s : State) (l : Launch) : State := s.fqPost 10 l.pkt.doneva l.ctx l.lastTile 0xFF 0xFF 0

/-- LAUNCH_COMPLETION (R256, R391): after the release of every team and the drop of the replicas (R106), the counter.
Assumption 48 (DEDUCED). -/
def execLaunchCompletion (lid : Nat) (s : State) : Host.Outcome State Fault Refusal :=
  match s.launches.get? lid with
  | none => .next s
  | some l =>
    if !l.ended || !(l.refused || l.lastPhase) || !s.released lid || l.incPosted then .next s
    else
      let s := { s with replicas := s.replicas.filter fun r => r.launch != lid }
      let va := l.pkt.doneva
      if l.refused || va = 0 then .next (s.dropLaunch lid)
      else
        match s.translate distTile l.ctx va false .a with
        | (.ok line _, s) => .next ((s.sendIncrement lid line va).dropLaunch lid)
        | (.missing, s) =>
          .next ((s.modLaunch lid fun l => { l with incPosted := true }).fqPost 2 (va / 128 * 128) l.ctx l.lastTile 0xFF 0xFF 0)
        | (.access _, s) => .next ((s.dropIncrement l).dropLaunch lid)

end Sys2Proof.Machine
end

