-- ==== Sys2Proof/Machine/FloatAlu.lean ====
section
/-! DEFINITION. Floating-point instructions (R186-R194) and the special functions (R208, R209). -/

namespace Sys2Proof

open Sys2Proof.Machine

/-- The rounding mode of a float modifier (R51): RM 2 is up, 3 is down. -/
def FltM.rnd (m : FltM) : Rm := Rm.ofBits m.rm.toNat
def FltM.fmt (m : FltM) : Fmt := ftFmt m.ft
def FltM.expand (m : FltM) : Expand := ftExpand m.ft

/-- A register of results, one for each sub-element of the type; `.f32` leaves bits [63:32] zero (R52). -/
def FltM.packed (m : FltM) (f : Nat → Nat) : W64 := pack (ftWidth m.ft) (ftCount m.ft) f

/-- Sub-element `i` of a register. -/
def FltM.el (m : FltM) (x : W64) (i : Nat) : Nat := sub (ftWidth m.ft) x i
def FltM.num (m : FltM) (x : W64) (i : Nat) : Machine.Num := m.fmt.decode (m.el x i)

/-- One rounding into the operand format (R186). -/
def FltM.enc (m : FltM) (x : Machine.Num) : Nat := m.fmt.encode m.rnd m.sat x

/-- A rounding operation on values. -/
def FltM.op2 (m : FltM) (f : Machine.Num → Machine.Num → Machine.Num) (a b : Nat) : Nat := m.enc (f (m.fmt.decode a) (m.fmt.decode b))

/-- The value FCMP writes (R190). -/
def FltM.cmp (m : FltM) (d : Spec) (a b : W64) : W64 :=
  let t (i : Nat) : Bool := fcmpHolds m.rm.toNat (m.num a i) (m.num b i)
  match d with
  | .p _ => if t 0 then 1 else 0
  | _ => m.packed fun i => if t i then 2 ^ ftWidth m.ft - 1 else 0

end Sys2Proof

namespace Sys2Proof.Machine

def fltOp1 (h : Hdr) (m : FltM) (d a : Spec) (f : Nat → Nat) (s : State) : Host.Outcome State Fault Refusal :=
  issue h [d] [a] s fun s => s.arith h d fun l => let x := s.src h m.expand a l; m.packed fun i => f (m.el x i)

def fltOp2 (h : Hdr) (m : FltM) (d a b : Spec) (f : Nat → Nat → Nat) (s : State) : Host.Outcome State Fault Refusal :=
  issue h [d] [a, b] s fun s => s.arith h d fun l =>
    let x := s.src h m.expand a l
    let y := s.src h m.expand b l
    m.packed fun i => f (m.el x i) (m.el y i)

def execFadd (h : Hdr) (m : FltM) (d a b : Spec) (s : State) : Host.Outcome State Fault Refusal :=
  fltOp2 h m d a b (m.op2 (Num.add m.rnd)) s
def execFsub (h : Hdr) (m : FltM) (d a b : Spec) (s : State) : Host.Outcome State Fault Refusal :=
  fltOp2 h m d a b (m.op2 fun x y => x.add m.rnd y.neg) s
def execFmul (h : Hdr) (m : FltM) (d a b : Spec) (s : State) : Host.Outcome State Fault Refusal :=
  fltOp2 h m d a b (m.op2 Num.mul) s

/-- FFMA (R187): the product is exact. -/
def execFfma (h : Hdr) (m : FltM) (d a b c : Spec) (s : State) : Host.Outcome State Fault Refusal :=
  issue h [d] [a, b, c] s fun s => s.arith h d fun l =>
    let x := s.src h m.expand a l
    let y := s.src h m.expand b l
    let z := s.src h m.expand c l
    m.packed fun i => m.enc (((m.num x i).mul (m.num y i)).add m.rnd (m.num z i))

/-- FMIN and FMAX (R188): RM 1 is `.nan`. -/
def execFmin (h : Hdr) (m : FltM) (d a b : Spec) (s : State) : Host.Outcome State Fault Refusal :=
  fltOp2 h m d a b (fminmax m.fmt false (m.rm == 1)) s
def execFmax (h : Hdr) (m : FltM) (d a b : Spec) (s : State) : Host.Outcome State Fault Refusal :=
  fltOp2 h m d a b (fminmax m.fmt true (m.rm == 1)) s

/-- FNEG and FABS (R189): only the sign bit changes. -/
def execFneg (h : Hdr) (m : FltM) (d a : Spec) (s : State) : Host.Outcome State Fault Refusal :=
  fltOp1 h m d a (fun x => x ^^^ m.fmt.signBit) s
def execFabs (h : Hdr) (m : FltM) (d a : Spec) (s : State) : Host.Outcome State Fault Refusal :=
  fltOp1 h m d a (fun x => x % m.fmt.signBit) s

def execFcmp (h : Hdr) (m : FltM) (d a b : Spec) (s : State) : Host.Outcome State Fault Refusal :=
  issue h [d] [a, b] s fun s => s.arith h d fun l => m.cmp d (s.src h m.expand a l) (s.src h m.expand b l)

/-- FCLASS (R191): the class set of each sub-element, or for a `p` destination a test against the mask. -/
def execFclass (h : Hdr) (m : FltM) (d a b : Spec) (s : State) : Host.Outcome State Fault Refusal :=
  issue h [d] [a, b] s fun s => s.arith h d fun l =>
    let x := s.src h m.expand a l
    match d with
    | .p _ => if (m.el (s.src h m.expand b l) 0).testBit (fclassBit m.fmt (m.el x 0)) then 1 else 0
    | _ => m.packed fun i => 2 ^ fclassBit m.fmt (m.el x i)

/-- FRND (R192). -/
def execFrnd (h : Hdr) (m : FltM) (d a : Spec) (s : State) : Host.Outcome State Fault Refusal :=
  fltOp1 h m d a (fun x => m.fmt.rint m.rnd (m.fmt.decode x)) s

/-- FSCL (R193): B is a two's-complement integer of the sub-element width. -/
def execFscl (h : Hdr) (m : FltM) (d a b : Spec) (s : State) : Host.Outcome State Fault Refusal :=
  fltOp2 h m d a b (fun x y => m.enc ((m.fmt.decode x).scale (asSigned (ftWidth m.ft) y))) s

/-- FDOT (R194): exact products and sum, C as FP32 from bits [31:0]; one rounding to FP32. -/
def execFdot (h : Hdr) (m : FltM) (d a b c : Spec) (s : State) : Host.Outcome State Fault Refusal :=
  issue h [d] [a, b, c] s fun s => s.arith h d fun l =>
    let x := s.src h m.expand a l
    let y := s.src h m.expand b l
    let z := s.src h .rep32 c l
    let terms := fp32.decode (sub 32 z 0) :: (List.range (ftCount m.ft)).map fun i => (m.num x i).mul (m.num y i)
    BitVec.ofNat 64 (fp32.encode m.rnd m.sat (Num.sum m.rnd terms))

/-! ### Special functions (R208, R209) -/

def sfu (h : Hdr) (m : FltM) (d a : Spec) (f : Fmt → Rm → Bool → Num → Nat) (s : State) :
    Host.Outcome State Fault Refusal :=
  fltOp1 h m d a (fun x => f m.fmt m.rnd m.sat (m.fmt.decode x)) s

def execRcp (h : Hdr) (m : FltM) (d a : Spec) (s : State) : Host.Outcome State Fault Refusal := sfu h m d a Fmt.rcp s
def execRsq (h : Hdr) (m : FltM) (d a : Spec) (s : State) : Host.Outcome State Fault Refusal := sfu h m d a Fmt.rsq s
def execSqrt (h : Hdr) (m : FltM) (d a : Spec) (s : State) : Host.Outcome State Fault Refusal := sfu h m d a Fmt.sqrt s
def execEx2 (h : Hdr) (m : FltM) (d a : Spec) (s : State) : Host.Outcome State Fault Refusal := sfu h m d a Fmt.ex2 s
def execLg2 (h : Hdr) (m : FltM) (d a : Spec) (s : State) : Host.Outcome State Fault Refusal := sfu h m d a Fmt.lg2 s
def execSinr (h : Hdr) (m : FltM) (d a : Spec) (s : State) : Host.Outcome State Fault Refusal :=
  sfu h m d a (fun f rm sat x => f.trig rm sat false x) s
def execCosr (h : Hdr) (m : FltM) (d a : Spec) (s : State) : Host.Outcome State Fault Refusal :=
  sfu h m d a (fun f rm sat x => f.trig rm sat true x) s

end Sys2Proof.Machine
end

