-- ==== Sys2Proof/Machine/IntAlu.lean ====
section
/-! DEFINITION. Moves, selection, integer and logic instructions (R173-R185). -/

namespace Sys2Proof

open Sys2Proof.Machine

/-! ### Element operations -/

/-- Apply an operation on the exact readings of each sub-element, wrapping or clamping to the type (R179). -/
def IntM.map2 (m : IntM) (f : Int → Int → Int) (a b : W64) : W64 :=
  let w := widthOf m.w
  pack w (perReg w) fun i =>
    let x := f (readInt m.sgn w (sub w a i)) (readInt m.sgn w (sub w b i))
    wrapInt w (if m.sat then clampInt (intMin m.sgn w) (intMax m.sgn w) x else x)

def IntM.map3 (m : IntM) (f : Int → Int → Int → Int) (a b c : W64) : W64 :=
  let w := widthOf m.w
  pack w (perReg w) fun i =>
    let x := f (readInt m.sgn w (sub w a i)) (readInt m.sgn w (sub w b i)) (readInt m.sgn w (sub w c i))
    wrapInt w (if m.sat then clampInt (intMin m.sgn w) (intMax m.sgn w) x else x)

/-- High half of the 2w-bit product (R179). -/
def IntM.mulh (m : IntM) (a b : W64) : W64 :=
  let w := widthOf m.w
  pack w (perReg w) fun i => wrapInt w (readInt m.sgn w (sub w a i) * readInt m.sgn w (sub w b i) / 2 ^ w)

/-- Shifts (R181): the count is the unsigned sub-element of B. A count of w or more shifts every bit out. -/
def IntM.shl (m : IntM) (a b : W64) : W64 :=
  let w := widthOf m.w
  pack w (perReg w) fun i =>
    let c := sub w b i
    let x := readInt m.sgn w (sub w a i)
    if m.sat then
      wrapInt w (clampInt (intMin m.sgn w) (intMax m.sgn w) (x * 2 ^ min c w))
    else if w ≤ c then 0 else wrapInt w (x * 2 ^ c)

def IntM.shr (m : IntM) (a b : W64) : W64 :=
  let w := widthOf m.w
  pack w (perReg w) fun i => let c := sub w b i; if w ≤ c then 0 else sub w a i / 2 ^ c

def IntM.sar (m : IntM) (a b : W64) : W64 :=
  let w := widthOf m.w
  pack w (perReg w) fun i =>
    let c := sub w b i
    let x := asSigned w (sub w a i)
    if w ≤ c then (if x < 0 then 2 ^ w - 1 else 0) else wrapInt w (x / 2 ^ c)

/-- Rotation (R181): VAR 0 left, 1 right. -/
def IntM.rot (m : IntM) (a b : W64) : W64 :=
  let w := widthOf m.w
  pack w (perReg w) fun i =>
    let k := sub w b i % w
    let x := sub w a i
    let l := if m.var = 0 then k else (w - k) % w
    x * 2 ^ l ||| x / 2 ^ (w - l)

/-- BFE (R182). -/
def IntM.bfe (m : IntM) (a b c : W64) : W64 :=
  let w := widthOf m.w
  pack w (perReg w) fun i =>
    let p := min (sub w b i) w
    let n := min (sub w c i) w
    let f := wrapInt w (readInt m.sgn w (sub w a i) / 2 ^ p)
    if n = 0 then 0 else if m.sgn then wrapInt w (asSigned n (f % 2 ^ n)) else f % 2 ^ n

/-- BFI (R183): base, insert, position, length. -/
def IntM.bfi (m : IntM) (a b c e : W64) : W64 :=
  let w := widthOf m.w
  pack w (perReg w) fun i =>
    let p := min (sub w c i) w
    let n := min (sub w e i) (w - p)
    let base := sub w a i
    base - base / 2 ^ p % 2 ^ n * 2 ^ p + sub w b i % 2 ^ n * 2 ^ p

end Sys2Proof

namespace Sys2Proof.Machine

/-- The bits of a number below `w`, lowest first. -/
def bitsOf (w x : Nat) : List Bool := (List.range w).map fun i => x.testBit i

/-- Bit counts and reversal (R184), on one sub-element. -/
def popcOf (w x : Nat) : Nat := (bitsOf w x).countP (· == true)
def clzOf (w x : Nat) : Nat := if x = 0 then w else w - 1 - Nat.log2 x
def ctzOf (w x : Nat) : Nat := ((List.range w).find? fun i => x.testBit i).getD w
def brevOf (w x : Nat) : Nat := (List.range w).foldl (fun a i => if x.testBit i then a + 2 ^ (w - 1 - i) else a) 0

end Sys2Proof.Machine

namespace Sys2Proof

open Sys2Proof.Machine

def IntM.map1 (m : IntM) (f : Nat → Nat → Nat) (a : W64) : W64 :=
  let w := widthOf m.w
  pack w (perReg w) fun i => f w (sub w a i)

/-- ICMP on sub-element `i` (R185). -/
def IntM.holds (m : IntM) (a b : W64) (i : Nat) : Bool :=
  let w := widthOf m.w
  icmpHolds m.cc.toNat (readInt m.sgn w (sub w a i)) (readInt m.sgn w (sub w b i))

/-- The value ICMP writes: masks of ones, or for a `p` destination sub-element 0's answer (R185). -/
def IntM.cmp (m : IntM) (d : Spec) (a b : W64) : W64 :=
  let w := widthOf m.w
  match d with
  | .p _ => if m.holds a b 0 then 1 else 0
  | _ => pack w (perReg w) fun i => if m.holds a b i then 2 ^ w - 1 else 0

/-- The second operand of AND, OR and XOR (R180): VAR 1 is `.n`. -/
def IntM.opnd (m : IntM) (b : W64) : W64 := if m.var = 1 then ~~~ b else b

end Sys2Proof

namespace Sys2Proof.Machine

/-! ### Instructions -/

/-- An integer instruction of two sources. -/
def intOp2 (h : Hdr) (m : IntM) (d a b : Spec) (f : W64 → W64 → W64) (s : State) : Host.Outcome State Fault Refusal :=
  issue h [d] [a, b] s fun s => s.arith h d fun l => f (s.src h m.expand a l) (s.src h m.expand b l)

def intOp1 (h : Hdr) (m : IntM) (d a : Spec) (f : W64 → W64) (s : State) : Host.Outcome State Fault Refusal :=
  issue h [d] [a] s fun s => s.arith h d fun l => f (s.src h m.expand a l)

def intOp3 (h : Hdr) (m : IntM) (d a b c : Spec) (f : W64 → W64 → W64 → W64) (s : State) :
    Host.Outcome State Fault Refusal :=
  issue h [d] [a, b, c] s fun s =>
    s.arith h d fun l => f (s.src h m.expand a l) (s.src h m.expand b l) (s.src h m.expand c l)

/-- NOP (R174). -/
def execNop (h : Hdr) (s : State) : Host.Outcome State Fault Refusal := issue h [] [] s Res.done

/-- MOV (R175). -/
def execMov (h : Hdr) (m : IntM) (d a : Spec) (s : State) : Host.Outcome State Fault Refusal := intOp1 h m d a id s

/-- MOVI (R176): VAR 1 is `.hi`, which keeps the low half of D as it reads. -/
def execMovi (h : Hdr) (m : IntM) (d a : Spec) (s : State) : Host.Outcome State Fault Refusal :=
  issue h [d] (if m.var = 1 then [a, d] else [a]) s fun s => s.arith h d fun l =>
    if m.var = 1 then (s.src h .zx64 a l).truncate 32 ++ (s.src h .zx64 d l).truncate 32 else s.src h m.expand a l

/-- MOVP (R177): the parent, whoever holds copies. -/
def execMovp (h : Hdr) (d a : Spec) (s : State) : Host.Outcome State Fault Refusal :=
  issue h [d] [a] s fun s => s.arith h d fun _ =>
    match a with
    | .g n => s.curG.parentG n.toNat
    | .t n => s.curT.t.getD n.toNat 0
    | _ => 0

/-- SEL (R178). -/
def execSel (h : Hdr) (m : IntM) (d a b c : Spec) (s : State) : Host.Outcome State Fault Refusal :=
  issue h [d] [a, b, c] s fun s => s.arith h d fun l =>
    if s.srcP c l then s.src h m.expand a l else s.src h m.expand b l

def execIadd (h : Hdr) (m : IntM) (d a b : Spec) (s : State) : Host.Outcome State Fault Refusal :=
  intOp2 h m d a b (m.map2 (· + ·)) s
def execIsub (h : Hdr) (m : IntM) (d a b : Spec) (s : State) : Host.Outcome State Fault Refusal :=
  intOp2 h m d a b (m.map2 (· - ·)) s
def execImul (h : Hdr) (m : IntM) (d a b : Spec) (s : State) : Host.Outcome State Fault Refusal :=
  intOp2 h m d a b (m.map2 (· * ·)) s
def execImulh (h : Hdr) (m : IntM) (d a b : Spec) (s : State) : Host.Outcome State Fault Refusal :=
  intOp2 h m d a b m.mulh s
def execImad (h : Hdr) (m : IntM) (d a b c : Spec) (s : State) : Host.Outcome State Fault Refusal :=
  intOp3 h m d a b c (m.map3 fun x y z => x * y + z) s
def execImin (h : Hdr) (m : IntM) (d a b : Spec) (s : State) : Host.Outcome State Fault Refusal :=
  intOp2 h m d a b (m.map2 min) s
def execImax (h : Hdr) (m : IntM) (d a b : Spec) (s : State) : Host.Outcome State Fault Refusal :=
  intOp2 h m d a b (m.map2 max) s
def execIabs (h : Hdr) (m : IntM) (d a : Spec) (s : State) : Host.Outcome State Fault Refusal :=
  intOp1 h m d a (fun x => m.map2 (fun y _ => if y < 0 then -y else y) x x) s

def execLand (h : Hdr) (m : IntM) (d a b : Spec) (s : State) : Host.Outcome State Fault Refusal :=
  intOp2 h m d a b (fun x y => x &&& m.opnd y) s
def execLor (h : Hdr) (m : IntM) (d a b : Spec) (s : State) : Host.Outcome State Fault Refusal :=
  intOp2 h m d a b (fun x y => x ||| m.opnd y) s
def execLxor (h : Hdr) (m : IntM) (d a b : Spec) (s : State) : Host.Outcome State Fault Refusal :=
  intOp2 h m d a b (fun x y => x ^^^ m.opnd y) s
def execLnot (h : Hdr) (m : IntM) (d a : Spec) (s : State) : Host.Outcome State Fault Refusal :=
  intOp1 h m d a (~~~ ·) s

def execShl (h : Hdr) (m : IntM) (d a b : Spec) (s : State) : Host.Outcome State Fault Refusal :=
  intOp2 h m d a b m.shl s
def execShr (h : Hdr) (m : IntM) (d a b : Spec) (s : State) : Host.Outcome State Fault Refusal :=
  intOp2 h m d a b m.shr s
def execSar (h : Hdr) (m : IntM) (d a b : Spec) (s : State) : Host.Outcome State Fault Refusal :=
  intOp2 h m d a b m.sar s
def execRot (h : Hdr) (m : IntM) (d a b : Spec) (s : State) : Host.Outcome State Fault Refusal :=
  intOp2 h m d a b m.rot s
def execBfe (h : Hdr) (m : IntM) (d a b c : Spec) (s : State) : Host.Outcome State Fault Refusal :=
  intOp3 h m d a b c m.bfe s

/-- BFI (R183). -/
def execBfi (h : Hdr) (m : IntM) (d a b c e : Spec) (s : State) : Host.Outcome State Fault Refusal :=
  issue h [d] [a, b, c, e] s fun s => s.arith h d fun l =>
    m.bfi (s.src h m.expand a l) (s.src h m.expand b l) (s.src h m.expand c l) (s.src h m.expand e l)

def execPopc (h : Hdr) (m : IntM) (d a : Spec) (s : State) : Host.Outcome State Fault Refusal :=
  intOp1 h m d a (m.map1 popcOf) s
def execClz (h : Hdr) (m : IntM) (d a : Spec) (s : State) : Host.Outcome State Fault Refusal :=
  intOp1 h m d a (m.map1 clzOf) s
def execCtz (h : Hdr) (m : IntM) (d a : Spec) (s : State) : Host.Outcome State Fault Refusal :=
  intOp1 h m d a (m.map1 ctzOf) s
def execBrev (h : Hdr) (m : IntM) (d a : Spec) (s : State) : Host.Outcome State Fault Refusal :=
  intOp1 h m d a (m.map1 brevOf) s
def execIcmp (h : Hdr) (m : IntM) (d a b : Spec) (s : State) : Host.Outcome State Fault Refusal :=
  intOp2 h m d a b (m.cmp d) s

end Sys2Proof.Machine
end

