-- ==== Sys2Proof/Machine/Replies.lean ====
section
/-! DEFINITION. Replies to the tiles and engines (R110, R154, R156), data reaching a group (R32), write-backs by age (R155),
the retry of logged and paused work (R78, R134, R137, R389, R391), and errors of storage (R60, R319). -/

namespace Sys2Proof.Machine

/-! ### Replies -/

/-- A write-back that a script refuses loses its bytes, with an entry of kind 6 (R156). -/
def State.lostBytes (s : State) (r : Req) (ans : Answer) : State :=
  match ans with
  | .nack _ _ => s.fqPost 6 (r.line % peerSpan * 128) 0xFF r.tile 0xFF 0xFF 0
  | _ => s

/-- The answer to the read of a map line (R134): the L1 is filled as a load fills it. -/
def State.mapReply (s : State) (gid : Nat) (r : Req) (ans : Answer) : State :=
  let note (s : State) (x : MapAns) : State := s.modGroup gid fun g => { g with mapAns := g.mapAns.set r.line x }
  match ans with
  | .data right d ds wok errs =>
    note (s.keepReply r right d ds wok errs []) (.seen (if r.alloc then (s.underOwn r.tile r.line d).1 else d))
  | .nack _ slot => note s (.refused slot)
  | .fail reason => note s (.failed reason)
  | _ => s

/-- A reply reaches whoever asked: a line of an access, a write-back, a prefetch, a copy. A store that carried a line's dirty
bytes was their write-back (R154, R155). -/
def State.deliver (s : State) (r : Req) (ans : Answer) : State :=
  match r.tag with
  | .acc k i =>
    let s := match ans with
      | .data 0 d ds _ (0, 0) => if r.ev == evReplica && isDramLine r.line then s.keepReplica r d ds else s
      | _ => s
    ((if r.carry != 0 then s.lostBytes r ans else s).accReply k i r ans).afterReply k
  | .wb _ => (s.lostBytes r ans).kick
  | .pref _ l2 =>
    match ans with
    | .data right d ds wok errs => if l2 then s else s.keepReply r right d ds wok errs []
    | _ => s
  | .copy cid n => (s.copyReply cid n r ans).kick
  | .map gid => s.mapReply gid r ans
  | .ext => s

/-- The reply `k`, if it is of the kind asked for, no earlier one about its line is still on the way to its tile (R107), and
the tile is in no changeover (R303). -/
def State.replyAt (s : State) (k : Nat) (p : Answer → Bool) : Option Reply :=
  match s.reps.get? k with
  | some x => if p x.ans && !s.earlierReply k x.req && (s.tile x.req.tile).change.isNone then some x else none
  | none => none

/-- Take a reply off the network and deliver it. -/
def State.takeReply (s : State) (k : Nat) (p : Answer → Bool) : State :=
  match s.replyAt k p with
  | some x => ({ s with reps := s.reps.del k }).deliver x.req x.ans
  | none => s

def Answer.isData : Answer → Bool
  | .data _ _ _ _ _ => true
  | .result _ => true
  | _ => false

def Answer.isAck : Answer → Bool
  | .ack => true
  | _ => false

def Answer.isRefusal : Answer → Bool
  | .nack _ _ => true
  | .fail _ => true
  | _ => false

/-- FILL_REPLY (R154): data or atomic results. Assumption 8 (DESIGN CHOICE). -/
def execFillReply (k : Nat) (s : State) : Host.Outcome State Fault Refusal := .next (s.takeReply k Answer.isData)

/-- WRITE_ACCEPT (R154, R156). -/
def execWriteAccept (k : Nat) (s : State) : Host.Outcome State Fault Refusal := .next (s.takeReply k Answer.isAck)

/-- LINE_NACK (R110, R156): a refusal. Assumption 63 (DESIGN CHOICE). -/
def execLineNack (k : Nat) (s : State) : Host.Outcome State Fault Refusal := .next (s.takeReply k Answer.isRefusal)

/-- LOAD_DATA_ARRIVAL (R32): the data of an access reach its group, which is ready again from the wings, but not in a
changeover of its tile (R303). An access that still has to begin tries to. -/
def execLoadDataArrival (k : Nat) (s : State) : Host.Outcome State Fault Refusal :=
  match s.accs.get? k with
  | none => .next s
  | some a =>
    if (s.tile (s.accTile a)).change.isSome || (a.finished && a.retires) then .next s
    else if !a.finished then .next (s.tryAcc k)
    else .next (s.finishAcc k)

/-- L1_WRITEBACK_TIMEOUT (R155): a dirty line goes home by its age. -/
def execL1WritebackTimeout (tile line : Nat) (s : State) : Host.Outcome State Fault Refusal :=
  .next (s.writeBack tile line).2

/-! ### FQRETRY (R78, R134, R137, R389, R391) -/

/-- Groups of a context whose fetch or map read waits; one without a slot takes its age if it is ready now (R288). -/
def State.retryWaits (s : State) (ctx : Nat) (f : Wait → Wait) : State :=
  ((s.groups.filter fun g => !g.2.ended && g.2.level != .m && s.ctxOf g.2 == ctx).map (·.1)).foldl (fun s i =>
    s.readied (s.mapWait i f) i) s

/-- Log entries of a context, in issue order. -/
def State.logOf (s : State) (ctx : Nat) : List (Nat × Access) :=
  s.accs.filter fun a => a.2.log.isSome && s.ctxOf (s.group a.2.gid) == ctx

/-- Launches of a context. -/
def State.launchesOf (s : State) (ctx : Nat) : List Nat := (s.launches.filter fun l => l.2.ctx == ctx).map (·.1)

/-- A launch's own walks are made again (R391). -/
def State.retryLaunch (s : State) (lid : Nat) : State :=
  let s := s.modLaunch lid fun l => { l with posted0 := false, posted1 := false, incPosted := false }
  let w := (s.launch lid).waiting
  if w = 0 then s else s.tryStart lid w

/-- FQRETRY with abort = 0: the log entries replay in issue order, and one that is not present again is passed; those of a
switched-out cluster try again at its restore. Assumption 42 (DESIGN CHOICE). Assumption 73 (DESIGN CHOICE). -/
def execFqretryRetry (ctx : Nat) (s : State) : Host.Outcome State Fault Refusal :=
  let s := s.retryWaits ctx fun w => match w with
    | .retry _ false => .none
    | w => w
  let s := ((s.logOf ctx).filter fun p => s.accTile p.2 != awayTile).foldl (fun s p => s.retryAcc p.1) s
  let s : State := { s with copies := s.copies.map fun c => (c.1, if c.2.ctx = ctx then { c.2 with paused := none } else c.2) }
  .next ((s.launchesOf ctx).foldl (fun s l => s.retryLaunch l) s)

/-- A launch's own walks end as with `ACCESS` (R391). -/
def State.abortLaunch (s : State) (lid : Nat) : State :=
  let l := s.launch lid
  if l.waiting ≠ 0 then
    ((s.modLaunch lid fun l => { l with waiting := 0, next := l.next - 1 }).dropCluster l.waiting).refuseLaunch lid
  else if (l.posted0 && !l.met0) || (l.posted1 && !l.met1) then s.refuseLaunch lid
  else if l.incPosted then (s.dropIncrement l).dropLaunch lid
  else s

/-- FQRETRY with abort = 1: every log entry of the context ends, those of switched-out clusters among them (R78). -/
def execFqretryAbort (ctx : Nat) (s : State) : Host.Outcome State Fault Refusal :=
  let s := s.retryWaits ctx fun w => match w with
    | .retry va false => .retry va true
    | w => w
  let s := ((s.logOf ctx).foldl (fun s p => s.abortAcc p.1) s).kick
  let s : State := { s with copies := s.copies.map fun c =>
    (c.1, if c.2.ctx = ctx && c.2.paused.isSome then { c.2 with paused := none, abort := true } else c.2) }
  .next ((s.launchesOf ctx).foldl (fun s l => s.abortLaunch l) s)

/-! ### Errors of storage (R60, R319, R320) -/

/-- PATROL_SCRUB (R60): the scrubber corrects what it can, which changes no value a program reads; what it finds
uncorrectable it reports to the stage manager by no register the spec gives. Assumption 24 (DESIGN CHOICE).
Assumption 54 (DESIGN CHOICE). -/
def execPatrolScrub (_ : Nat) (s : State) : Host.Outcome State Fault Refusal := .next s

/-- The bits of what an error strikes are free from then on. Assumption 54 (DESIGN CHOICE). -/
def State.scramble (s : State) (place : ErrPlace) : State :=
  let (n, s) := s.takeFree
  let bits (i w : Nat) : Nat := n / 2 ^ (w * i) % 2 ^ w
  let home (b : Nat) : State :=
    ({ s with mem := s.mem.writeN (b * 64) 64 n } : State).setBlockDesc b (BitVec.ofNat 16 (n / 2 ^ 512))
  match place with
  | .block b => home b
  | .l2 die line h =>
    if isDramLine line && homeDie line == die then home (2 * line + h)
    else { s with l2 := s.l2.alter (l2Key die line) fun x => { x with
      data := setBytes x.data (64 * h) 64 n
      descs := setDesc x.descs h (BitVec.ofNat 16 (n / 2 ^ 512)) } }
  | .l1 tile line h => s.modL1 tile line fun x => { x with
      data := setBytes x.data (64 * h) 64 n
      descs := setDesc x.descs h (BitVec.ofNat 16 (n / 2 ^ 512)) }
  | .store tile b => s.modTile tile fun t => { t with
      store := t.store.writeN (b * 64) 64 n
      storeDesc := t.storeDesc.set b (BitVec.ofNat 16 (n / 2 ^ 512)) }
  | .reg gid r =>
    match r with
    | .v k => s.modGroup gid fun g => { g with v := g.v.set k.toNat (lanesOf fun l => BitVec.ofNat 64 (bits l 64)) }
    | .p k => s.modGroup gid fun g => { g with p := g.p.set k.toNat (lanesOf fun l => n.testBit l) }
    | .g k => s.modGroup gid fun g => { g with
        g := g.g.set k.toNat (BitVec.ofNat 64 n)
        gc := g.gc.map fun x => if x.1 / 8 = k.toNat then (x.1, BitVec.ofNat 64 (bits (1 + x.1 % 8) 64)) else x }
    | .b k => s.modGroup gid fun g => { g with b := g.b.set k.toNat (BitVec.ofNat 256 n) }
    | .t k => s.modTeam (s.group gid).team fun t => { t with t := t.t.set k.toNat (BitVec.ofNat 64 n) }
    | _ => s
  | .acc tile q p => s.modSub tile q fun c => { c with
      acc := c.acc.set p (AccTile.make (fun i j => BitVec.ofNat 32 (bits (32 * i + j) 32))
        (fun i => BitVec.ofNat 32 (bits (1024 + i) 32)) fun i => BitVec.ofNat 32 (bits (1056 + i) 32)) }

/-- There is such a place. Assumption 54 (DESIGN CHOICE). -/
def State.hasPlace (s : State) (place : ErrPlace) : Bool :=
  match place with
  | .block b => isDram (b * 64)
  | .l2 die line h => die < 2 && h < 2 && (isDramLine line && homeDie line == die || (s.l2Line die line).isSome)
  | .l1 tile line h => tile < 192 && h < 2 && (s.l1 tile line).isSome
  | .store tile b => tile < 192 && b < 16384
  | .reg gid r => (s.groups.get? gid).isSome && match r with
    | .v k => k.toNat < (s.group gid).regs
    | .p k => k.toNat < 7
    | .g _ => true
    | .b _ => true
    | .t _ => (s.group gid).level != .m
    | _ => false
  | .acc tile q p => tile < 192 && q < 4 && p < 8

/-- UNCORRECTABLE_ERROR (R319): the place is marked for whatever consumes it; its contents are lost.
Assumption 54 (DESIGN CHOICE). -/
def execUncorrectableError (place : ErrPlace) (s : State) : Host.Outcome State Fault Refusal :=
  let at' : ErrPlace := match place with
    | .reg gid r => s.regPlace gid r
    | p => p
  .next (if s.hasPlace place then (s.scramble place).markBad at' else s)

end Sys2Proof.Machine
end

