-- ==== Sys2Proof/Machine/TokenInstr.lean ====
section
/-! DEFINITION. Copy instructions and tokens (R132-R134, R142-R146). -/

namespace Sys2Proof.Machine

/-! ### The map read (R134) -/

/-- What the two map lines are read as. -/
inductive MapRead where
  | done (m : Nat)
  | trap (c : Cause) (info : W64)
  /-- The value is not at hand yet: the instruction waits. -/
  | wait
  /-- A line is not present. -/
  | missing (va : Nat)

/-- The record's default request type and the line's page decide whether its read goes past the L1 (R134, R154, R71). -/
def mapUncached (r : BitVec 256) (unc : Bool) : Bool := unc || reqType r 0 == .uncached

/-- A current L1 line that a map read hits. -/
def State.mapHit (s : State) (tile l : Nat) (unc : Bool) : Option L1Line :=
  match s.l1 tile l with
  | some x => if !unc && x.current (s.tile tile) then some x else none
  | none => none

/-- Something that the map read comes after is still under way: an earlier access of the issuing slices to the line, or an
acquire of theirs (R165, R167); bytes of the line that the tile has sent home. -/
def State.mapBehind (s : State) (tile va l : Nat) : Bool :=
  s.acquiring s.cur.gid s.cur.slices || (s.ownBytes tile l).2 != 0 || s.writing tile l fullMask
    || s.accs.any fun p => p.2.gid == s.cur.gid && p.2.order &&& s.cur.slices != 0 && !p.2.isLocal
      && p.2.lines.any fun x => x.va == va || (x.status != .missing && x.pa == l)

/-- Ask for a map line as a load of the tile asks, once (R134, R154). -/
def State.askMap (s : State) (tile l : Nat) (unc : Bool) : State :=
  let tag := Tag.map s.cur.gid
  if s.flying.any fun r => r.line == l && r.tag == tag then s
  else ((s.modCur fun g => { g with mapAns := g.mapAns.del l }).send { s.newReq evRead l tile tag with
    launch := s.launchIdOf s.curG, alloc := !unc && hasL1 tile }).2

/-- A map line's read has been answered: refused, failed, or with data that no other agent has taken since. -/
def State.mapAnswered (s : State) (l : Nat) : Bool :=
  match s.curG.mapAns.get? l with
  | some (.seen _) => !s.mustAsk l
  | some _ => true
  | none => false

/-- What has to happen before a map line can be read: nothing (`none`); or wait, with dirty bytes written back, or the line
asked for where the L1 misses. Assumption 34 (DESIGN CHOICE). -/
def State.mapDelay (s : State) (tile va l : Nat) (unc : Bool) : Option State :=
  let dirty : Bool := match s.l1 tile l with
    | some x => x.dmask != 0
    | none => false
  if s.mapBehind tile va l then some s
  else if unc && dirty then some (s.flushLine tile l false)
  else if (s.mapHit tile l unc).isNone && !s.mapAnswered l then some (s.askMap tile l unc)
  else none

/-- The source of an uncorrectable error that a map read meets in a line (R319). -/
def State.mapErr (s : State) (tile l : Nat) (unc : Bool) : Option Nat :=
  match s.mapHit tile l unc, s.l1 tile l with
  | some _, _ => if s.badMask tile l = 0 then none else some 3
  | none, x =>
    if s.badMask tile l &&& ((x.map (·.dmask)).getD 0) != 0 then some 3
    else [0, 1].findSome? fun h => if s.newestErr l h = 0 then none else some (s.newestErr l h)

/-- A line as a load of the tile sees it, once its read has been answered: its current L1 line, else the newest copy under the
tile's own newer bytes. Of a peer's line that is the copy of the die's L2, or what its home answered with.
Assumption 34 (DESIGN CHOICE). -/
def State.loadedLine (s : State) (tile l : Nat) (unc : Bool) : Nat :=
  match s.mapHit tile l unc with
  | some x => x.data
  | none =>
    let base :=
      if isPeerLine l then
        match s.l2Line (dieOf tile) l, s.curG.mapAns.get? l with
        | some h, _ => h.data
        | none, some (.seen x) => x
        | none, _ => 0
      else (s.cohLine l).1
    (s.underOwn tile l base).1

/-- A map line whose read was refused or failed, or in which an error stands: its trap. -/
def State.mapTrap (s : State) (tile va l : Nat) (unc : Bool) : Option (Cause × W64) :=
  match s.mapHit tile l unc, s.curG.mapAns.get? l with
  | none, some (.refused slot) => some (.prot, protInfo evRead slot va)
  | none, some (.failed r) =>
    if 256 ≤ r then some (.memErr, memErrInfo false (r - 256) va) else some (.access, accessInfo false r va)
  | _, _ => (s.mapErr tile l unc).map fun src => (.memErr, memErrInfo false src va)

/-- Read both map lines at one moment, as a group-scope load (R134); their reads have been answered.
Assumption 34 (DESIGN CHOICE). -/
def State.readMap (s : State) (r : BitVec 256) : MapRead × State :=
  let va := recBase r
  let g := s.curG
  let tile := s.curTile
  let (e0, s) := s.lineTarget g spcGlobal .load va
  let (e1, s) := s.lineTarget g spcGlobal .load (va + 128)
  match e0, e1 with
  | .access x, _ => (.trap .access (accessInfo false x va), s)
  | _, .access x => (.trap .access (accessInfo false x (va + 128)), s)
  | .missing, e1 =>
    let s := s.fqPost 0 va (s.ctxOf g) tile g.q 0xFF 0
    (.missing va, if e1 = .missing then s.fqPost 0 (va + 128) (s.ctxOf g) tile g.q 0xFF 0 else s)
  | _, .missing => (.missing (va + 128), s.fqPost 0 (va + 128) (s.ctxOf g) tile g.q 0xFF 0)
  | .ok a u, .ok b v =>
    let u := mapUncached r u
    let v := mapUncached r v
    match s.mapDelay tile va a u with
    | some s => (.wait, ((s.mapDelay tile (va + 128) b v)).getD s)
    | none =>
      match s.mapDelay tile (va + 128) b v with
      | some s => (.wait, s)
      | none =>
        match (s.mapTrap tile va a u).or (s.mapTrap tile (va + 128) b v) with
        | some (c, info) => (.trap c info, s.modCur fun g => { g with mapAns := [] })
        | none => (.done (s.loadedLine tile a u + s.loadedLine tile b v * 256 ^ 128), s.modCur fun g => { g with mapAns := [] })

/-! ### Checks (R133) -/

/-- Check 3: the map record. -/
def mapRecordOk (r : BitVec 256) : Bool :=
  recSpc r == spcGlobal && recStr r == 2 ^ recEsz r && recBase r % 256 == 0 && 256 ≤ recExt r * recStr r

/-- Check 7: the local record. -/
def localRecordOk (r : BitVec 256) (m grant : Nat) : Bool :=
  let bytes := mapTotal m * 2 ^ mapEsz m
  recSpc r == spcLocal && recEsz r == mapEsz m && recStr r == 2 ^ recEsz r && recSwz r == mapSwz m
    && bytes ≤ recExt r * recStr r && recBase r + bytes ≤ grant
    && recBase r % (if recSwz r = 0 then 64 else 128) == 0

/-- Checks 5 to 10, once the map is read. -/
def State.copyCheck (s : State) (kind : CopyKind) (m : Nat) (loc : BitVec 256) : Option (Cause × W64) :=
  let acc (r : Nat) : Option (Cause × W64) := some (.access, accessInfo false r 0)
  if !mapOk m (kind == .red) then acc 0x14
  else
    match s.recordCheck loc (if kind = .load then recW loc else recR loc) with
    | some r => acc r
    | none =>
      if !localRecordOk loc m (s.grantOf s.curG) then acc 0x15
      else if kind = .load && 2 ^ (s.cluster s.curT.cluster).teams.length ≤ mapMcast m then acc 0x16
      else if kind = .load && mapFill m = 1 && !([0x10, 0x11, 0x20, 0x21].contains (mapFillFmt m)) then
        some (.fillFmt, BitVec.ofNat 64 (mapFillFmt m))
      else if kind = .red && mapRop m ≤ 1 && s.detOf s.curG then some (.detFp, 0)
      else none

/-- The coordinates, read in the slice of the leader (R143); those of dimensions at or above NDIM are not used. -/
def State.coords (s : State) (b : Spec) : List Int :=
  match b with
  | .g n => (List.range 5).map fun i => (s.curG.viewG (n.toNat + i) (s.leader.getD 0 / 4)).toInt
  | _ => []

/-- The registers of the coordinates the map has (R126). -/
def coordRegs (b : Spec) (m : Nat) : List Spec :=
  match b with
  | .g n => (List.range (mapNdim m)).map fun i => .g (n + BitVec.ofNat 7 i)
  | _ => []

/-- The five registers that the coordinates may come from: a load still to write one is waited for. -/
def coordRange (b : Spec) : List Spec :=
  match b with
  | .g n => (List.range 5).map fun i => .g (n + BitVec.ofNat 7 i)
  | _ => []

/-- The teams a copy writes for: MCAST names them by `%team`; else its own (R126, R139). -/
def State.copyTeams (s : State) (kind : CopyKind) (m : Nat) : List Nat :=
  if kind = .load && mapMcast m ≠ 0 then
    (s.cluster s.curT.cluster).teams.filter fun t => (mapMcast m).testBit (s.team t).idx
  else [s.curG.team]

/-- A copy at its issue. -/
def State.newCopy (s : State) (kind : CopyKind) (m : Nat) (loc : BitVec 256) (b c : Spec) : Copy where
  kind := kind
  gid := s.cur.gid
  slices := s.cur.slices
  team := s.curG.team
  ctx := s.ctxOf s.curG
  level := s.curG.level
  map := m
  record := loc
  coords := s.coords b
  tok := tokenOf c
  next := 0
  fail := none
  paused := none
  abort := false
  tiles := s.copyTeams kind m
  reserved := []
  left := s.copyTeams kind m
  srcs := []
  refused := []
  asked := []
  phys := []
  owned := []
  imgs := []
  outs := []
  reserving := kind == .store
  stale := []
  stopped := false

/-- A copy instruction (R133-R135, R143). -/
def State.startCopy (s : State) (h : Hdr) (kind : CopyKind) (map loc b c : Spec) : Res :=
  let mr := s.record map
  if !s.uniform h then .done s
  else if s.curT.prod ≠ some s.curG.idx then .trap .producer 0 s
  else
    match s.recordCheck mr (recR mr) with
    | some r => .access r s
    | none =>
      if !mapRecordOk mr then .access 0x13 s
      else
        match s.readMap mr with
        | (.trap c info, s) => .trap c info s
        | (.wait, s) => .hold s
        | (.missing va, s) => .wait (s.modCur fun g => g.setWait s.cur.slices (.retry va false))
        | (.done m, s) =>
          match (s.copyCheck kind m (s.record loc)).or ((s.badReg (coordRegs b m)).map fun r => (.memErr, regErrInfo r)) with
          | some (c, info) => .trap c info s
          | none =>
            let x := s.newCopy kind m (s.record loc) b c
            let (cid, s) := s.fresh
            .done ({ s with copies := s.copies.set cid x }.reserveAll cid)

/-- A copy instruction reads its registers: it has an effect, and its group is the producer (R133, R143). -/
def copyEffect (h : Hdr) (s : State) : Bool := s.uniform h && s.curT.prod == some s.curG.idx

/-- Issue a copy instruction on its map record, local record, first coordinate and token. -/
def issueCopy (h : Hdr) (kind : CopyKind) (map loc b c : Spec) (s : State) : Host.Outcome State Fault Refusal :=
  issueTile h (coordRange b) [map, loc, c] s (fun s => s.startCopy h kind map loc b c) (copyEffect h)

def execTcopy (h : Hdr) (d a b c : Spec) (s : State) : Host.Outcome State Fault Refusal := issueCopy h .load a d b c s

def execTstore (h : Hdr) (d a b c : Spec) (s : State) : Host.Outcome State Fault Refusal := issueCopy h .store d a b c s

def execTred (h : Hdr) (d a b c : Spec) (s : State) : Host.Outcome State Fault Refusal := issueCopy h .red d a b c s

/-! ### Tokens (R144-R146) -/

def execTokset (h : Hdr) (d a : Spec) (s : State) : Host.Outcome State Fault Refusal :=
  issue h [d] [a] s (fun s =>
    let n := min (s.leaderSrc h .zx64 a).toNat 65535
    .done (if s.uniform h then
        s.modToken s.curG.team (tokenOf d) fun k => { k.clear with count := n, byTokset := true }
      else s)) (uniformEffect h)

def execTokq (h : Hdr) (clr : Bool) (d a : Spec) (s : State) : Host.Outcome State Fault Refusal :=
  issue h [d] [a] s fun s =>
    let x := (s.curT.token (tokenOf a)).bits
    let lanes := s.resultLanes h d
    if lanes.isEmpty then .done s
    else
      match s.writeTo d lanes fun _ => x with
      | .error (c, info) => .trap c info s
      | .ok s => .done (if clr then s.modToken s.curG.team (tokenOf a) Token.clear else s)

/-- YIELD (R146): the slot is given up; the group goes on at its target once the tokens read zero. While it is blocked
its PC stays at the YIELD, where an asynchronous trap or a switch leaves it (R316, R332). -/
def execYield (h : Hdr) (mask : BitVec 8) (a : Spec) (s : State) : Host.Outcome State Fault Refusal :=
  issueTile h [] [a] s (fun s =>
    let g := s.curG
    let off := h.imm.signExtend 56
    if !s.uniform h then .done s
    else if !g.whole s.cur.slices || g.slicesOn s.cur.slices != g.liveSlices then .trap .rankPart 0 s
    else
      if s.curT.tokensZero mask then
        .jump (((s.tokenAcquire g.team mask).modCur fun g =>
          g.mapSlices s.cur.slices fun _ x => { x with pc := x.pc + off }).leaveSlot s.cur.gid .pool)
      else .wait ((s.modCur fun g => g.setWait s.cur.slices (.yield mask off)).leaveSlot s.cur.gid .pool)) (uniformEffect h)

end Sys2Proof.Machine
end

