-- ==== Sys2Proof/Machine/Dispatch.lean ====
section
/-! DEFINITION. The meaning of every step of the part, one arm each. -/

namespace Sys2Proof.Machine

def exec (i : Instr) (s : State) : Host.Outcome State Fault Refusal :=
  match i with
  | .nop h => Sys2Proof.Machine.execNop h s
  | .mov h m d a => Sys2Proof.Machine.execMov h m d a s
  | .movi h m d a => Sys2Proof.Machine.execMovi h m d a s
  | .movp h d a => Sys2Proof.Machine.execMovp h d a s
  | .sel h m d a b c => Sys2Proof.Machine.execSel h m d a b c s
  | .iadd h m d a b => Sys2Proof.Machine.execIadd h m d a b s
  | .isub h m d a b => Sys2Proof.Machine.execIsub h m d a b s
  | .imul h m d a b => Sys2Proof.Machine.execImul h m d a b s
  | .imulh h m d a b => Sys2Proof.Machine.execImulh h m d a b s
  | .imad h m d a b c => Sys2Proof.Machine.execImad h m d a b c s
  | .imin h m d a b => Sys2Proof.Machine.execImin h m d a b s
  | .imax h m d a b => Sys2Proof.Machine.execImax h m d a b s
  | .iabs h m d a => Sys2Proof.Machine.execIabs h m d a s
  | .land h m d a b => Sys2Proof.Machine.execLand h m d a b s
  | .lor h m d a b => Sys2Proof.Machine.execLor h m d a b s
  | .lxor h m d a b => Sys2Proof.Machine.execLxor h m d a b s
  | .lnot h m d a => Sys2Proof.Machine.execLnot h m d a s
  | .shl h m d a b => Sys2Proof.Machine.execShl h m d a b s
  | .shr h m d a b => Sys2Proof.Machine.execShr h m d a b s
  | .sar h m d a b => Sys2Proof.Machine.execSar h m d a b s
  | .rot h m d a b => Sys2Proof.Machine.execRot h m d a b s
  | .bfe h m d a b c => Sys2Proof.Machine.execBfe h m d a b c s
  | .bfi h m d a b c e => Sys2Proof.Machine.execBfi h m d a b c e s
  | .popc h m d a => Sys2Proof.Machine.execPopc h m d a s
  | .clz h m d a => Sys2Proof.Machine.execClz h m d a s
  | .ctz h m d a => Sys2Proof.Machine.execCtz h m d a s
  | .brev h m d a => Sys2Proof.Machine.execBrev h m d a s
  | .icmp h m d a b => Sys2Proof.Machine.execIcmp h m d a b s
  | .fadd h m d a b => Sys2Proof.Machine.execFadd h m d a b s
  | .fsub h m d a b => Sys2Proof.Machine.execFsub h m d a b s
  | .fmul h m d a b => Sys2Proof.Machine.execFmul h m d a b s
  | .ffma h m d a b c => Sys2Proof.Machine.execFfma h m d a b c s
  | .fmin h m d a b => Sys2Proof.Machine.execFmin h m d a b s
  | .fmax h m d a b => Sys2Proof.Machine.execFmax h m d a b s
  | .fneg h m d a => Sys2Proof.Machine.execFneg h m d a s
  | .fabs h m d a => Sys2Proof.Machine.execFabs h m d a s
  | .fcmp h m d a b => Sys2Proof.Machine.execFcmp h m d a b s
  | .fclass h m d a b => Sys2Proof.Machine.execFclass h m d a b s
  | .frnd h m d a => Sys2Proof.Machine.execFrnd h m d a s
  | .fscl h m d a b => Sys2Proof.Machine.execFscl h m d a b s
  | .fdot h m d a b c => Sys2Proof.Machine.execFdot h m d a b c s
  | .cvt h m d a b => Sys2Proof.Machine.execCvt h m d a b s
  | .cvti h m d a b => Sys2Proof.Machine.execCvti h m d a b s
  | .quant h m d a b c => Sys2Proof.Machine.execQuant h m d a b c s
  | .deq h m d a b => Sys2Proof.Machine.execDeq h m d a b s
  | .amax h ft nanprop d a => Sys2Proof.Machine.execAmax h ft nanprop d a s
  | .rcp h m d a => Sys2Proof.Machine.execRcp h m d a s
  | .rsq h m d a => Sys2Proof.Machine.execRsq h m d a s
  | .sqrt h m d a => Sys2Proof.Machine.execSqrt h m d a s
  | .ex2 h m d a => Sys2Proof.Machine.execEx2 h m d a s
  | .lg2 h m d a => Sys2Proof.Machine.execLg2 h m d a s
  | .sinr h m d a => Sys2Proof.Machine.execSinr h m d a s
  | .cosr h m d a => Sys2Proof.Machine.execCosr h m d a s
  | .welf h d a => Sys2Proof.Machine.execWelf h d a s
  | .wmerge h d a => Sys2Proof.Machine.execWmerge h d a s
  | .shfl h w z mode d a b => Sys2Proof.Machine.execShfl h w z mode d a b s
  | .push h w d a b c => Sys2Proof.Machine.execPush h w d a b c s
  | .readl h w sgn d a b => Sys2Proof.Machine.execReadl h w sgn d a b s
  | .writel h w d a b => Sys2Proof.Machine.execWritel h w d a b s
  | .vote h mode d a => Sys2Proof.Machine.execVote h mode d a s
  | .redl h m d a => Sys2Proof.Machine.execRedl h m d a s
  | .scanl h m d a => Sys2Proof.Machine.execScanl h m d a s
  | .perm h w d a b c => Sys2Proof.Machine.execPerm h w d a b c s
  | .ld h m ch d a b => Sys2Proof.Machine.execLd h m ch d a b s
  | .st h m ch d a b => Sys2Proof.Machine.execSt h m ch d a b s
  | .atom h m ch d a b c e => Sys2Proof.Machine.execAtom h m ch d a b c e s
  | .red h m ch d a b => Sys2Proof.Machine.execRed h m ch d a b s
  | .redq h m ch d a b c => Sys2Proof.Machine.execRedq h m ch d a b c s
  | .fence h m d => Sys2Proof.Machine.execFence h m d s
  | .waitt h => Sys2Proof.Machine.execWaitt h s
  | .bufset h form d a b c e => Sys2Proof.Machine.execBufset h form d a b c e s
  | .bufq h fld d a => Sys2Proof.Machine.execBufq h fld d a s
  | .pref h l2 ch d a => Sys2Proof.Machine.execPref h l2 ch d a s
  | .lfmr h clr d => Sys2Proof.Machine.execLfmr h clr d s
  | .tcopy h d a b c => Sys2Proof.Machine.execTcopy h d a b c s
  | .tstore h d a b c => Sys2Proof.Machine.execTstore h d a b c s
  | .tred h d a b c => Sys2Proof.Machine.execTred h d a b c s
  | .tokset h d a => Sys2Proof.Machine.execTokset h d a s
  | .yield h mask a => Sys2Proof.Machine.execYield h mask a s
  | .tokq h clr d a => Sys2Proof.Machine.execTokq h clr d a s
  | .mma h m d a b c e => Sys2Proof.Machine.execMma h m d a b c e s
  | .mloop h m d a b c e => Sys2Proof.Machine.execMloop h m d a b c e s
  | .accz h part d => Sys2Proof.Machine.execAccz h part d s
  | .accld h m ch d a b c => Sys2Proof.Machine.execAccld h m ch d a b c s
  | .accst h m ch d a b c => Sys2Proof.Machine.execAccst h m ch d a b c s
  | .accmv h side d a => Sys2Proof.Machine.execAccmv h side d a s
  | .smx h d a b c => Sys2Proof.Machine.execSmx h d a b c s
  | .accq h d a => Sys2Proof.Machine.execAccq h d a s
  | .ifOp h neg els a b => Sys2Proof.Machine.execIfOp h neg els a b s
  | .elseOp h b => Sys2Proof.Machine.execElseOp h b s
  | .endif h => Sys2Proof.Machine.execEndif h s
  | .loop h b => Sys2Proof.Machine.execLoop h b s
  | .endloop h b => Sys2Proof.Machine.execEndloop h b s
  | .brk h neg a b => Sys2Proof.Machine.execBrk h neg a b s
  | .cont h neg a b => Sys2Proof.Machine.execCont h neg a b s
  | .jmp h b => Sys2Proof.Machine.execJmp h b s
  | .call h b => Sys2Proof.Machine.execCall h b s
  | .ret h => Sys2Proof.Machine.execRet h s
  | .exit h => Sys2Proof.Machine.execExit h s
  | .regang h => Sys2Proof.Machine.execRegang h s
  | .mergeS h m d a => Sys2Proof.Machine.execMergeS h m d a s
  | .mergeG h m d a => Sys2Proof.Machine.execMergeG h m d a s
  | .drop h d => Sys2Proof.Machine.execDrop h d s
  | .rankq h d a => Sys2Proof.Machine.execRankq h d a s
  | .rvinit h rp a => Sys2Proof.Machine.execRvinit h rp a s
  | .rvarr h rp => Sys2Proof.Machine.execRvarr h rp s
  | .rvwait h rp idle => Sys2Proof.Machine.execRvwait h rp idle s
  | .rvtest h rp d => Sys2Proof.Machine.execRvtest h rp d s
  | .gearSet h f => Sys2Proof.Machine.execGearSet h f s
  | .gearQ h d => Sys2Proof.Machine.execGearQ h d s
  | .nap h a => Sys2Proof.Machine.execNap h a s
  | .trap h a => Sys2Proof.Machine.execTrap h a s
  | .eret h => Sys2Proof.Machine.execEret h s
  | .csrr h csr d => Sys2Proof.Machine.execCsrr h csr d s
  | .csrw h csr a => Sys2Proof.Machine.execCsrw h csr a s
  | .bkpt h => Sys2Proof.Machine.execBkpt h s
  | .halt h => Sys2Proof.Machine.execHalt h s
  | .wfi h => Sys2Proof.Machine.execWfi h s
  | .tlbi h kind d a => Sys2Proof.Machine.execTlbi h kind d a s
  | .quantRetire k => Sys2Proof.Machine.execQuantRetire k s
  | .mmaQMeeting team quad => Sys2Proof.Machine.execMmaQMeeting team quad s
  | .mloopStart tile sub steps => Sys2Proof.Machine.execMloopStart tile sub steps s
  | .mloopComplete tile sub => Sys2Proof.Machine.execMloopComplete tile sub s
  | .tlbiComplete k => Sys2Proof.Machine.execTlbiComplete k s
  | .fenceComplete k => Sys2Proof.Machine.execFenceComplete k s
  | .waitSatisfied gid low => Sys2Proof.Machine.execWaitSatisfied gid low s
  | .stagehandWalk cid => Sys2Proof.Machine.execStagehandWalk cid s
  | .mcastReservation k => Sys2Proof.Machine.execMcastReservation k s
  | .copyComplete cid tile => Sys2Proof.Machine.execCopyComplete cid tile s
  | .copyCheckpoint cid => Sys2Proof.Machine.execCopyCheckpoint cid s
  | .loadDataArrival k => Sys2Proof.Machine.execLoadDataArrival k s
  | .fillReply k => Sys2Proof.Machine.execFillReply k s
  | .writeAccept k => Sys2Proof.Machine.execWriteAccept k s
  | .lineNack k => Sys2Proof.Machine.execLineNack k s
  | .l1WritebackTimeout tile line => Sys2Proof.Machine.execL1WritebackTimeout tile line s
  | .read src => Sys2Proof.Machine.execRead src s
  | .readOwn src => Sys2Proof.Machine.execReadOwn src s
  | .writeThrough src => Sys2Proof.Machine.execWriteThrough src s
  | .update src => Sys2Proof.Machine.execUpdate src s
  | .evictClean src => Sys2Proof.Machine.execEvictClean src s
  | .evictDirty src => Sys2Proof.Machine.execEvictDirty src s
  | .recallAnswer k => Sys2Proof.Machine.execRecallAnswer k s
  | .atomic src => Sys2Proof.Machine.execAtomic src s
  | .reduce src => Sys2Proof.Machine.execReduce src s
  | .engineOwn src => Sys2Proof.Machine.execEngineOwn src s
  | .replicaRead src => Sys2Proof.Machine.execReplicaRead src s
  | .timeout line => Sys2Proof.Machine.execTimeout line s
  | .holderRecall src => Sys2Proof.Machine.execHolderRecall src s
  | .pushUpdateReceive k => Sys2Proof.Machine.execPushUpdateReceive k s
  | .notify => Sys2Proof.Machine.execNotify s
  | .sldcmdCommit die val => Sys2Proof.Machine.execSldcmdCommit die val s
  | .scriptLoadDone die => Sys2Proof.Machine.execScriptLoadDone die s
  | .rtabCommit die n val => Sys2Proof.Machine.execRtabCommit die n val s
  | .rangeRetireDone die => Sys2Proof.Machine.execRangeRetireDone die s
  | .fqretryRetry ctx => Sys2Proof.Machine.execFqretryRetry ctx s
  | .fqretryAbort ctx => Sys2Proof.Machine.execFqretryAbort ctx s
  | .fqConfigWrite size val => Sys2Proof.Machine.execFqConfigWrite size val s
  | .fqheadWrite val => Sys2Proof.Machine.execFqheadWrite val s
  | .lqctlWrite who q val => Sys2Proof.Machine.execLqctlWrite who q val s
  | .packetCopy q => Sys2Proof.Machine.execPacketCopy q s
  | .waitCounterPoll q => Sys2Proof.Machine.execWaitCounterPoll q s
  | .distributorPlace => Sys2Proof.Machine.execDistributorPlace s
  | .rotationTimeout lid => Sys2Proof.Machine.execRotationTimeout lid s
  | .clusterSwitchOut cid => Sys2Proof.Machine.execClusterSwitchOut cid s
  | .switchDrainTimeout cid => Sys2Proof.Machine.execSwitchDrainTimeout cid s
  | .launchCompletion lid => Sys2Proof.Machine.execLaunchCompletion lid s
  | .phaseStart lid => Sys2Proof.Machine.execPhaseStart lid s
  | .phaseWatchdogExpire lid => Sys2Proof.Machine.execPhaseWatchdogExpire lid s
  | .groupPark gid => Sys2Proof.Machine.execGroupPark gid s
  | .groupReloadDone gid => Sys2Proof.Machine.execGroupReloadDone gid s
  | .timeSliceYield tile sub => Sys2Proof.Machine.execTimeSliceYield tile sub s
  | .napExpire gid low => Sys2Proof.Machine.execNapExpire gid low s
  | .rvRelease k => Sys2Proof.Machine.execRvRelease k s
  | .curtainWave tile => Sys2Proof.Machine.execCurtainWave tile s
  | .changeoverComplete tile => Sys2Proof.Machine.execChangeoverComplete tile s
  | .fllRampStep tile => Sys2Proof.Machine.execFllRampStep tile s
  | .tfreqWrite who tile val => Sys2Proof.Machine.execTfreqWrite who tile val s
  | .gcapWrite who tile val => Sys2Proof.Machine.execGcapWrite who tile val s
  | .sensorSample n reading => Sys2Proof.Machine.execSensorSample n reading s
  | .timerWrite val => Sys2Proof.Machine.execTimerWrite val s
  | .timerElapse => Sys2Proof.Machine.execTimerElapse s
  | .thermal => Sys2Proof.Machine.execThermal s
  | .timer => Sys2Proof.Machine.execTimer s
  | .evseqRead => Sys2Proof.Machine.execEvseqRead s
  | .evlogRead => Sys2Proof.Machine.execEvlogRead s
  | .stallqRead => Sys2Proof.Machine.execStallqRead s
  | .peerfailDeclare who dev => Sys2Proof.Machine.execPeerfailDeclare who dev s
  | .peerfailClear who dev => Sys2Proof.Machine.execPeerfailClear who dev s
  | .portLossTimeout port => Sys2Proof.Machine.execPortLossTimeout port s
  | .routeWrite n => Sys2Proof.Machine.execRouteWrite n s
  | .peerMessageForward depart src dst payload => Sys2Proof.Machine.execPeerMessageForward depart src dst payload s
  | .attcmdStart who => Sys2Proof.Machine.execAttcmdStart who s
  | .mctpAttestRequest => Sys2Proof.Machine.execMctpAttestRequest s
  | .attestReportDone => Sys2Proof.Machine.execAttestReportDone s
  | .mext n => Sys2Proof.Machine.execMext n s
  | .monSnap mon => Sys2Proof.Machine.execMonSnap mon s
  | .monClear mon => Sys2Proof.Machine.execMonClear mon s
  | .monLevelSample mon amps => Sys2Proof.Machine.execMonLevelSample mon amps s
  | .patrolScrub blk => Sys2Proof.Machine.execPatrolScrub blk s
  | .alwaysOnReset => Sys2Proof.Machine.execAlwaysOnReset s
  | .managementReset => Sys2Proof.Machine.execManagementReset s
  | .recoveryImage image => Sys2Proof.Machine.execRecoveryImage image s
  | .registerWrite who addr val => Sys2Proof.Machine.execRegisterWrite who addr val s
  | .portDown port => Sys2Proof.Machine.execPortDown port s
  | .portRetrain port lanes => Sys2Proof.Machine.execPortRetrain port lanes s
  | .rvArrival k => Sys2Proof.Machine.execRvArrival k s
  | .mmaComplete tile sub => Sys2Proof.Machine.execMmaComplete tile sub s
  | .uncorrectableError place => Sys2Proof.Machine.execUncorrectableError place s

end Sys2Proof.Machine
end

