-- ==== Sys2Proof/Machine/Place.lean ====
section
/-! DEFINITION. A one-group program placed on tile 0, as a launch would leave it: what State.withFetchWord sets
(assumption 5). Context 0 maps VA 0-1 GiB to the same PA; the code stands at 0x4000. -/

namespace Sys2Proof.Machine

/-- The address of the placed instruction. -/
def placePc : Nat := 0x4000

/-- The lines the placed program is fetched through: context entry, three page tables, code. -/
def placeLines : List Nat := [0, 0x1000 / 128, 0x2000 / 128, 0x3000 / 128, placePc / 128]

/-- The context entry, the tables and sixteen bytes of code. Assumption 5 (DESIGN CHOICE). -/
def placeMem (m : Memory) (w : Nat) : Memory :=
  ((((m.writeN 0 16 (2 ^ 63 + 0x1000 * 2 ^ 64)).writeN 0x1000 8 0x2001).writeN 0x2000 8 0x3001).writeN 0x3000 8 0x3F).writeN
    placePc 16 w

/-- The placed group: 32 live lanes, 256 registers, four accumulator tiles, in slot 0 of sub-core 0.
Assumption 5 (DESIGN CHOICE). -/
def placeGroup : Group :=
  { Group.blank with
    team := 1
    regs := 256
    accN := 4
    slices := List.replicate 8 (Slice.start (BitVec.ofNat 56 placePc) 15)
    gangs := [⟨255, .none, 0⟩]
    phys := [0, 1, 2, 3]
    place := .slot 0 }

/-- Its team: one group, the whole local store of the tile. Assumption 5 (DESIGN CHOICE). -/
def placeTeam : Team :=
  { Team.blank with cluster := 1, tile := 0, groups := [1], lgran := 256, gmap := List.range 256 }

/-- The state with the bits `w` of one instruction where the next step fetches. Assumption 5 (DESIGN CHOICE). -/
def State.placed (s : State) (w : Nat) : State :=
  { s with
    mem := placeMem s.mem w
    l2 := s.l2.filter fun p => !placeLines.contains (p.1 / 2)
    bad := s.bad.filter fun p => match p with
      | .block b => !placeLines.contains (b / 2)
      | _ => true
    dev := { s.dev with ctxtab := 0, tcache := [] }
    tiles := s.tiles.set 0 { Tile.reset with gear := true }
    subs := s.subs.set 0 { SubCore.reset with slots := some 1 :: List.replicate 7 none }
    groups := s.groups.set 1 placeGroup
    teams := s.teams.set 1 placeTeam
    clusters := s.clusters.set 1 { Cluster.blank with launch := 1, teams := [1] }
    launches := s.launches.set 1 { Launch.blank with next := 1, pkt := { Packet.blank with regs := 16, acc := 4, live := 32 } }
    sensors := []
    agenda := .cycle 0 0 :: s.agenda }

end Sys2Proof.Machine
end

