-- ==== Sys2Proof/Machine/Step.lean ====
section
/-! DEFINITION. One step of the part: the next turn, and the meaning of the instruction or event it comes to. -/

namespace Sys2Proof.Machine

/-- Run what a turn comes to. -/
def Choice.run1 : Choice → Host.Outcome State Fault Refusal
  | .run i s after => match exec i s with
    | .next t => .next (after t)
    | o => o
  | .idle s => .next s

/-- One step. Assumption 4 (DESIGN CHOICE). -/
def step (s : State) : Host.Outcome State Fault Refusal :=
  let (t, s') := s.nextTurn
  (s'.choose t).run1

/-- The state with one instruction, whose bits are `w`, where the next step fetches. Assumption 5 (DESIGN CHOICE). -/
def State.withFetchWord (s : State) (nbits w : Nat) : State := s.placed (w % 2 ^ nbits)

end Sys2Proof.Machine
end

