-- ==== Sys2Proof/Safety.lean ====
section
/-! DEFINITION. What counts as a safe run, and the vocabulary of the statements: when an instruction reaches its effect,
what a write of a result set leaves, and what an instruction changes. -/

namespace Sys2Proof

/-- The machine answers a next state. -/
def SafeStep (s : Machine.State) : Prop := ∃ s', Machine.step s = .next s'

/-- `k` steps from a state stop at no fault and no refusal. -/
def SafeRun (k : Nat) (s : Machine.State) : Prop := ∃ s', core.run k s = .next s'

end Sys2Proof

namespace Sys2Proof.Machine

/-! ### Reaching the effect -/

/-- An instruction that names the registers `dst` and `src` passes the checks of R54 that every instruction has: its
registers lie in the grant (check 4), the tokens of its WT field read zero (R44), no earlier access is still to write a
register it names (R76), and no operand or guard holds an uncorrectable error (R319). -/
structure Ready (h : Hdr) (dst src : List Spec) (s : State) : Prop where
  listed : s.groups.get? s.cur.gid ≠ none
  granted : ∀ r ∈ dst ++ src, s.curG.refuses r = false
  tokens : s.curT.tokensZero h.wt = true
  board : s.busyOn (dst ++ src) = []
  sound : s.badSource h src true = none

/-- A write of a result set at the rank of `d` meets no trap, whatever the results (R25-R28): room in the group's split
store, or for a `t` name the whole gang and room in the team's. -/
def Room (h : Hdr) (d : Spec) (s : State) : Prop :=
  match d with
  | .v _ | .p _ | .zero => True
  | .g n => s.curG.shadowed n.toNat = true
      ∨ s.curG.gc.length + (s.curG.slicesOn s.cur.slices).length ≤ 16
  | .t n => s.uniform h = false
      ∨ s.curG.whole s.cur.slices = true ∧ s.curG.slicesOn s.cur.slices = s.curG.liveSlices
        ∧ if s.curT.groups.length = 1 then s.curT.tc.get? (tKey n.toNat s.curG.idx) = none
          else s.curT.tc.get? (tKey n.toNat s.curG.idx) ≠ none ∨ s.curT.tc.length < 32
  | _ => False

/-- For a `t` destination every source reads the same in all result lanes: its one write has one value (R26). -/
def Alike (h : Hdr) (d : Spec) (e : Expand) (src : List Spec) (s : State) : Prop :=
  match d with
  | .t _ => ∀ x ∈ src, ∀ l ∈ s.resultLanes h d, ∀ k ∈ s.resultLanes h d, s.src h e x l = s.src h e x k
  | _ => True

/-- An arithmetic instruction reaches its effect and its write has room. -/
structure Fit (h : Hdr) (d : Spec) (e : Expand) (src : List Spec) (s : State) : Prop where
  ready : Ready h [d] src s
  room : Room h d s
  alike : Alike h d e src s

/-! ### What is left -/

/-- The issuing sub-gang waits for nothing and has parted by the PCs of its slices; the other sub-gangs are as before
(R14, R15). -/
def Parted (s t : State) : Prop :=
  (∀ x ∈ t.curG.gangs, x.slices &&& ~~~ s.cur.slices = 0 →
    x.wait = .none ∧ ∀ i j, x.slices.getLsbD i = true → x.slices.getLsbD j = true → (t.curG.slice i).pc = (t.curG.slice j).pc)
  ∧ ∀ x, x.slices &&& ~~~ s.cur.slices ≠ 0 → (x ∈ t.curG.gangs ↔ x ∈ s.curG.gangs)

/-- Every slice of the issuing sub-gang goes on `n` bytes further with its masks and stacks as they were; the other slices
stay. -/
def WentOn (n : Nat) (s t : State) : Prop :=
  Parted s t ∧ ∀ i, t.curG.slice i =
    if s.cur.slices.getLsbD i = true ∧ i < s.curG.slices.length then
      { s.curG.slice i with pc := (s.curG.slice i).pc + BitVec.ofNat 56 n }
    else s.curG.slice i

/-- No part of the machine changes but the issuing group, its team's `t` names, and the uncorrectable errors that end in
the register written. -/
def OnlyGroup (d : Spec) (s t : State) : Prop :=
  t = { s with groups := t.groups, teams := t.teams, bad := t.bad }
  ∧ (∀ i, i ≠ s.cur.gid → t.groups.get? i = s.groups.get? i)
  ∧ (∀ p ∈ t.bad, p ∈ s.bad) ∧ (∀ p ∈ s.bad, p ≠ s.regPlace s.cur.gid d → p ∈ t.bad)

/-- Of the issuing group only the registers of the rank of `d` change, beside PCs and waits. -/
def OnlyDest (d : Spec) (s t : State) : Prop :=
  OnlyGroup d s t ∧
  match d with
  | .v _ => t.teams = s.teams
      ∧ t.curG = { s.curG with v := t.curG.v, slices := t.curG.slices, gangs := t.curG.gangs }
  | .p _ => t.teams = s.teams
      ∧ t.curG = { s.curG with p := t.curG.p, slices := t.curG.slices, gangs := t.curG.gangs }
  | .g _ => t.teams = s.teams
      ∧ t.curG = { s.curG with
          g := t.curG.g, gc := t.curG.gc, shadow := t.curG.shadow, slices := t.curG.slices, gangs := t.curG.gangs }
  | .t _ => t.curG = { s.curG with slices := t.curG.slices, gangs := t.curG.gangs }
      ∧ (∀ i, i ≠ s.curG.team → t.teams.get? i = s.teams.get? i)
      ∧ t.curT = { s.curT with t := t.curT.t, tc := t.curT.tc }
  | _ => t.teams = s.teams ∧ t.curG = { s.curG with slices := t.curG.slices, gangs := t.curG.gangs }

/-- The split store and the parents of the `g` names after a write of `f` in the lanes `lanes`, one for each contributing
slice, ascending (R25, R318). -/
def WroteG (n : Nat) (lanes : List Nat) (f : Nat → W64) (g g' : Group) : Prop :=
  (∀ r i, r ≠ n → i < 8 → g'.viewG r i = g.viewG r i ∧ g'.parentG r = g.parentG r) ∧
  if lanes = [] then ∀ i, i < 8 → g'.viewG n i = g.viewG n i ∧ g'.parentG n = g.parentG n
  else if g.shadowed n then g'.parentG n = f (lanes.headD 0) ∧ g'.g = g.g ∧ g'.gc = g.gc
  else
    g'.shadow = g.shadow
    ∧ (∀ l ∈ lanes, g'.viewG n (l / 4) = f l)
    ∧ (∀ i, i < 8 → g.sliceLive i = true → i ∉ lanes.map (· / 4) → g'.viewG n i = g.viewG n i)
    ∧ if lanes.map (· / 4) = g.liveSlices ∧ (∀ l ∈ lanes, f l = f (lanes.headD 0)) then
        g'.parentG n = f (lanes.headD 0) ∧ ∀ i, i < 8 → g'.gc.get? (gKey n i) = none
      else g'.parentG n = g.parentG n

/-- The team's `t` names after a write of `f` by a group (R26, R28): the parent of a team of one group, else the group's
copy. -/
def WroteT (n gi : Nat) (lanes : List Nat) (f : Nat → W64) (t t' : Team) : Prop :=
  (∀ k, k ≠ tKey n gi → t'.tc.get? k = t.tc.get? k) ∧ (∀ r, r ≠ n → t'.t.get? r = t.t.get? r)
  ∧ (∀ l ∈ lanes, t'.viewT n gi = f l) ∧ (lanes = [] → t' = t)
  ∧ if t.groups.length = 1 then t'.tc = t.tc else t'.t = t.t

/-- The registers of the rank of `d` after a write of the result set `f` in the lanes `lanes` (R25-R27, R170, R19):
every other register of the rank, and every lane outside, as before. Writes of `zero` and of `pt` are discarded. -/
def Wrote (d : Spec) (lanes : List Nat) (f : Nat → W64) (s t : State) : Prop :=
  match d with
  | .v n => (∀ l, l < 32 → t.curG.laneV n.toNat l = if l ∈ lanes then f l else s.curG.laneV n.toNat l)
      ∧ ∀ r l, r ≠ n.toNat → t.curG.laneV r l = s.curG.laneV r l
  | .p n => (∀ l, l < 32 →
        t.curG.laneP n.toNat l = if n ≠ 7 ∧ l ∈ lanes then f l != 0 else s.curG.laneP n.toNat l)
      ∧ ∀ r l, r ≠ n.toNat → t.curG.laneP r l = s.curG.laneP r l
  | .g n => WroteG n.toNat lanes f s.curG t.curG
  | .t n => WroteT n.toNat s.curG.idx lanes f s.curT t.curT
  | _ => True

/-- An arithmetic instruction's whole effect (R170): the next state holds a result set in the result lanes, written at
the rank of `d`; every slice of the sub-gang went on; nothing else changed. `val l x` says that `x` is right in lane `l`. -/
def Gives (i : Instr) (h : Hdr) (d : Spec) (s : State) (val : Nat → W64 → Prop) : Prop :=
  ∃ t f, exec i s = .next t ∧ Wrote d (s.resultLanes h d) f s t ∧ (∀ l ∈ s.resultLanes h d, val l (f l))
    ∧ WentOn h.len.bytes s t ∧ OnlyDest d s t

/-! ### Values -/

/-- Sub-element `j` of a source of an integer instruction, as bits (R22, R171). -/
def intEl (m : IntM) (s : State) (h : Hdr) (x : Spec) (l j : Nat) : Nat := sub (widthOf m.w) (s.src h m.expand x l) j

/-- The same under the type's signedness (R179). -/
def intVal (m : IntM) (s : State) (h : Hdr) (x : Spec) (l j : Nat) : Int :=
  readInt m.sgn (widthOf m.w) (intEl m s h x l j)

/-- An exact result in a sub-element: clamped under `.sat`, else wrapped (R179). -/
def intFit (m : IntM) (x : Int) : Nat :=
  wrapInt (widthOf m.w) (if m.sat then clampInt (intMin m.sgn (widthOf m.w)) (intMax m.sgn (widthOf m.w)) x else x)

/-- Every sub-element of `x` is the given one. -/
def Elems (w k : Nat) (x : W64) (f : Nat → Nat) : Prop := ∀ j < k, sub w x j = f j

/-- Every sub-element of `x` under an integer type is the given one. -/
def IntElems (m : IntM) (x : W64) (f : Nat → Nat) : Prop := Elems (widthOf m.w) (perReg (widthOf m.w)) x f

/-- Every bit of every sub-element of `x` under an integer type is the given one. -/
def IntBits (m : IntM) (x : W64) (f : Nat → Nat → Bool) : Prop :=
  ∀ j < perReg (widthOf m.w), ∀ i < widthOf m.w, (sub (widthOf m.w) x j).testBit i = f j i

/-- The value of sub-element `j` of a source of a floating-point instruction (R84, R171). -/
def fltVal (m : FltM) (s : State) (h : Hdr) (x : Spec) (l j : Nat) : Num := m.num (s.src h m.expand x l) j

/-- Every sub-element of `x` under a float type is the given one, and bits above a single `.f32` are zero (R52). -/
def FltElems (m : FltM) (x : W64) (f : Nat → Nat) : Prop :=
  Elems (ftWidth m.ft) (ftCount m.ft) x f ∧ (m.ft = 0 → x.toNat < 2 ^ 32)

/-- Per-element masks of a floating-point comparison (R190). -/
def FltMask (m : FltM) (x : W64) (holds : Nat → Prop) : Prop :=
  (∀ j < ftCount m.ft, (holds j → sub (ftWidth m.ft) x j = 2 ^ ftWidth m.ft - 1)
    ∧ (¬holds j → sub (ftWidth m.ft) x j = 0))
  ∧ (m.ft = 0 → x.toNat < 2 ^ 32)

/-- The rational number a value stands for; zero for those that are no number. -/
def Num.toRat : Num → ℚ
  | .fin s m e => (signed s m : ℚ) * (2 : ℚ) ^ e
  | _ => 0

/-- A finite number. -/
def Num.isFin : Num → Prop
  | .fin _ _ _ => True
  | _ => False

/-- The class bits of R191, by the number a value stands for. -/
def IsClass (v : Num) (f : Fmt) (k : Nat) : Prop :=
  match v with
  | .nan => k = 8
  | .inf neg => k = if neg then 0 else 7
  | .fin neg _ _ =>
    if v.toRat = 0 then k = if neg then 3 else 4
    else if |v.toRat| < (2 : ℚ) ^ (1 - (f.bias : Int)) then k = if neg then 2 else 5
    else k = if neg then 1 else 6

/-! ### Pairs of registers (R210) -/

/-- Two names of one rank after a write of `f` and `f2` in the lanes `lanes`; every other register of the rank stays. -/
def WrotePair (d d2 : Spec) (lanes : List Nat) (f f2 : Nat → W64) (s t : State) : Prop :=
  match d, d2 with
  | .v n, .v n2 => (∀ l, l < 32 →
        t.curG.laneV n.toNat l = (if l ∈ lanes then f l else s.curG.laneV n.toNat l)
        ∧ t.curG.laneV n2.toNat l = if l ∈ lanes then f2 l else s.curG.laneV n2.toNat l)
      ∧ ∀ r l, r ≠ n.toNat → r ≠ n2.toNat → t.curG.laneV r l = s.curG.laneV r l
  | .g n, .g n2 => (∀ l ∈ lanes,
        t.curG.viewG n.toNat (l / 4) = (if s.curG.shadowed n.toNat then f (lanes.headD 0) else f l)
        ∧ t.curG.viewG n2.toNat (l / 4) = if s.curG.shadowed n2.toNat then f2 (lanes.headD 0) else f2 l)
      ∧ ∀ r i, i < 8 → r ≠ n.toNat → r ≠ n2.toNat →
        t.curG.viewG r i = s.curG.viewG r i ∧ t.curG.parentG r = s.curG.parentG r
  | .t n, .t n2 => (∀ l ∈ lanes, t.curT.viewT n.toNat s.curG.idx = f l ∧ t.curT.viewT n2.toNat s.curG.idx = f2 l)
      ∧ (∀ k, k ≠ tKey n.toNat s.curG.idx → k ≠ tKey n2.toNat s.curG.idx → t.curT.tc.get? k = s.curT.tc.get? k)
      ∧ ∀ r, r ≠ n.toNat → r ≠ n2.toNat → t.curT.t.get? r = s.curT.t.get? r
  | _, _ => False

/-- Room for the two writes (R210). -/
def RoomPair (h : Hdr) (d : Spec) (s : State) : Prop :=
  match d with
  | .v n => n.toNat + 1 < (if s.curG.level = .m then 32 else s.curG.regs)
  | .g n => n ≠ 127 ∧ s.curG.gc.length + 2 * (s.curG.slicesOn s.cur.slices).length ≤ 16
  | .t n => n ≠ 63 ∧ (s.uniform h = false
      ∨ s.curG.whole s.cur.slices = true ∧ s.curG.slicesOn s.cur.slices = s.curG.liveSlices ∧ s.curG.idx < 32
        ∧ if s.curT.groups.length = 1 then s.curT.tc = [] else s.curT.tc.length + 2 ≤ 32)
  | _ => False

/-- The whole effect of an instruction that writes a pair. -/
def GivesPair (i : Instr) (h : Hdr) (d d2 : Spec) (s : State) (val : Nat → W64 → W64 → Prop) : Prop :=
  ∃ t f f2, exec i s = .next t ∧ WrotePair d d2 (s.resultLanes h d) f f2 s t
    ∧ (∀ l ∈ s.resultLanes h d, val l (f l) (f2 l)) ∧ WentOn h.len.bytes s t
    ∧ t = { s with groups := t.groups, teams := t.teams, bad := t.bad }
    ∧ (∀ i, i ≠ s.cur.gid → t.groups.get? i = s.groups.get? i)
    ∧ t.curG = { s.curG with
        v := t.curG.v, g := t.curG.g, gc := t.curG.gc, shadow := t.curG.shadow, slices := t.curG.slices
        gangs := t.curG.gangs }
    ∧ (∀ p ∈ s.bad, p ≠ s.regPlace s.cur.gid d → p ≠ s.regPlace s.cur.gid d2 → p ∈ t.bad) ∧ (∀ p ∈ t.bad, p ∈ s.bad)
    ∧ (∀ i, i ≠ s.curG.team → t.teams.get? i = s.teams.get? i)
    ∧ t.curT = { s.curT with t := t.curT.t, tc := t.curT.tc }

/-! ### Cross-lane values -/

/-- Element `m` across the lanes of a source at width `w` (R196). -/
def laneEl (s : State) (h : Hdr) (e : Expand) (x : Spec) (w m : Nat) : Nat :=
  sub w (s.src h e x (m / (64 / w))) (m % (64 / w))

/-- Element `m` exists and its lane is one of the issuing sub-gang (R196, R197). -/
def InReach (s : State) (w m : Nat) : Prop := m < 32 * (64 / w) ∧ s.cur.slices.getLsbD (m / (64 / w) / 4) = true

/-- The tree of R204 over positions `i * 2^k` to `(i + 1) * 2^k - 1`. -/
def treeAt (f : Nat → Nat → Nat) (x : Nat → Option Nat) : Nat → Nat → Option Nat
  | 0, i => x i
  | k + 1, i =>
    match treeAt f x k (2 * i), treeAt f x k (2 * i + 1) with
    | some a, some b => some (f a b)
    | some a, none => some a
    | none, b => b

/-! ### Control -/

/-- The slices of the sub-gang each did what `f` says of it, then parted by their PCs; the other slices and everything else
stayed (R14, R15). -/
def Steered (f : Nat → Slice → Slice) (s t : State) : Prop :=
  t = { s with groups := t.groups } ∧ (∀ i, i ≠ s.cur.gid → t.groups.get? i = s.groups.get? i)
  ∧ t.curG = { s.curG with slices := t.curG.slices, gangs := t.curG.gangs } ∧ Parted s t
  ∧ ∀ i, t.curG.slice i =
    if s.cur.slices.getLsbD i = true ∧ i < s.curG.slices.length then f i (s.curG.slice i) else s.curG.slice i

/-- The whole effect of an instruction that steers each slice. -/
def Steers (i : Instr) (s : State) (f : Nat → Slice → Slice) : Prop := ∃ t, exec i s = .next t ∧ Steered f s t

/-- What holds of every slice of the issuing sub-gang. -/
def EachSlice (s : State) (p : Nat → Slice → Prop) : Prop :=
  ∀ i, s.cur.slices.getLsbD i = true → p i (s.curG.slice i)

/-- The lanes of slice `i` in which predicate `n` holds, or with `neg` fails (R259). -/
def condLanes (s : State) (n : BitVec 3) (neg : Bool) (i : Nat) : BitVec 4 :=
  BitVec.ofBoolListLE [s.curG.laneP n.toNat (4 * i) != neg, s.curG.laneP n.toNat (4 * i + 1) != neg,
    s.curG.laneP n.toNat (4 * i + 2) != neg, s.curG.laneP n.toNat (4 * i + 3) != neg]

/-- The lanes of slice `i` whose guard is true (R41). -/
def guardLanes (s : State) (h : Hdr) (i : Nat) : BitVec 4 :=
  BitVec.ofBoolListLE [s.curG.guard h.grd (4 * i), s.curG.guard h.grd (4 * i + 1), s.curG.guard h.grd (4 * i + 2),
    s.curG.guard h.grd (4 * i + 3)]

/-- The target of a branch in a slice (R260). -/
def branchTarget (h : Hdr) (x : Slice) : PC := x.pc + h.imm.signExtend 56

/-- As `OnlyDest`, but for the lane fault mask of the group and the tokens of the team. -/
def OnlyDestBut (d : Spec) (s t : State) : Prop :=
  let g := { s.curG with lfm := t.curG.lfm, slices := t.curG.slices, gangs := t.curG.gangs }
  let u := { s.curT with tokens := t.curT.tokens }
  t = { s with groups := t.groups, teams := t.teams, bad := t.bad }
  ∧ (∀ i, i ≠ s.cur.gid → t.groups.get? i = s.groups.get? i)
  ∧ (∀ i, i ≠ s.curG.team → t.teams.get? i = s.teams.get? i)
  ∧ (∀ p ∈ t.bad, p ∈ s.bad) ∧ (∀ p ∈ s.bad, p ≠ s.regPlace s.cur.gid d → p ∈ t.bad)
  ∧ match d with
  | .v _ => t.curG = { g with v := t.curG.v } ∧ t.curT = u
  | .p _ => t.curG = { g with p := t.curG.p } ∧ t.curT = u
  | .g _ => t.curG = { g with g := t.curG.g, gc := t.curG.gc, shadow := t.curG.shadow } ∧ t.curT = u
  | .t _ => t.curG = g ∧ t.curT = { u with t := t.curT.t, tc := t.curT.tc }
  | _ => t.curG = g ∧ t.curT = u

/-- Nothing changes but the issuing group, in what `f` takes from it, beside PCs and waits. -/
def OnlyIssuer (f : Group → Group → Group) (s t : State) : Prop :=
  t = { s with groups := t.groups } ∧ (∀ i, i ≠ s.cur.gid → t.groups.get? i = s.groups.get? i)
  ∧ t.curG = { f s.curG t.curG with slices := t.curG.slices, gangs := t.curG.gangs }

/-- A token reads zero to a wait: now, or at the start of the present cycle (R44). -/
def Team.readsZero (t : Team) (j : Nat) : Prop := (t.token j).count = 0 ∨ t.zeros.getLsbD j = true

/-- What the end of a wait for tokens acquires: at the scope of the decrements that each named token has seen since a wait
last acquired for it (R139). -/
def AcquiredFor (tid : Nat) (mask : BitVec 8) (s t : State) : Prop :=
  let k (j : Nat) : Token := (s.team tid).token j
  (∀ i, i ≠ tid → t.teams.get? i = s.teams.get? i) ∧ t.team tid = { s.team tid with tokens := (t.team tid).tokens }
  ∧ (∀ j, j < 8 → (t.team tid).token j = if mask.getLsbD j = true then { k j with acq := 0 } else k j)
  ∧ ∀ i, t.tile i = if i = (s.team tid).tile ∧ i < 192 then
      (List.range 8).foldl (fun x j => if mask.getLsbD j then x.acquire (k j).acq else x) (s.tile i) else s.tile i

/-- Nothing changes but the issuing group's PCs and waits, and its team in what `f` takes from it. -/
def OnlyTeam (f : Team → Team → Team) (s t : State) : Prop :=
  t = { s with groups := t.groups, teams := t.teams } ∧ (∀ i, i ≠ s.cur.gid → t.groups.get? i = s.groups.get? i)
  ∧ t.curG = { s.curG with slices := t.curG.slices, gangs := t.curG.gangs }
  ∧ (∀ i, i ≠ s.curG.team → t.teams.get? i = s.teams.get? i) ∧ t.curT = f s.curT t.curT

/-- A group is at `p` and holds no issue slot any more; other slots and sub-cores are as before (R32, R288). -/
def LeftSlot (gid : Nat) (p : Place) (s t : State) : Prop :=
  let g := s.group gid
  let tile := (s.team g.team).tile
  (t.group gid).place = p
  ∧ t.sub tile g.q = { s.sub tile g.q with slots := (s.sub tile g.q).slots.map fun x => if x = some gid then none else x }
  ∧ ∀ k, k ≠ subKey tile g.q → t.subs.get? k = s.subs.get? k

/-! ### Local store (R65, R148, R160) -/

/-- The physical local address of a team-relative byte (R148); the stage manager's SRAM is flat (R348). -/
def State.localPa (s : State) (o : Nat) : Nat :=
  if s.curG.level = .m then o else (s.curT.gmap[o / 4096]?).getD 0 * 4096 + o % 4096

/-- What LOCAL records of the issuing group reach: its tile's local store, or the stage manager's SRAM. -/
def State.localMem (s : State) : Memory := if 192 ≤ s.curTile then s.sm.sram else (s.tile s.curTile).store

/-- The descriptor beside a physical local byte (R95); SRAM keeps none. -/
def State.localDesc (s : State) (pa : Nat) : Desc :=
  if 192 ≤ s.curTile then 0 else (s.tile s.curTile).storeDesc.getD (pa / 64) 0

/-- A record of local store that passes R63, and nothing a local access waits for or stumbles on: no access of the group
under way (R77, R165), no block reserved by a copy (R135), no copy still to be taken up after a restore (R147), no error in local
store (R319). The group holds its issue slot. The bytes stand in their canonical form, as every step leaves them. -/
structure LocalNow (r : BitVec 256) (s : State) : Prop where
  valid : recordFault (s.curG.level == .m) r = none
  space : recSpc r = spcLocal
  alone : ∀ p ∈ s.accs, p.2.gid ≠ s.cur.gid
  here : s.curTile ≠ awayTile
  alive : s.curG.ended = false
  slot : ∃ n, s.curG.place = .slot n
  restored : s.copiesRest s.curG = false
  idle : ∀ b, s.blockBusy s.curTile b = false
  sound : ∀ b, s.isBad (.store s.curTile b) = false
  canon : s.localMem.wf = true

/-- The address of element `x` through a record, of `size` bytes; none where it is out of range (R65). -/
def State.elemAt (s : State) (r : BitVec 256) (size x : Nat) : Option Nat := elemAddr r (s.grantOf s.curG) size x

/-- The active lanes all of whose `n` elements are in range (R161). -/
def State.inRange (s : State) (h : Hdr) (r : BitVec 256) (size n : Nat) (idx : Nat → Nat) : List Nat :=
  (s.actLanes h).filter fun l => (List.range n).all fun k => (s.elemAt r size (idx l + k)).isSome

/-- The physical local address of an element in range. -/
def State.elemPa (s : State) (r : BitVec 256) (size x : Nat) : Nat := s.localPa ((s.elemAt r size x).getD 0)

/-- The lane fault mask gains exactly the active lanes out of range (R66). -/
def MarkedOut (act ins : List Nat) (s t : State) : Prop :=
  ∀ l, l < 32 → t.curG.lfm.getLsbD l = (s.curG.lfm.getLsbD l || decide (l ∈ act ∧ l ∉ ins))

/-- Accesses under way are as before. -/
def AccsKept (s t : State) : Prop :=
  let f (a : Access) : Access := { a with gate := a.gate.filter (· != s.nextId) }
  ∀ i, i ≠ s.nextId → (t.accs.get? i).map f = (s.accs.get? i).map f

/-- What an access that has performed at once leaves of everything but registers and memory: it took a number, its tile's
monitor may have sampled it (R355), and an acquire moved the generations of the tile's L1 (R153). -/
def AccessFrame (acq : Option Nat) (done : Bool) (s t : State) : Prop :=
  t = { s with
    groups := t.groups, accs := t.accs, mons := t.mons, free := t.free, nextId := t.nextId, tiles := t.tiles, sm := t.sm
    bad := t.bad }
  ∧ t.sm = { s.sm with sram := t.sm.sram }
  ∧ (∀ i, i ≠ s.cur.gid → t.groups.get? i = s.groups.get? i) ∧ AccsKept s t
  ∧ (∀ i, i ≠ s.curTile → t.tile i = s.tile i)
  ∧ t.tile s.curTile = { (match acq with
      | some sc => if done && s.curTile < 192 then (s.tile s.curTile).acquire sc else s.tile s.curTile
      | none => s.tile s.curTile) with
    store := (t.tile s.curTile).store, storeDesc := (t.tile s.curTile).storeDesc }
  ∧ (192 ≤ s.curTile → (t.tile s.curTile).store = (s.tile s.curTile).store)
  ∧ (s.curTile < 192 → t.sm = s.sm)

/-- A release has nothing to write back: no dirty byte in its tile's L1, and none on the way home (R166). -/
def Settled (rel : Option Nat) (s : State) : Prop :=
  ∀ sc, rel = some sc → 2 ≤ sc → s.curTile < 192 →
    (∀ p ∈ (s.tile s.curTile).l1, p.2.dmask = 0)
    ∧ ∀ r ∈ s.flying, r.carries s.curTile = false

/-! ### Accumulator tiles -/

/-- The checks of R230 that every accumulator instruction makes pass for the tiles `xs`, which are the physical tiles
`ps`, and none of them has to be waited for. -/
structure OnTile (h : Hdr) (xs : List Spec) (ps : List Nat) (s : State) : Prop where
  whole : s.curG.wholeMx s.cur.slices = true
  act : s.uniform h = true
  tiles : s.tilesOf s.cur.gid xs = .ok ps
  free : ∀ p ∈ ps, s.tileBusy s.cur.gid p = false

/-- Beside the issuing group's PCs and waits, and what `f` takes from it, only tile `p` of its sub-core changes. -/
def OnlyTile (p : Nat) (f : Group → Group → Group) (s t : State) : Prop :=
  let key := subKey (s.team s.curG.team).tile s.curG.q
  t = { s with groups := t.groups, subs := t.subs, bad := t.bad }
  ∧ (∀ i, i ≠ s.cur.gid → t.groups.get? i = s.groups.get? i)
  ∧ t.curG = { f s.curG t.curG with slices := t.curG.slices, gangs := t.curG.gangs }
  ∧ (∀ k, k ≠ key → t.subs.get? k = s.subs.get? k)
  ∧ t.subOf s.cur.gid = { s.subOf s.cur.gid with acc := (t.subOf s.cur.gid).acc }
  ∧ ∀ k, k ≠ p → t.accAt s.cur.gid k = s.accAt s.cur.gid k

/-- A row of A as an MMA reads it from registers (R227): block `p` of row `i`. -/
def State.blkA (s : State) (a c : BitVec 8) (i p : Nat) : Blk :=
  ⟨((List.range 8).map fun j => (s.curG.laneV (a.toNat + 8 * p + j) i).toNat * 2 ^ (64 * j)).sum,
    BitVec.ofNat 16 ((s.curG.laneV c.toNat i).toNat / 2 ^ (16 * p))⟩

/-- A column of B (R227): block `p` of column `n`. -/
def State.blkB (s : State) (b e : BitVec 8) (n p : Nat) : Blk :=
  ⟨((List.range 16).map fun m => Machine.sub 32 (s.curG.laneV (b.toNat + n / 2) (16 * p + m)) (n % 2) * 2 ^ (32 * m)).sum,
    BitVec.ofNat 16 ((s.curG.laneV e.toNat n).toNat / 2 ^ (16 * p))⟩

/-- The element that R231 gives: block after block. -/
def mmaEl (m : MmaM) (a b : Nat → Blk) (c : W32) : W32 :=
  let step (c : W32) (p : Nat) : W32 := if m.si32 then accInt c (a p) (b p) else accFp c (a p) (b p)
  if m.kh then step c 0 else step (step c 0) 1

/-- Every descriptor has its field's width class, and every pair of blocks is a row of R228. -/
def BlocksFit (m : MmaM) (a b : Nat → Nat → Blk) : Prop :=
  let ps := if m.kh then [0] else [0, 1]
  (∀ i < 32, ∀ p ∈ ps, widthClass (a i p).d = m.acls.toNat ∧ widthClass (b i p).d = m.bcls.toNat)
  ∧ ∀ i < 32, ∀ n < 32, ∀ p ∈ ps, ∃ x y, eltOf (a i p).d = some x ∧ eltOf (b n p).d = some y ∧ pairOf m.si32 x y = true

/-! ### Messages and homes -/

/-- An entry is gone. -/
def Removed {α : Type} (k : Nat) (t t' : Table α) : Prop := ∀ j, t'.get? j = if j = k then none else t.get? j

/-- An entry is written. -/
def PutAt {α : Type} (k : Nat) (x : α) (t t' : Table α) : Prop := ∀ j, t'.get? j = if j = k then some x else t.get? j

/-- An entry is new, under some number. -/
def Added {α : Type} (x : α) (t t' : Table α) : Prop := ∃ n, PutAt n x t t'

/-- Request `k` is the next of its line, and the line's home can take it: a line of device DRAM, no commit of its range
under way (R121), room in the slice's queue and in the directory set (R105, R109). -/
structure AtHome (s : State) (k : Nat) (r : Req) : Prop where
  asked : s.net.get? k = some r
  first : s.earlierReq k r = false
  dram : isDramLine r.line = true
  die : r.die < 2
  inside : r.tag ≠ .ext
  room : s.homeFull r.line r = false
  settled : s.rangeBusy r.line = false
  set : (s.dir.filter fun p => p.1 != r.line && isDramLine p.1 && sameDirSet p.1 r.line).length < 16

/-- The request has left the network and has its answer; only its line, the directory and messages have changed. -/
def Answered (k : Nat) (r : Req) (a : Answer) (s t : State) : Prop :=
  t = { s with
    mem := t.mem, descs := t.descs, bad := t.bad, dir := t.dir, net := t.net, reps := t.reps
    pushes := t.pushes, code := t.code, nextId := t.nextId }
  ∧ Removed k s.net t.net ∧ Added ⟨r, a⟩ s.reps t.reps

/-- The reply to a read of a line that nobody holds: its home copy, with the errors in it (R114, R319). -/
def homeData (s : State) (l right : Nat) : Answer :=
  .data right (s.lineData l) (s.lineDescs l) true (s.homeErr l 0, s.homeErr l 1)

/-- The set of a line in a die's L2 has a free way, or holds a line that no engine owns (R100). -/
def State.WayFree (s : State) (die l : Nat) : Prop :=
  let set := s.l2.filter fun p => p.1 % 2 == die && p.1 / 2 != l && l2Set (p.1 / 2) == l2Set l
  set.length < 16 ∨ ∃ p ∈ set, p.2.eng = none

/-- A request of a die's L2 has its answer and the line is there now. What the L2 held in the line's set may have had to go:
a request of its own for each line given up (R100, R105). -/
def Granted (k : Nat) (r : Req) (die right : Nat) (s t : State) : Prop :=
  let l := r.line
  t = { s with
    bad := t.bad, dir := t.dir, l2 := t.l2, net := t.net, reps := t.reps, recs := t.recs, answers := t.answers
    pushes := t.pushes, free := t.free, nextId := t.nextId }
  ∧ t.l2Line die l = some ⟨right, s.lineData l, s.lineDescs l, r.ef, none, true⟩
  ∧ (∀ j x, j ≠ l2Key die l → t.l2.get? j = some x → s.l2.get? j = some x)
  ∧ (∀ j x, j ≠ l2Key die l → s.l2.get? j = some x → t.l2.get? j = none →
    j % 2 = die ∧ l2Set (j / 2) = l2Set l ∧ ∃ y, (j, y) ∈ s.l2 ∧ y.eng = none)
  ∧ (∀ j, j < s.nextId → t.net.get? j = if j = k then none else s.net.get? j)
  ∧ Added ⟨{ r with holder := some (l2Id die) }, homeData s l right⟩ s.reps t.reps

/-- The home copies are as before. -/
def HomeKept (s t : State) : Prop := t.mem = s.mem ∧ t.descs = s.descs ∧ t.bad = s.bad ∧ t.code = s.code

/-- The home copy of line `l` has taken the masked bytes and the selected descriptors; no other byte or descriptor has
changed, and nothing else is kept for a fetch than what the line held (R35). -/
def HomeWrote (l data : Nat) (m : LineMask) (ds : BitVec 32) (dw : BitVec 2) (s t : State) : Prop :=
  (∀ a, t.mem.read a = if a / 128 = l ∧ m.getLsbD (a % 128) = true then BitVec.ofNat 8 (data / 256 ^ (a % 128))
    else s.mem.read a)
  ∧ (∀ b, t.descs.getD b 0 = if b / 2 = l ∧ dw.getLsbD (b % 2) = true then descOf ds (b % 2) else s.descs.getD b 0)
  ∧ (∀ p ∈ t.bad, p ∈ s.bad) ∧ (∀ p ∈ s.bad, (∀ h, p ≠ .block (2 * l + h) ∧ p ≠ .l2 (homeDie l) l h) → p ∈ t.bad)
  ∧ (∀ x ∈ s.code, x ∈ t.code) ∧ ∀ x ∈ t.code, x ∈ s.code ∨ x.line = l ∧ x.data = (s.cohLine l).1

/-- Nobody outside the package holds a line and nothing about it is under way: a write at system scope changes its home copy
and the copies of the dies' L2s, and nothing else. -/
def State.Quiet (s : State) (l : Nat) : Prop :=
  s.dir.get? l = none ∧ (∀ p ∈ s.answers, p.2.line ≠ l) ∧ ∀ p ∈ s.net, p.2.line ≠ l

/-- Bytes of memory from `pa` on have been written; no other byte has changed. -/
def BytesAt (pa : Nat) (x : List Byte) (m m' : Memory) : Prop :=
  ∀ a, m'.read a = if pa ≤ a ∧ a < pa + x.length then (x[a - pa]?).getD 0 else m.read a

/-! ### Turns, walks and the canonical form -/

/-- Every byte memory of the machine is in canonical form. -/
def Canonical (s : State) : Prop := s.mem.wf = true ∧ s.sm.sram.wf = true ∧ ∀ i, (s.tile i).store.wf = true

/-- Nothing takes the issue point of a sub-gang before its next instruction: no trap due, no time-slice yield asked of its
group, no `YIELD` of it just ended, no `ACCLD` of the group under way, no `MLOOP` to resume (R110, R289, R146, R237). -/
structure Undisturbed (s : State) (gid : Nat) (x : SubGang) : Prop where
  trap : (s.group gid).nextPend = none
  slice : (s.group gid).slicing ≠ .asked
  yields : ∀ m o, x.wait ≠ .yield m o
  tiles : ∀ p ∈ s.accs, p.2.gid = gid → p.2.kind ≠ .accld
  loops : s.savedLoops gid = []

/-- The page-table entry for an address in a table of a level (R70). -/
def State.entryAt (s : State) (table lvl va : Nat) : W64 :=
  BitVec.ofNat 64 (s.cohRead (table + 8 * (va / 2 ^ (12 + 9 * (lvl - 1)) % (if lvl = 5 then 256 else 512))) 8)

/-- The table a walk reaches after `k` entries, all of them present, well formed and pointing into DRAM (R70, R71). -/
def State.tableDown (s : State) (ctx va : Nat) : Nat → Option Nat
  | 0 => some (field (s.ctxWord ctx 1) 12 40 * 4096)
  | k + 1 =>
    match s.tableDown ctx va k with
    | none => none
    | some t =>
      let e := s.entryAt t (5 - k) va
      if e.getLsbD 0 && !e.getLsbD 1 && field e 2 10 == 0 && field e 52 12 == 0 && decide (field e 12 40 * 4096 < dramEnd) then
        some (field e 12 40 * 4096)
      else none

/-- The table of a level that a walk reaches. -/
def State.tableAt (s : State) (ctx va lvl : Nat) : Option Nat := s.tableDown ctx va (5 - lvl)

/-- No cached translation of a context differs from the tables in memory (R69, R73). -/
def State.CacheAgrees (s : State) (tile ctx : Nat) : Prop :=
  ∀ t ∈ (s.tile tile).tlb ++ s.dev.tcache.getD (dieOf tile) [], t.ctx = ctx → ∀ va table,
    va / 2 ^ (12 + 9 * (t.lvl - 1)) = t.vpre → s.tableAt ctx va t.lvl = some table → s.entryAt table t.lvl va = t.pte

/-- A leaf of a page in device DRAM leads virtual line `l` of a context to line `p`, in U mode if `um`; its bit `right` is `b`
(R70, R71); `unc` tells that its page is uncached. -/
def State.Leads (s : State) (ctx l p : Nat) (unc um : Bool) (right : Nat) (b : Bool) : Prop :=
  ∃ lvl table, 1 ≤ lvl ∧ lvl ≤ 3 ∧ l * 128 < 2 ^ 56 ∧ s.tableAt ctx (l * 128) lvl = some table ∧
    let e := s.entryAt table lvl (l * 128)
    let frame := field e 12 40 * 4096
    let size := 2 ^ (12 + 9 * (lvl - 1))
    e.getLsbD 0 = true ∧ e.getLsbD 1 = true ∧ e.getLsbD right = b ∧ (um = true → e.getLsbD 5 = true)
    ∧ e.getLsbD 6 = false ∧ e.getLsbD 7 = false ∧ field e 8 2 = 0 ∧ field e 10 2 = (if unc then 1 else 0) ∧ field e 52 12 = 0
    ∧ frame % size = 0 ∧ p = (frame + l * 128 % size) / 128 ∧ p * 128 < dramEnd

/-- A page in device DRAM maps virtual line `l` of a context to line `p`, with the right of PTE bit `right`. -/
abbrev State.Maps (s : State) (ctx l p : Nat) (unc um : Bool) (right : Nat) : Prop := s.Leads ctx l p unc um right true

/-- The walk of virtual line `l` finds an entry that is not present (R72). -/
def State.NotPresent (s : State) (ctx l : Nat) : Prop :=
  ∃ lvl table, 1 ≤ lvl ∧ lvl ≤ 5 ∧ l * 128 < 2 ^ 56 ∧ s.tableAt ctx (l * 128) lvl = some table
    ∧ (s.entryAt table lvl (l * 128)).getLsbD 0 = false

/-- The walk of virtual line `l` reads physical line `q`: of the context's entry, or of a table (R70, R331). -/
def State.WalkReads (s : State) (ctx l q : Nat) : Prop :=
  (∃ w < 3, q = (s.dev.ctxtab.toNat + 64 * ctx + 8 * w) / 128)
  ∨ ∃ lvl table, 1 ≤ lvl ∧ lvl ≤ 5 ∧ s.tableAt ctx (l * 128) lvl = some table
    ∧ q = (table + 8 * (l * 128 / 2 ^ (12 + 9 * (lvl - 1)) % (if lvl = 5 then 256 else 512))) / 128

/-- The 4 MiB of a team's save record at `base` can be read, or with `right` 3 written, on a tile (R333). -/
structure State.RecordAt (s : State) (tile ctx base right : Nat) : Prop where
  agrees : s.CacheAgrees tile ctx
  mapped : ∀ i < 32768, ∃ p unc, s.Maps ctx (base / 128 + i) p unc false right

/-- The lines of a save record are each other's and the walks' of none, and nothing about them is under way. -/
structure State.RecordApart (s : State) (ctx base : Nat) : Prop where
  apart : ∀ i < 32768, ∀ j < 32768, ∀ p q u v, s.Maps ctx (base / 128 + i) p u false 3 → s.Maps ctx (base / 128 + j) q v false 3 →
    i ≠ j → p ≠ q
  walks : ∀ i < 32768, ∀ j < 32768, ∀ p q u, s.Maps ctx (base / 128 + i) p u false 3 → s.WalkReads ctx (base / 128 + j) q → p ≠ q
  quiet : ∀ i < 32768, ∀ p u, s.Maps ctx (base / 128 + i) p u false 3 → s.Quiet p
  steady : ∀ i < 32768, ∀ q, s.WalkReads ctx (base / 128 + i) q → s.away q = false

/-- The map that record `r` names can be read at once (R134): the record passes its checks, its two lines are mapped for
reading on cached pages and stand in the tile's L1, current and without an error, and nothing that the read comes after is
under way. The map is `m`. -/
structure MapAtHand (s : State) (r : BitVec 256) (m : Nat) : Prop where
  valid : s.recordCheck r (recR r) = none
  shape : mapRecordOk r = true
  cached : reqType r 0 ≠ .uncached
  agrees : s.CacheAgrees s.curTile (s.ctxOf s.curG)
  lines : ∃ a b x y, let va := recBase r
    let here (l : Nat) (z : L1Line) : Prop :=
      s.l1 s.curTile l = some z ∧ z.current (s.tile s.curTile) = true ∧ s.badMask s.curTile l = 0
    let um : Bool := s.curG.level == .u
    s.Maps (s.ctxOf s.curG) (va / 128) a false um 2 ∧ s.Maps (s.ctxOf s.curG) (va / 128 + 1) b false um 2
    ∧ here a x ∧ here b y ∧ s.mapBehind s.curTile va a = false ∧ s.mapBehind s.curTile (va + 128) b = false
    ∧ m = x.data + y.data * 256 ^ 128

/-! ### Traps -/

/-- A sub-gang of slices `m` of group `gid` has entered the handler (R317): what is saved, the level, the masks and the PC;
the other slices, their waits and every other register and part of the machine stay. -/
def Entered (gid : Nat) (m : BitVec 8) (c : Cause) (tpc : PC) (info : W64) (s t : State) : Prop :=
  let g := s.group gid
  let g' := t.group gid
  t = { s with groups := t.groups } ∧ (∀ i, i ≠ gid → t.groups.get? i = s.groups.get? i)
  ∧ g' = { g with
      slices := g'.slices, gangs := g'.gangs, tcause := BitVec.ofNat 64 c.code, tpc := tpc.zeroExtend 64, tinfo := info
      tstate := g'.tstate, accsel := g'.accsel, level := if g.level = .m then .m else .s, inAccFirst := g'.inAccFirst }
  ∧ (∀ i, i < 8 → field g'.tstate (4 * i) 4 =
      if m.getLsbD i = true then (g.slice i).am.toNat else field g.tstate (4 * i) 4)
  ∧ field g'.tstate 32 8 = m.toNat ∧ field g'.tstate 40 4 = field g.tstate 40 4
  ∧ g'.tstate.getLsbD tsPpl = (g.level != .u) ∧ g'.tstate.getLsbD tsInTrap = true
  ∧ g'.tstate.getLsbD tsPie = g.tstate.getLsbD tsIe ∧ g'.tstate.getLsbD tsIe = false
  ∧ g'.accsel.getLsbD 3 = false ∧ g'.accsel.truncate 3 = (g.accsel.truncate 3 : BitVec 3)
  ∧ (∀ i, g'.slice i =
      if m.getLsbD i = true ∧ i < g.slices.length then
        { g.slice i with am := (g.slice i).live, pc := (s.tvecOf g).truncate 56 }
      else g.slice i)
  ∧ g'.gangs = g.gangs.map fun x => if x.slices &&& ~~~ m = 0 then { x with wait := .none } else x

/-- A synchronous trap of the issuing sub-gang is not nested (R315): U mode, or the stage manager outside a handler. -/
def MayTrap (s : State) : Prop :=
  s.curG.level = .u ∨ s.curG.level = .m ∧ s.curG.tstate.getLsbD tsInTrap = false

/-- The instruction enters the handler for the issuing sub-gang. -/
def Traps (i : Instr) (s : State) (c : Cause) (tpc : PC) (info : W64) : Prop :=
  ∃ t, exec i s = .next t ∧ Entered s.cur.gid s.cur.slices c tpc info s t

/-- A synchronous trap in S mode is nested (R315): the group ends, every lane of it dead, and an entry of kind 7 with the cause
and the PC waits for room in the fault queue. -/
def EndsNested (i : Instr) (s : State) (c : Cause) : Prop :=
  let gid := s.cur.gid
  ∃ t e, exec i s = .next t ∧ (t.group gid).ended = true
    ∧ (∀ i, ((t.group gid).slice i).live = 0 ∧ ((t.group gid).slice i).am = 0)
    ∧ e ∈ t.fq.waiting ∧ e.toNat / 2 ^ 72 % 256 = 7 ∧ e.toNat % 2 ^ 64 = (s.curG.pcOf s.cur.slices).toNat
    ∧ e.toNat / 2 ^ 104 % 256 = c.code ∧ ∀ x ∈ s.fq.waiting, x ∈ t.fq.waiting

/-- The issuing group is one the machine runs: its eight slices, and the issuing sub-gang among its sub-gangs, which share
no slice (R14). -/
structure Issuing (s : State) : Prop where
  eight : s.curG.slices.length = 8
  gang : ∃ x ∈ s.curG.gangs, x.slices = s.cur.slices
  apart : ∀ x ∈ s.curG.gangs, ∀ y ∈ s.curG.gangs, ∀ i, x.slices.getLsbD i = true → y.slices.getLsbD i = true → x = y
  some : s.cur.slices ≠ 0

end Sys2Proof.Machine
end

