-- ==== Sys2Proof/Certificates/Slice0/Obligations.lean ====
section
/-! DEFINITION. The statements about the Urtia 2480: what its instructions and events do, taken from the numbered rules
of the spec. -/

open Sys2Proof Sys2Proof.Machine

/-! ### Integer instructions -/

/-- R179: the exact result of each sub-element, clamped or wrapped, for every destination rank; nothing else changes. -/
def Obligations.IntegerArithmetic : Prop :=
  ∀ (s : State) (h : Hdr) (m : IntM) (d a b c : Spec),
    (Fit h d m.expand [a] s →
      Gives (.iabs h m d a) h d s fun l x => IntElems m x fun j => intFit m |intVal m s h a l j|)
    ∧ (Fit h d m.expand [a, b] s →
      Gives (.iadd h m d a b) h d s
        (fun l x => IntElems m x fun j => intFit m (intVal m s h a l j + intVal m s h b l j))
      ∧ Gives (.isub h m d a b) h d s
        (fun l x => IntElems m x fun j => intFit m (intVal m s h a l j - intVal m s h b l j))
      ∧ Gives (.imul h m d a b) h d s
        (fun l x => IntElems m x fun j => intFit m (intVal m s h a l j * intVal m s h b l j))
      ∧ Gives (.imulh h m d a b) h d s
        (fun l x => IntElems m x fun j =>
          wrapInt (widthOf m.w) (intVal m s h a l j * intVal m s h b l j / 2 ^ widthOf m.w))
      ∧ Gives (.imin h m d a b) h d s
        (fun l x => IntElems m x fun j => intFit m (min (intVal m s h a l j) (intVal m s h b l j)))
      ∧ Gives (.imax h m d a b) h d s
        (fun l x => IntElems m x fun j => intFit m (max (intVal m s h a l j) (intVal m s h b l j))))
    ∧ (Fit h d m.expand [a, b, c] s →
      Gives (.imad h m d a b c) h d s
        fun l x => IntElems m x fun j => intFit m (intVal m s h a l j * intVal m s h b l j + intVal m s h c l j))

/-- R174-R178, R180: moves, selection and bitwise logic, on whole registers; NOP changes nothing but the PC. For SEL to a
`t` name the predicate is one of the sources that must read alike.
R185: each condition; a `p` destination takes sub-element 0, any other a mask of ones or zeros. -/
def Obligations.MovesLogicAndCompare : Prop :=
  (∀ (s : State) (h : Hdr) (m : IntM) (d a b c : Spec),
      (Ready h [] [] s → Gives (.nop h) h .zero s fun _ _ => True)
      ∧ (Fit h d m.expand [a] s →
        Gives (.mov h m d a) h d s (fun l x => x = s.src h m.expand a l)
        ∧ Gives (.lnot h m d a) h d s (fun l x => ∀ i < 64, x.getLsbD i = !(s.src h m.expand a l).getLsbD i)
        ∧ (m.var ≠ 1 → Gives (.movi h m d a) h d s fun l x => x = s.src h m.expand a l)
        ∧ (m.var = 1 → Alike h d .zx64 [a, d] s → Ready h [d] [a, d] s → Gives (.movi h m d a) h d s fun l x =>
            sub 32 x 1 = sub 32 (s.src h .zx64 a l) 0 ∧ sub 32 x 0 = sub 32 (s.src h .zx64 d l) 0))
      ∧ (∀ n, Fit h d m.expand [.g n] s → Gives (.movp h d (.g n)) h d s fun _ x => x = s.curG.parentG n.toNat)
      ∧ (∀ n, Fit h d m.expand [.t n] s → Gives (.movp h d (.t n)) h d s fun _ x => x = s.curT.t.getD n.toNat 0)
      ∧ (∀ n, c = .p n ∨ c = .zero → Fit h d m.expand [a, b, c] s →
        Gives (.sel h m d a b c) h d s fun l x =>
          x = if c = .p n ∧ s.curG.laneP n.toNat l = true then s.src h m.expand a l else s.src h m.expand b l)
      ∧ (Fit h d m.expand [a, b] s →
        let y (l : Nat) : W64 := if m.var = 1 then ~~~ s.src h m.expand b l else s.src h m.expand b l
        Gives (.land h m d a b) h d s (fun l x => ∀ i < 64,
          x.getLsbD i = ((s.src h m.expand a l).getLsbD i && (y l).getLsbD i))
        ∧ Gives (.lor h m d a b) h d s (fun l x => ∀ i < 64,
          x.getLsbD i = ((s.src h m.expand a l).getLsbD i || (y l).getLsbD i))
        ∧ Gives (.lxor h m d a b) h d s (fun l x => ∀ i < 64,
          x.getLsbD i = ((s.src h m.expand a l).getLsbD i ^^ (y l).getLsbD i))))
  ∧ (∀ (s : State) (h : Hdr) (m : IntM) (d a b : Spec), m.cc.toNat < 6 → Fit h d m.expand [a, b] s →
      let holds (l j : Nat) : Prop :=
        let x := intVal m s h a l j
        let y := intVal m s h b l j
        match m.cc.toNat with
        | 0 => x = y | 1 => x ≠ y | 2 => x < y | 3 => x ≤ y | 4 => x > y | _ => x ≥ y
      Gives (.icmp h m d a b) h d s fun l x =>
        match d with
        | .p _ => x ≠ 0 ↔ holds l 0
        | _ => ∀ j < perReg (widthOf m.w),
          (holds l j → sub (widthOf m.w) x j = 2 ^ widthOf m.w - 1) ∧ (¬holds l j → sub (widthOf m.w) x j = 0))

/-- R181: shifts as exact multiples and quotients, with one formula for every count; rotations bit by bit.
R182, R183: the field taken out or put in, bit by bit. `p` and `n` are the clamped position and length.
R184: counts of bits, each said by what it counts, and the reversal. -/
def Obligations.ShiftsAndBits : Prop :=
  (∀ (s : State) (h : Hdr) (m : IntM) (d a b : Spec), Fit h d m.expand [a, b] s →
      let w := widthOf m.w
      Gives (.shl h m d a b) h d s
        (fun l x => IntElems m x fun j => intFit m (intVal m s h a l j * 2 ^ intEl m s h b l j))
      ∧ Gives (.shr h m d a b) h d s
        (fun l x => IntElems m x fun j => intEl m s h a l j / 2 ^ intEl m s h b l j)
      ∧ Gives (.sar h m d a b) h d s
        (fun l x => IntElems m x fun j => wrapInt w (asSigned w (intEl m s h a l j) / 2 ^ intEl m s h b l j))
      ∧ Gives (.rot h m d a b) h d s
        (fun l x => IntBits m x fun j i => (intEl m s h a l j).testBit
          (if m.var = 0 then (i + (w - intEl m s h b l j % w)) % w else (i + intEl m s h b l j) % w)))
  ∧ (∀ (s : State) (h : Hdr) (m : IntM) (d a b c e : Spec),
      let w := widthOf m.w
      (Fit h d m.expand [a, b, c] s →
        Gives (.bfe h m d a b c) h d s fun l x => IntBits m x fun j i =>
          let p := min (intEl m s h b l j) w
          let n := min (intEl m s h c l j) w
          let bit (k : Nat) : Bool := if m.sgn then (intEl m s h a l j).testBit (min k (w - 1))
            else (intEl m s h a l j).testBit k
          if n = 0 then false else if i < n then bit (p + i) else m.sgn && bit (p + n - 1))
      ∧ (Fit h d m.expand [a, b, c, e] s →
        Gives (.bfi h m d a b c e) h d s fun l x => IntBits m x fun j i =>
          let p := min (intEl m s h c l j) w
          let n := min (intEl m s h e l j) (w - p)
          if p ≤ i ∧ i < p + n then (intEl m s h b l j).testBit (i - p) else (intEl m s h a l j).testBit i))
  ∧ (∀ (s : State) (h : Hdr) (m : IntM) (d a : Spec), Fit h d m.expand [a] s →
      let w := widthOf m.w
      let k := perReg w
      Gives (.popc h m d a) h d s
        (fun l x => ∀ j < k, sub w x j = ((Finset.range w).filter fun i => (intEl m s h a l j).testBit i = true).card)
      ∧ Gives (.clz h m d a) h d s
        (fun l x => ∀ j < k, sub w x j ≤ w
          ∧ (∀ i, w - sub w x j ≤ i → i < w → (intEl m s h a l j).testBit i = false)
          ∧ (sub w x j < w → (intEl m s h a l j).testBit (w - 1 - sub w x j) = true))
      ∧ Gives (.ctz h m d a) h d s
        (fun l x => ∀ j < k, sub w x j ≤ w
          ∧ (∀ i, i < sub w x j → (intEl m s h a l j).testBit i = false)
          ∧ (sub w x j < w → (intEl m s h a l j).testBit (sub w x j) = true))
      ∧ Gives (.brev h m d a) h d s
        (fun l x => IntBits m x fun j i => (intEl m s h a l j).testBit (w - 1 - i)))

/-! ### Floating point -/

/-- R187, R193, R194, R186: the exact result of each sub-element, rounded once. -/
def Obligations.FloatArithmetic : Prop :=
  ∀ (s : State) (h : Hdr) (m : FltM) (d a b c : Spec),
    (Fit h d m.expand [a, b] s →
      Gives (.fadd h m d a b) h d s
        (fun l x => FltElems m x fun j => m.enc ((fltVal m s h a l j).add m.rnd (fltVal m s h b l j)))
      ∧ Gives (.fsub h m d a b) h d s
        (fun l x => FltElems m x fun j => m.enc ((fltVal m s h a l j).add m.rnd (fltVal m s h b l j).neg))
      ∧ Gives (.fmul h m d a b) h d s
        (fun l x => FltElems m x fun j => m.enc ((fltVal m s h a l j).mul (fltVal m s h b l j)))
      ∧ Gives (.fscl h m d a b) h d s
        (fun l x => FltElems m x fun j =>
          m.enc ((fltVal m s h a l j).scale (asSigned (ftWidth m.ft) (m.el (s.src h m.expand b l) j)))))
    ∧ (Fit h d m.expand [a, b, c] s →
      Gives (.ffma h m d a b c) h d s
        fun l x => FltElems m x fun j =>
          m.enc (((fltVal m s h a l j).mul (fltVal m s h b l j)).add m.rnd (fltVal m s h c l j)))
    ∧ (Fit h d m.expand [a, b] s → Alike h d .rep32 [c] s → Ready h [d] [a, b, c] s →
      Gives (.fdot h m d a b c) h d s fun l x =>
        x.toNat = fp32.encode m.rnd m.sat (Num.sum m.rnd
          (fp32.decode (sub 32 (s.src h .rep32 c l) 0)
            :: (List.range (ftCount m.ft)).map fun j => (fltVal m s h a l j).mul (fltVal m s h b l j))))

/-- R186: the value a sum, a difference in sign, or a product of two finite values stands for is the exact one.
R90: round to nearest gives no worse a value than any other value of the format, for every magnitude up to the
largest finite one, and of two values equally near the one with the even code; the directed modes never pass the exact value.
Beyond the largest finite magnitude the result overflows where its rounding on the unbounded grid does: to the largest finite
value or, non-saturating, to what the mode and the format give.
R91: infinities and NaN.
R84, R92: reading an element and writing it back under any rounding gives the element itself, but for a NaN, which
gives the format's canonical one. -/
def Obligations.FloatFormats : Prop :=
  (∀ (rm : Rm) (s t : Bool) (m n : Nat) (e k : Int),
      ((Num.fin s m e).add rm (.fin t n k)).toRat = (Num.fin s m e).toRat + (Num.fin t n k).toRat
      ∧ ((Num.fin s m e).mul (.fin t n k)).toRat = (Num.fin s m e).toRat * (Num.fin t n k).toRat
      ∧ (Num.fin s m e).neg.toRat = -(Num.fin s m e).toRat
      ∧ ((Num.fin s m e).scale k).toRat = (Num.fin s m e).toRat * (2 : ℚ) ^ k)
  ∧ (∀ (f : Fmt), f ∈ [fp32, fp16, bf16, fpE4M3, fpE5M2, fpE2M1] → ∀ (sat neg : Bool) (m : Nat) (e : Int), m ≠ 0 →
      |(Num.fin neg m e).toRat| ≤ (f.decode f.maxBits).toRat →
      let v := (Num.fin neg m e).toRat
      let r (rm : Rm) : ℚ := (f.decode (f.encode rm sat (.fin neg m e))).toRat
      (∀ y < 2 ^ f.width, (f.decode y).isFin → |r .near - v| ≤ |(f.decode y).toRat - v|
          ∧ (|r .near - v| = |(f.decode y).toRat - v| → (f.decode y).toRat ≠ r .near →
            f.encode .near sat (.fin neg m e) % 2 = 0))
      ∧ (∀ y < 2 ^ f.width, (f.decode y).isFin →
          (r .down ≤ v ∧ ((f.decode y).toRat ≤ v → (f.decode y).toRat ≤ r .down))
          ∧ (v ≤ r .up ∧ (v ≤ (f.decode y).toRat → r .up ≤ (f.decode y).toRat)))
      ∧ |r .toZero| ≤ |v|)
  ∧ (∀ (f : Fmt), f ∈ [fp32, fp16, bf16, fpE4M3, fpE5M2, fpE2M1] → ∀ (sat neg : Bool) (m : Nat) (e : Int),
      let v := |(Num.fin neg m e).toRat|
      let top := (f.decode f.maxBits).toRat
      let half := (top - (f.decode (f.maxBits - 1)).toRat) / 2
      let big := f.sgn neg + f.maxBits
      let inf := if f = fpE4M3 then (if sat then big else f.nan) else f.sgn neg + (2 ^ f.eb - 1) * 2 ^ f.mb
      let lost := if sat ∨ f = fpE2M1 then big else inf
      (top < v →
        f.encode .near sat (.fin neg m e) = (if v < top + half ∨ f = fpE4M3 ∧ v = top + half then big else lost)
        ∧ f.encode .toZero sat (.fin neg m e) = big
        ∧ f.encode .up sat (.fin neg m e) = (if neg then big else lost)
        ∧ f.encode .down sat (.fin neg m e) = if neg then lost else big)
      ∧ ∀ rm, f.encode rm sat (.inf neg) = (if f = fpE2M1 then big else inf)
        ∧ f.encode rm sat .nan = if f = fpE2M1 then 0 else f.nan)
  ∧ (∀ (f : Fmt), f ∈ [fp32, fp16, bf16, fpE4M3, fpE5M2, fpE2M1] → ∀ (rm : Rm) (x : Nat), x < 2 ^ f.width →
      f.encode rm false (f.decode x) = if f.decode x = .nan then f.nan else x)

/-- R188-R192: minimum and maximum by the NaN rule of the variant, with -0 below +0; sign operations bit by bit; classes;
rounding to an integral value. -/
def Obligations.FloatSelectAndSign : Prop :=
  ∀ (s : State) (h : Hdr) (m : FltM) (d a b : Spec),
    let w := ftWidth m.ft
    (Fit h d m.expand [a] s →
      Gives (.fneg h m d a) h d s (fun l x => (∀ j < ftCount m.ft, ∀ i < w,
        (sub w x j).testBit i = ((sub w (s.src h m.expand a l) j).testBit i ^^ decide (i = w - 1)))
        ∧ (m.ft = 0 → sub 32 x 1 = 0))
      ∧ Gives (.fabs h m d a) h d s (fun l x => (∀ j < ftCount m.ft, ∀ i < w,
        (sub w x j).testBit i = ((sub w (s.src h m.expand a l) j).testBit i && decide (i ≠ w - 1)))
        ∧ (m.ft = 0 → sub 32 x 1 = 0))
      ∧ Gives (.frnd h m d a) h d s (fun l x => FltElems m x fun j => m.fmt.rint m.rnd (fltVal m s h a l j)))
    ∧ (Fit h d m.expand [a, b] s →
      let pick (bigger : Bool) (l j : Nat) : Nat :=
        let p := fltVal m s h a l j
        let q := fltVal m s h b l j
        if p = .nan ∧ q = .nan ∨ m.rm = 1 ∧ (p = .nan ∨ q = .nan) then m.fmt.nan
        else if p = .nan then m.el (s.src h m.expand b l) j
        else if q = .nan then m.el (s.src h m.expand a l) j
        else if (if bigger then p.below q else q.below p) then m.el (s.src h m.expand b l) j
        else m.el (s.src h m.expand a l) j
      Gives (.fmin h m d a b) h d s (fun l x => FltElems m x fun j => pick false l j)
      ∧ Gives (.fmax h m d a b) h d s (fun l x => FltElems m x fun j => pick true l j)
      ∧ (m.rm.toNat < 7 →
        let holds (l j : Nat) : Prop :=
          let p := fltVal m s h a l j
          let q := fltVal m s h b l j
          if p = .nan ∨ q = .nan then m.rm = 1 ∨ m.rm = 6
          else match m.rm.toNat with
            | 0 => p.eq q = true | 1 => p.eq q = false | 2 => p.lt q = true | 3 => p.lt q = true ∨ p.eq q = true
            | 4 => q.lt p = true | 5 => q.lt p = true ∨ p.eq q = true | _ => False
        Gives (.fcmp h m d a b) h d s fun l x =>
          match d with
          | .p _ => x ≠ 0 ↔ holds l 0
          | _ => FltMask m x (holds l))
      ∧ Gives (.fclass h m d a b) h d s (fun l x =>
          match d with
          | .p _ => x ≠ 0 ↔ ∃ k < 9, IsClass (fltVal m s h a l 0) m.fmt k
              ∧ (m.el (s.src h m.expand b l) 0).testBit k = true
          | _ => ∀ j < ftCount m.ft, ∃ k < 9, IsClass (fltVal m s h a l j) m.fmt k ∧ sub w x j = 2 ^ k))

/-- R208: each special function of every sub-element, rounded once into the operand's format.
R209: the special operands of the table, and the largest finite value in place of an infinity under `.sat`.
The model's own choice in it: log entry 62. -/
def Obligations.SpecialFunctions : Prop :=
  (∀ (s : State) (h : Hdr) (m : FltM) (d a : Spec), Fit h d m.expand [a] s →
      Gives (.rcp h m d a) h d s (fun l x => FltElems m x fun j => m.fmt.rcp m.rnd m.sat (fltVal m s h a l j))
      ∧ Gives (.rsq h m d a) h d s (fun l x => FltElems m x fun j => m.fmt.rsq m.rnd m.sat (fltVal m s h a l j))
      ∧ Gives (.sqrt h m d a) h d s (fun l x => FltElems m x fun j => m.fmt.sqrt m.rnd m.sat (fltVal m s h a l j))
      ∧ Gives (.ex2 h m d a) h d s (fun l x => FltElems m x fun j => m.fmt.ex2 m.rnd m.sat (fltVal m s h a l j))
      ∧ Gives (.lg2 h m d a) h d s (fun l x => FltElems m x fun j => m.fmt.lg2 m.rnd m.sat (fltVal m s h a l j))
      ∧ Gives (.sinr h m d a) h d s
        (fun l x => FltElems m x fun j => m.fmt.trig m.rnd m.sat false (fltVal m s h a l j))
      ∧ Gives (.cosr h m d a) h d s
        (fun l x => FltElems m x fun j => m.fmt.trig m.rnd m.sat true (fltVal m s h a l j)))
  ∧ (∀ (f : Fmt), f ∈ [fp32, fp16, bf16] → ∀ (rm : Rm) (sat : Bool),
      let top (neg : Bool) : Nat := f.sgn neg + if sat then f.maxBits else (2 ^ f.eb - 1) * 2 ^ f.mb
      let one : Nat := (2 ^ (f.eb - 1) - 1) * 2 ^ f.mb
      (∀ g ∈ [f.rcp rm sat, f.rsq rm sat, f.sqrt rm sat, f.ex2 rm sat, f.lg2 rm sat, f.trig rm sat false,
          f.trig rm sat true], g .nan = f.nan)
      ∧ (∀ s e, f.rcp rm sat (.inf s) = f.sgn s ∧ f.rcp rm sat (.fin s 0 e) = top s)
      ∧ (∀ s e, f.rsq rm sat (.fin s 0 e) = top s ∧ f.sqrt rm sat (.fin s 0 e) = f.sgn s)
      ∧ (∀ m e, m ≠ 0 → f.rsq rm sat (.fin true m e) = f.nan ∧ f.sqrt rm sat (.fin true m e) = f.nan
          ∧ f.lg2 rm sat (.fin true m e) = f.nan)
      ∧ f.rsq rm sat (.inf true) = f.nan ∧ f.rsq rm sat (.inf false) = 0
      ∧ f.sqrt rm sat (.inf true) = f.nan ∧ f.sqrt rm sat (.inf false) = top false
      ∧ f.ex2 rm sat (.inf true) = 0 ∧ f.ex2 rm sat (.inf false) = top false
      ∧ (∀ s e, f.ex2 rm sat (.fin s 0 e) = one ∧ f.lg2 rm sat (.fin s 0 e) = top true)
      ∧ f.lg2 rm sat (.inf true) = f.nan ∧ f.lg2 rm sat (.inf false) = top false ∧ f.lg2 rm sat .one = 0
      ∧ (∀ s, f.trig rm sat false (.inf s) = f.nan ∧ f.trig rm sat true (.inf s) = f.nan)
      ∧ (∀ s m, f.trig rm sat false (.fin s m 0) = f.sgn s ∧ f.trig rm sat false (.fin s m (-1)) = f.sgn s)
      ∧ ∀ s, f.trig rm sat true (.fin s 0 0) = one ∧ f.trig rm sat true (.fin s 1 (-2)) = 0)

/-- R214-R216: the elements of a part converted at their exact value; a narrowing conversion keeps the other elements of D.
The model's own choice in it: log entry 15. -/
def Obligations.Conversions : Prop :=
  ∀ (s : State) (h : Hdr) (m : CvtM) (d a b : Spec),
    Ready h [d] [a, b, d] s → Room h d s → Alike h d .zx64 [d] s → Alike h d (cvtExpand m.sty) [a] s →
    Alike h d .sx64 [b] s → m.part.toNat < max (cvtWidth m.sty) (cvtWidth m.dty) / min (cvtWidth m.sty) (cvtWidth m.dty) →
    let ws := cvtWidth m.sty
    let wd := cvtWidth m.dty
    let n := 64 / max ws wd
    let p := m.part.toNat * n
    let el (l i : Nat) : Nat := sub ws (s.src h (cvtExpand m.sty) a l) i
    let ok (conv : Nat → Nat → Nat) (l : Nat) (x : W64) : Prop :=
      if ws < wd then ∀ i < n, sub wd x i = conv l (el l (p + i)) % 2 ^ wd
      else ∀ i < 64 / wd, sub wd x i =
        if p ≤ i ∧ i < p + n then conv l (el l (i - p)) % 2 ^ wd else sub wd (s.src h .zx64 d l) i
    Gives (.cvt h m d a b) h d s (ok fun l y =>
      let e := max (-149) (min 127 (s.src h .sx64 b l).toInt)
      cvtEncode m.dty m.sat (Rm.ofBits m.rm.toNat) e (cvtValue m.sty e y))
    ∧ Gives (.cvti h m d a b) h d s (ok fun l y =>
      cvtEncode m.dty m.sat (Rm.ofBits m.rm.toNat) 0 ((cvtValue m.sty 0 y).scale (s.src h .sx64 b l).toInt))

/-! ### Statistics -/

/-- R210-R212: a Welford triple after one sample, or after another triple is combined with it, every step rounded to
nearest in FP32. -/
def Obligations.WelfordTriples : Prop :=
  ∀ (s : State) (h : Hdr) (d a : Spec),
    let d2 := Spec.second d
    let n (l : Nat) : Nat := sub 32 (s.src h .zx64 d l) 0
    let mean (l : Nat) : Nat := sub 32 (s.src h .zx64 d l) 1
    let m2 (l : Nat) : Nat := sub 32 (s.src h .zx64 d2 l) 0
    let triple (x y : W64) (n' mean' m2' : Nat) : Prop :=
      sub 32 x 0 = n' ∧ sub 32 x 1 = mean' ∧ sub 32 y 0 = m2' ∧ sub 32 y 1 = 0
    (Ready h [d, d2] [d, d2, a] s → RoomPair h d s → Alike h d .rep32 [a] s →
      GivesPair (.welf h d a) h d d2 s fun l x y =>
        let v := sub 32 (s.src h .rep32 a l) 0
        if n l = 0 then
          (if fp32.decode v = .nan then triple x y 1 fp32.nan fp32.nan else triple x y 1 v 0)
        else
          let n' := min (n l + 1) (2 ^ 32 - 1)
          let δ := rneSub v (mean l)
          let mean' := rneAdd (mean l) (fp32.div .near false (fp32.decode δ) (Num.ofInt n' 0 false))
          triple x y n' mean' (rneAdd (m2 l) (rneMul δ (rneSub v mean'))))
    ∧ (let a2 := Spec.second a
      Ready h [d, d2] [d, d2, a, a2] s → RoomPair h d s → (∀ k, a = .v k → RoomPair h a s) →
      Alike h d .zx64 [a, a2] s →
      GivesPair (.wmerge h d a) h d d2 s fun l x y =>
        let nb := sub 32 (s.src h .zx64 a l) 0
        let meanb := sub 32 (s.src h .zx64 a l) 1
        let m2b := sub 32 (s.src h .zx64 a2 l) 0
        let quot (p : Nat) : Nat := fp32.div .near false (Num.ofInt p 0 false) (Num.ofInt (n l + nb : Nat) 0 false)
        if nb = 0 then x = s.src h .zx64 d l ∧ y = s.src h .zx64 d2 l
        else if n l = 0 then triple x y nb meanb m2b
        else
          let δ := rneSub meanb (mean l)
          triple x y (min (n l + nb) (2 ^ 32 - 1)) (rneAdd (mean l) (rneMul δ (quot nb)))
            (rneAdd (rneAdd (m2 l) m2b) (rneMul (rneMul δ δ) (quot (n l * nb)))))

/-- R222, R220: the running maximum over every sub-element of the active lanes: NaN if the view is NaN or, under
`.nanprop`, any sub-element is; else the larger of the view and the largest magnitude.
R220: QUANT's running maximum, a `g` or a `t` name, is updated once, when the access has finished, in the slices that issued it;
the access is then over. Other accesses are under way.
The model's own choice in it: log entry 55. -/
def Obligations.RunningMaximum : Prop :=
  (∀ (s : State) (h : Hdr) (ft : BitVec 2) (nanprop : Bool) (d a : Spec), Ready h [d] [d, a] s → Room h d s →
      (∃ n, d = .g n) ∨ (∃ n, d = .t n) →
      let el (l j : Nat) : Machine.Num := (ftFmt ft).decode (sub (ftWidth ft) (s.src h (ftExpand ft) a l) j)
      ∃ top : Machine.Num,
        (if nanprop = true ∧ ∃ l ∈ s.foldLanes h d, ∃ j < ftCount ft, el l j = .nan then top = .nan
        else top ≠ .nan
          ∧ (∀ l ∈ s.foldLanes h d, ∀ j < ftCount ft, el l j ≠ .nan → top.lt (el l j).abs = false)
          ∧ (top = .zero ∨ ∃ l ∈ s.foldLanes h d, ∃ j < ftCount ft, top = (el l j).abs))
        ∧ Gives (.amax h ft nanprop d a) h d s fun l x =>
          let old := fp32.decode (sub 32 (s.src h .zx64 d l) 0)
          x.toNat = if old = .nan ∨ top = .nan then fp32.nan
            else if old.below top then fp32.encode .near false top else sub 32 (s.src h .zx64 d l) 0)
  ∧ (∀ (s : State) (k : Nat) (a : Access) (m : Machine.Num),
      s.accs.get? k = some a → (∀ p ∈ s.accs, p.1 ≠ k → ∀ l ∈ p.2.lines, l.status = .sent ∨ l.status = .done) →
      a.kind = .quant → a.info.dest ≠ .zero → a.finished = true → a.failed = none → a.log = none →
      a.acq = none → a.quantMax = some m → (s.group a.gid).ended = false → s.groups.get? a.gid ≠ none →
      let s1 := { (s.modGroup a.gid fun g => { g with level := a.level }) with cur := ⟨a.gid, a.slices, s.cur.word⟩ }
      let lanes := (List.range 32).filter fun l => a.info.aux.testBit l && s1.curG.sliceLive (l / 4)
      let old (l : Nat) : W64 := s1.src ⟨.b64, ⟨7, 0, 0, false⟩, 0, .none, 0⟩ .zx64 a.info.dest l
      (∃ n, a.info.dest = .g n ∧ (s1.curG.shadowed n.toNat = true ∨ s1.curG.gc.length + lanes.length ≤ 16)
        ∧ (lanes.map (· / 4)).Nodup)
      ∨ (∃ n, a.info.dest = .t n ∧ s1.curG.whole a.slices = true ∧ lanes.map (· / 4) = s1.curG.liveSlices
        ∧ s.teams.get? s1.curG.team ≠ none
        ∧ if s1.curT.groups.length = 1 then s1.curT.tc.get? (tKey n.toNat s1.curG.idx) = none
          else s1.curT.tc.get? (tKey n.toNat s1.curG.idx) ≠ none ∨ s1.curT.tc.length < 32) →
      ∃ t f, exec (.quantRetire k) s = .next t
        ∧ (∀ j, t.accs.get? j = if j = k then none
          else (s.accs.get? j).map fun b => { b with gate := b.gate.filter (· != k) })
        ∧ Wrote a.info.dest lanes f s1
            { (t.modGroup a.gid fun g => { g with level := a.level }) with cur := s1.cur }
        ∧ (∀ l ∈ lanes, (f l).toNat =
            if fp32.decode (sub 32 (old l) 0) = .nan ∨ m = .nan then fp32.nan
            else if (fp32.decode (sub 32 (old l) 0)).below m then fp32.encode .near false m else sub 32 (old l) 0)
        ∧ (t.group a.gid).level = (s.group a.gid).level ∧ t.mem = s.mem ∧ t.tiles = s.tiles ∧ t.net = s.net)

/-! ### Cross-lane -/

/-- R199, R206: elements gathered across the reachable lanes by index, and rearranged within a lane by a selector.
R200: every element of `D` that a reachable sender names takes the value of the highest one, whether its lane is active
or not; the others stay; `C` tells the lanes of which an element was dropped or lost.
R201: one element read from across the lanes, or written into one element of `D` and no other. -/
def Obligations.CrossLaneMoves : Prop :=
  (∀ (s : State) (h : Hdr) (w : BitVec 2) (z : Bool) (mode : BitVec 2) (d a b c : Spec) (n : BitVec 8),
      let e := wExpand w
      let wd := widthOf w
      let k := perReg wd
      (Fit h (.v n) e [a, b] s →
        Gives (.shfl h w z mode (.v n) a b) h (.v n) s fun l x => Elems wd k x fun i =>
          let j := k * l + i
          let q := sub wd (s.src h e b l) i
          let src (m : Nat) (below : Prop) [Decidable below] : Nat :=
            open Classical in
            if ¬below ∧ InReach s wd m then laneEl s h e a wd m else if z then 0 else laneEl s h e a wd j
          match mode.toNat with
          | 0 => src q False
          | 1 => src (j - q) (j < q)
          | 2 => src (j + q) False
          | _ => src (j ^^^ q) False)
      ∧ (Fit h d e [a, b] s → Alike h d .zx64 [c] s → Ready h [d] [a, b, c] s →
        Gives (.perm h w d a b c) h d s fun l x => Elems wd k x fun i =>
          let q := field (s.src h .zx64 c l) (4 * i) 4
          if q < k then sub wd (s.src h e a l) q
          else if q < 2 * k then sub wd (s.src h e b l) (q - k) else 0))
  ∧ (∀ (s : State) (h : Hdr) (w : BitVec 2) (n : BitVec 8) (a b c : Spec),
      (c = .zero ∨ ∃ q : BitVec 3, q ≠ 7 ∧ c = .p q) → Ready h [.v n] [a, b, c] s →
      let e := wExpand w
      let wd := widthOf w
      let k := perReg wd
      let sends (j m : Nat) : Prop :=
        j / k ∈ s.actLanes h ∧ sub wd (s.src h e b (j / k)) (j % k) = m ∧ InReach s wd m
      ∃ t, exec (.push h w (.v n) a b c) s = .next t
        ∧ (∀ m, m < 32 * k →
          (∀ j, sends j m → (∀ i, sends i m → i ≤ j) →
            sub wd (t.curG.laneV n.toNat (m / k)) (m % k) = laneEl s h e a wd j)
          ∧ ((∀ j, ¬sends j m) →
            sub wd (t.curG.laneV n.toNat (m / k)) (m % k) = sub wd (s.curG.laneV n.toNat (m / k)) (m % k)))
        ∧ (∀ r l, r ≠ n.toNat → t.curG.laneV r l = s.curG.laneV r l)
        ∧ (∀ q : BitVec 3, c = .p q → ∀ l ∈ s.actLanes h,
          (t.curG.laneP q.toNat l = true ↔
            ∃ i < k, ∀ m, sends (k * l + i) m → ∃ j, k * l + i < j ∧ sends j m))
        ∧ (∀ r l, l < 32 → (c = .zero ∨ l ∉ s.actLanes h ∨ ∃ q : BitVec 3, c = .p q ∧ r ≠ q.toNat) →
          t.curG.laneP r l = s.curG.laneP r l)
        ∧ WentOn h.len.bytes s t
        ∧ t = { s with groups := t.groups, bad := t.bad } ∧ (∀ i, i ≠ s.cur.gid → t.groups.get? i = s.groups.get? i)
        ∧ (∀ x ∈ s.bad, x ≠ .reg s.cur.gid (.v n) → x ≠ .reg s.cur.gid c → x ∈ t.bad) ∧ (∀ x ∈ t.bad, x ∈ s.bad)
        ∧ t.curG = { s.curG with v := t.curG.v, p := t.curG.p, slices := t.curG.slices, gangs := t.curG.gangs })
  ∧ (∀ (s : State) (h : Hdr) (w : BitVec 2) (sgn : Bool) (d b a : Spec) (n q : BitVec 8),
      let e := wExpand w
      let wd := widthOf w
      let k := perReg wd
      (Fit h d e [b] s → Ready h [d] [.v q, b] s →
        Gives (.readl h w sgn d (.v q) b) h d s fun l x =>
          let lead := match d with
            | .v _ => (s.actLanes h).headD 0
            | _ => l
          let m := sub wd (s.src h e b lead) 0
          (InReach s wd m → x = if sgn then BitVec.ofInt 64 (asSigned wd (laneEl s h e (.v q) wd m))
            else BitVec.ofNat 64 (laneEl s h e (.v q) wd m))
          ∧ (¬InReach s wd m → x = 0))
      ∧ (Ready h [.v n] [a, b] s →
        ∃ t, exec (.writel h w (.v n) a b) s = .next t
          ∧ (∀ lead, (s.actLanes h).head? = some lead → ∀ m, m < 32 * k →
            sub wd (t.curG.laneV n.toNat (m / k)) (m % k) =
              open Classical in
              if m = sub wd (s.src h e b lead) 0 ∧ InReach s wd m then sub wd (s.src h e a lead) 0
              else sub wd (s.curG.laneV n.toNat (m / k)) (m % k))
          ∧ (s.actLanes h = [] → ∀ l, t.curG.laneV n.toNat l = s.curG.laneV n.toNat l)
          ∧ (∀ r l, r ≠ n.toNat → t.curG.laneV r l = s.curG.laneV r l) ∧ WentOn h.len.bytes s t
          ∧ t = { s with groups := t.groups } ∧ (∀ i, i ≠ s.cur.gid → t.groups.get? i = s.groups.get? i)
          ∧ t.curG = { s.curG with v := t.curG.v, slices := t.curG.slices, gangs := t.curG.gangs }))

/-- R202: all, any, uniform and ballot votes over the active lanes, one result for every lane.
R203-R205: integer reductions do not depend on order; floating-point ones run in the fixed tree of five levels; a scan
combines the active lanes one at a time, ascending. -/
def Obligations.VotesReductionsScans : Prop :=
  (∀ (s : State) (h : Hdr) (mode : BitVec 2) (d a : Spec), Ready h [d] [a] s → Room h d s →
      (mode = 3 → ∀ n, d ≠ .p n) →
      let on := s.foldLanes h d
      let v (l : Nat) : W64 := s.src h .zx64 a l
      Gives (.vote h mode d a) h d s fun _ x =>
        match mode.toNat with
        | 0 => x = if ∀ l ∈ on, v l ≠ 0 then 1 else 0
        | 1 => x = if ∃ l ∈ on, v l ≠ 0 then 1 else 0
        | 2 => x = if ∀ l ∈ on, ∀ k ∈ on, v l = v k then 1 else 0
        | _ => ∀ i < 64, x.getLsbD i = decide (i ∈ on ∧ v i ≠ 0))
  ∧ (∀ (s : State) (h : Hdr) (m : RedM) (d a : Spec) (n : BitVec 8),
      let el (l i : Nat) : Nat := sub m.width (s.src h m.expand a l) i
      (Ready h [d] [a] s → Room h d s →
        Gives (.redl h m d a) h d s fun _ x => ∀ i < m.count, sub m.width x i =
          if m.op.toNat < 8 then (((s.foldLanes h d).map fun l => el l i).foldl m.comb m.ident) % 2 ^ m.width
          else m.canon ((treeAt m.comb (fun l => if l ∈ s.foldLanes h d then some (el l i) else none) 5 0).getD 0)
            % 2 ^ m.width)
      ∧ (Fit h (.v n) m.expand [a] s →
        Gives (.scanl h m (.v n) a) h (.v n) s fun l x => ∀ i < m.count, sub m.width x i =
          let before := (s.actLanes h).filter fun k => if m.excl then k < l else k ≤ l
          m.canon (match before with
            | [] => m.ident
            | k :: r => (r.map fun q => el q i).foldl m.comb (el k i)) % 2 ^ m.width))

/-! ### Structured control and transfers -/

/-- R262: IF, ELSE and ENDIF in every slice of the sub-gang.
R263: LOOP, ENDLOOP, BREAK and CONT in every slice of the sub-gang; `lp` is the innermost LOOP entry, `ifs` the IF
entries above it.
The model's own choice in it: log entry 16. -/
def Obligations.StructuredControl : Prop :=
  (∀ (s : State) (h : Hdr) (neg els : Bool) (n : BitVec 3),
      (Ready h [] [.p n, .imm] s → EachSlice s (fun _ x => x.masks.length < 16) →
        Steers (.ifOp h neg els (.p n) .imm) s fun i x =>
          let t := x.am &&& x.live &&& condLanes s n neg i
          let r := x.am &&& x.live &&& ~~~ t
          if t ≠ 0 then { x with am := t, masks := ⟨false, false, x.am, r⟩ :: x.masks, pc := x.pc + 16 }
          else if els then { x with am := r, masks := ⟨false, true, x.am, r⟩ :: x.masks, pc := branchTarget h x }
          else { x with pc := branchTarget h x })
      ∧ (∀ (e : Nat → MaskEntry) (r : Nat → List MaskEntry),
        EachSlice s (fun i x => x.masks = e i :: r i ∧ (e i).loop = false) →
        (Ready h [] [.imm] s → (∀ i, s.cur.slices.getLsbD i = true → (e i).els = false) →
          Steers (.elseOp h .imm) s fun i x =>
            if (e i).aux &&& x.live ≠ 0 then
              { x with am := (e i).aux, masks := { e i with els := true } :: r i, pc := x.pc + 16 }
            else { x with am := (e i).outer &&& x.live, masks := r i, pc := branchTarget h x })
        ∧ (Ready h [] [] s → Steers (.endif h) s fun i x =>
            { x with am := (e i).outer &&& x.live, masks := r i, pc := x.pc + BitVec.ofNat 56 h.len.bytes })))
  ∧ (∀ (s : State) (h : Hdr) (neg : Bool) (n : BitVec 3),
      (Ready h [] [.imm] s → EachSlice s (fun _ x => x.masks.length < 16) →
        Steers (.loop h .imm) s fun _ x =>
          if x.am &&& x.live = 0 then { x with pc := branchTarget h x }
          else { x with masks := ⟨true, false, x.am, 0⟩ :: x.masks, pc := x.pc + 16 })
      ∧ (∀ (lp : Nat → MaskEntry) (r ifs : Nat → List MaskEntry),
        (Ready h [] [.imm] s → EachSlice s (fun i x => x.masks = lp i :: r i ∧ (lp i).loop = true) →
          Steers (.endloop h .imm) s fun i x =>
            let am := (x.am ||| (lp i).aux) &&& x.live
            if am ≠ 0 then { x with am := am, masks := { lp i with aux := 0 } :: r i, pc := branchTarget h x }
            else { x with am := (lp i).outer &&& x.live, masks := r i, pc := x.pc + 16 })
        ∧ (Ready h [] [.p n, .imm] s → EachSlice s (fun i x => x.masks = ifs i ++ lp i :: r i
            ∧ (∀ e ∈ ifs i, e.loop = false) ∧ (lp i).loop = true) →
          let b (i : Nat) (x : Slice) : BitVec 4 := x.am &&& x.live &&& condLanes s n neg i
          let am (i : Nat) (x : Slice) : BitVec 4 := x.am &&& ~~~ b i x
          let ifs' (i : Nat) (x : Slice) : List MaskEntry :=
            (ifs i).map fun e => { e with outer := e.outer &&& ~~~ b i x, aux := e.aux &&& ~~~ b i x }
          let w (i : Nat) (x : Slice) : BitVec 4 := ((ifs' i x).getLast?.map fun e => e.outer &&& x.live).getD 0
          Steers (.brk h neg (.p n) .imm) s (fun i x =>
            if am i x ≠ 0 ∨ w i x ≠ 0 then { x with am := am i x, masks := ifs' i x ++ lp i :: r i, pc := x.pc + 16 }
            else if (lp i).aux ≠ 0 then { x with am := am i x, masks := lp i :: r i, pc := branchTarget h x - 16 }
            else { x with am := (lp i).outer &&& x.live, masks := r i, pc := branchTarget h x })
          ∧ Steers (.cont h neg (.p n) .imm) s (fun i x =>
            let lp' : MaskEntry := { lp i with aux := (lp i).aux ||| b i x }
            if am i x ≠ 0 ∨ w i x ≠ 0 then { x with am := am i x, masks := ifs' i x ++ lp' :: r i, pc := x.pc + 16 }
            else { x with am := am i x, masks := lp' :: r i, pc := branchTarget h x }))))

/-- R266: JMP, CALL and RET where the guards of each slice agree.
R268, R290: EXIT ends the active lanes whose guard is true, in every slice; no other lane ends; the group ends with its last
lane, and gives up its slot when only napping sub-gangs are left. No rejoin is pending.
The model's own choice in it: log entry 16. -/
def Obligations.TransfersAndExit : Prop :=
  (∀ (s : State) (h : Hdr),
      EachSlice s (fun i x => guardLanes s h i &&& (x.am &&& x.live) = 0
        ∨ guardLanes s h i &&& (x.am &&& x.live) = x.am &&& x.live) →
      let takes (i : Nat) (x : Slice) : Prop := guardLanes s h i &&& (x.am &&& x.live) ≠ 0
      let past (x : Slice) : Slice := { x with pc := x.pc + BitVec.ofNat 56 h.len.bytes }
      open Classical in
      (Ready h [] [.imm] s →
        Steers (.jmp h .imm) s (fun i x => if takes i x then { x with pc := branchTarget h x } else past x)
        ∧ (EachSlice s (fun i x => takes i x → x.calls.length < 8) →
          Steers (.call h .imm) s fun i x =>
            if takes i x then { x with calls := ⟨x.masks.length, x.pc + 16⟩ :: x.calls, pc := branchTarget h x } else past x))
      ∧ (Ready h [] [] s → ∀ (c : Nat → CallEntry) (r : Nat → List CallEntry),
        EachSlice s (fun i x => takes i x → x.calls = c i :: r i ∧ (c i).depth = x.masks.length) →
        Steers (.ret h) s fun i x => if takes i x then { x with pc := (c i).retpc, calls := r i } else past x))
  ∧ (∀ (s : State) (h : Hdr), Ready h [] [] s → Issuing s → (∀ x ∈ s.curG.gangs, ∀ op, x.wait ≠ .rejoin op) →
      let ends (i : Nat) : BitVec 4 :=
        if s.cur.slices.getLsbD i = true then
          guardLanes s h i &&& ((s.curG.slice i).am &&& (s.curG.slice i).live) else 0
      ∃ t, exec (.exit h) s = .next t
        ∧ (∀ i, (t.group s.cur.gid |>.slice i).live = (s.curG.slice i).live &&& ~~~ ends i)
        ∧ ((∃ i, (s.curG.slice i).live &&& ~~~ ends i ≠ 0) →
          (let leaves : Prop := s.curG.level ≠ .m ∧ (∃ n, s.curG.place = .slot n)
              ∧ ∀ x ∈ t.curG.gangs, ∃ c n, x.wait = .nap c n;
            (leaves → LeftSlot s.cur.gid .pool s t)
            ∧ (¬leaves → t = { s with groups := t.groups } ∧ t.curG.place = s.curG.place ∧ t.curG.age = s.curG.age))
          ∧ t = { s with groups := t.groups, subs := t.subs, nextId := t.nextId }
          ∧ (∀ i, i ≠ s.cur.gid → t.groups.get? i = s.groups.get? i)
          ∧ t.curG = { s.curG with
              slices := t.curG.slices, gangs := t.curG.gangs, gc := t.curG.gc, place := t.curG.place, age := t.curG.age }
          ∧ Parted s t
          ∧ (∀ i n, i < 8 → t.curG.gc.get? (gKey n i) =
              if (s.curG.slice i).live &&& ~~~ ends i = 0 then none else s.curG.gc.get? (gKey n i))
          ∧ ∀ i, (s.curG.slice i).live &&& ~~~ ends i ≠ 0 → t.curG.slice i =
            if s.cur.slices.getLsbD i = true then
              { s.curG.slice i with
                am := (s.curG.slice i).am &&& ~~~ ends i, live := (s.curG.slice i).live &&& ~~~ ends i
                pc := (s.curG.slice i).pc + BitVec.ofNat 56 h.len.bytes }
            else s.curG.slice i)
        ∧ ((∀ i, (s.curG.slice i).live &&& ~~~ ends i = 0) → (t.group s.cur.gid).ended = true))

/-- R264, R266: a stack that cannot take the step, or guards that disagree within a slice, trap before any slice changes;
TINFO names the kind and the lowest such slice. Among them are a ninth CALL entry, and a RET with no entry or with one of another
mask-stack depth.
R17, R268: slices that all wait at a rejoin, but not at one address, take GANG_MISMATCH, whether the last of them arrives at
REGANG or at MERGE.S or the last that did not wait there ends in EXIT; the lowest slice's address and the slices that wait there
are reported.
The model's own choice in it: log entry 18. -/
def Obligations.ControlTraps : Prop :=
  (∀ (s : State) (h : Hdr) (neg els : Bool) (n : BitVec 3) (k : Nat), MayTrap s → s.cur.slices.getLsbD k = true →
      let pc := s.curG.pcOf s.cur.slices
      let lowest (bad : Nat → Slice → Prop) : Prop :=
        bad k (s.curG.slice k) ∧ ∀ i, i < k → s.cur.slices.getLsbD i = true → ¬bad i (s.curG.slice i)
      let code (c : Nat) : W64 := BitVec.ofNat 64 (c + 4 * k)
      let takes (i : Nat) : Prop := guardLanes s h i &&& ((s.curG.slice i).am &&& (s.curG.slice i).live) ≠ 0
      let mixed (i : Nat) : Prop := takes i ∧ guardLanes s h i &&& ((s.curG.slice i).am &&& (s.curG.slice i).live) ≠
        (s.curG.slice i).am &&& (s.curG.slice i).live
      let agreed : Prop := ∀ i, s.cur.slices.getLsbD i = true → ¬mixed i
      (Ready h [] [.p n, .imm] s →
        (lowest (fun _ x => 16 ≤ x.masks.length) → Traps (.ifOp h neg els (.p n) .imm) s .stackOvf pc (code 0))
        ∧ (lowest (fun _ x => ∀ e ∈ x.masks, e.loop = false) →
          Traps (.brk h neg (.p n) .imm) s .stackOvf pc (code 2)
          ∧ Traps (.cont h neg (.p n) .imm) s .stackOvf pc (code 2)))
      ∧ (Ready h [] [.imm] s →
        (lowest (fun _ x => 16 ≤ x.masks.length) → Traps (.loop h .imm) s .stackOvf pc (code 0))
        ∧ (lowest (fun _ x => ∀ e r, x.masks = e :: r → e.loop = true ∨ e.els = true) →
          Traps (.elseOp h .imm) s .stackOvf pc (code 2))
        ∧ (lowest (fun _ x => ∀ e r, x.masks = e :: r → e.loop = false) →
          Traps (.endloop h .imm) s .stackOvf pc (code 2))
        ∧ (lowest (fun i _ => mixed i) →
          let info : W64 := BitVec.ofNat 64
            (2 ^ 63 + 16 * k + (guardLanes s h k &&& ((s.curG.slice k).am &&& (s.curG.slice k).live)).toNat)
          Traps (.jmp h .imm) s .gangMismatch pc info ∧ Traps (.call h .imm) s .gangMismatch pc info)
        ∧ (agreed → lowest (fun i x => takes i ∧ 8 ≤ x.calls.length) → Traps (.call h .imm) s .stackOvf pc (code 1)))
      ∧ (Ready h [] [] s →
        (lowest (fun _ x => ∀ e r, x.masks = e :: r → e.loop = true) → Traps (.endif h) s .stackOvf pc (code 2))
        ∧ (lowest (fun i _ => mixed i) → Traps (.ret h) s .gangMismatch pc (BitVec.ofNat 64
          (2 ^ 63 + 16 * k + (guardLanes s h k &&& ((s.curG.slice k).am &&& (s.curG.slice k).live)).toNat)))
        ∧ (agreed → lowest (fun i x => takes i ∧ ∀ c r, x.calls = c :: r → c.depth ≠ x.masks.length) →
          Traps (.ret h) s .stackOvf pc (code (if (s.curG.slice k).calls = [] then 3 else 2)))))
  ∧ (∀ (s : State) (h : Hdr) (m : MergeM) (n : BitVec 7) (a : Spec) (k : Nat), Issuing s → s.curG.level = .u →
      let mismatch (i : Instr) (waiting : List Nat) (stays : Nat → Prop) : Prop :=
        let here (j : Nat) : Prop := j ∈ waiting ∧ (s.curG.slice j).pc = (s.curG.slice k).pc
        ∃ t, exec i s = .next t
          ∧ t = { s with groups := t.groups } ∧ (∀ i, i ≠ s.cur.gid → t.groups.get? i = s.groups.get? i)
          ∧ t.curG.level = .s ∧ t.curG.tcause = BitVec.ofNat 64 0x11
          ∧ t.curG.tpc = (s.curG.slice k).pc.zeroExtend 64
          ∧ (∀ j, t.curG.tinfo.getLsbD j = open Classical in decide (here j))
          ∧ field t.curG.tstate 32 8 = t.curG.tinfo.toNat
          ∧ (∀ j, here j → (t.curG.slice j).pc = (s.tvecOf s.curG).truncate 56 ∧ (t.curG.slice j).am = (s.curG.slice j).live)
          ∧ ∀ j, stays j → ¬here j → t.curG.slice j = s.curG.slice j
      let apart (waiting : List Nat) : Prop :=
        waiting.head? = some k ∧ ∃ i ∈ waiting, (s.curG.slice i).pc ≠ (s.curG.slice k).pc
      (∀ i, i = .regang h ∧ Ready h [] [] s ∨ i = .mergeS h m (.g n) a ∧ Ready h [.g n] [.g n, a] s →
        (∀ j ∈ s.curG.liveSlices, s.cur.slices.getLsbD j = true ∨ s.curG.rejoinAt j ≠ none) → apart s.curG.liveSlices →
        mismatch i s.curG.liveSlices fun _ => True)
      ∧ (Ready h [] [] s →
        let waiting := s.curG.liveSlices.filter fun j => !s.cur.slices.getLsbD j
        (∀ j, s.cur.slices.getLsbD j = true → (s.curG.slice j).live &&& ~~~ ((s.curG.slice j).am &&& guardLanes s h j) = 0) →
        (∀ j ∈ waiting, s.curG.rejoinAt j ≠ none) → apart waiting → mismatch (.exit h) waiting (· ∈ waiting)))

/-! ### Rejoins, merges, copies of names -/

/-- R17, R253, R269, R272: the last slice to arrive completes a rejoin: one whole gang of the slices that count goes on
after the instruction, and what any of them issued before comes before what they issue next; MERGE.S first folds the slices'
views of the name into its parent and drops every copy.
R273: the last group of a team to arrive completes MERGE.G: the fold of every group's view goes into the team parent, every
copy of the name is dropped, the point is free again and counts one round more. `.agree` and `.lo` fold as R272 gives, and each
group whose MERGE.G names a predicate receives the answer in every lane. -/
def Obligations.Rejoins : Prop :=
  (∀ (s : State) (h : Hdr) (m : MergeM) (n : BitVec 7) (a : Spec), Issuing s → s.logged s.cur.gid = false →
      let sl := s.curG.rejoinSlices
      sl ≠ [] →
      let joins (op : Instr) : Prop := ∀ i ∈ sl, (s.curG.slice i).pc = s.curPc
        ∧ (s.cur.slices.getLsbD i = true ∨ s.curG.rejoinAt i = some op)
      let mine (x : BitVec 8) : Prop :=
        (∃ i ∈ sl, x.getLsbD i = true) ∨ ∀ i ∈ s.curG.liveSlices, x.getLsbD i = false
      let wide (x : BitVec 8) : BitVec 8 := open Classical in if mine x then x ||| maskOf sl else x
      let whole (t : State) : Prop :=
        t = { s with groups := t.groups, accs := t.accs, copies := t.copies, subs := t.subs, clusters := t.clusters }
        ∧ (∀ i, i ≠ s.cur.gid → t.groups.get? i = s.groups.get? i)
        ∧ (∀ k, t.accs.get? k = (s.accs.get? k).map fun a =>
            if a.gid = s.cur.gid then { a with order := wide a.order } else a)
        ∧ (∀ k, t.copies.get? k = (s.copies.get? k).map fun c =>
            if c.gid = s.cur.gid then { c with slices := wide c.slices } else c)
        ∧ (∀ k, t.subs.get? k = (s.subs.get? k).map fun c => { c with mloops := c.mloops.map fun x =>
            if x.gid = s.cur.gid then { x with slices := wide x.slices } else x })
        ∧ (∀ k, t.clusters.get? k = (s.clusters.get? k).map fun c => { c with loops := c.loops.map fun x =>
            if x.gid = s.cur.gid then { x with slices := wide x.slices } else x })
        ∧ (∃ x ∈ t.curG.gangs, x.wait = .none ∧ ∀ i, i < 8 → (x.slices.getLsbD i = true ↔ i ∈ sl))
        ∧ (∀ x ∈ t.curG.gangs, (∃ i ∈ sl, x.slices.getLsbD i = true) → ∀ i ∈ sl, x.slices.getLsbD i = true)
        ∧ ∀ i, t.curG.slice i = if i ∈ sl then
            { s.curG.slice i with pc := (s.curG.slice i).pc + BitVec.ofNat 56 h.len.bytes } else s.curG.slice i
      (Ready h [] [] s → joins (.regang h) →
        ∃ t, exec (.regang h) s = .next t ∧ whole t
          ∧ t.curG = { s.curG with slices := t.curG.slices, gangs := t.curG.gangs })
      ∧ (Ready h [.g n] [.g n, a] s → joins (.mergeS h m (.g n) a) → (a = .zero ∨ ∃ k, a = .p k ∧ k ≠ 7) →
        s.curG.shadowed n.toNat = false → m.mode.toNat < 5 → (a ≠ .zero → m.mode = 0) →
        let views := sl.map fun i => s.curG.viewG n.toNat i
        let first := views.headD 0
        ∃ t, exec (.mergeS h m (.g n) a) s = .next t ∧ whole t
          ∧ t.curG = { s.curG with
              slices := t.curG.slices, gangs := t.curG.gangs, g := t.curG.g, gc := t.curG.gc, p := t.curG.p }
          ∧ (∀ r i, r ≠ n.toNat → i < 8 → t.curG.viewG r i = s.curG.viewG r i ∧ t.curG.parentG r = s.curG.parentG r)
          ∧ (∀ r l, l < 32 → (∀ k, a = .p k → r ≠ k.toNat) → t.curG.laneP r l = s.curG.laneP r l)
          ∧ (∀ k l, a = .p k → l < 32 → t.curG.laneP k.toNat l = decide (∀ x ∈ views, x = first))
          ∧ (let folds (x : W64) : Prop :=
              t.curG.parentG n.toNat = x ∧ ∀ i, i < 8 → t.curG.gc.get? (gKey n.toNat i) = none
            let stays : Prop := ∀ i, i < 8 → t.curG.viewG n.toNat i = s.curG.viewG n.toNat i
              ∧ t.curG.parentG n.toNat = s.curG.parentG n.toNat
            match m.mode.toNat with
            | 0 => ((∀ x ∈ views, x = first) → folds first) ∧ ((∃ x ∈ views, x ≠ first) → stays)
            | 1 => (∀ i ∈ sl, s.curG.gc.get? (gKey n.toNat i) ≠ none →
                  (∀ j ∈ sl, j < i → s.curG.gc.get? (gKey n.toNat j) = none) → folds (s.curG.viewG n.toNat i))
                ∧ ((∀ i ∈ sl, s.curG.gc.get? (gKey n.toNat i) = none) → stays)
            | mode => folds (views.tail.foldl (mergeOp mode m.ty.toNat) first))))
  ∧ (∀ (s : State) (h : Hdr) (m : MergeM) (n : BitVec 6) (a : Spec), Issuing s → Ready h [.t n] [a] s → s.curG.level ≠ .m →
      s.curG.whole s.cur.slices = true → s.curG.ended = false → s.myAccesses = [] → m.mode.toNat < 5 →
      a = .zero ∨ m.mode = 0 ∧ (∃ k, a = .p k ∧ k ≠ 7) → (s.curT.tc.Pairwise fun x y => x.1 < y.1) →
      let tm := s.curT
      let rp := m.rp.toNat
      let pt := tm.points.getD rp RvPoint.reset
      let arrs := tm.merges.getD rp []
      s.teams.get? s.curG.team ≠ none →
      pt.exp = tm.groups.length → (pt.arr = 0 ∨ pt.merge = true) → s.cur.gid ∈ tm.groups →
      (∀ x ∈ arrs, x.group ≠ s.cur.gid ∧ x.name = n.toNat ∧ x.mode = m.mode.toNat ∧ x.ty = m.ty.toNat) →
      (∀ i ∈ tm.groups, i ≠ s.cur.gid → (s.group i).ended = true ∨ ∃ x ∈ arrs, x.group = i) →
      let views := tm.groups.map fun i => tm.viewT n.toNat (s.group i).idx
      let first := views.headD 0
      ∃ t, exec (.mergeG h m (.t n) a) s = .next t
        ∧ (let folds (x : W64) : Prop := (t.team s.curG.team).t.getD n.toNat 0 = x
            ∧ ∀ g, g < 32 → (t.team s.curG.team).tc.get? (tKey n.toNat g) = none
          let stays : Prop := (t.team s.curG.team).t.get? n.toNat = tm.t.get? n.toNat
            ∧ ∀ g, g < 32 → (t.team s.curG.team).tc.get? (tKey n.toNat g) = tm.tc.get? (tKey n.toNat g)
          match m.mode.toNat with
          | 0 => ((∀ x ∈ views, x = first) → folds first) ∧ ((∃ x ∈ views, x ≠ first) → stays)
          | 1 => (∀ g < 32, ∀ x, tm.tc.get? (tKey n.toNat g) = some x →
                (∀ j < g, tm.tc.get? (tKey n.toNat j) = none) → folds x)
              ∧ ((∀ g < 32, tm.tc.get? (tKey n.toNat g) = none) → stays)
          | mode => folds (views.tail.foldl (mergeOp mode m.ty.toNat) first))
        ∧ (m.mode = 0 → (∀ k l, a = .p k → l < 32 → t.curG.laneP k.toNat l = decide (∀ x ∈ views, x = first))
          ∧ ∀ x ∈ arrs, ∀ k, x.pred = some k → k < 7 → s.groups.get? x.group ≠ none → (s.group x.group).ended = false →
            (∀ y ∈ arrs, y.group = x.group → y = x) →
            ∀ l, l < 32 → (t.group x.group).laneP k l = decide (∀ x ∈ views, x = first))
        ∧ (∀ k, k / 32 ≠ n.toNat → (t.team s.curG.team).tc.get? k = tm.tc.get? k)
        ∧ (∀ r, r ≠ n.toNat → (t.team s.curG.team).t.get? r = tm.t.get? r)
        ∧ (t.team s.curG.team).points.getD rp RvPoint.reset = { pt with merge := false, arr := 0, round := pt.round + 1 }
        ∧ (t.team s.curG.team).merges.get? rp = none
        ∧ (∀ i, (t.curG.slice i).pc = (s.curG.slice i).pc + if i < s.curG.slices.length then BitVec.ofNat 56 h.len.bytes else 0)
        ∧ t.mem = s.mem ∧ t.dev = s.dev ∧ t.sm = s.sm ∧ t.net = s.net)

/-- R275, R276: a copy dropped, and whether one is held. -/
def Obligations.CopiesOfNames : Prop :=
  ∀ (s : State) (h : Hdr) (n : BitVec 7) (q : BitVec 6) (d : Spec),
    (Ready h [.g n] [] s → s.uniform h = true → s.curG.shadowed n.toNat = false →
      ∃ t, exec (.drop h (.g n)) s = .next t ∧ WentOn h.len.bytes s t
        ∧ t = { s with groups := t.groups } ∧ (∀ i, i ≠ s.cur.gid → t.groups.get? i = s.groups.get? i)
        ∧ t.curG = { s.curG with gc := t.curG.gc, slices := t.curG.slices, gangs := t.curG.gangs }
        ∧ ∀ r i, i < 8 → t.curG.gc.get? (gKey r i) =
          if r = n.toNat ∧ s.cur.slices.getLsbD i = true ∧ (s.curG.slice i).am &&& (s.curG.slice i).live ≠ 0 then none
          else s.curG.gc.get? (gKey r i))
    ∧ (Ready h [.t q] [] s → s.uniform h = true → s.curG.whole s.cur.slices = true →
      s.curG.slicesOn s.cur.slices = s.curG.liveSlices → s.teams.get? s.curG.team ≠ none →
      ∃ t, exec (.drop h (.t q)) s = .next t ∧ WentOn h.len.bytes s t
        ∧ t = { s with groups := t.groups, teams := t.teams }
        ∧ (∀ i, i ≠ s.cur.gid → t.groups.get? i = s.groups.get? i)
        ∧ t.curG = { s.curG with slices := t.curG.slices, gangs := t.curG.gangs }
        ∧ (∀ i, i ≠ s.curG.team → t.teams.get? i = s.teams.get? i)
        ∧ t.curT = { s.curT with tc := t.curT.tc }
        ∧ ∀ k, t.curT.tc.get? k = if k = tKey q.toNat s.curG.idx then none else s.curT.tc.get? k)
    ∧ (let held (l : Nat) : W64 :=
        if s.curG.shadowed n.toNat = false ∧ s.curG.gc.get? (gKey n.toNat (l / 4)) ≠ none then 1 else 0
      Ready h [d] [.g n] s → Room h d s →
      (∀ k, d = .t k → ∀ l ∈ s.resultLanes h d, ∀ j ∈ s.resultLanes h d, held l = held j) →
      Gives (.rankq h d (.g n)) h d s fun l x => x = held l)
    ∧ (Ready h [d] [.t q] s → Room h d s →
      Gives (.rankq h d (.t q)) h d s fun _ x => x =
        if s.curT.tc.get? (tKey q.toNat s.curG.idx) ≠ none then 1 else 0)

/-! ### Memory instructions -/

/-- R161, R221 through a record of local store: every active lane in range takes its elements, or its block dequantised;
every other lane and register keeps its value. The stage manager's SRAM keeps no descriptors: there `DEQ` reads them as zero.
The model's own choices in it: log entries 13 and 22. -/
def Obligations.LocalLoads : Prop :=
  ∀ (s : State) (h : Hdr) (ch : Hint) (n : BitVec 8) (q : BitVec 4) (b : Spec),
    let r := s.curG.b.getD q.toNat 0
    let idx (l : Nat) : Nat := (s.src h .zx64 b l).toNat
    LocalNow r s → recR r = true →
    (∀ (m : MemM), Ready h [.v n] [.b q, b] s → s.widthOk r m (.v n) = true →
      (recEsz r = 4 → s.busyOn [.v (n + 1)] = []) →
      let sz := 2 ^ recEsz r
      let k := 2 ^ m.n.toNat
      let ins := s.inRange h r sz k idx
      let el (l j : Nat) : Nat := s.localMem.readN (s.elemPa r sz (idx l + j)) sz
      ∃ t, exec (.ld h m ch (.v n) (.b q) b) s = .next t ∧ WentOn h.len.bytes s t
        ∧ AccessFrame (if m.ord then some m.sc.toNat else none) (!ins.isEmpty) s t
        ∧ t.curG = { s.curG with v := t.curG.v, lfm := t.curG.lfm, slices := t.curG.slices, gangs := t.curG.gangs }
        ∧ t.localMem = s.localMem ∧ (∀ pa, t.localDesc pa = s.localDesc pa)
        ∧ MarkedOut (s.actLanes h) ins s t
        ∧ (∀ l ∈ ins, if recEsz r = 4 then
              (t.curG.laneV n.toNat l).toNat = el l 0 % 2 ^ 64 ∧ (t.curG.laneV (n.toNat + 1) l).toNat = el l 0 / 2 ^ 64
            else if k = 1 then
              (if m.ty = 2 ∨ m.ty = 4 ∨ m.ty = 6 then (t.curG.laneV n.toNat l).toInt = asSigned (8 * sz) (el l 0)
                else (t.curG.laneV n.toNat l).toNat = el l 0)
            else (∀ j < k, sub (8 * sz) (t.curG.laneV n.toNat l) j = el l j)
              ∧ (t.curG.laneV n.toNat l).toNat < 2 ^ (8 * sz * k))
        ∧ ∀ x l, l < 32 → (l ∉ ins ∨ x ≠ n.toNat ∧ (recEsz r = 4 → x ≠ n.toNat + 1)) →
            t.curG.laneV x l = s.curG.laneV x l)
    ∧ (∀ (m : DeqM), m.wc ≠ 0 → blockRecordOk r = true →
      let per := ftCount m.flt.ft
      let e := 512 / (if m.wc = 1 then 16 else if m.wc = 2 then 8 else 4)
      let k := 4 * e / 4 / per
      Ready h (vRange (.v n) k) [.b q, b] s → s.rangeOut (.v n) k = false →
      let ins := s.inRange h r 64 1 idx
      ∃ t, exec (.deq h m (.v n) (.b q) b) s = .next t ∧ WentOn h.len.bytes s t
        ∧ AccessFrame none false s t
        ∧ t.curG = { s.curG with v := t.curG.v, lfm := t.curG.lfm, slices := t.curG.slices, gangs := t.curG.gangs }
        ∧ t.localMem = s.localMem ∧ (∀ pa, t.localDesc pa = s.localDesc pa)
        ∧ MarkedOut (s.actLanes h) ins s t
        ∧ (∀ l ∈ ins, ∀ j < k,
            let pa := s.elemPa r 64 (idx l)
            let d := s.localDesc pa
            FltElems m.flt (t.curG.laneV (n.toNat + j) l) fun i =>
              match eltOf d with
              | some f => if widthClass d = m.wc.toNat then
                  m.flt.enc (f.scaled d (s.localMem.readN pa 64) (per * j + i)) else m.flt.fmt.nan
              | none => m.flt.fmt.nan)
        ∧ ∀ x l, l < 32 → (l ∉ ins ∨ x < n.toNat ∨ n.toNat + k ≤ x) → t.curG.laneV x l = s.curG.laneV x l)

/-- R161, R164, R219 through a record of local store: each element in range takes its bytes, the highest lane winning;
QUANT stores its block with its descriptor; no other byte of memory and no other descriptor changes. -/
def Obligations.LocalStores : Prop :=
  ∀ (s : State) (h : Hdr) (ch : Hint) (q : BitVec 4) (a : Spec),
    let r := s.curG.b.getD q.toNat 0
    let idx (l : Nat) : Nat := (s.src h .zx64 a l).toNat
    LocalNow r s → recW r = true →
    (∀ (m : MemM) (b : Spec), Ready h [] [.b q, a, b] s → s.widthOk r m b = true →
      (recEsz r = 4 → s.busyOn [Spec.second b] = [] ∧ s.isBad (.reg s.cur.gid (Spec.second b)) = false) →
      Settled (if m.ord then some m.sc.toNat else none) s →
      let sz := 2 ^ recEsz r
      let k := 2 ^ m.n.toNat
      let ins := s.inRange h r sz k idx
      let pa (l j : Nat) : Nat := s.elemPa r sz (idx l + j)
      let data (l : Nat) : Nat := (s.src h (tyExpand m.ty.toNat) b l).toNat
        + if recEsz r = 4 then (s.src h .zx64 (Spec.second b) l).toNat * 2 ^ 64 else 0
      ∃ t, exec (.st h m ch (.b q) a b) s = .next t ∧ WentOn h.len.bytes s t ∧ AccessFrame none false s t
        ∧ t.curG = { s.curG with lfm := t.curG.lfm, slices := t.curG.slices, gangs := t.curG.gangs }
        ∧ MarkedOut (s.actLanes h) ins s t ∧ (∀ x, t.localDesc x = s.localDesc x)
        ∧ (∀ x, (∀ l ∈ ins, ∀ j < k, x < pa l j ∨ pa l j + sz ≤ x) → t.localMem.read x = s.localMem.read x)
        ∧ ∀ l ∈ ins, ∀ j < k, ∀ i < sz,
          (∀ l' ∈ ins, ∀ j' < k, pa l' j' ≤ pa l j + i → pa l j + i < pa l' j' + sz →
            l' ≤ l ∧ s.elemAt r sz (idx l' + j') = s.elemAt r sz (idx l + j)) →
          (t.localMem.read (pa l j + i)).toNat = data l / 256 ^ (sz * j + i) % 256)
    ∧ (∀ (m : QuantM) (n : BitVec 8), blockRecordOk r = true →
      let e := Elt.ofDfm m.dfm.toNat
      let per := ftCount m.sft
      let k := e.count / per
      Ready h [] ([.b q, a, .zero] ++ vRange (.v n) k) s → s.rangeOut (.v n) k = false →
      let ins := s.inRange h r 64 1 idx
      let pa (l : Nat) : Nat := s.elemPa r 64 (idx l)
      let vals (l : Nat) : List Machine.Num := (List.range e.count).map fun i =>
        (ftFmt m.sft).decode (sub (ftWidth m.sft) (s.src h .zx64 (.v (n + BitVec.ofNat 8 (i / per))) l) (i % per))
      ∃ t, exec (.quant h m (.b q) a (.v n) .zero) s = .next t ∧ WentOn h.len.bytes s t ∧ AccessFrame none false s t
        ∧ t.curG = { s.curG with lfm := t.curG.lfm, slices := t.curG.slices, gangs := t.curG.gangs }
        ∧ MarkedOut (s.actLanes h) ins s t
        ∧ (∀ x, (∀ l ∈ ins, x < pa l ∨ pa l + 64 ≤ x) →
            t.localMem.read x = s.localMem.read x ∧ t.localDesc x = s.localDesc x)
        ∧ ∀ l ∈ ins, (∀ l' ∈ ins, pa l' = pa l → l' ≤ l ∧ s.elemAt r 64 (idx l') = s.elemAt r 64 (idx l)) →
          t.localMem.readN (pa l) 64 = (e.quantise m.nanprop (vals l)).1
          ∧ (s.curTile < 192 → t.localDesc (pa l) = (e.quantise m.nanprop (vals l)).2))

/-- R159, R162-R164 through a record of local store: the lanes' steps on one element apply in ascending lane order; ATOM
returns to each lane what the lanes below left, zero-extended for an unsigned or a floating-point type; an immediate operand of
`REDQ.Q64` is zero-extended.
The model's own choices in it: log entries 55 and 56. -/
def Obligations.LocalAtomics : Prop :=
  ∀ (s : State) (h : Hdr) (m : AtomM) (ch : Hint) (q : BitVec 4) (a : Spec) (op aty : Nat) (val cmp : Nat → Nat),
    let r := s.curG.b.getD q.toNat 0
    let w := atWidth op aty
    let idx (l : Nat) : Nat := (s.src h .zx64 a l).toNat
    let ins := s.inRange h r w 1 idx
    let pa (l : Nat) : Nat := s.elemPa r w (idx l)
    LocalNow r s → s.atomCheck r w = none → (op = 8 → s.detOf s.curG = false) → Settled (ordRel m) s →
    (∀ l ∈ ins, ∀ j ∈ ins, pa l = pa j → s.elemAt r w (idx l) = s.elemAt r w (idx j)) →
    let after (l x : Nat) : Nat := amo op aty x (val l % 2 ^ (8 * w)) (cmp l % 2 ^ (8 * w))
    let old (l : Nat) : Nat := (ins.filter fun j => decide (j < l ∧ pa j = pa l)).foldl (fun x j => after j x)
      (s.localMem.readN (pa l) w)
    let performed (t : State) : Prop :=
      WentOn h.len.bytes s t ∧ AccessFrame (ordAcq m) (!ins.isEmpty) s t ∧ MarkedOut (s.actLanes h) ins s t
      ∧ (∀ x, t.localDesc x = s.localDesc x)
      ∧ (∀ x, (∀ l ∈ ins, x < pa l ∨ pa l + w ≤ x) → t.localMem.read x = s.localMem.read x)
      ∧ ∀ l ∈ ins, (∀ j ∈ ins, pa j = pa l → j ≤ l) → t.localMem.readN (pa l) w = after l (old l)
    let silent (t : State) : Prop :=
      t.curG = { s.curG with lfm := t.curG.lfm, slices := t.curG.slices, gangs := t.curG.gangs }
    (∀ (n : BitVec 8) (c e : Spec), op = m.op.toNat → op < 0xB → aty = m.aty.toNat →
      val = (fun l => (s.src h (atExpand op aty) c l).toNat) → cmp = (fun l => (s.src h (atExpand op aty) e l).toNat) →
      (Ready h [.v n] [.b q, a, c, e] s →
        ∃ t, exec (.atom h m ch (.v n) (.b q) a c e) s = .next t ∧ performed t
          ∧ t.curG = { s.curG with v := t.curG.v, lfm := t.curG.lfm, slices := t.curG.slices, gangs := t.curG.gangs }
          ∧ (∀ l ∈ ins, if op < 8 ∧ aty % 2 = 1 then (t.curG.laneV n.toNat l).toInt = asSigned (8 * w) (old l)
              else (t.curG.laneV n.toNat l).toNat = old l)
          ∧ ∀ x l, l < 32 → (x ≠ n.toNat ∨ l ∉ ins) → t.curG.laneV x l = s.curG.laneV x l)
      ∧ (Ready h [.zero] [.b q, a, c, e] s →
        ∃ t, exec (.atom h m ch .zero (.b q) a c e) s = .next t ∧ performed t ∧ silent t))
    ∧ (∀ (b : Spec), op = m.op.toNat → op < 0xB → aty = m.aty.toNat → Ready h [] [.b q, a, b] s →
      val = (fun l => (s.src h (atExpand op aty) b l).toNat) → cmp = (fun _ => 0) →
      ∃ t, exec (.red h m ch (.b q) a b) s = .next t ∧ performed t ∧ silent t)
    ∧ (∀ (b c : Spec), op = opAddq → aty = 0 → Ready h [] [.b q, a, b, c] s → cmp = (fun _ => 0) →
      val = (fun l => if m.op = 1 then (s.src h .zx64 b l).toNat
        else quantQ (fp32.decode (sub 32 (s.src h .rep32 b l) 0))
          (max (-149) (min 127 (s.src h .sx64 c l).toInt))) →
      ∃ t, exec (.redq h m ch (.b q) a b c) s = .next t ∧ performed t ∧ silent t)

/-- R240, R241 through a record of local store: a tile loaded, element by element, those out of range kept; a tile stored
with the descriptor of its type beside every block it writes to. -/
def Obligations.TileTransfers : Prop :=
  ∀ (s : State) (h : Hdr) (m : AccM) (ch : Hint) (n : BitVec 2) (q : BitVec 4) (b c : Spec) (p : Nat),
    let r := s.curG.b.getD q.toNat 0
    let w := if 2 ≤ m.ty.toNat then 2 else 4
    let stride := (s.leaderSrc h .zx64 c).toNat % 2 ^ 32
    let at0 (i j : Nat) : Nat := (s.leaderSrc h .zx64 b).toNat
      + if m.side then i + 32 * j else i * (if stride = 0 then 32 else stride) + j
    let inR (i j : Nat) : Prop := i < 32 ∧ (j < if m.side then 2 else 32) ∧ s.elemAt r w (at0 i j) ≠ none
    let pa (i j : Nat) : Nat := s.elemPa r w (at0 i j)
    let marked (t : State) : Prop := ∀ i, i < 32 → (t.curG.lfm.getLsbD i = true ↔
      s.curG.lfm.getLsbD i = true ∨ ∃ j < (if m.side then 2 else 32), ¬inR i j)
    m.ty.toNat < 4 → (m.side → m.ty.toNat < 2) → s.curG.level ≠ .m → s.curTile < 192 → s.uniform h = true →
    s.curG.wholeMx s.cur.slices = true → s.tilesOf s.cur.gid [.a n] = .ok [p] → s.tileBusy s.cur.gid p = false →
    LocalNow r s → recEsz r = (if 2 ≤ m.ty.toNat then 1 else 2) →
    (Ready h [] [.a n, .b q, b, c] s → recR r = true →
      let got (i j : Nat) : W32 := BitVec.ofNat 32 (
        let x := s.localMem.readN (pa i j) w
        if m.ty = 2 then fp32.encode .near false (bf16.decode x)
        else if m.ty = 3 then fp32.encode .near false (fp16.decode x) else x)
      ∃ t, exec (.accld h m ch (.a n) (.b q) b c) s = .next t ∧ WentOn h.len.bytes s t ∧ marked t
        ∧ t = { s with
            groups := t.groups, subs := t.subs, accs := t.accs, mons := t.mons, free := t.free, nextId := t.nextId
            bad := t.bad }
        ∧ t.curG = { s.curG with lfm := t.curG.lfm, slices := t.curG.slices, gangs := t.curG.gangs }
        ∧ (∀ i, i ≠ s.cur.gid → t.groups.get? i = s.groups.get? i) ∧ AccsKept s t
        ∧ t.subs = (s.putAcc s.cur.gid p (t.accAt s.cur.gid p)).subs
        ∧ ∀ i, i < 32 →
          (∀ j < 32, (t.accAt s.cur.gid p).get i j =
            open Classical in if m.side = false ∧ inR i j then got i j else (s.accAt s.cur.gid p).get i j)
          ∧ (t.accAt s.cur.gid p).rowMax i =
            (open Classical in if m.side = true ∧ inR i 0 then got i 0 else (s.accAt s.cur.gid p).rowMax i)
          ∧ (t.accAt s.cur.gid p).rowSum i =
            open Classical in if m.side = true ∧ inR i 1 then got i 1 else (s.accAt s.cur.gid p).rowSum i)
    ∧ (Ready h [] [.b q, b, .a n, c] s → recW r = true → s.accBad s.cur.gid [p] = none →
      let x := s.accAt s.cur.gid p
      let out (i j : Nat) : Nat :=
        if m.side then (if j = 0 then x.rowMax i else x.rowSum i).toNat
        else
          let y := if m.norm then fp32.div .near false (fp32.decode (x.get i j).toNat) (fp32.decode (x.rowSum i).toNat)
            else (x.get i j).toNat
          if m.ty = 2 then bf16.encode .near m.sat (fp32.decode y)
          else if m.ty = 3 then fp16.encode .near m.sat (fp32.decode y) else y
      ∃ t, exec (.accst h m ch (.b q) b (.a n) c) s = .next t ∧ WentOn h.len.bytes s t ∧ marked t
        ∧ AccessFrame none false s t
        ∧ t.curG = { s.curG with lfm := t.curG.lfm, slices := t.curG.slices, gangs := t.curG.gangs }
        ∧ (∀ y, (∀ i j, inR i j → y < pa i j ∨ pa i j + w ≤ y) → t.localMem.read y = s.localMem.read y)
        ∧ (∀ y, (∀ i j, inR i j → pa i j / 64 ≠ y / 64) → t.localDesc y = s.localDesc y)
        ∧ (∀ i j, inR i j → t.localDesc (pa i j) = if m.ty = 2 then 0x107F else if m.ty = 3 then 0x117F else 0)
        ∧ ∀ i j, inR i j → (∀ i' j', inR i' j' → pa i' j' = pa i j →
            s.elemAt r w (at0 i' j') = s.elemAt r w (at0 i j) ∧ (i' < i ∨ i' = i ∧ j' ≤ j)) →
          t.localMem.readN (pa i j) w = out i j)

/-- R154, R156, R159 beyond local store, one line at a time: what is asked of the line's home, and what the L1 answers.
A hit takes its data from the L1; a store to an owned line stays there; everything else goes to the home. A store to a line
that is present goes through with the line's dirty bytes; an uncached load sends them home first, and so does an atomic, which
frees the line.
The model's own choices in it: log entries 21 and 57. -/
def Obligations.LinesOfAccesses : Prop :=
  ∀ (s : State) (k i : Nat) (a : Access) (l : LineAcc),
    s.accs.get? k = some a → a.lines[i]? = some l → l.status = .todo → recSpc a.record = spcGlobal →
    let tile := s.accTile a
    let t := s.tryLine k i
    let sentAs (n ev : Nat) (r : Req) : Prop := t.net.get? n = some r ∧ r.ev = ev ∧ r.line = l.pa
      ∧ r.tag = .acc k i ∧ r.tile = tile ∧ r.die = dieOf tile ∧ r.gens = (s.tile tile).gens ∧ r.ef = a.evict
      ∧ ((t.accs.get? k).bind fun x => x.lines[i]?).map (·.status) = some .sent
    let sent : Nat → Req → Prop := sentAs s.nextId
    let l1Is (y : Option L1Line) : Prop := ∀ j, t.l1 tile j = if j = l.pa then y else s.l1 tile j
    let behindHome (x : L1Line) (ev : Nat) (r : Req) : Prop := ∃ q, t.net.get? s.nextId = some q ∧ q.ev = evWrite
      ∧ q.line = l.pa ∧ q.tag = .wb tile ∧ q.data = x.data ∧ q.mask = x.dmask ∧ sentAs (s.nextId + 1) ev r
    tile < 192 → a.kind.reads = true ∨ a.kind.writes = true ∨ a.kind.atomic = true →
    (a.kind.reads = true → a.rtype ≠ .uncached → l.unc = false →
      (∀ x, s.l1 tile l.pa = some x → (x.current (s.tile tile) || (a.kind != .deq && a.maskOn i &&& ~~~ x.dmask == 0)) = true →
        s.writing tile l.pa (a.maskOn i) = false → s.hitBad tile l.pa (a.maskOn i) = false →
        t.net = s.net ∧ t.tiles = s.tiles
        ∧ ((t.accs.get? k).map (·.elems)) = some (a.elems.map fun e =>
            if e.ln = i then { e with res := some (a.take x.data x.descs e) } else e))
      ∧ ((∀ x, s.l1 tile l.pa = some x → x.hits (s.tile tile) (a.kind == .deq) (a.maskOn i) = false) →
        ∃ r, sent (if a.rep then evReplica else evRead) r ∧ r.alloc = true ∧ t.tiles = s.tiles)
      ∧ (∀ x, s.l1 tile l.pa = some x → x.hits (s.tile tile) (a.kind == .deq) (a.maskOn i) = true →
        s.writing tile l.pa (a.maskOn i) = true → t = s))
    ∧ (a.kind.reads = true → a.rtype = .uncached ∨ l.unc = true →
      let ev := if a.rep then evReplica else evRead
      ((∀ x, s.l1 tile l.pa = some x → x.dmask = 0) → ∃ r, sent ev r ∧ r.alloc = false ∧ t.tiles = s.tiles)
      ∧ ∀ x, s.l1 tile l.pa = some x → x.dmask ≠ 0 → s.badMask tile l.pa = 0 →
        ∃ r, behindHome x ev r ∧ r.alloc = false ∧ l1Is (some { x with dmask := 0 }))
    ∧ (a.kind.writes = true → a.rtype = .owned → l.unc = false → (a.writeOn i).2.2.2 = 0 →
      ∀ x, s.l1 tile l.pa = some x → x.wok = true →
        t.net = s.net ∧ s.nextId = t.nextId
        ∧ ∀ y, t.l1 tile y = if y = l.pa then
            some { x with data := mergeData x.data (a.writeOn i).1 (a.writeOn i).2.1, dmask := x.dmask ||| (a.writeOn i).2.1 }
          else s.l1 tile y)
    ∧ (a.kind.writes = true → s.l1 tile l.pa = none →
      ∃ r, sent evWrite r ∧ r.data = (a.writeOn i).1 ∧ r.mask = (a.writeOn i).2.1 ∧ t.tiles = s.tiles)
    ∧ (a.kind.writes = true → ∀ x, s.l1 tile l.pa = some x → s.badMask tile l.pa = 0 →
      a.rtype ≠ .owned ∨ l.unc = true ∨ x.wok = false ∨ (a.writeOn i).2.2.2 ≠ 0 →
      ∃ r, sent evWrite r ∧ r.data = mergeData x.data (a.writeOn i).1 (a.writeOn i).2.1
        ∧ r.mask = (a.writeOn i).2.1 ||| x.dmask ∧ (r.descs, r.descW) = (a.writeOn i).2.2 ∧ l1Is (some { x with dmask := 0 }))
    ∧ (a.kind.atomic = true →
      let ev := if a.kind = .atom then evAtomic else evReduce
      let asks (r : Req) : Prop := r.elems = a.on i ∧ r.op = a.info.op ∧ r.aty = a.info.aty
      ((∀ x, s.l1 tile l.pa = some x → x.dmask = 0) → ∃ r, sent ev r ∧ asks r ∧ l1Is none)
      ∧ ∀ x, s.l1 tile l.pa = some x → x.dmask ≠ 0 → s.badMask tile l.pa = 0 → ∃ r, behindHome x ev r ∧ asks r ∧ l1Is none)

/-- R63, R64, R160: a record that fails a check, or lacks the right the instruction needs, is a precise `ACCESS` trap with
its reason; nothing else has changed.
R63: the conditions of a record, in their order; the first that fails gives the reason.
R65: element addresses, with the swizzle bit by bit, and when an element is out of range.
The model's own choice in it: log entry 13. -/
def Obligations.RecordChecks : Prop :=
  (∀ (s : State) (h : Hdr) (ch : Hint) (q : BitVec 4) (a b c e d : Spec) (x : Nat), MayTrap s → s.actLanes h ≠ [] →
      let r := s.curG.b.getD q.toNat 0
      let fails (right : Bool) : Prop := recordFault (s.curG.level == .m) r = some x
        ∨ recordFault (s.curG.level == .m) r = none ∧ right = false ∧ x = 0x10
      let pc := s.curG.pcOf s.cur.slices
      let info : W64 := BitVec.ofNat 64 (x * 2 ^ 56)
      (∀ m, Ready h [d] [.b q, b] s → fails (recR r) → Traps (.ld h m ch d (.b q) b) s .access pc info)
      ∧ (∀ m, Ready h [] [.b q, a, b] s → fails (recW r) → Traps (.st h m ch (.b q) a b) s .access pc info)
      ∧ (∀ m, (m.op = 8 → s.detOf s.curG = false) → fails (recA r) →
        (Ready h [d] [.b q, b, c, e] s → Traps (.atom h m ch d (.b q) b c e) s .access pc info)
        ∧ (Ready h [] [.b q, a, b] s → Traps (.red h m ch (.b q) a b) s .access pc info))
      ∧ (∀ m, Ready h [] [.b q, a, b, c] s → fails (recA r) → Traps (.redq h m ch (.b q) a b c) s .access pc info))
  ∧ (∀ (inM : Bool) (r : BitVec 256),
      let esz := r.toNat / 2 ^ 104 % 8
      let sz := 2 ^ esz
      let base := r.toNat % 2 ^ 56
      let ext := r.toNat / 2 ^ 64 % 2 ^ 40
      let str := r.toNat / 2 ^ 128 % 2 ^ 40
      let swz := r.toNat / 2 ^ 107 % 4
      let spc := r.toNat / 2 ^ 109 % 4
      let bad (n : Nat) : Prop :=
        match n with
        | 1 => 4 < esz
        | 2 => str < sz ∨ ¬sz ∣ str
        | 3 => ¬sz ∣ base
        | 4 => r.toNat / 2 ^ 114 % 4 = 3 ∨ r.toNat / 2 ^ 116 % 4 = 3
        | 5 => r.toNat / 2 ^ 56 % 2 ^ 8 ≠ 0 ∨ r.toNat / 2 ^ 120 % 2 ^ 8 ≠ 0 ∨ r.toNat / 2 ^ 168 ≠ 0
        | 6 => spc = 2 ∧ (esz ≠ 1 ∨ str ≠ 2 ∨ swz ≠ 0 ∨ ¬64 ∣ base)
        | 7 => spc = 3 ∧ (esz ≠ 3 ∨ swz ≠ 0 ∨ 2 ^ 32 < base + ext * str)
        | _ => spc = 3 ∧ inM = false
      (∀ n, 1 ≤ n → n ≤ 8 → bad n → (∀ j, 1 ≤ j → j < n → ¬bad j) → recordFault inM r = some n)
      ∧ ((∀ n, 1 ≤ n → n ≤ 8 → ¬bad n) → recordFault inM r = none))
  ∧ (∀ (r : BitVec 256) (grant size x : Nat), recSpc r < 4 → recSwz r < 4 →
      let lin := recBase r + x * recStr r
      let limit := if recSpc r = 1 then grant else if recSpc r = 3 then 2 ^ 32 else 2 ^ 56
      (recExt r ≤ x → elemAddr r grant size x = none)
      ∧ (x < recExt r → recSpc r = 2 → elemAddr r grant size x =
          if recBase r + 64 * x + size ≤ 2 ^ 56 then some (recBase r + 64 * x) else none)
      ∧ (x < recExt r → recSpc r ≠ 2 → ∃ ea, (elemAddr r grant size x = if ea + size ≤ limit then some ea else none)
        ∧ ∀ i, ea.testBit i = (lin.testBit i ^^
            (decide (4 ≤ i ∧ i < 4 + recSwz r) && lin.testBit (i + 3)))))

/-! ### Records, the lane fault mask, prefetch -/

/-- R80, R81, R83: a record built, copied or narrowed, when every slice gives the same valid one; a field of a record
read; the lane fault mask read and cleared.
R82: a prefetch never traps and changes no value: no register but PCs, no memory, no lane fault mask, no fault entry.
A line already current in the tile's L1 asks for nothing: what is sent then are reads of the page tables that its walk makes. -/
def Obligations.RecordsMaskPrefetch : Prop :=
  (∀ (s : State) (h : Hdr) (n q : BitVec 4) (a b c e d : Spec) (rec : BitVec 256),
      let view (x : Spec) : Nat → Nat := fun l => (s.src h .zx64 x l).toNat
      let firsts := (s.curG.slicesOn s.cur.slices).map s.curG.firstLane
      let old := s.curG.b.getD q.toNat 0
      let written (i : Instr) : Prop :=
        ∃ t, exec i s = .next t ∧ WentOn h.len.bytes s t
          ∧ t = { s with groups := t.groups, bad := t.bad } ∧ (∀ i, i ≠ s.cur.gid → t.groups.get? i = s.groups.get? i)
          ∧ t.curG = { s.curG with b := t.curG.b, slices := t.curG.slices, gangs := t.curG.gangs }
          ∧ (∀ p, p ∈ t.bad ↔ p ∈ s.bad ∧ p ≠ .reg s.cur.gid (.b n))
          ∧ ∀ k, t.curG.b.getD k 0 = if k = n.toNat then rec else s.curG.b.getD k 0
      (s.uniform h = true → s.curG.whole s.cur.slices = true → s.curG.slicesOn s.cur.slices = s.curG.liveSlices →
        recordFault (s.curG.level == .m) rec = none →
        (Ready h [.b n] [a, b, c, e] s →
          (∀ l ∈ firsts, view a l < 2 ^ 56 ∧ view b l < 2 ^ 40 ∧ view e l < 2 ^ 40 ∧ view c l < 2 ^ 16
            ∧ rec.toNat = view a l + view b l * 2 ^ 64 + view c l * 2 ^ 104 + view e l * 2 ^ 128) →
          written (.bufset h 0 (.b n) a b c e))
        ∧ (Ready h [.b n] [.b q, b, c, e] s → rec = old → written (.bufset h 1 (.b n) (.b q) b c e))
        ∧ (Ready h [.b n] [.b q, b, c, e] s →
          (∀ l ∈ firsts, view b l + view c l ≤ recExt old ∧ recBase old + view b l * recStr old < 2 ^ 56
            ∧ recBase rec = recBase old + view b l * recStr old ∧ recExt rec = view c l) →
          (∀ i, 56 ≤ i → (i < 64 ∨ 104 ≤ i) → rec.getLsbD i = old.getLsbD i) →
          written (.bufset h 2 (.b n) (.b q) b c e)))
      ∧ (∀ (fld : BitVec 2), Ready h [d] [.b q] s → Room h d s →
        Gives (.bufq h fld d (.b q)) h d s fun _ x => x.toNat =
          match fld.toNat with
          | 0 => recBase old | 1 => recExt old | 2 => recStr old | _ => old.toNat / 2 ^ 104 % 2 ^ 16)
      ∧ (∀ (clr : Bool), Ready h [d] [] s → Room h d s → s.uniform h = true →
        ∃ t, exec (.lfmr h clr d) s = .next t ∧ WentOn h.len.bytes s t
          ∧ Wrote d (s.resultLanes h d) (fun _ => s.curG.lfm.zeroExtend 64) s t
          ∧ t.curG.lfm = (if clr then 0 else s.curG.lfm)
          ∧ t.curT.tokens = s.curT.tokens ∧ OnlyDestBut d s t))
  ∧ (∀ (s : State) (h : Hdr) (l2 : Bool) (ch : Hint) (q : BitVec 4) (a : Spec), Ready h [] [.b q, a] s →
      (∀ p ∈ (s.tile s.curTile).l1, p.2.dmask &&& s.badMask s.curTile p.1 = 0) →
      ∃ t, exec (.pref h l2 ch (.b q) a) s = .next t ∧ WentOn h.len.bytes s t
        ∧ (∀ i, i ≠ s.cur.gid → t.groups.get? i = s.groups.get? i)
        ∧ t.curG = { s.curG with slices := t.curG.slices, gangs := t.curG.gangs }
        ∧ t.mem = s.mem ∧ t.descs = s.descs ∧ t.teams = s.teams ∧ t.accs = s.accs
        ∧ (∀ i, (t.tile i).store = (s.tile i).store ∧ (t.tile i).storeDesc = (s.tile i).storeDesc)
        ∧ t.fq = s.fq
        ∧ (recordFault (s.curG.level == .m) (s.curG.b.getD q.toNat 0) ≠ none
            ∨ recSpc (s.curG.b.getD q.toNat 0) ≠ spcGlobal → t = { s with groups := t.groups })
        ∧ (∀ k, k < s.nextId → t.net.get? k = s.net.get? k)
        ∧ let r := s.curG.b.getD q.toNat 0
          let size := 2 ^ recEsz r
          (s.curTile < 192 → l2 = false → ch.l1 ≠ 1 → reqType r ch.l1 ≠ .uncached →
            s.CacheAgrees s.curTile (s.ctxOf s.curG) →
            (∀ l ∈ s.actLanes h, ∀ ea, s.elemAt r size (s.src h .zx64 a l).toNat = some ea →
              ∀ y, ea / 128 ≤ y → y ≤ (ea + size - 1) / 128 → ∃ p x,
                s.Maps (s.ctxOf s.curG) y p false (s.curG.level == .u) 2 ∧ s.l1 s.curTile p = some x
                ∧ x.current (s.tile s.curTile) = true) →
            ∀ k z, s.nextId ≤ k → t.net.get? k = some z → s.net.get? k = some z ∨ z.tag = .pref s.curTile true))

/-! ### Tokens and fences -/

/-- R144-R146, R138: a token set, read and cleared; YIELD gives up the slot, goes on at its target once its tokens read
zero, and waits at its own address until then.
R44, R252: an instruction whose WT names a token with a nonzero count waits where it is, whatever its family, and a group that
waits so on a copy token leaves its slot (R288); WAITT with every named token at zero only goes on. A wait ends when its tokens
read zero, now or at the start of the present cycle.
The model's own choices in it: log entries 9 and 77. -/
def Obligations.Tokens : Prop :=
  (∀ (s : State) (h : Hdr) (n : BitVec 3) (a d : Spec), s.uniform h = true → s.teams.get? s.curG.team ≠ none →
      (Ready h [.k n] [a] s →
        ∃ t, exec (.tokset h (.k n) a) s = .next t ∧ WentOn h.len.bytes s t
          ∧ OnlyTeam (fun x y => { x with tokens := y.tokens }) s t
          ∧ ∀ j, t.curT.token j = if j = n.toNat then
              { s.curT.token j with
                count := min (s.leaderSrc h .zx64 a).toNat 65535, under := false, err := false, cause := 0, reason := 0
                eidx := 0, byTokset := true }
            else s.curT.token j)
      ∧ (∀ (clr : Bool), Ready h [d] [.k n] s → Room h d s → s.resultLanes h d ≠ [] →
        let k := s.curT.token n.toNat
        k.count < 65536 → k.eidx < 2 ^ 20 →
        ∃ t f x, exec (.tokq h clr d (.k n)) s = .next t ∧ WentOn h.len.bytes s t
          ∧ Wrote d (s.resultLanes h d) f s t ∧ (∀ l, f l = x)
          ∧ field x 0 16 = k.count ∧ x.getLsbD 16 = k.under ∧ x.getLsbD 17 = k.err ∧ field x 18 6 = 0
          ∧ field x 24 8 = k.cause.toNat ∧ field x 32 8 = k.reason.toNat ∧ field x 40 20 = k.eidx ∧ field x 60 4 = 0
          ∧ (∀ j, t.curT.token j = if j = n.toNat ∧ clr = true then
              { k with under := false, err := false, cause := 0, reason := 0, eidx := 0 } else s.curT.token j)
          ∧ t.curG.lfm = s.curG.lfm ∧ OnlyDestBut d s t)
      ∧ (∀ (mask : BitVec 8), Ready h [] [a] s → s.curG.level ≠ .m → s.curG.whole s.cur.slices = true →
        s.curG.slicesOn s.cur.slices = s.curG.liveSlices →
        let kept (t : State) : Prop := (∀ i, i ≠ s.cur.gid → t.groups.get? i = s.groups.get? i)
          ∧ t.curG = { s.curG with
              slices := t.curG.slices, gangs := t.curG.gangs, place := t.curG.place, age := t.curG.age }
          ∧ LeftSlot s.cur.gid .pool s t
        ((∀ j < 8, mask.getLsbD j = true → s.curT.readsZero j) →
          ∃ t, exec (.yield h mask a) s = .next t ∧ kept t ∧ Parted s t
            ∧ t = { s with groups := t.groups, subs := t.subs, teams := t.teams, tiles := t.tiles, nextId := t.nextId }
            ∧ AcquiredFor s.curG.team mask s t
            ∧ ∀ i, t.curG.slice i = if s.cur.slices.getLsbD i = true ∧ i < s.curG.slices.length then
                { s.curG.slice i with pc := branchTarget h (s.curG.slice i) } else s.curG.slice i)
        ∧ ((∃ j < 8, mask.getLsbD j = true ∧ ¬s.curT.readsZero j) →
          ∃ t, exec (.yield h mask a) s = .next t ∧ kept t ∧ t.curG.slices = s.curG.slices
            ∧ t = { s with groups := t.groups, subs := t.subs, nextId := t.nextId }
            ∧ t.curG.gangs = s.curG.gangs.map fun x =>
                if x.slices &&& ~~~ s.cur.slices = 0 then { x with wait := .yield mask (h.imm.signExtend 56) } else x)))
  ∧ (∀ (s : State) (h : Hdr) (gid low : Nat),
      (Ready h [] [] s → Gives (.waitt h) h .zero s fun _ _ => True)
      ∧ (∀ (i : Instr) (im : IntM) (mm : MemM) (fm : FenceM) (am : AtomM) (ch : Hint) (d a b c : Spec) (q q' : BitVec 4)
          (n : BitVec 3) (rp : BitVec 5) (gr : BitVec 7) (ac : BitVec 2) (f : Bool),
        i ∈ [.waitt h, .nop h, .iadd h im d a b, .ld h mm ch d (.b q) b, .st h mm ch (.b q) a b, .red h am ch (.b q) a b,
          .fence h fm (.k n), .tokset h (.k n) a, .tcopy h (.b q) (.b q') (.g gr) (.k n), .accz h 0 (.a ac), .jmp h .imm,
          .exit h, .regang h, .rvarr h rp, .gearSet h f, .nap h a, .trap h a] →
        s.groups.get? s.cur.gid ≠ none → s.curG.level ≠ .m → (∀ r ∈ [d, a, b, c], s.curG.refuses r = false) →
        (∃ j < 8, h.wt.getLsbD j = true ∧ ¬s.curT.readsZero j) →
        let copies : Prop := ∃ j < 8, h.wt.getLsbD j = true ∧ (s.curT.token j).count ≠ 0 ∧ (s.curT.token j).byTokset = true
        ∃ t, exec i s = .next t ∧ t = { s with groups := t.groups, subs := t.subs, held := t.held, nextId := t.nextId }
          ∧ (∀ j, j ≠ s.cur.gid → t.groups.get? j = s.groups.get? j)
          ∧ t.curG = { s.curG with gangs := t.curG.gangs, place := t.curG.place, age := t.curG.age }
          ∧ (t.curG.gangs = s.curG.gangs.map fun x =>
              if x.slices &&& ~~~ s.cur.slices = 0 then { x with wait := .tokens h.wt } else x)
          ∧ (copies → LeftSlot s.cur.gid .pool s t)
          ∧ (¬copies → t.subs = s.subs ∧ t.curG.place = s.curG.place ∧ t.curG.age = s.curG.age))
      ∧ (∀ x, s.groups.get? gid ≠ none → s.teams.get? (s.group gid).team ≠ none → (s.group gid).gangAt low = some x →
        let g := s.group gid
        let zero (mask : BitVec 8) : Prop := ∀ j < 8, mask.getLsbD j = true → (s.team g.team).readsZero j
        let woken : List SubGang := g.gangs.map fun y =>
          if y.slices &&& ~~~ x.slices = 0 then { y with wait := .none } else y
        (∀ mask, x.wait = .tokens mask → zero mask →
          ∃ t, exec (.waitSatisfied gid low) s = .next t ∧ t = { s with groups := t.groups, nextId := t.nextId }
            ∧ (∀ i, i ≠ gid → t.groups.get? i = s.groups.get? i)
            ∧ t.group gid = { g with gangs := woken, age := (t.group gid).age }
            ∧ ((∃ k, g.place = .slot k) → (t.group gid).age = g.age))
        ∧ (∀ mask off, x.wait = .yield mask off → zero mask →
          ∃ t, exec (.waitSatisfied gid low) s = .next t
            ∧ t = { s with groups := t.groups, teams := t.teams, tiles := t.tiles, nextId := t.nextId }
            ∧ AcquiredFor g.team mask s t ∧ (∀ i, i ≠ gid → t.groups.get? i = s.groups.get? i)
            ∧ t.group gid = { g with slices := (t.group gid).slices, gangs := woken, age := (t.group gid).age }
            ∧ ∀ i, (t.group gid).slice i = if x.slices.getLsbD i = true ∧ i < g.slices.length then
                { g.slice i with pc := (g.slice i).pc + off } else g.slice i)
        ∧ ((∀ mask, (x.wait = .tokens mask ∨ ∃ off, x.wait = .yield mask off) → ¬zero mask) →
          exec (.waitSatisfied gid low) s = .next s)))

/-- R251, R252: a FENCE counts its token up and covers the accesses of its sub-gang of the kinds it names, with `.eng` the copies
and MLOOPs that its slices have issued too; once they have performed, `.st` at cluster scope or wider sends the tile's dirty bytes
home and waits for them; then it applies its acquire and counts the token down once, at its scope.
R153: an acquire at cluster, device or system scope steps that scope's counter; a counter that wraps to zero frees
every clean line and takes V from the others, whose dirty bytes stay. Narrower scopes change nothing. -/
def Obligations.Fences : Prop :=
  (∀ (s : State) (h : Hdr) (m : FenceM) (n : BitVec 3) (k : Nat) (f : Fence),
      (Ready h [.k n] [] s → s.uniform h = true → s.teams.get? s.curG.team ≠ none → (s.curT.token n.toNat).count < 65535 →
        ∃ t g, exec (.fence h m (.k n)) s = .next t ∧ WentOn h.len.bytes s t
          ∧ OnlyTeam (fun x y => { x with tokens := y.tokens }) s { t with fences := s.fences, nextId := s.nextId }
          ∧ (∀ j, t.curT.token j = if j = n.toNat then
              { s.curT.token j with count := (s.curT.token j).count + 1, byTokset := false } else s.curT.token j)
          ∧ t.fences = s.fences.set s.nextId g ∧ g.team = s.curG.team ∧ g.tok = n.toNat ∧ g.scope = m.sc.toNat
          ∧ g.tile = s.curTile ∧ g.ld = m.ldK ∧ g.flushed = false ∧ g.wbs = []
          ∧ (g.st = true ↔ m.stK = true ∧ 2 ≤ m.sc.toNat ∧ s.curTile < 192)
          ∧ (∀ i, i ∈ g.copies ↔ m.eng = true ∧ ∃ c, (i, c) ∈ s.copies ∧ c.gid = s.cur.gid ∧ c.slices &&& s.cur.slices ≠ 0)
          ∧ (∀ i, i ∈ g.loops ↔ m.eng = true ∧ ∃ x : MLoop,
            ((∃ p ∈ s.subs, x ∈ p.2.mloops) ∨ x ∈ (s.cluster (s.team s.curG.team).cluster).loops)
            ∧ x.gid = s.cur.gid ∧ x.slices &&& s.cur.slices ≠ 0 ∧ x.id = i)
          ∧ ∀ i, i ∈ g.accs ↔ ∃ a, (i, a) ∈ s.accs ∧ a.gid = s.cur.gid ∧ a.order &&& s.cur.slices ≠ 0
            ∧ ((a.kind = .load ∨ a.kind = .deq ∨ a.kind = .accld) ∧ m.ldK = true
              ∨ (a.kind = .store ∨ a.kind = .quant ∨ a.kind = .accst) ∧ m.stK = true
              ∨ a.kind = .atom ∧ (m.ldK = true ∨ m.atK = true)
              ∨ (a.kind = .red ∨ a.kind = .redq) ∧ m.atK = true))
      ∧ (s.fences.get? k = some f → s.teams.get? f.team ≠ none →
        (∀ i ∈ f.accs, s.accs.get? i = none) → (∀ i ∈ f.copies, s.copies.get? i = none) →
        (∀ i ∈ f.loops, s.loopPending i = false) → (f.st = true → f.flushed = true) → (∀ i ∈ f.wbs, s.inFlight i = false) →
        ∃ t, exec (.fenceComplete k) s = .next t
          ∧ t = { s with fences := t.fences, teams := t.teams, tiles := t.tiles } ∧ t.fences.get? k = none
          ∧ (∀ i, i ≠ k → t.fences.get? i = s.fences.get? i)
          ∧ (∀ i, i ≠ f.team → t.teams.get? i = s.teams.get? i)
          ∧ t.team f.team = { s.team f.team with tokens := (t.team f.team).tokens }
          ∧ (∀ j, (t.team f.team).token j = if j ≠ f.tok then (s.team f.team).token j
              else
                let x := { (s.team f.team).token j with acq := max ((s.team f.team).token j).acq f.scope }
                if x.count = 0 then { x with under := true } else { x with count := x.count - 1 })
          ∧ ∀ i, t.tile i = if i = f.tile ∧ i < 192 ∧ f.ld = true then (s.tile i).acquire f.scope else s.tile i)
      ∧ (s.fences.get? k = some f → f.st = true → f.flushed = false →
        (∀ i ∈ f.accs, s.accs.get? i = none) → (∀ i ∈ f.copies, s.copies.get? i = none) →
        (∀ i ∈ f.loops, s.loopPending i = false) → (∀ l, s.badMask f.tile l = 0) →
        (∃ l x, s.l1 f.tile l = some x ∧ x.dmask ≠ 0) →
        ∃ t g, exec (.fenceComplete k) s = .next t
          ∧ t = { s with fences := t.fences, net := t.net, tiles := t.tiles, nextId := t.nextId }
          ∧ t.fences.get? k = some g ∧ g = { f with flushed := true, wbs := g.wbs }
          ∧ (∀ r ∈ s.flying, r.carries f.tile = true → r.id ∈ g.wbs)
          ∧ (∀ l x, s.l1 f.tile l = some x → x.dmask ≠ 0 → ∃ i q, t.net.get? i = some q ∧ i ∈ g.wbs ∧ q.ev = evWrite
            ∧ q.line = l ∧ q.tag = .wb f.tile ∧ q.data = x.data ∧ q.mask = x.dmask)
          ∧ (∀ l, t.l1 f.tile l = (s.l1 f.tile l).map fun x => { x with dmask := 0 })
          ∧ ∀ i, i ≠ f.tile → t.tile i = s.tile i))
  ∧ (∀ (t : Tile) (scope : Nat),
      let u := t.acquire scope
      (scope < 2 ∨ 4 < scope → u = t)
      ∧ (2 ≤ scope → scope ≤ 4 →
        u.tgc = (if scope = 2 then t.tgc + 1 else t.tgc) ∧ u.tgd = (if scope = 3 then t.tgd + 1 else t.tgd)
        ∧ u.tgs = (if scope = 4 then t.tgs + 1 else t.tgs)
        ∧ u = { t with tgc := u.tgc, tgd := u.tgd, tgs := u.tgs, l1 := u.l1, wraps := u.wraps }
        ∧ let wraps : Prop := (scope = 2 ∧ t.tgc = 15) ∨ (scope = 3 ∧ t.tgd = 15) ∨ (scope = 4 ∧ t.tgs = 15)
          (¬wraps → u.l1 = t.l1 ∧ ∀ p ∈ t.l1, p.2.current u = false ∨ p.2.current t = false)
          ∧ (wraps → (∀ p ∈ u.l1, p.2.v = false ∧ p.2.dmask ≠ 0)
            ∧ ∀ p ∈ t.l1, p.2.dmask ≠ 0 → (p.1, { p.2 with v := false }) ∈ u.l1)))

/-! ### Matrix unit -/

/-- R231: the value of one block pair is exact: an FP32 element takes the exact sum of the scaled products, rounded once;
an INT32 element takes the exact sum of the products, wrapped, an SP2 value counting 64 times. -/
def Obligations.BlockPairsAreExact : Prop :=
  ∀ (a b : Blk) (x y : Elt) (c : W32), eltOf a.d = some x → eltOf b.d = some y → x.count = y.count →
    let el (e : Elt) (d : Nat) (i : Nat) : Machine.Num := e.value (e.get d i)
    (∀ i < x.count, (el x a.data i).isFin ∧ (el y b.data i).isFin) →
    let sum : ℚ := ((List.range x.count).map fun i => (el x a.data i).toRat * (el y b.data i).toRat).sum
    (∀ j k, scaleOf a.d = some j → scaleOf b.d = some k → (fp32.decode c.toNat).isFin →
      ∃ v : Machine.Num, v.isFin ∧ v.toRat = (fp32.decode c.toNat).toRat + sum * (2 : ℚ) ^ (j + k)
        ∧ (accFp c a b).toNat = fp32.encode .near false v)
    ∧ (scaleOf a.d = none ∨ scaleOf b.d = none → (accFp c a b).toNat = fp32.nan)
    ∧ (pairOf true x y = true → ∃ z : Int, (z : ℚ) = sum * (if x = .sp2 ∨ y = .sp2 then 64 else 1)
        ∧ accInt c a b = c + BitVec.ofInt 32 z)

/-- R230, R231: a solo MMA updates every element of its tile from the operands as they stand at issue, and occupies its
array; classes that no pair admits, a descriptor of another width in A and then in B, and the first block pair outside R228 trap,
each with its TINFO, and change no tile.
R232: a quad's meeting multiplies each mate's A with the B of all four, advances every QSEQ and lets the mates go
on, in a cycle in which the tile issues (R303, R311) and in no other; R226: an MMA's array is free when it completes.
The model's own choice in it: log entry 37. -/
def Obligations.MatrixMultiply : Prop :=
  (∀ (s : State) (h : Hdr) (m : MmaM) (n : BitVec 2) (a b c e : BitVec 8) (p : Nat), m.quad = false →
      Ready h [] ([.a n] ++ mmaRegs m (.v a) (.v b) (.v c) (.v e)) s → mmaCheck m (.v a) (.v b) s = none →
      OnTile h [.a n] [p] s → s.accBad s.cur.gid [p] = none →
      (classesOk m = true → (s.subOf s.cur.gid).mma = none → BlocksFit m (s.blkA a c) (s.blkB b e) →
        ∃ t, exec (.mma h m (.a n) (.v a) (.v b) (.v c) (.v e)) s = .next t ∧ WentOn h.len.bytes s t
          ∧ (t.subOf s.cur.gid).mma = some (s.cur.gid, p)
          ∧ OnlyTile p (fun x _ => x) s (t.modSubOf s.cur.gid fun k => { k with mma := none })
          ∧ ∀ i, i < 32 →
            (∀ j < 32, (t.accAt s.cur.gid p).get i j = mmaEl m (s.blkA a c i) (s.blkB b e j) ((s.accAt s.cur.gid p).get i j))
            ∧ (t.accAt s.cur.gid p).rowMax i = (s.accAt s.cur.gid p).rowMax i
            ∧ (t.accAt s.cur.gid p).rowSum i = (s.accAt s.cur.gid p).rowSum i)
      ∧ (classesOk m = false → MayTrap s →
        Traps (.mma h m (.a n) (.v a) (.v b) (.v c) (.v e)) s .mxCombo (s.curG.pcOf s.cur.slices) 0)
      ∧ (classesOk m = true → (s.subOf s.cur.gid).mma = none → MayTrap s → ∀ i < 32, ∀ k < 2, (m.kh = true → k = 0) →
        let bad (i k : Nat) : Prop := widthClass (s.blkA a c i k).d ≠ m.acls.toNat
        bad i k → (∀ i' < 32, ∀ k' < 2, (m.kh = true → k' = 0) → (i' < i ∨ i' = i ∧ k' < k) → ¬bad i' k') →
        Traps (.mma h m (.a n) (.v a) (.v b) (.v c) (.v e)) s .mxWidth (s.curG.pcOf s.cur.slices)
          (BitVec.ofNat 64 (i + 64 * k + 128 * (s.blkA a c i k).d.toNat)))
      ∧ (classesOk m = true → (s.subOf s.cur.gid).mma = none → MayTrap s →
        let part (k : Nat) : Prop := k < 2 ∧ (m.kh = true → k = 0)
        (∀ i < 32, ∀ k, part k → widthClass (s.blkA a c i k).d = m.acls.toNat) →
        (∀ j < 32, ∀ k, part k →
          let bad (j k : Nat) : Prop := widthClass (s.blkB b e j k).d ≠ m.bcls.toNat
          bad j k → (∀ j' < 32, ∀ k', part k' → (j' < j ∨ j' = j ∧ k' < k) → ¬bad j' k') →
          Traps (.mma h m (.a n) (.v a) (.v b) (.v c) (.v e)) s .mxWidth (s.curG.pcOf s.cur.slices)
            (BitVec.ofNat 64 (j + 32 + 64 * k + 128 * (s.blkB b e j k).d.toNat)))
        ∧ ((∀ j < 32, ∀ k, part k → widthClass (s.blkB b e j k).d = m.bcls.toNat) →
          ∀ i < 32, ∀ j < 32, ∀ k, part k →
          let bad (k i j : Nat) : Prop := ∀ x y, eltOf (s.blkA a c i k).d = some x → eltOf (s.blkB b e j k).d = some y →
            pairOf m.si32 x y = false
          bad k i j → (∀ i' < 32, ∀ j' < 32, ∀ k', part k' →
            (k' < k ∨ k' = k ∧ (i' < i ∨ i' = i ∧ j' < j)) → ¬bad k' i' j') →
          Traps (.mma h m (.a n) (.v a) (.v b) (.v c) (.v e)) s .mxCombo (s.curG.pcOf s.cur.slices)
            (BitVec.ofNat 64 (i + 32 * j + 2 ^ 10 * k + 2 ^ 11 * (s.blkA a c i k).d.toNat
              + 2 ^ 27 * (s.blkB b e j k).d.toNat + 2 ^ 45)))))
  ∧ (∀ (s : State) (team quad tile sub : Nat) (ms : List Mate),
      let gids := (s.team team).groups.filter fun i => (s.group i).idx / 4 == quad
      let on := (s.team team).tile
      ((s.tile on).change ≠ none ∨ s.mayIssue on = false → exec (.mmaQMeeting team quad) s = .next s)
      ∧ ((s.tile on).change = none → s.mayIssue on = true → gids.Nodup → gids.length = 4 →
        (gids.filterMap s.mateOf).filterMap (·.2) = ms → ms.map (·.gid) = gids →
        (∀ i ∈ gids, (s.group i).ended = false ∧ (s.group i).stopped = false ∧ s.groups.get? i ≠ none
          ∧ (s.group i).team = team ∧ (s.group i).qseq = (s.group (gids.headD 0)).qseq) →
        (gids.map fun i => (s.group i).q).Nodup →
        (∀ k ∈ ms, (s.subOf k.gid).mma = none ∧ k.silent = false) → meetingTrap ms (ms.flatMap (·.b)) = none →
        ∃ t, exec (.mmaQMeeting team quad) s = .next t
          ∧ t = { s with groups := t.groups, subs := t.subs }
          ∧ (∀ i, i ∉ gids → t.groups.get? i = s.groups.get? i)
          ∧ ∀ k ∈ ms,
            t.group k.gid = { s.group k.gid with
              qseq := (s.group k.gid).qseq + 1, slices := (t.group k.gid).slices, gangs := (t.group k.gid).gangs }
            ∧ (∀ i, i < (s.group k.gid).slices.length → (t.group k.gid).slice i =
                if k.slices.getLsbD i = true then
                  { (s.group k.gid).slice i with pc := ((s.group k.gid).slice i).pc + BitVec.ofNat 56 k.h.len.bytes }
                else (s.group k.gid).slice i)
            ∧ (∀ x ∈ (t.group k.gid).gangs, x.slices &&& ~~~ k.slices = 0 → x.wait = .none)
            ∧ (t.subOf k.gid).mma = some (k.gid, k.phys)
            ∧ ∀ i j, i < 32 → j < 32 → (t.accAt k.gid k.phys).get i j =
              mmaEl k.m (k.a.blk i) (Rows.blk (ms.flatMap (·.b)) j) ((s.accAt k.gid k.phys).get i j))
      ∧ ((s.sub tile sub).mma ≠ none →
        ∃ t, exec (.mmaComplete tile sub) s = .next t ∧ t = { s with subs := t.subs }
          ∧ t.sub tile sub = { s.sub tile sub with mma := none }
          ∧ ∀ k, k ≠ subKey tile sub → t.subs.get? k = s.subs.get? k))

/-- R233-R235: an MLOOP joins its sub-core's queue with its parameters; the sequencer starts the first, each step
multiplies the blocks it reads from local store, and at the end the token counts down once, with the failure if there
was one.
The model's own choice in it: log entry 36. -/
def Obligations.MatrixLoops : Prop :=
  ∀ (s : State) (h : Hdr) (m : MmaM) (n : BitVec 2) (qa qb : BitVec 4) (c : BitVec 7) (e : BitVec 3) (p : Nat)
    (tile sub : Nat) (l : MLoop) (r : List MLoop),
    let ra := s.curG.b.getD qa.toNat 0
    let rb := s.curG.b.getD qb.toNat 0
    let g (i : Nat) : W64 := s.curG.viewG (c.toNat + i) (s.leader.getD 0 / 4)
    let inside (r : BitVec 256) (off : Nat) (inc : Int) : Prop := 64 ∣ off ∧ 64 ∣ inc ∧ ∀ k < field (g 2) 0 16,
      let o : Int := off + k * inc
      let top : Int := o + (if m.kh then 4032 else 4096)
      0 ≤ o ∧ top ≤ recExt r * recStr r ∧ recBase r + top ≤ s.grantOf s.curG
    (Ready h [] [.a n, .b qa, .b qb, .k e, .g c, .g (c + 1), .g (c + 2)] s → s.curG.level ≠ .m → c.toNat < 126 →
      OnTile h [.a n] [p] s → classesOk m = true → recordFault false ra = none → recordFault false rb = none →
      recR ra = true → recR rb = true → recSpc ra = spcLocal → recSpc rb = spcLocal → field (g 2) 16 48 = 0 →
      inside ra (field (g 0) 0 32) (asSigned 32 (field (g 1) 0 32)) →
      inside rb (field (g 0) 32 32) (asSigned 32 (field (g 1) 32 32)) →
      ∃ t x, exec (.mloop h m (.a n) (.b qa) (.b qb) (.g c) (.k e)) s = .next t ∧ WentOn h.len.bytes s t
        ∧ t = { s with groups := t.groups, subs := t.subs, nextId := s.nextId + 1 }
        ∧ t.curG = { s.curG with slices := t.curG.slices, gangs := t.curG.gangs }
        ∧ (∀ i, i ≠ s.cur.gid → t.groups.get? i = s.groups.get? i)
        ∧ t.subOf s.cur.gid = { s.subOf s.cur.gid with mloops := (s.subOf s.cur.gid).mloops ++ [x] }
        ∧ x.gid = s.cur.gid ∧ x.phys = p ∧ x.m = m ∧ x.recA = ra ∧ x.recB = rb ∧ x.next = 0 ∧ x.running = false
        ∧ x.failed = none ∧ x.tok = e.toNat ∧ x.count = field (g 2) 0 16
        ∧ x.offA = field (g 0) 0 32 ∧ x.incA = asSigned 32 (field (g 1) 0 32)
        ∧ x.offB = field (g 0) 32 32 ∧ x.incB = asSigned 32 (field (g 1) 32 32))
    ∧ ((s.sub tile sub).mloops = l :: r →
      let team := (s.group l.gid).team
      (∃ t, exec (.mloopStart tile sub 0) s = .next t ∧ t = { s with subs := t.subs }
        ∧ t.sub tile sub = { s.sub tile sub with mloops := { l with running := true } :: r })
      ∧ (l.next < l.count → l.failed = none → (s.team team).tile = tile → (s.group l.gid).q = sub →
        (s.group l.gid).ended = false →
        (s.tile tile).change = none → s.mayIssue tile = true → s.localPending l.gid l.slices l.id = false →
        s.accBad l.gid [l.phys] = none →
        let oa := (l.offA + l.next * l.incA).toNat
        let ob := (l.offB + l.next * l.incB).toNat
        let a (i p : Nat) : Blk := s.localBlk team l.recA (oa + 128 * i + 64 * p)
        let b (i p : Nat) : Blk := s.localBlk team l.recB (ob + 128 * i + 64 * p)
        (∀ k, s.blockBusy tile k = false ∧ s.isBad (.store tile k) = false) → BlocksFit l.m a b →
        ∃ t, exec (.mloopStart tile sub 1) s = .next t ∧ t = { s with subs := t.subs }
          ∧ (t.sub tile sub).mloops = { l with running := true, next := l.next + 1 } :: r
          ∧ ∀ i j, i < 32 → j < 32 → (t.accAt l.gid l.phys).get i j =
            mmaEl l.m (a i) (b j) ((s.accAt l.gid l.phys).get i j))
      ∧ (l.running = true → l.next = l.count ∨ l.failed ≠ none → s.teams.get? team ≠ none →
        (∃ i ∈ (s.team team).groups, (s.group i).ended = false) →
        ∃ t, exec (.mloopComplete tile sub) s = .next t ∧ t = { s with subs := t.subs, teams := t.teams }
          ∧ t.sub tile sub = { s.sub tile sub with mloops := r }
          ∧ (∀ j, j ≠ l.tok → (t.team team).token j = (s.team team).token j)
          ∧ ((t.team team).token l.tok).count = ((s.team team).token l.tok).count - 1
          ∧ (((t.team team).token l.tok).under = (((s.team team).token l.tok).under
              || decide (((s.team team).token l.tok).count = 0)))
          ∧ (l.failed = none → ((t.team team).token l.tok).err = ((s.team team).token l.tok).err)
          ∧ ∀ x y z, l.failed = some (x, y, z) → ((s.team team).token l.tok).err = false →
            ((t.team team).token l.tok).err = true ∧ ((t.team team).token l.tok).cause = BitVec.ofNat 8 x
            ∧ ((t.team team).token l.tok).reason = BitVec.ofNat 8 y
            ∧ ((t.team team).token l.tok).eidx = z % 2 ^ 20))

/-- R238: a softmax step, row by row: every product and difference rounded in FP32, powers of two rounded into BF16 and
FP32, the exact row sum rounded once; the probabilities go to the registers of the row's lane.
The model's own choice in it: log entry 62. -/
def Obligations.SoftmaxStep : Prop :=
  ∀ (s : State) (h : Hdr) (d : BitVec 8) (a b : BitVec 2) (c : Spec) (p q : Nat),
    s.curG.level ≠ .m → s.rangeOut (.v d) 8 = false → d.toNat + 8 ≤ 256 → Ready h (vRange (.v d) 8) [.a a, .a b, c] s →
    OnTile h [.a a, .a b] [p, q] s → s.accBad s.cur.gid [p, q] = none →
    let f := fp32.decode
    let rnd := fp32.encode .near false
    let x := s.accAt s.cur.gid p
    let o := s.accAt s.cur.gid q
    let scale := sub 32 (s.leaderSrc h .rep32 c) 0
    let tv (i j : Nat) : Nat := rnd ((f scale).mul (f (x.get i j).toNat))
    ∃ (t : State) (prob : Nat → Nat → Nat) (alpha mx : Nat → Nat), exec (.smx h (.v d) (.a a) (.a b) c) s = .next t
      ∧ WentOn h.len.bytes s t
      ∧ OnlyTile q (fun u v => { u with v := v.v }) s t
      ∧ (∀ r l, l < 32 → (r < d.toNat ∨ d.toNat + 8 ≤ r) → t.curG.laneV r l = s.curG.laneV r l)
      ∧ ∀ i, i < 32 →
        mx i = ((List.range 32).map (tv i)).foldl (fminmax fp32 true true) (o.rowMax i).toNat
        ∧ (mx i = 0xFF800000 → (∀ j < 32, prob i j = 0) ∧ alpha i = 0x3F800000)
        ∧ (mx i ≠ 0xFF800000 →
          (∀ j < 32, prob i j = bf16.ex2 .near false (f (rnd ((f (tv i j)).add .near (f (mx i)).neg))))
          ∧ alpha i = fp32.ex2 .near false (f (rnd ((f (o.rowMax i).toNat).add .near (f (mx i)).neg))))
        ∧ (∀ j < 32, ((t.accAt s.cur.gid q).get i j).toNat = rnd ((f (o.get i j).toNat).mul (f (alpha i))))
        ∧ ((t.accAt s.cur.gid q).rowMax i).toNat = mx i
        ∧ ((t.accAt s.cur.gid q).rowSum i).toNat =
          rnd ((f (rnd ((f (o.rowSum i).toNat).mul (f (alpha i))))).add .near
            (Num.sum .near ((List.range 32).map fun j => bf16.decode (prob i j))))
        ∧ ∀ j < 8, ∀ k < 4, sub 16 (t.curG.laneV (d.toNat + j) i) k = prob i (4 * j + k)

/-- R239, R242, R243: tiles cleared, moved between accumulator and registers in every form, and queried. -/
def Obligations.TilesClearedAndMoved : Prop :=
  ∀ (s : State) (h : Hdr) (side : Bool) (part : BitVec 2) (n k : BitVec 2) (v : BitVec 8) (d : Spec) (p q : Nat),
    let same : Group → Group → Group := fun x _ => x
    let x := s.accAt s.cur.gid p
    let y := s.accAt s.cur.gid q
    let wide := if side then 1 else 16
    s.curG.level ≠ .m →
    (Ready h [] [.a n] s → OnTile h [.a n] [p] s → part ≠ 3 →
      ∃ t, exec (.accz h part (.a n)) s = .next t ∧ WentOn h.len.bytes s t ∧ OnlyTile p same s t
        ∧ ∀ i j, i < 32 → j < 32 →
          (t.accAt s.cur.gid p).get i j = (if part = 2 then x.get i j else 0)
          ∧ (t.accAt s.cur.gid p).rowMax i = (if part = 1 then x.rowMax i else 0xFF800000)
          ∧ (t.accAt s.cur.gid p).rowSum i = if part = 1 then x.rowSum i else 0)
    ∧ (s.rangeOut (.v v) wide = false → v.toNat + wide ≤ 256 →
      (Ready h (vRange (.v v) wide) [.a n] s → OnTile h [.a n] [p] s → s.accBad s.cur.gid [p] = none →
        ∃ t, exec (.accmv h side (.v v) (.a n)) s = .next t ∧ WentOn h.len.bytes s t
          ∧ t = { s with groups := t.groups, bad := t.bad }
          ∧ (∀ i, i ≠ s.cur.gid → t.groups.get? i = s.groups.get? i)
          ∧ t.curG = { s.curG with v := t.curG.v, slices := t.curG.slices, gangs := t.curG.gangs }
          ∧ (∀ r l, l < 32 → (r < v.toNat ∨ v.toNat + wide ≤ r) → t.curG.laneV r l = s.curG.laneV r l)
          ∧ ∀ l j, l < 32 → j < wide →
            sub 32 (t.curG.laneV (v.toNat + j) l) 0 = (if side then x.rowMax l else x.get l (2 * j)).toNat
            ∧ sub 32 (t.curG.laneV (v.toNat + j) l) 1 = (if side then x.rowSum l else x.get l (2 * j + 1)).toNat)
      ∧ (Ready h [.a n] (vRange (.v v) wide) s → OnTile h [.a n] [p] s →
        ∃ t, exec (.accmv h side (.a n) (.v v)) s = .next t ∧ WentOn h.len.bytes s t ∧ OnlyTile p same s t
          ∧ ∀ i j, i < 32 → j < 32 →
            let half (r k : Nat) : Nat := sub 32 (s.curG.laneV (v.toNat + r) i) k
            ((t.accAt s.cur.gid p).get i j).toNat = (if side then (x.get i j).toNat else half (j / 2) (j % 2))
            ∧ ((t.accAt s.cur.gid p).rowMax i).toNat = (if side then half 0 0 else (x.rowMax i).toNat)
            ∧ ((t.accAt s.cur.gid p).rowSum i).toNat = if side then half 0 1 else (x.rowSum i).toNat))
    ∧ (Ready h [.a n] [.a k] s → OnTile h [.a n, .a k] [p, q] s → s.accBad s.cur.gid [q] = none →
      ∃ t, exec (.accmv h side (.a n) (.a k)) s = .next t ∧ WentOn h.len.bytes s t ∧ OnlyTile p same s t
        ∧ ∀ i j, i < 32 → j < 32 →
          (t.accAt s.cur.gid p).get i j = (if side then x else y).get i j
          ∧ (t.accAt s.cur.gid p).rowMax i = (if side then y else x).rowMax i
          ∧ (t.accAt s.cur.gid p).rowSum i = (if side then y else x).rowSum i)
    ∧ (Ready h [d] [.a n] s → Room h d s → s.resultLanes h d ≠ [] → s.tilesOf s.cur.gid [.a n] = .ok [p] → p < 8 →
      s.tileBusy s.cur.gid p = false ∨ (∃ l ∈ (s.subOf s.cur.gid).mloops, l.phys = p) →
      Gives (.accq h d (.a n)) h d s fun _ z =>
        field z 2 62 = p ∧ (z.getLsbD 1 = true ↔ ∀ i < 32, x.rowMax i = 0xFF800000 ∧ x.rowSum i = 0)
        ∧ (z.getLsbD 0 = true ↔ ∃ l ∈ (s.subOf s.cur.gid).mloops, l.phys = p))

/-! ### Rendezvous, gears, naps -/

/-- R293: counting at a team point. RVINIT sets the count once; RVARR arms the group at the point's round; RVWAIT waits
while that round lasts, and returns at once where no arrival is armed; RVTEST tells whether it is over.
R293, R294: the arrival that completes a team point's round releases it: the count and MERGE are cleared, the round
counts on, and the groups that wait there on the old round are freed, all at once where CSLEW lets one wave hold them, else in
waves of the size that CSLEW had at the release (R307); in a changeover none is freed and no release reaches the tile (R304).
The model's own choice in it: log entry 58. -/
def Obligations.Rendezvous : Prop :=
  (∀ (s : State) (h : Hdr) (rp : BitVec 5) (a d : Spec) (idle : Bool),
      let n := rp.toNat
      let pt := s.curT.points.getD n RvPoint.reset
      let arm := s.curG.rv.getD n ⟨false, 0, 0⟩
      let lasts : Prop := arm.sent ≠ 0 ∨ arm.round = pt.round
      let points (t : State) (p : RvPoint) : Prop :=
        ∀ j, t.curT.points.getD j RvPoint.reset = if j = n then p else s.curT.points.getD j RvPoint.reset
      let pointsOnly (x y : Team) : Team := { x with points := y.points }
      n < 24 → s.curG.level ≠ .m → s.teams.get? s.curG.team ≠ none → s.uniform h = true →
      (Ready h [] [a] s →
        let count := min (s.leaderSrc h .zx64 a).toNat 32
        (pt.exp = 0 → pt.arr < count →
          ∃ t, exec (.rvinit h rp a) s = .next t ∧ WentOn h.len.bytes s t ∧ OnlyTeam pointsOnly s t
            ∧ points t { pt with exp := count })
        ∧ (pt.exp ≠ 0 ∨ count = 0 →
          ∃ t, exec (.rvinit h rp a) s = .next t ∧ WentOn h.len.bytes s t ∧ OnlyTeam (fun x _ => x) s t))
      ∧ (Ready h [] [] s → s.curG.whole s.cur.slices = true →
        (s.myAccesses = [] → pt.merge = false → (pt.exp = 0 ∨ pt.arr + 1 < pt.exp) →
          ∃ t, exec (.rvarr h rp) s = .next t ∧ WentOn h.len.bytes s t
            ∧ t = { s with groups := t.groups, teams := t.teams }
            ∧ (∀ i, i ≠ s.cur.gid → t.groups.get? i = s.groups.get? i)
            ∧ (∀ i, i ≠ s.curG.team → t.teams.get? i = s.teams.get? i) ∧ t.curT = pointsOnly s.curT t.curT
            ∧ points t { pt with arr := pt.arr + 1 }
            ∧ t.curG = { s.curG with rv := t.curG.rv, slices := t.curG.slices, gangs := t.curG.gangs }
            ∧ ∀ j, t.curG.rv.get? j = if j = n then some ⟨true, pt.round, arm.sent⟩ else s.curG.rv.get? j)
        ∧ (s.myAccesses = [] → pt.merge = true → MayTrap s →
          Traps (.rvarr h rp) s .mergeCount (s.curG.pcOf s.cur.slices) (BitVec.ofNat 64 (n + 256 + pt.exp * 65536)))
        ∧ (arm.armed = true → lasts →
          ∃ t, exec (.rvwait h rp idle) s = .next t ∧ t.curG.slices = s.curG.slices ∧ t.teams = s.teams ∧ t.mem = s.mem
            ∧ t.curG.rv = s.curG.rv ∧ LeftSlot s.cur.gid .pool s t
            ∧ t.curG.gangs = s.curG.gangs.map fun x =>
                if x.slices &&& ~~~ s.cur.slices = 0 then { x with wait := .rv n idle } else x)
        ∧ (arm.armed = true → ¬lasts →
          ∃ t, exec (.rvwait h rp idle) s = .next t ∧ WentOn h.len.bytes s t
            ∧ t = { s with groups := t.groups, mons := t.mons, free := t.free }
            ∧ (∀ i, i ≠ s.cur.gid → t.groups.get? i = s.groups.get? i)
            ∧ t.curG = { s.curG with rv := t.curG.rv, slices := t.curG.slices, gangs := t.curG.gangs }
            ∧ ∀ j, t.curG.rv.get? j = if j = n then some { arm with armed := false } else s.curG.rv.get? j)
        ∧ (arm.armed = false →
          ∃ t, exec (.rvwait h rp idle) s = .next t ∧ WentOn h.len.bytes s t ∧ OnlyTeam (fun x _ => x) s t))
      ∧ (Ready h [d] [] s → Room h d s → s.resultLanes h d ≠ [] →
        let fin : Bool := !(arm.armed && (arm.sent ≠ 0 ∨ arm.round = pt.round))
        ∃ t f, exec (.rvtest h rp d) s = .next t ∧ WentOn h.len.bytes s t
          ∧ Wrote d (s.resultLanes h d) f s t ∧ (∀ l, f l = if fin then 1 else 0)
          ∧ t.mem = s.mem ∧ t.tiles = s.tiles
          ∧ ∀ j, t.curG.rv.get? j = if j = n ∧ fin = true then some { arm with armed := false } else s.curG.rv.get? j))
  ∧ (∀ (s : State) (h : Hdr) (rp : BitVec 5) (k : Nat) (m : RvMsg) (tile : Nat) (w : Wave) (r : List Wave),
      let n := rp.toNat
      let pt := s.curT.points.getD n RvPoint.reset
      let arm (i j : Nat) : RvArm := (s.group i).rv.getD j ⟨false, 0, 0⟩
      let steady (tile rp : Nat) : Prop := (s.tile tile).change = none ∧ s.wantGear tile = (s.tile tile).gear
        ∧ ∀ p ∈ s.groups, ∀ x ∈ p.2.gangs, x.wait ≠ .rv rp true
      (n < 24 → s.curG.level ≠ .m → s.teams.get? s.curG.team ≠ none → s.uniform h = true → Ready h [] [] s →
        s.curG.whole s.cur.slices = true → s.myAccesses = [] → pt.merge = false → pt.exp ≠ 0 → pt.exp ≤ pt.arr + 1 →
        s.curT.groups.length ≤ field (s.tile s.curTile).cslew 0 8 → s.curT.groups.Nodup → steady s.curTile n →
        ∃ t, exec (.rvarr h rp) s = .next t ∧ WentOn h.len.bytes s t
          ∧ t = { s with groups := t.groups, teams := t.teams, tiles := t.tiles, nextId := t.nextId }
          ∧ t.curT = { s.curT with points := t.curT.points }
          ∧ (∀ j, t.curT.points.getD j RvPoint.reset = if j = n then { pt with arr := 0, merge := false, round := pt.round + 1 }
              else s.curT.points.getD j RvPoint.reset)
          ∧ t.curG.rv.get? n = some ⟨true, pt.round, (arm s.cur.gid n).sent⟩
          ∧ (∀ i ∈ s.curT.groups, i ≠ s.cur.gid → (s.group i).team = s.curG.team → s.groups.get? i ≠ none →
              arm i n = ⟨true, pt.round, 0⟩ →
              (∀ x ∈ (s.group i).gangs, ∀ q b, x.wait ≠ .curtain q b) →
              (t.group i).slices = (s.group i).slices
              ∧ (t.group i).gangs = (s.group i).gangs.map fun x : SubGang => match x.wait with
                | .rv q b => if q = n then { x with wait := .freed } else { x with wait := .rv q b }
                | _ => x)
          ∧ ∀ i, i ∉ s.curT.groups → i ≠ s.cur.gid → t.groups.get? i = s.groups.get? i)
      ∧ (s.arrivals.get? k = some m → (∀ i ∈ m.wbs, s.inFlight i = false) → 24 ≤ m.rp →
        let team := (s.group m.gid).team
        let cl := (s.team team).cluster
        let p := (s.cluster cl).points.getD m.rp RvPoint.reset
        s.groups.get? m.gid ≠ none → s.teams.get? team ≠ none → s.clusters.get? cl ≠ none → (p.exp = 0 ∨ p.arr + 1 < p.exp) →
        ∃ t, exec (.rvArrival k) s = .next t
          ∧ t = { s with groups := t.groups, teams := t.teams, clusters := t.clusters, arrivals := s.arrivals.del k }
          ∧ t.cluster cl = { s.cluster cl with points := (t.cluster cl).points }
          ∧ (∀ j, (t.cluster cl).points.getD j RvPoint.reset =
              if j = m.rp then { p with arr := p.arr + 1 } else (s.cluster cl).points.getD j RvPoint.reset)
          ∧ (t.group m.gid).rv.get? m.rp = some ⟨true, p.round, (arm m.gid m.rp).sent - 1⟩)
      ∧ (s.releases.get? k = some m → steady m.tile m.rp → m.tile = (s.team m.gid).tile → 24 ≤ m.rp →
        (∀ q ∈ s.releases, q.1 < k → q.2.cluster = m.cluster → q.2.rp = m.rp → q.2.tile ≠ m.tile) →
        s.teams.get? m.gid ≠ none → (m.round - (s.team m.gid).seen.getD m.rp 0).toNat ∈ Set.Ioo 0 32768 →
        (s.team m.gid).groups.length ≤ field (s.tile m.tile).cslew 0 8 → (s.team m.gid).groups.Nodup →
        ∃ t, exec (.rvRelease k) s = .next t ∧ t.releases = s.releases.del k ∧ t.mem = s.mem
          ∧ t.team m.gid = { s.team m.gid with seen := (t.team m.gid).seen }
          ∧ (t.team m.gid).seen.get? m.rp = some m.round
          ∧ ∀ i ∈ (s.team m.gid).groups, (s.group i).team = m.gid → s.groups.get? i ≠ none →
            (arm i m.rp).sent = 0 → (arm i m.rp).round ≠ m.round →
            ∀ (j : Nat) (x : SubGang), (s.group i).gangs[j]? = some x → ∀ b, x.wait = .rv m.rp b →
              (t.group i).gangs[j]? = some { x with wait := .freed })
      ∧ ((s.tile tile).waves = w :: r → (s.tile tile).change = none →
        let freed (l : List Nat) (t : State) : Prop := t = { s with groups := t.groups, tiles := t.tiles, nextId := t.nextId }
          ∧ ∀ i, s.groups.get? i ≠ none →
            t.group i = { s.group i with gangs := (t.group i).gangs, age := (t.group i).age }
            ∧ (t.group i).gangs = (s.group i).gangs.map fun x : SubGang => match x.wait with
              | .curtain q again => if i ∈ l then { x with wait := if again then .freed else .none }
                else { x with wait := .curtain q again }
              | _ => x
        (w.begun = true → ∃ t, exec (.curtainWave tile) s = .next t ∧ freed (w.groups.take w.size) t
          ∧ (t.tile tile).waves = if w.groups.length ≤ w.size then r else { w with groups := w.groups.drop w.size } :: r)
        ∧ (w.begun = false →
          let waves : Prop := (s.tile tile).gear = true ∧ w.size ≠ 0 ∧ w.size < w.groups.length
          (¬waves → ∃ t, exec (.curtainWave tile) s = .next t ∧ freed w.groups t ∧ (t.tile tile).waves = r)
          ∧ (waves → ∃ t, exec (.curtainWave tile) s = .next t ∧ freed (w.groups.take w.size) t
            ∧ (t.tile tile).waves = { w with groups := w.groups.drop w.size, begun := true } :: r)))
      ∧ ((s.tile tile).waves = w :: r → (s.tile tile).change ≠ none → exec (.curtainWave tile) s = .next s)
      ∧ (s.releases.get? k = some m → (s.tile m.tile).change ≠ none → exec (.rvRelease k) s = .next s))

/-- R300, R302-R304: a gear instruction sets its team's request, and a tile whose decided gear differs from the present
one starts a changeover; at its end the new gear is in force and the rule is applied again.
R298: a frequency write gives clamped targets, kept back during a changeover; the FLL moves one code a step toward
the target in force and acknowledges it on arrival.
The model's own choice in it: log entry 50. -/
def Obligations.GearsAndFrequencies : Prop :=
  (∀ (s : State) (h : Hdr) (f : Bool) (d : Spec) (tile : Nat) (val : W64),
      let decided (t : State) (n : Nat) : Prop := (t.tile n).change =
        if (s.tile n).change = none ∧ n < 192 ∧ t.wantGear n ≠ (s.tile n).gear then some (t.wantGear n) else (s.tile n).change
      (∀ n, s.wantGear n = true ↔ (s.tile n).gcap.getLsbD 0 = true ∧ s.critOn n = false
        ∧ (∃ x ∈ s.teams, x.2.tile = n ∧ x.2.ended = false ∧ x.2.req = true
          ∧ ¬((∃ i ∈ x.2.groups, (s.group i).ended = false)
            ∧ ∀ i ∈ x.2.groups, (s.group i).ended = true ∨ ∃ y ∈ (s.group i).gangs, ∃ q, y.wait = .rv q true)))
      ∧ (s.curG.level ≠ .m → s.teams.get? s.curG.team ≠ none →
        (Ready h [] [] s → s.uniform h = true →
          ∃ t, exec (.gearSet h f) s = .next t ∧ WentOn h.len.bytes s t
            ∧ OnlyTeam (fun x _ => { x with req := f }) s { t with tiles := s.tiles }
            ∧ decided t s.curTile ∧ (t.tile s.curTile) = { s.tile s.curTile with
                change := (t.tile s.curTile).change
                lastCycle := if (t.tile s.curTile).change = (s.tile s.curTile).change then (s.tile s.curTile).lastCycle
                  else true }
            ∧ ∀ n, n ≠ s.curTile → t.tile n = s.tile n)
        ∧ (Ready h [d] [] s → Room h d s → Gives (.gearQ h d) h d s fun _ x => x = if s.curT.req then 1 else 0))
      ∧ ((s.tile tile).change = some f → (s.tile tile).freqPend = none → tile < 192 →
        (∀ x ∈ s.teams, x.2.tile = tile → x.2.ended = false → (s.cluster x.2.cluster).state ≠ .stopping) →
        ∃ t, exec (.changeoverComplete tile) s = .next t ∧ t = { s with tiles := t.tiles }
          ∧ (∀ n, n ≠ tile → t.tile n = s.tile n)
          ∧ t.tile tile = { s.tile tile with
              gear := f
              nfNow := if f then (s.tile tile).nfNow else field (s.tile tile).tfreq 8 8
              lastCycle := decide (t.wantGear tile ≠ f)
              change := if t.wantGear tile ≠ f then some (t.wantGear tile) else none })
      ∧ (tile < 192 →
        (∃ t, exec (.gcapWrite .mgmt tile val) s = .next t ∧ t = { s with tiles := t.tiles, sm := t.sm }
          ∧ (∀ n, n ≠ tile → t.tile n = s.tile n) ∧ decided t tile
          ∧ t.tile tile = { s.tile tile with
              gcap := BitVec.ofNat 64 (val.toNat % 2), change := (t.tile tile).change
              lastCycle := if (t.tile tile).change = (s.tile tile).change then (s.tile tile).lastCycle else true })
        ∧ ∃ t, exec (.gcapWrite .host tile val) s = .next t ∧ t = { s with sm := t.sm }))
  ∧ (∀ (s : State) (tile : Nat) (val : W64), tile < 192 →
      let x := s.tile tile
      let ff := max 40 (min 132 (field val 0 8))
      let nf := max 20 (min 44 (field val 8 8))
      (x.change = none →
        ∃ t, exec (.tfreqWrite .mgmt tile val) s = .next t ∧ t = { s with tiles := t.tiles, sm := t.sm }
          ∧ (∀ n, n ≠ tile → t.tile n = s.tile n)
          ∧ t.tile tile = { x with
              tfreq := BitVec.ofNat 64 (field val 32 16 * 2 ^ 32 + nf * 256 + ff)
              ffTarget := ff, tgtSeq := field val 32 16, ramp := decide (x.fll ≠ ff)
              ackseq := if x.fll = ff then field val 32 16 else x.ackseq
              lastCycle := if nf ≠ x.nfNow ∧ x.gear = false then true else x.lastCycle
              change := if nf ≠ x.nfNow ∧ x.gear = false then some false else none })
      ∧ (x.change ≠ none →
        ∃ t, exec (.tfreqWrite .mgmt tile val) s = .next t ∧ t = { s with tiles := t.tiles, sm := t.sm }
          ∧ (∀ n, n ≠ tile → t.tile n = s.tile n) ∧ t.tile tile = { x with freqPend := some val })
      ∧ (x.ramp = true → x.fll ≠ x.ffTarget →
        let f := if x.fll < x.ffTarget then x.fll + 1 else x.fll - 1
        ∃ t, exec (.fllRampStep tile) s = .next t ∧ t = { s with tiles := t.tiles }
          ∧ (∀ n, n ≠ tile → t.tile n = s.tile n)
          ∧ t.tile tile = { x with
              fll := f, ramp := decide (f ≠ x.ffTarget), ackseq := if f = x.ffTarget then x.tgtSeq else x.ackseq }))

/-- R290: NAP with a count above zero holds its sub-gang where it is for that many cycles, at most 2^20; the group leaves
its slot when every sub-gang naps. When the nap ends the sub-gang goes on behind its NAP. -/
def Obligations.Naps : Prop :=
  ∀ (s : State) (h : Hdr) (a : Spec) (gid low : Nat),
    (Ready h [] [a] s → s.uniform h = true → s.leaderSrc h .zx64 a ≠ 0 →
      let n := min (s.leaderSrc h .zx64 a).toNat (2 ^ 20)
      let leaves : Prop := s.curG.level ≠ .m ∧ (∃ k, s.curG.place = .slot k)
        ∧ ∀ x ∈ s.curG.gangs, x.slices &&& ~~~ s.cur.slices = 0 ∨ ∃ c l, x.wait = .nap c l
      ∃ t, exec (.nap h a) s = .next t ∧ t = { s with groups := t.groups, subs := t.subs, nextId := t.nextId }
        ∧ (∀ i, i ≠ s.cur.gid → t.groups.get? i = s.groups.get? i)
        ∧ t.curG = { s.curG with gangs := t.curG.gangs, place := t.curG.place, age := t.curG.age }
        ∧ (t.curG.gangs = s.curG.gangs.map fun x : SubGang =>
            if x.slices &&& ~~~ s.cur.slices = 0 then { x with wait := .nap n h.len.bytes } else x)
        ∧ (leaves → LeftSlot s.cur.gid .pool s t)
        ∧ (¬leaves → t = { s with groups := t.groups } ∧ t.curG.place = s.curG.place ∧ t.curG.age = s.curG.age))
    ∧ (Ready h [] [a] s → s.leaderSrc h .zx64 a = 0 ∨ s.uniform h = false → Gives (.nap h a) h .zero s fun _ _ => True)
    ∧ (s.groups.get? gid ≠ none → ∀ m c n p, (s.group gid).gangAt low = some ⟨m, .nap c n, p⟩ →
      let g := s.group gid
      ∃ t, exec (.napExpire gid low) s = .next t ∧ t = { s with groups := t.groups, nextId := t.nextId }
        ∧ (∀ i, i ≠ gid → t.groups.get? i = s.groups.get? i)
        ∧ t.group gid = { g with slices := (t.group gid).slices, gangs := (t.group gid).gangs, age := (t.group gid).age }
        ∧ (∀ i, (t.group gid).slice i = if m.getLsbD i = true ∧ i < g.slices.length then
            { g.slice i with pc := (g.slice i).pc + BitVec.ofNat 56 n } else g.slice i)
        ∧ (t.group gid).gangs = g.gangs.map fun x : SubGang =>
            if x.slices &&& ~~~ m = 0 then { x with wait := .none } else x)
    ∧ ((∀ x, (s.group gid).gangAt low = some x → ∀ c n, x.wait ≠ .nap c n) → exec (.napExpire gid low) s = .next s)

/-! ### System -/

/-- R315-R317, R323: TRAP and BKPT enter the handler: the cause, the address to return to and the detail are saved, with the
level, the masks and the interrupt enable; the slices go to TVEC with every live lane active. With a false guard they do
nothing.
R315: a synchronous trap in S mode is nested: the group ends and an entry of kind 7 with the cause is posted. One that
the stage manager takes inside a handler restarts its core from the boot ROM: SRAM starts from the image, laid out as R351
gives, registers from zero, and the device registers keep their values.
The model's own choices in it: log entry 2; log entry 52: what the stage manager had under way, and the errors marked in its
registers, end with the restart. -/
def Obligations.TrapEntry : Prop :=
  (∀ (s : State) (h : Hdr) (a : Spec),
      let pc := s.curG.pcOf s.cur.slices
      (Ready h [] [a] s → s.uniform h = true → MayTrap s →
        Traps (.trap h a) s .trap (pc + BitVec.ofNat 56 h.len.bytes) (s.leaderSrc h .zx64 a))
      ∧ (Ready h [] [] s → s.uniform h = true → MayTrap s → Traps (.bkpt h) s .bkpt pc 0)
      ∧ (Ready h [] [a] s → s.uniform h = false → Gives (.trap h a) h .zero s fun _ _ => True)
      ∧ (Ready h [] [] s → s.uniform h = false → Gives (.bkpt h) h .zero s fun _ _ => True))
  ∧ (∀ (s : State) (h : Hdr), Ready h [] [] s → s.uniform h = true →
      (s.curG.level = .s → s.curG.ended = false → s.fq.enabled = false → EndsNested (.bkpt h) s .bkpt)
      ∧ (s.cur.gid = 0 → s.curG.level = .m → s.curG.tstate.getLsbD 45 = true → s.sm.sram.wf = true →
        ∃ t, exec (.bkpt h) s = .next t
          ∧ t = { s with
              groups := t.groups, teams := t.teams, sm := t.sm, att := t.att, bad := t.bad, accs := t.accs, fences := t.fences
              tlbis := t.tlbis }
          ∧ (∀ r, ErrPlace.reg 0 r ∉ t.bad) ∧ (∀ p ∈ s.bad, (∀ r, p ≠ .reg 0 r) → p ∈ t.bad)
          ∧ (∀ p, p ∈ t.accs ↔ p ∈ s.accs ∧ p.2.gid ≠ 0) ∧ (∀ i, i ≠ 0 → t.groups.get? i = s.groups.get? i)
          ∧ t.sm = { s.sm with sram := t.sm.sram, halted := t.sm.halted, ctxid := 0, tvec := 0, ioRead := 0 }
          ∧ (t.group 0).level = .m ∧ (t.group 0).tstate = 0 ∧ (t.group 0).v = [] ∧ (t.group 0).g = []
          ∧ (t.sm.halted = false ↔ imageOk s.att.flash = true)
          ∧ (imageOk s.att.flash = true →
            ((t.group 0).slice 0).pc = BitVec.ofNat 56 (leNat ((s.att.flash.drop 12).take 4)) ∧ t.att.recovery = false
            ∧ ∀ i, i < 524288 → t.sm.sram.read i =
                (if i < leNat ((s.att.flash.drop 8).take 4) then ((s.att.flash.drop 64)[i]?).getD 0 else s.sm.sram.read i))))

/-- R324, R332: ERET gives back the level, the masks, the interrupt enable and the PC that trap entry saved; issued by any other
set of slices than the saved one it is ILL. A group that took `PREEMPT` on its way out stops there and leaves its slot. -/
def Obligations.ReturnFromTrap : Prop :=
  ∀ (s : State) (h : Hdr), Ready h [] [] s → s.uniform h = true → s.curG.level ≠ .u →
    let g := s.curG
    (s.cur.slices = g.tstate.extractLsb' 32 8 →
      ∃ t, exec (.eret h) s = .next t
        ∧ (∀ i, i ≠ s.cur.gid → t.groups.get? i = s.groups.get? i)
        ∧ t.curG = { g with
            level := t.curG.level, tstate := t.curG.tstate, accsel := t.curG.accsel, slices := t.curG.slices
            gangs := t.curG.gangs, inAccFirst := false, stopped := t.curG.stopped, preempting := t.curG.preempting
            slicing := t.curG.slicing, place := t.curG.place, age := t.curG.age }
        ∧ (g.preempting = false → t = { s with groups := t.groups } ∧ t.curG.stopped = g.stopped
          ∧ t.curG.preempting = false ∧ t.curG.slicing = g.slicing ∧ t.curG.place = g.place ∧ t.curG.age = g.age)
        ∧ (g.preempting = true → g.level = .s → t = { s with groups := t.groups, subs := t.subs, nextId := t.nextId }
          ∧ t.curG.stopped = true ∧ t.curG.preempting = false ∧ t.curG.slicing = .no
          ∧ (g.place = .loft → t.subs = s.subs ∧ t.curG.place = .loft) ∧ (g.place ≠ .loft → LeftSlot s.cur.gid .pool s t))
        ∧ t.curG.level = (if g.level = .m then .m else if g.tstate.getLsbD 44 = true then .s else .u)
        ∧ (∀ i, i < 64 → t.curG.tstate.getLsbD i =
            if i = 45 then false else if i = 46 then g.tstate.getLsbD 47 else g.tstate.getLsbD i)
        ∧ t.curG.accsel = g.accsel &&& 7
        ∧ (∀ i, t.curG.slice i = if s.cur.slices.getLsbD i = true ∧ i < g.slices.length then
            { g.slice i with am := BitVec.ofNat 4 (g.tstate.toNat / 2 ^ (4 * i)) &&& (g.slice i).live
                             pc := g.tpc.truncate 56 } else g.slice i)
        ∧ Parted s t)
    ∧ (s.cur.slices ≠ g.tstate.extractLsb' 32 8 → g.level = .m → MayTrap s →
      Traps (.eret h) s .ill (g.pcOf s.cur.slices) s.cur.word)

/-- R321, R322, R328: which reads and writes of which CSR the level and the grants allow.
R122, R325, R328, R335: what a CSR reads, by its number, where they allow the read.
R122, R325, R328, R329, R335: what a CSR write changes, with the bits each register keeps, and that it changes nothing
else; through COHDATA, the coherence register that COHADDR selects, those marked M being read-only there.
The model's own choices in it: log entries 11, 50 and 75. -/
def Obligations.ControlRegisters : Prop :=
  (∀ (s : State) (n : Nat) (w : Bool),
      let grants := s.ctxWord (s.ctxOf s.curG) 0
      let m : Prop := s.curG.level = .m
      csrCheck n w s = none ↔
        (n < 0x14 ∧ n ≠ 7) ∧ ¬(m ∧ (8 ≤ n ∧ n ≤ 0x0B ∨ 0x0E ≤ n ∧ n ≤ 0x12))
        ∧ (w = false → n ∉ [0x00, 0x0E, 0x0F, 0x10] → s.curG.level ≠ .u)
        ∧ (w = true → s.curG.level ≠ .u ∧ n ≠ 0x0F ∧ (n = 0x00 ∨ n = 0x0C → m))
        ∧ (n = 0x11 ∨ n = 0x12 → grants.getLsbD 3 = true)
        ∧ (n = 0x13 → w = true → s.curG.level = .s → grants.getLsbD 4 = true))
  ∧ (∀ (s : State) (h : Hdr) (n : BitVec 6) (d : Spec), Ready h [d] [] s → Room h d s → csrCheck n.toNat false s = none →
      let c := s.subOf s.cur.gid
      let g := s.curG
      let ctx := s.ctxOf g
      Gives (.csrr h n d) h d s fun _ x =>
        match n.toNat with
        | 0x00 => x.toNat = ctx
        | 0x01 => x = if g.level = .m then s.sm.tvec else BitVec.ofNat 64 ((s.ctxWord ctx 4).toNat % 2 ^ 56)
        | 0x02 => x = g.tcause
        | 0x03 => x = g.tpc
        | 0x04 => x = g.tinfo
        | 0x05 => x = g.tscratch
        | 0x06 => x = g.tstate
        | 0x08 => x = c.accown
        | 0x09 => x.toNat = c.acclive.toNat
        | 0x0A => x.toNat = g.accsel.toNat
        | 0x0B => x = c.acctag.getD (g.accsel.toNat % 8) 0
        | 0x0C => x = s.dev.ctxtab
        | 0x0D => x.toNat = (s.ctxWord ctx 5).toNat % 2 ^ 56
        | 0x0E => x.getLsbD 0 = s.curT.req ∧ x.getLsbD 1 = s.teamIdle s.curT
            ∧ x.getLsbD 2 = (s.tile s.curTile).gear ∧ x.getLsbD 3 = s.fok s.curTile ∧ x.toNat < 16
        | 0x0F => x.toNat % 16 = s.issueCode s.curTile % 16 ∧ x.toNat / 16 = if s.critOn s.curTile then 1 else 0
        | 0x10 => x = (s.tile s.curTile).cslew
        | 0x11 => x = g.cohaddr
        | 0x12 => x = s.cohRegRead (g.cohaddr.toNat / 2 ^ 16 % 2) (g.cohaddr.toNat % 2 ^ 16)
        | 0x13 => x = s.dev.sstab
        | _ => True)
  ∧ (∀ (s : State) (h : Hdr) (n : BitVec 6) (a : Spec), Ready h [] [a] s → s.uniform h = true →
      csrCheck n.toNat true s = none →
      let x := s.leaderSrc h .zx64 a
      let bits (lo len : Nat) : W64 := BitVec.ofNat 64 (x.toNat / 2 ^ lo % 2 ^ len * 2 ^ lo)
      let group (f : Group → Group → Group) : Prop :=
        ∃ t, exec (.csrw h n a) s = .next t ∧ WentOn h.len.bytes s t ∧ OnlyIssuer f s t
      let sub (f : SubCore → SubCore → SubCore) (ok : SubCore → Prop) : Prop :=
        ∃ t, exec (.csrw h n a) s = .next t ∧ WentOn h.len.bytes s t ∧ OnlyIssuer (fun g _ => g) s { t with subs := s.subs }
          ∧ t.subOf s.cur.gid = f (s.subOf s.cur.gid) (t.subOf s.cur.gid) ∧ ok (t.subOf s.cur.gid)
          ∧ ∀ k, k ≠ subKey s.curTile s.curG.q → t.subs.get? k = s.subs.get? k
      (n = 0x00 → ∃ t, exec (.csrw h n a) s = .next t ∧ WentOn h.len.bytes s t
        ∧ OnlyIssuer (fun g _ => g) s { t with sm := s.sm } ∧ t.sm = { s.sm with ctxid := bits 0 4 })
      ∧ (n = 0x01 → s.curG.level = .m → ∃ t, exec (.csrw h n a) s = .next t ∧ WentOn h.len.bytes s t
        ∧ OnlyIssuer (fun g _ => g) s { t with sm := s.sm } ∧ t.sm = { s.sm with tvec := bits 0 56 })
      ∧ (n = 0x01 → s.curG.level = .s → ∃ t, exec (.csrw h n a) s = .next t ∧ WentOn h.len.bytes s t
        ∧ t = { (s.setCtxWord (s.ctxOf s.curG) 4 (bits 0 56)) with groups := t.groups })
      ∧ (n = 0x02 → group fun g _ => { g with tcause := bits 0 8 })
      ∧ (n = 0x03 → group fun g _ => { g with tpc := bits 0 56 })
      ∧ (n = 0x04 → group fun g _ => { g with tinfo := x })
      ∧ (n = 0x05 → group fun g _ => { g with tscratch := x })
      ∧ (n = 0x06 → ∃ t, exec (.csrw h n a) s = .next t ∧ WentOn h.len.bytes s t
        ∧ OnlyIssuer (fun g g' => { g with tstate := g'.tstate }) s t
        ∧ ∀ i, i < 64 → t.curG.tstate.getLsbD i =
          if i < 40 ∨ i = 44 ∨ i = 45 then x.getLsbD i
          else if i = 46 ∨ i = 47 then (if s.curG.level = .m then x else s.curG.tstate).getLsbD i else false)
      ∧ (n = 0x08 → sub (fun c _ => { c with accown := bits 0 5 }) fun _ => True)
      ∧ (n = 0x09 → sub (fun c _ => { c with acclive := x.truncate 8 }) fun _ => True)
      ∧ (n = 0x0A → group fun g _ => { g with accsel := x.truncate 4 })
      ∧ (n = 0x0B → sub (fun c c' => { c with acctag := c'.acctag }) fun c' => ∀ p, p < 8 →
        ∀ i, i < 64 → (c'.acctag.getD p 0).getLsbD i =
          if p = s.curG.accsel.toNat % 8 then
            (decide (i < 2 ∨ 8 ≤ i ∧ i < 13 ∨ 20 ≤ i ∧ i < 60 ∨ i = 63) && x.getLsbD i)
          else ((s.subOf s.cur.gid).acctag.getD p 0).getLsbD i)
      ∧ (n = 0x0C → ∃ t, exec (.csrw h n a) s = .next t ∧ WentOn h.len.bytes s t
        ∧ OnlyIssuer (fun g _ => g) s { t with dev := s.dev } ∧ t.dev = { s.dev with ctxtab := bits 10 42 })
      ∧ (n = 0x0D → ∃ t, exec (.csrw h n a) s = .next t ∧ WentOn h.len.bytes s t
        ∧ t = { (s.setCtxWord (s.ctxOf s.curG) 5 (bits 0 56)) with groups := t.groups })
      ∧ (n = 0x0E → s.teams.get? s.curG.team ≠ none → ∃ t, exec (.csrw h n a) s = .next t ∧ WentOn h.len.bytes s t
        ∧ OnlyTeam (fun y _ => { y with req := x.getLsbD 0 }) s { t with tiles := s.tiles })
      ∧ (n = 0x10 → ∃ t, exec (.csrw h n a) s = .next t ∧ WentOn h.len.bytes s t
        ∧ OnlyIssuer (fun g _ => g) s { t with tiles := s.tiles }
        ∧ t.tile s.curTile = { s.tile s.curTile with cslew := bits 0 24 } ∧ ∀ i, i ≠ s.curTile → t.tile i = s.tile i)
      ∧ (n = 0x11 → group fun g _ => { g with cohaddr := x })
      ∧ (n = 0x12 →
        let die := s.curG.cohaddr.toNat / 2 ^ 16 % 2
        let off := s.curG.cohaddr.toNat % 2 ^ 16
        let e := off / 16
        let c := s.cohOf die
        let code := c.rangeCheck (c.staged.getD e 0) x
        let said := BitVec.ofNat 64 (e * 256 + code)
        let coh (c' : Coh) : Prop :=
          ∃ t, exec (.csrw h n a) s = .next t ∧ WentOn h.len.bytes s t ∧ OnlyIssuer (fun g _ => g) s { t with coh := s.coh }
            ∧ t.cohOf die = c' ∧ ∀ d, d ≠ die → t.cohOf d = s.cohOf d
        (off < 0x400 → off % 16 = 0 → coh { c with staged := c.staged.set e x })
        ∧ (off < 0x400 → off % 16 = 8 →
          (c.rtBusy = true → coh c) ∧ (c.rtBusy = false → code ≠ 0 → coh { c with rtstat := said })
          ∧ (c.rtBusy = false → code = 0 → ∃ t, exec (.csrw h n a) s = .next t ∧ WentOn h.len.bytes s t
            ∧ t.cohOf die = { c with
                rtstat := said, rtBusy := true, rtPend := some (e, c.staged.getD e 0, x) }))
        ∧ (off = 0x800 → coh { c with sldpa := x })
        ∧ (off = 0x808 → coh (if x.getLsbD 8 = true ∧ c.sldBusy = false then { c with sldBusy := true, sldCmd := x } else c))
        ∧ (off % 8 ≠ 0 ∨ 0x400 ≤ off ∧ off ≠ 0x800 ∧ off ≠ 0x808 → coh c))
      ∧ (n = 0x13 → ∃ t, exec (.csrw h n a) s = .next t ∧ WentOn h.len.bytes s t
        ∧ OnlyIssuer (fun g _ => g) s { t with dev := s.dev } ∧ t.dev = { s.dev with sstab := bits 16 36 }))

/-- R321, R322, R328: each use below its level is a `PRIV` trap with its reason, the write bit and the CSR number; in S mode,
where WFI, TLBI.ALL without SSG, the CSRs that only M or nothing writes, and COHADDR, COHDATA and SSTAB without their grant
are such uses, it is a nested one, which ends the group (R315). A CSR number the map leaves unassigned is `ILL`, and so are
those of a tile on the stage manager. -/
def Obligations.Privilege : Prop :=
  ∀ (s : State) (h : Hdr) (n : BitVec 6) (k : BitVec 3) (a d : Spec) (kind : BitVec 2),
    let pc := s.curG.pcOf s.cur.slices
    let priv (r : Nat) : W64 := BitVec.ofNat 64 (r * 2 ^ 56)
    let supervisor : List (BitVec 6) := [1, 2, 3, 4, 5, 6, 8, 9, 10, 11, 12, 13, 17, 18, 19]
    let unassigned (n : BitVec 6) : Prop := n = 7 ∨ 19 < n.toNat
    s.groups.get? s.cur.gid ≠ none →
    (s.curG.level = .u →
      Traps (.eret h) s .priv pc (priv 1) ∧ Traps (.halt h) s .priv pc (priv 1) ∧ Traps (.wfi h) s .priv pc (priv 1)
      ∧ ((∀ r ∈ [.k k, a], s.curG.refuses r = false) → Traps (.tlbi h kind (.k k) a) s .priv pc (priv 1))
      ∧ (s.curG.refuses d = false → n ∈ supervisor →
        Traps (.csrr h n d) s .priv pc (BitVec.ofNat 64 (2 * 2 ^ 56 + n.toNat)))
      ∧ (s.curG.refuses a = false → ¬unassigned n →
        Traps (.csrw h n a) s .priv pc (BitVec.ofNat 64 (2 * 2 ^ 56 + 256 + n.toNat))))
    ∧ (MayTrap s → unassigned n →
      (s.curG.refuses d = false → Traps (.csrr h n d) s .ill pc s.cur.word)
      ∧ (s.curG.refuses a = false → Traps (.csrw h n a) s .ill pc s.cur.word))
    ∧ (s.curG.level = .m → s.curG.tstate.getLsbD 45 = false → s.curG.refuses d = false →
      n ∈ [8, 9, 10, 11, 14, 15, 16, 17, 18] → Traps (.csrr h n d) s .ill pc s.cur.word)
    ∧ (s.curG.level = .m → s.curG.tstate.getLsbD 45 = false → s.curG.refuses a = false →
      n ∈ [8, 9, 10, 11, 14, 15, 16, 17, 18] → Traps (.csrw h n a) s .ill pc s.cur.word)
    ∧ (s.curG.level = .s → s.curG.ended = false → s.fq.enabled = false →
      let grants := s.ctxWord (s.ctxOf s.curG) 0
      EndsNested (.wfi h) s .priv
      ∧ ((∀ r ∈ [.k k, a], s.curG.refuses r = false) → grants.getLsbD 4 = false → EndsNested (.tlbi h 2 (.k k) a) s .priv)
      ∧ (s.curG.refuses d = false → n = 0x11 ∨ n = 0x12 → grants.getLsbD 3 = false → EndsNested (.csrr h n d) s .priv)
      ∧ (s.curG.refuses a = false → n ∈ [0x00, 0x0C, 0x0F] ∨ (n = 0x11 ∨ n = 0x12) ∧ grants.getLsbD 3 = false
        ∨ n = 0x13 ∧ grants.getLsbD 4 = false → EndsNested (.csrw h n a) s .priv))

/-- R326, R327, R330: HALT ends the group in S mode and stops the stage manager; WFI holds it until THERMAL or TIMER is
pending; TLBI counts its token up and takes away the cached entries it covers, and its token counts down once the accesses
and copies that were under way have performed, the prefetches and increments too, and what they left dirty has been accepted;
a copy whose walk is paused it does not wait for, and that translates its lines again; a management reset starts a stopped
stage manager again from the image, laid out as R351 gives.
The model's own choices in it: log entries 2, 12 and 85; log entry 52: what the stage manager had under way ends with the
reset. -/
def Obligations.HaltWaitInvalidate : Prop :=
  ∀ (s : State) (h : Hdr) (kind : BitVec 2) (n : BitVec 3) (a : Spec) (k cid : Nat) (x : Tlbi) (c : Copy),
    (Ready h [] [] s → s.uniform h = true →
      (s.curG.level = .m → ∃ t, exec (.halt h) s = .next t ∧ WentOn h.len.bytes s t
        ∧ OnlyIssuer (fun g _ => g) s { t with sm := s.sm } ∧ t.sm = { s.sm with halted := true })
      ∧ (s.curG.level = .s → s.curG.ended = false → s.fq.enabled = false →
        ∃ t e, exec (.halt h) s = .next t ∧ (t.group s.cur.gid).ended = true
          ∧ e ∈ t.fq.waiting ∧ e.toNat / 2 ^ 72 % 256 = 7 ∧ e.toNat / 2 ^ 104 % 256 = s.curG.tcause.toNat % 256)
      ∧ (s.curG.level = .m → (s.sm.evseq ≠ [] ∨ s.sm.timerPend ≠ 0) → Gives (.wfi h) h .zero s fun _ _ => True)
      ∧ (s.curG.level = .m → s.sm.evseq = [] → s.sm.timerPend = 0 →
        ∃ t, exec (.wfi h) s = .next t ∧ t = { s with groups := t.groups } ∧ t.curG.slices = s.curG.slices
          ∧ t.curG.gangs = s.curG.gangs.map fun x =>
              if x.slices &&& ~~~ s.cur.slices = 0 then { x with wait := .wfi } else x))
    ∧ (Ready h [.k n] [a] s → s.uniform h = true → tlbiCheck kind s = none → s.teams.get? s.curG.team ≠ none →
      (s.curT.token n.toNat).count < 65535 → (∀ p ∈ s.accs, s.unbegun p.2 = false) →
      ∃ t y, exec (.tlbi h kind (.k n) a) s = .next t ∧ WentOn h.len.bytes s t
        ∧ OnlyTeam (fun x y => { x with tokens := y.tokens }) s
          { t with tlbis := s.tlbis, nextId := s.nextId, tiles := s.tiles, dev := s.dev, copies := s.copies }
        ∧ t.dev = { s.dev with tcache := t.dev.tcache }
        ∧ (∀ i e, e ∈ (t.tile i).tlb ↔ e ∈ (s.tile i).tlb ∧ y.covers e = false)
        ∧ (∀ i, t.tile i = { s.tile i with tlb := (t.tile i).tlb, stripe := if kind = 2 then [] else (s.tile i).stripe })
        ∧ (∀ i e, e ∈ t.dev.tcache.getD i [] ↔ e ∈ s.dev.tcache.getD i [] ∧ y.covers e = false)
        ∧ t.copies = s.copies.map (fun p => (p.1, { p.2 with
            phys := p.2.phys.filter fun x => p.2.asked.contains x.1 || p.2.owned.contains x.1 }))
        ∧ (∀ i, i ∈ y.accs ↔ ∃ p ∈ s.accs, p.1 = i ∧ s.translated p.2 = true) ∧ (∀ i, i ∈ y.copies ↔ ∃ p ∈ s.copies, p.1 = i)
        ∧ y.flushed = false
        ∧ (∀ i, i ∈ y.wbs ↔ ∃ r ∈ s.flying, r.id = i ∧ ((∃ j b, r.tag = .pref j b) ∨ r.tag = .ext ∧ r.ev = 7 ∧ r.tile < 0x200))
        ∧ y.team = s.curG.team ∧ y.tok = n.toNat
        ∧ (∀ j, t.curT.token j = if j = n.toNat then
            { s.curT.token j with count := (s.curT.token j).count + 1, byTokset := false } else s.curT.token j)
        ∧ t.tlbis = s.tlbis.set s.nextId y ∧ y.kind = kind.toNat ∧ y.ctx = s.ctxOf s.curG
        ∧ y.va = (s.leaderSrc h .zx64 a).toNat % 2 ^ 56)
    ∧ (s.tlbis.get? k = some x → (∀ i ∈ x.copies, s.copies.get? i = none) →
      (∀ i ∈ x.accs, s.accs.get? i ≠ none → exec (.tlbiComplete k) s = .next s)
      ∧ ((∀ i ∈ x.accs, s.accs.get? i = none) → x.flushed = true → (∃ i ∈ x.wbs, s.inFlight i = true) →
        exec (.tlbiComplete k) s = .next { s with tlbis := s.tlbis.set k x })
      ∧ ((∀ i ∈ x.accs, s.accs.get? i = none) → x.flushed = false →
        ((∃ i ∈ x.wbs, s.inFlight i = true) → exec (.tlbiComplete k) s = .next s)
        ∧ ((∀ i ∈ x.wbs, s.inFlight i = false) →
          let dirty (i l : Nat) (z : L1Line) : Prop := i < 192 ∧ s.l1 i l = some z ∧ z.dmask ≠ 0 ∧ s.badMask i l = 0
          (∃ i l z, dirty i l z) →
          ∃ t y, exec (.tlbiComplete k) s = .next t ∧ t.tlbis.get? k = some { x with flushed := true, wbs := y }
            ∧ ∀ i l z, dirty i l z → ∃ j q, t.net.get? j = some q ∧ j ∈ y ∧ q.ev = 2 ∧ q.line = l ∧ q.tag = .wb i
              ∧ q.mask = z.dmask ∧ q.data = z.data)))
    ∧ (s.tlbis.get? k = some x → (∀ i ∈ x.accs, s.accs.get? i = none) → x.copies = [cid] → s.copies.get? cid = some c →
      (c.paused = none → (∃ l ∈ c.owned, x.reaches c.ctx l = true ∧ l ∉ c.stale) →
        ∃ t, exec (.tlbiComplete k) s = .next t ∧ t = { s with copies := t.copies } ∧ PutAt cid c s.copies t.copies)
      ∧ (c.paused ≠ none → (∀ l ∈ c.asked, x.reaches c.ctx l = false) → (∀ i ∈ c.outs, s.inFlight i = false) →
        x.flushed = true → (∀ i ∈ x.wbs, s.inFlight i = false) →
        ∃ t y, exec (.tlbiComplete k) s = .next t ∧ t.tlbis = s.tlbis.del k ∧ PutAt cid { c with stale := y } s.copies t.copies
          ∧ ∀ l, l ∈ y ↔ l ∈ c.stale ∨ l ∈ c.owned ∧ x.reaches c.ctx l = true))
    ∧ (s.tlbis.get? k = some x → (∀ i ∈ x.accs, s.accs.get? i = none) → (∀ i ∈ x.copies, s.copies.get? i = none) →
      x.flushed = true → (∀ i ∈ x.wbs, s.inFlight i = false) → s.teams.get? x.team ≠ none →
      ∃ t, exec (.tlbiComplete k) s = .next t
        ∧ t = { s with tlbis := s.tlbis.del k, teams := t.teams, dev := t.dev, tiles := t.tiles }
        ∧ (∀ j, j ≠ x.tok → (t.team x.team).token j = (s.team x.team).token j)
        ∧ ((t.team x.team).token x.tok).count = ((s.team x.team).token x.tok).count - 1
        ∧ (∀ i e, e ∈ (t.tile i).tlb ↔ e ∈ (s.tile i).tlb ∧ ¬(x.kind = 2 ∨ 2 < x.kind ∨ e.ctx = x.ctx ∧ (x.kind = 1
            ∨ if e.lvl = 1 ∧ pteC64 e.pte = true then e.vpre / 16 = x.va / 65536 else e.vpre = x.va / 2 ^ levelShift e.lvl)))
        ∧ ∀ i, (t.tile i).l1 = (s.tile i).l1 ∧ (t.tile i).store = (s.tile i).store)
    ∧ (s.sm.halted = true →
      ∃ t, exec .managementReset s = .next t
        ∧ t = { s with
            groups := t.groups, teams := t.teams, sm := t.sm, att := t.att, bad := t.bad, accs := t.accs, fences := t.fences
            tlbis := t.tlbis }
        ∧ (∀ p, p ∈ t.accs ↔ p ∈ s.accs ∧ p.2.gid ≠ 0)
        ∧ (t.sm.halted = false ↔ imageOk s.att.flash = true)
        ∧ t.group 0 = Group.manager (if imageOk s.att.flash then BitVec.ofNat 56 (imageEntry s.att.flash) else 0))

/-- R313, R330: the stage manager's asynchronous traps: THERMAL while an event is queued, TIMER while an elapse is
pending, each only with IE = 1 and no handler running, else nothing is entered and it stays pending; an elapse adds one, the
entry of TIMER takes one away, and only an elapse at 255 is lost. -/
def Obligations.TimerAndThermal : Prop :=
  ∀ (s : State) (val : W64),
    let g := s.group 0
    let low := g.liveSlices.headD 8
    (∀ (x : SubGang), g.gangs.find? (fun x => x.slices.getLsbD low) = some x → g.level = .m → s.sm.halted = false →
      g.tstate.getLsbD 46 = true → g.tstate.getLsbD 45 = false → s.groups.get? 0 ≠ none →
      (s.sm.evseq ≠ [] → ∃ t, exec .thermal s = .next t ∧ Entered 0 x.slices .thermal (g.pcOf x.slices) 0 s t)
      ∧ (s.sm.evseq = [] → s.sm.timerPend ≠ 0 → ∃ t, exec .timer s = .next t
        ∧ Entered 0 x.slices .timer (g.pcOf x.slices) 0
          { s with sm := { s.sm with timerPend := s.sm.timerPend - 1 } } t))
    ∧ (g.tstate.getLsbD 46 = false ∨ g.tstate.getLsbD 45 = true → exec .thermal s = .next s ∧ exec .timer s = .next s)
    ∧ (s.sm.timerEn = true → s.sm.timer ≠ 0 →
      (s.sm.timerPend < 255 → exec .timerElapse s = .next { s with sm := { s.sm with timerPend := s.sm.timerPend + 1 } })
      ∧ (255 ≤ s.sm.timerPend → exec .timerElapse s = .next { s with sm := { s.sm with timerLost := true } }))
    ∧ ∃ t, exec (.timerWrite val) s = .next t ∧ t = { s with sm := t.sm }
      ∧ t.sm.timer.toNat = val.toNat % 2 ^ 32 ∧ t.sm.timerEn = val.getLsbD 32 ∧ t.sm.timerPend = 0 ∧ t.sm.timerLost = false
      ∧ t.sm.seq = s.sm.seq + 1 ∧ t.sm.sram = s.sm.sram ∧ t.sm.evseq = s.sm.evseq

/-! ### Homes -/

/-- R101, R108, R109, R113, R115, R116: what a line's home does with a request under INV. A read or read-own of an idle line
is answered with its data, and the other die's L2 takes it and is recorded as its holder; a write, atomic or reduction is
performed at home, but no atomic over an uncorrectable error (R319); an engine becomes the owner, and gives the line back
with an evict. A holder's update under UPD (R118) is performed at home and pushed to every holder's copy.
The model's own choices in it: log entries 24, 25 and 28; log entry 29 (DEDUCED): the push goes to the writer's own L2 too,
where R114 says every holder but the writer. -/
def Obligations.RequestsAtTheirHome : Prop :=
  ∀ (s : State) (k : Nat) (r : Req) (x : BitVec 16) (ps : List (BitVec 16)) (u : Nat) (h : HLine),
    let l := r.line
    let idle (t : State) : Prop := (∀ j, t.dir.get? j = s.dir.get? j) ∧ t.l2 = s.l2 ∧ t.pushes = s.pushes
    let held (st : Nat) (ptrs : List (BitVec 16)) (u : Nat) : DirEntry :=
      { DirEntry.empty with state := st, ptrs := ptrs, used := u }
    AtHome s k r → s.mem.wf = true →
    (s.slotOf l = 0 → r.holder = none → r.die = homeDie l → s.dir.get? l = none →
      (r.ev = 0 → ∃ t, exec (.read (.net k)) s = .next t ∧ idle t ∧ HomeKept s t ∧ Answered k r (homeData s l 2) s t)
      ∧ (r.ev = 1 → ∃ t, exec (.readOwn (.net k)) s = .next t ∧ idle t ∧ HomeKept s t ∧ Answered k r (homeData s l 3) s t)
      ∧ (r.ev = 2 → ∃ t, exec (.writeThrough (.net k)) s = .next t ∧ idle t ∧ Answered k r .ack s t
        ∧ HomeWrote l r.data r.mask r.descs r.descW s t)
      ∧ (s.elemsErr l r.elems = 0 → (∀ e ∈ r.elems, e.second = none) →
        (r.ev = 7 → ∃ t, exec (.atomic (.net k)) s = .next t ∧ idle t
          ∧ Answered k r (.result (performElems r.op r.aty (s.lineData l) r.elems).2) s t
          ∧ HomeWrote l (performElems r.op r.aty (s.lineData l) r.elems).1 fullMask 0 0 s t)
        ∧ (r.ev = 8 → ∃ t, exec (.reduce (.net k)) s = .next t ∧ idle t ∧ Answered k r .ack s t
          ∧ HomeWrote l (performElems r.op r.aty (s.lineData l) r.elems).1 fullMask 0 0 s t))
      ∧ (s.elemsErr l r.elems ≠ 0 → r.ev = 7 → ∃ t, exec (.atomic (.net k)) s = .next t ∧ idle t ∧ HomeKept s t
        ∧ Answered k r (.fail (256 + s.elemsErr l r.elems)) s t)
      ∧ (r.ev = 10 → s.replicaOf r = none → ∃ t, exec (.replicaRead (.net k)) s = .next t ∧ idle t ∧ HomeKept s t
        ∧ Answered k r (homeData s l 0) s t))
    ∧ (s.slotOf l = 0 → r.holder = none → r.die = 1 - homeDie l → s.dir.get? l = none → s.l2Line r.die l = none →
      s.WayFree r.die l →
      (r.ev = 0 → ∃ t n, exec (.read (.net k)) s = .next t ∧ PutAt l (held 2 [l2Id r.die] n) s.dir t.dir
        ∧ Granted k r r.die 2 s t)
      ∧ (r.ev = 1 → ∃ t n, exec (.readOwn (.net k)) s = .next t ∧ PutAt l (held 2 [l2Id r.die] n) s.dir t.dir
        ∧ Granted k r r.die 3 s t))
    ∧ (s.slotOf l = 0 → r.holder = some x → isEngineId x = true →
      (r.ev = 9 → s.dir.get? l = none → s.l2Line r.die l = none → s.evicting l (l2Id r.die) = false →
        ∃ t n, exec (.engineOwn (.net k)) s = .next t ∧ HomeKept s t
        ∧ PutAt l (held 2 [x] n) s.dir t.dir ∧ t.pushes = s.pushes ∧ Answered k r (homeData s l 3) s t)
      ∧ (r.ev = 4 → s.dir.get? l = some (held 2 [x] u) → ∃ t, exec (.evictClean (.net k)) s = .next t ∧ HomeKept s t
        ∧ Removed l s.dir t.dir ∧ t.pushes = s.pushes ∧ Answered k r .ack s t)
      ∧ (r.ev = 5 → s.dir.get? l = some (held 2 [x] u) → ∃ t, exec (.evictDirty (.net k)) s = .next t
        ∧ HomeWrote l r.data r.mask r.descs r.descW { s with net := s.net.del k } t
        ∧ Removed l s.dir t.dir ∧ t.pushes = s.pushes ∧ Answered k r .ack s t))
    ∧ (s.slotOf l = 1 → r.ev = 3 → r.die = 1 - homeDie l → r.holder = some (l2Id r.die) → s.l2Line r.die l = some h →
      h.right = 1 → s.dir.get? l = some (held 1 (l2Id r.die :: ps) u) →
      (∀ p ∈ ps, p ≠ l2Id r.die ∧ p ≠ 0x4000 ∧ isEngineId p = false) →
      let push (p : BitVec 16) : PushMsg := ⟨l, p, r.data, r.mask, r.descs, r.descW⟩
      ∃ t n, exec (.update (.net k)) s = .next t ∧ Answered k r .ack s t
        ∧ HomeWrote l r.data r.mask r.descs r.descW s t ∧ PutAt l (held 1 (l2Id r.die :: ps) n) s.dir t.dir
        ∧ (∀ p ∈ l2Id r.die :: ps, ∃ n, t.pushes.get? n = some (push p))
        ∧ ∀ n m, t.pushes.get? n = some m → s.pushes.get? n = some m ∨ ∃ p ∈ l2Id r.die :: ps, m = push p)

/-- R108, R109, R114, R116, R125: a round under INV, with a number of its own. A read of an owned line recalls its owner and
waits; for an owner that is declared failed or that no valid route reaches the controller answers at once (R343, R345). The
owner answers with its dirty data and keeps a read copy, and the last answer writes them home and answers the read; an answer
to another round is discarded. A timeout sends again to those who have not answered, and the eighth is reported; what a
device declared failed answers is discarded; a pushed write reaches a holder's copy with its descriptors.
The model's own choices in it: log entries 24, 25, 29 and 65; log entry 75: the timeout's count runs on past the 6 bits of its
field (R103). -/
def Obligations.RecallRounds : Prop :=
  ∀ (s : State) (k : Nat) (r : Req) (a : BitVec 16) (l die u rnd : Nat) (wok : Bool),
    (AtHome s k r → s.slotOf r.line = 0 → r.holder = none → r.die = homeDie r.line → r.ev = 0 → isEngineId a = false →
      s.dir.get? r.line = some { DirEntry.empty with state := 2, ptrs := [a], used := u } →
      (s.silentAgent a = false →
      ∃ t n m, exec (.read (.net k)) s = .next t ∧ s.nextId ≤ m
        ∧ t = { s with net := t.net, recs := t.recs, dir := t.dir, nextId := t.nextId }
        ∧ Removed k s.net t.net ∧ Added ⟨r.line, a, 0x11, none, true, m⟩ s.recs t.recs
        ∧ PutAt r.line { DirEntry.empty with
            state := 3, ptrs := [a], pend := some r, timer := true, round := some ⟨[a], 0x11, none, m⟩, used := n } s.dir t.dir)
      ∧ (s.silentAgent a = true →
      ∃ t n, exec (.read (.net k)) s = .next t ∧ HomeKept s t ∧ Answered k r (homeData s r.line 1) s t ∧ t.pushes = s.pushes
        ∧ PutAt r.line { DirEntry.empty with timer := true, used := n } s.dir t.dir))
    ∧ (∀ kind, die < 2 → s.recs.get? k = some ⟨l, l2Id die, kind, none, wok, rnd⟩ → s.earlierRecall k l (l2Id die) = false →
      (∀ h, s.l2Line die l = some h → h.eng = none) →
      let dirty := (s.l2Line die l).bind fun h => if h.right = 3 then some (h.data, h.descs) else none
      let kept := decide (kind = 0x11) && (s.l2Line die l).isSome
      ∃ t, exec (.holderRecall (.net k)) s = .next t
        ∧ t = { s with recs := t.recs, l2 := t.l2, answers := t.answers, bad := t.bad, nextId := t.nextId }
        ∧ (∀ p ∈ s.bad, (∀ i, p ≠ .l2 die l i) → p ∈ t.bad)
        ∧ (∀ i, i < 2 → s.isBad (.l2 die l i) = true → dirty ≠ none → isPeerLine l = false → .block (2 * l + i) ∈ t.bad)
        ∧ Removed k s.recs t.recs ∧ Added ⟨l, l2Id die, dirty, kept, rnd⟩ s.answers t.answers
        ∧ ∀ j, t.l2.get? j = if j = l2Key die l then
            (if kept then (s.l2.get? j).map fun h => { h with right := 1 } else none) else s.l2.get? j)
    ∧ (∀ (p : PeerAns) kind, isL2Id a = false → isEngineId a = false → s.recs.get? k = some ⟨l, a, kind, none, wok, rnd⟩ →
      s.earlierRecall k l a = false → (p.ord = false ∨ s.extPending a = false) →
      (s.failedAgent a = true → exec (.holderRecall (.peer k p)) s = .next { s with recs := s.recs.del k })
      ∧ (s.failedAgent a = false → ∃ t, exec (.holderRecall (.peer k p)) s = .next t
        ∧ t = { s with recs := t.recs, answers := t.answers, nextId := t.nextId } ∧ Removed k s.recs t.recs
        ∧ Added ⟨l, a, if p.dirty then some (p.data.toNat, if a = 0x4000 then s.lineDescs l else p.descs) else none,
              decide (kind = 0x11) && !p.nack, rnd⟩ s.answers t.answers))
    ∧ (∀ (d : DirEntry) (dirty : Option (Nat × BitVec 32)),
      s.answers.get? k = some ⟨l, a, dirty, true, rnd⟩ → s.answers.any (fun p => p.1 < k && p.2.line == l && p.2.agent == a) = false →
      s.net.any (fun p => p.1 < k && p.2.line == l && p.2.holder == some a) = false →
      (∀ rd, s.dir.get? l = some d → d.round = some rd → rd.rnd ≠ rnd →
        exec (.recallAnswer k) s = .next { s with answers := s.answers.del k }) ∧ (
      isDramLine l = true → s.slotOf l = 0 → s.mem.wf = true → r.ev = 0 → r.holder = none → r.tag ≠ .ext →
      s.dir.get? l = some d → d.state = 3 → d.ptrs = [a] → d.ovf = false → d.pend = some r → d.queue = [] →
      d.retire = false → d.round = some ⟨[a], 0x11, none, rnd⟩ →
      ∃ t, exec (.recallAnswer k) s = .next t
        ∧ t = { s with
            answers := t.answers, mem := t.mem, descs := t.descs, bad := t.bad, dir := t.dir, reps := t.reps, code := t.code
            mons := t.mons, free := t.free, nextId := t.nextId }
        ∧ Removed k s.answers t.answers
        ∧ (∀ x ds, dirty = some (x, ds) →
          HomeWrote l x fullMask ds 3 { s with answers := s.answers.del k, dir := s.dir.del l } t)
        ∧ (dirty = none → HomeKept s t)
        ∧ Added ⟨r, homeData t l 1⟩ s.reps t.reps
        ∧ PutAt l { DirEntry.empty with state := 1, ptrs := [a], timer := d.timer, used := d.used } s.dir t.dir))
    ∧ (∀ (d : DirEntry) (rd : Round), s.dir.get? l = some d → d.timer = true → d.state = 3 → s.slotOf l = 0 →
      d.round = some rd → rd.due ≠ [] → (∀ p ∈ d.ptrs, s.silentAgent p = false) →
      ∃ t, exec (.timeout l) s = .next t
        ∧ t = { s with recs := t.recs, dir := t.dir, sm := t.sm, nextId := t.nextId }
        ∧ PutAt l { d with tmo := d.tmo + 1 } s.dir t.dir
        ∧ (∀ b ∈ rd.due, ∃ n, t.recs.get? n = some ⟨l, b, 0x11, none, true, rd.rnd⟩)
        ∧ (d.tmo + 1 ≠ 8 → t.sm = s.sm)
        ∧ (d.tmo + 1 = 8 → s.sm.stallq.length < 16 → ∃ e, t.sm.stallq = s.sm.stallq ++ [e] ∧ e.1.getLsbD 63 = true
          ∧ e.1.getLsbD 61 = d.ovf ∧ (l * 128 < 2 ^ 52 → e.1.toNat % 2 ^ 52 = l * 128)
          ∧ ∀ i < 4, e.2.2.toNat / 2 ^ (16 * i) % 65536 = ((rd.due[i]?).getD 0xFFFF).toNat))
    ∧ ∀ (m : PushMsg), die < 2 → s.pushes.get? k = some m → m.agent = l2Id die → s.earlierRecall k m.line m.agent = false →
      ∃ t, exec (.pushUpdateReceive k) s = .next t ∧ t = { s with pushes := t.pushes, l2 := t.l2, bad := t.bad }
        ∧ Removed k s.pushes t.pushes
        ∧ (∀ p, p ∈ t.bad ↔ p ∈ s.bad ∧ ∀ i, i < 2 → wholeBlock m.mask m.descW i = true → p ≠ .l2 die m.line i)
        ∧ ∀ j, t.l2.get? j = if j = l2Key die m.line then
            (s.l2.get? j).map (fun h => { h with
              data := mergeData h.data m.data m.mask, descs := keepDescs m.line h.descs m.descs m.descW }) else s.l2.get? j

/-! ### Replies -/

/-- R32, R110, R153-R156, R161: replies at the L1 and at their access. A fill takes the reply's data and the counters as they
stood at the request, under the tile's own bytes that are still on their way home; a load's data reach its registers; an
accepted store writes a line that is present and is over; a
refused one traps at the next issue point and leaves the line as it was; a dirty line goes home by its age. While the tile is
in a changeover its replies and data are held (R303).
The model's own choices in it: log entries 19, 20 and 66. -/
def Obligations.RepliesAndFills : Prop :=
  ∀ (s : State) (k n : Nat) (r : Req) (a : Access) (l : LineAcc) (right data : Nat) (ds : BitVec 32) (wok : Bool)
    (ev slot line : Nat) (x : L1Line),
    let only (s t : State) : Prop := t = { s with
      reps := t.reps, accs := t.accs, tiles := t.tiles, bad := t.bad, groups := t.groups, mons := t.mons, free := t.free }
    let others (s t : State) : Prop := ∀ i, i ≠ r.tile → t.tile i = s.tile i
    let rest (s t : State) : Prop := t.tile r.tile = { s.tile r.tile with l1 := (t.tile r.tile).l1 }
    let pending : Prop := s.earlierReply k r = false ∧ r.tag = .acc n 0 ∧ r.tile < 192 ∧ s.accs = [(n, a)]
      ∧ a.lines = [l] ∧ l.status = .sent ∧ (s.group a.gid).ended = false ∧ a.log = none ∧ a.acq = none ∧ a.failed = none
      ∧ r.carry = 0 ∧ (s.tile r.tile).change = none
    let own := s.ownBytes r.tile r.line
    let merged := mergeData data own.1 own.2
    ((s.tile r.tile).change ≠ none → (∃ x, s.reps.get? k = some ⟨r, x⟩) →
      exec (.fillReply k) s = .next s ∧ exec (.writeAccept k) s = .next s ∧ exec (.lineNack k) s = .next s)
    ∧ (s.reps.get? k = some ⟨r, .data right data ds wok (0, 0)⟩ → pending → a.kind = .load → recSpc a.record = spcGlobal →
      r.ev = 0 → right < 4 → r.alloc = true → s.l1 r.tile r.line = none → s.reservedLine r.tile r.line = false →
      ((s.tile r.tile).l1.filter fun p => p.1 % 256 == r.line % 256).length < 8 → (∀ e ∈ a.elems, e.ln = 0) →
      ∃ t, exec (.fillReply k) s = .next t ∧ only s t ∧ others s t ∧ rest s t ∧ Removed k s.reps t.reps
        ∧ t.groups = s.groups
        ∧ (∀ j, t.l1 r.tile j = if j = r.line then some {
              v := decide (r.wraps = (s.tile r.tile).wraps), wok := wok, ef := r.ef
              gs := r.gens.extractLsb' 0 4, gd := r.gens.extractLsb' 4 4, gc := r.gens.extractLsb' 8 4
              dmask := 0, data := merged, descs := ds } else s.l1 r.tile j)
        ∧ t.accs = [(n, { a with
            elems := a.elems.map fun e => { e with res := some (merged / 256 ^ e.off % 256 ^ e.w) }
            lines := [{ l with status := .done }] })])
    ∧ (∀ d : BitVec 8, s.accs = [(k, a)] → (∀ l ∈ a.lines, l.status = .done) → a.kind = .load → a.info.dest = .v d →
      a.info.esz ≠ 4 → s.groups.get? a.gid ≠ none → (s.group a.gid).ended = false → a.log = none → a.acq = none → a.failed = none →
      ((s.tile (s.accTile a)).change ≠ none → exec (.loadDataArrival k) s = .next s) ∧
      ((s.tile (s.accTile a)).change = none →
      ∃ t, exec (.loadDataArrival k) s = .next t ∧ only s { t with nextId := s.nextId } ∧ t.accs = [] ∧ t.tiles = s.tiles
        ∧ (∀ i, i ≠ a.gid → t.groups.get? i = s.groups.get? i)
        ∧ t.group a.gid = { s.group a.gid with v := (t.group a.gid).v, age := (t.group a.gid).age }
        ∧ (∀ j l, l < 32 → (t.group a.gid).laneV j l =
            if j = d.toNat ∧ l ∈ a.performed then a.loadValue l else (s.group a.gid).laneV j l)))
    ∧ (s.reps.get? k = some ⟨r, .ack⟩ → pending → a.kind = .store → recSpc a.record = spcGlobal → a.rtype ≠ .uncached →
      l.unc = false → (a.rtype = .owned → s.l1 r.tile r.line ≠ none) →
      ∃ t, exec (.writeAccept k) s = .next t ∧ only s { t with nextId := s.nextId } ∧ others s t ∧ rest s t
        ∧ Removed k s.reps t.reps ∧ (∀ i, i ≠ a.gid → t.groups.get? i = s.groups.get? i)
        ∧ t.group a.gid = { s.group a.gid with age := (t.group a.gid).age } ∧ t.accs = []
        ∧ (∀ p, p ∈ t.bad ↔ p ∈ s.bad ∧ ∀ i, i < 2 → s.l1 r.tile r.line ≠ none → wholeBlock r.mask r.descW i = true →
          p ≠ .l1 r.tile r.line i)
        ∧ ∀ j, t.l1 r.tile j = if j = r.line then (s.l1 r.tile j).map (fun x => { x with
              data := mergeData x.data r.data (r.mask &&& ~~~ x.dmask), descs := keepDescs r.line x.descs r.descs r.descW
              wok := x.wok || (a.rtype == .owned), ef := x.ef || r.ef })
            else s.l1 r.tile j)
    ∧ (s.reps.get? k = some ⟨r, .nack ev slot⟩ → pending → a.kind = .store → s.groups.get? a.gid ≠ none →
      ∃ t, exec (.lineNack k) s = .next t ∧ only s { t with nextId := s.nextId } ∧ t.tiles = s.tiles
        ∧ Removed k s.reps t.reps ∧ t.accs = []
        ∧ (∀ i, i ≠ a.gid → t.groups.get? i = s.groups.get? i)
        ∧ t.group a.gid = { s.group a.gid with age := (t.group a.gid).age, pend := (s.group a.gid).pend ++ [⟨.prot, a.pc,
            BitVec.ofNat 64 (ev % 16 * 2 ^ 60 + slot % 8 * 2 ^ 57 + l.va / 128 * 128 % 2 ^ 56),
            (slicesOf a.slices).headD 8, a.level == .s, n⟩] })
    ∧ (s.reps.get? k = some ⟨r, .nack ev slot⟩ → s.earlierReply k r = false → r.tag = .wb n → s.accs = [] →
      s.fq.enabled = false → (s.tile r.tile).change = none →
      ∃ t e, exec (.lineNack k) s = .next t ∧ t = { s with reps := t.reps, fq := t.fq, sm := t.sm }
        ∧ Removed k s.reps t.reps ∧ t.fq = { s.fq with waiting := s.fq.waiting ++ [e] }
        ∧ e.toNat / 2 ^ 72 % 256 = 6 ∧ e.toNat % 2 ^ 64 = r.line % 2 ^ 45 * 128
        ∧ e.toNat / 2 ^ 80 % 65536 = r.tile % 65536)
    ∧ (s.l1 r.tile line = some x → x.dmask ≠ 0 → s.isBad (.l1 r.tile line 0) = false → s.isBad (.l1 r.tile line 1) = false →
      ∃ t q, exec (.l1WritebackTimeout r.tile line) s = .next t ∧ others s t ∧ rest s t
        ∧ t = { s with net := t.net, tiles := t.tiles, nextId := t.nextId } ∧ Added q s.net t.net
        ∧ q.ev = 2 ∧ q.line = line ∧ q.tag = .wb r.tile ∧ q.data = x.data ∧ q.mask = x.dmask ∧ q.descW = 0
        ∧ q.carry = x.dmask ∧ q.was = x.data
        ∧ ∀ j, t.l1 r.tile j = if j = line then some { x with dmask := 0 } else s.l1 r.tile j)

/-! ### Copies -/

/-- R132-R135, R139, R143, R147: a copy instruction. Its checks trap in their order: the producer, the map record, the map, the
local record, the receiving teams, the fill format, a reduction of floats in a deterministic launch. A
copy whose map is at hand and that passes its checks issues. TCOPY reserves its local blocks, or tells the receiving tiles to;
TSTORE presents an engine-own for every destination line with an element in bounds, frees the tile's L1 copies of them and
sends their dirty bytes home, once it has read its block table, for which its sub-gang waits; TRED owns nothing. The
reservation message sets the busy bits of its tile. What the walks of the page tables read goes through the L2 (R69).
The model's own choices in it: log entries 12, 33, 34 and 85; log entry 35: nothing is reserved for a team that has ended. -/
def Obligations.CopiesIssue : Prop :=
  ∀ (s : State) (h : Hdr) (a d b c : Spec) (m : Nat),
    let tile := s.curTile
    let ctx := s.ctxOf s.curG
    let team := s.curG.team
    let pc := s.curG.pcOf s.cur.slices
    let info (r : Nat) : W64 := BitVec.ofNat 64 (r * 2 ^ 56)
    let walked (t : State) : Prop := ∀ k q, t.net.get? k = some q → s.net.get? k = some q ∨ q.ev = 0 ∧ q.tag = .pref tile true
    let new (kind : CopyKind) (loc : BitVec 256) (tiles : List Nat) : Copy := {
      kind := kind, gid := s.cur.gid, slices := s.cur.slices, team := team, ctx := ctx, level := s.curG.level, map := m
      record := loc
      coords := match b with
        | .g n => (List.range 5).map fun i => (s.curG.viewG (n.toNat + i) ((s.curG.lanesOn s.cur.slices).headD 0 / 4)).toInt
        | _ => []
      tok := match c with
        | .k n => n.toNat
        | _ => 0
      next := 0, fail := none, paused := none, abort := false, tiles := tiles, reserved := [], left := tiles, srcs := []
      refused := [], asked := [], phys := [], owned := [], imgs := [], outs := [], reserving := false, stale := []
      stopped := false }
    let issued (cid : Nat) (t : State) : Prop := s.nextId ≤ cid ∧ WentOn h.len.bytes s t
      ∧ (∀ i, i ≠ s.cur.gid → t.groups.get? i = s.groups.get? i)
      ∧ t.curG = { s.curG with slices := t.curG.slices, gangs := t.curG.gangs, mapAns := [] }
      ∧ (∀ i, i ≠ tile → t.tile i = s.tile i) ∧ (∀ j, j ≠ cid → t.copies.get? j = s.copies.get? j)
      ∧ t.dev = { s.dev with tcache := t.dev.tcache } ∧ (∀ k, k < s.nextId → t.net.get? k = s.net.get? k)
    let instr (kind : CopyKind) : Instr := match kind with
      | .load => .tcopy h d a b c
      | .store => .tstore h d a b c
      | .red => .tred h d a b c
    let regs (kind : CopyKind) : List Spec := [if kind = .load then a else d, if kind = .load then d else a, c]
    s.curG.level ≠ .m →
    (s.uniform h = false → ∀ kind, Ready h (coordRange b) (regs kind) s →
      ∃ t, exec (instr kind) s = .next t ∧ WentOn h.len.bytes s t ∧ OnlyIssuer (fun g _ => g) s t) ∧
    (s.uniform h = true →
    (∀ kind : CopyKind,
      let i := instr kind
      let mr := s.record (if kind = .load then a else d)
      let lr := s.record (if kind = .load then d else a)
      let late (x : Cause) (y : W64) : Prop := ∃ t, exec i s = .next t ∧ walked t
        ∧ (∀ j, j ≠ tile → t.tile j = s.tile j) ∧ t.tile tile = { s.tile tile with tlb := (t.tile tile).tlb }
        ∧ t.dev = { s.dev with tcache := t.dev.tcache }
        ∧ Entered s.cur.gid s.cur.slices x pc y (({ s with
            dev := t.dev, tiles := t.tiles, net := t.net, nextId := t.nextId } : State).modCur fun g => { g with mapAns := [] }) t
      Ready h (coordRange b) (regs kind) s → MayTrap s →
      (s.curT.prod ≠ some s.curG.idx → Traps i s .producer pc 0)
      ∧ (s.curT.prod = some s.curG.idx →
        (∀ r, s.recordCheck mr (recR mr) = some r → Traps i s .access pc (info r))
        ∧ (s.recordCheck mr (recR mr) = none →
          recSpc mr ≠ 0 ∨ recStr mr ≠ 2 ^ recEsz mr ∨ recBase mr % 256 ≠ 0 ∨ recExt mr * recStr mr < 256 →
          Traps i s .access pc (info 0x13))
        ∧ (MapAtHand s mr m → tile < 192 →
          let bytes := mapTotal m * 2 ^ mapEsz m
          let right : Bool := if kind = .load then recW lr else recR lr
          let unfit : Prop := recSpc lr ≠ 1 ∨ recEsz lr ≠ mapEsz m ∨ recStr lr ≠ 2 ^ recEsz lr ∨ recSwz lr ≠ mapSwz m
            ∨ recExt lr * recStr lr < bytes ∨ s.grantOf s.curG < recBase lr + bytes
            ∨ recBase lr % (if recSwz lr = 0 then 64 else 128) ≠ 0
          let beyond : Prop := kind = .load ∧ 2 ^ (s.cluster s.curT.cluster).teams.length ≤ mapMcast m
          let noFmt : Prop := kind = .load ∧ mapFill m = 1 ∧ mapFillFmt m ∉ [0x10, 0x11, 0x20, 0x21]
          (mapOk m (kind == .red) = false → late .access (info 0x14))
          ∧ (mapOk m (kind == .red) = true →
            (∀ r, s.recordCheck lr right = some r → late .access (info r))
            ∧ (s.recordCheck lr right = none →
              (unfit → late .access (info 0x15))
              ∧ (¬unfit → beyond → late .access (info 0x16))
              ∧ (¬unfit → ¬beyond → noFmt → late .fillFmt (BitVec.ofNat 64 (mapFillFmt m)))
              ∧ (¬unfit → kind = .red → mapRop m ≤ 1 → s.detOf s.curG = true → late .detFp 0))))))
    ∧ (s.curT.prod = some s.curG.idx → s.curT.ended = false → tile < 192 → s.badReg (coordRegs b m) = none →
    (Ready h (coordRange b) [a, d, c] s → MapAtHand s (s.record a) m → s.copyCheck .load m (s.record d) = none →
      let only (cid : Nat) (t : State) : Prop := issued cid t ∧ walked t ∧ t = { s with
          groups := t.groups, copies := t.copies, tiles := t.tiles, dev := t.dev, mcasts := t.mcasts, net := t.net
          nextId := t.nextId }
        ∧ t.tile tile = { s.tile tile with tlb := (t.tile tile).tlb, busy := (t.tile tile).busy }
      (mapMcast m = 0 →
        let x := new .load (s.record d) [team]
        ∃ t cid, exec (.tcopy h d a b c) s = .next t ∧ only cid t ∧ t.mcasts = s.mcasts
          ∧ t.copies.get? cid = some { x with reserved := [team] }
          ∧ (∀ e ∈ x.beats, cid ∈ (t.tile tile).busy.getD (s.beatBlock x team e) [])
          ∧ ∀ k, (∀ e ∈ x.beats, s.beatBlock x team e ≠ k) →
            (t.tile tile).busy.getD k [] = (s.tile tile).busy.getD k [])
      ∧ (mapMcast m ≠ 0 →
        let all := (s.cluster s.curT.cluster).teams.filter fun i => (mapMcast m).testBit (s.team i).idx
        ∃ t cid y, exec (.tcopy h d a b c) s = .next t ∧ only cid t ∧ t.copies.get? cid = some y
          ∧ y = { new .load (s.record d) all with reserved := y.reserved }
          ∧ ∀ i ∈ all, if i = team then i ∈ y.reserved else ∃ k, t.mcasts.get? k = some (cid, i)))
    ∧ (Ready h (coordRange b) [d, a, c] s → MapAtHand s (s.record d) m → s.copyCheck .store m (s.record a) = none →
      let x := new .store (s.record a) [team]
      ∃ t cid y, exec (.tstore h d a b c) s = .next t ∧ WentOn h.len.bytes s t ∧ t.copies.get? cid = some y
        ∧ y = { x with
            reserving := y.reserving, srcs := y.srcs, refused := y.refused, asked := y.asked, phys := y.phys, paused := y.paused }
        ∧ (mapBten m = false → y.reserving = false ∧ y.srcs = [] ∧
          (∀ l ∈ y.asked, ∃ k q, t.net.get? k = some q ∧ q.ev = 9 ∧ q.line = y.phys.getD l 0 ∧ q.tag = .copy cid l
            ∧ q.holder = some (stagehandId tile))
          ∧ ((∀ l, s.badMask tile l = 0) →
            (∀ e < mapTotal m, ∀ g, x.locate e = .at g → ∀ l ∈ x.linesAt g,
              ∃ p unc, s.Maps ctx l p unc (s.curG.level == .u) 3) →
            (∀ l, l ∈ y.asked ↔ ∃ e < mapTotal m, ∃ g, x.locate e = .at g ∧ l ∈ x.linesAt g)
            ∧ (∀ l ∈ y.asked, (∃ unc, s.Maps ctx l (y.phys.getD l 0) unc (s.curG.level == .u) 3)
              ∧ t.l1 tile (y.phys.getD l 0) = none
              ∧ ∀ z, s.l1 tile (y.phys.getD l 0) = some z → z.dmask ≠ 0 → ∃ k q, t.net.get? k = some q ∧ q.ev = 2
                ∧ q.line = y.phys.getD l 0 ∧ q.tag = .wb tile ∧ q.data = z.data ∧ q.mask = z.dmask)
            ∧ y.refused = [] ∧ y.paused = none ∧ issued cid t
            ∧ t = { s with
                groups := t.groups, copies := t.copies, tiles := t.tiles, dev := t.dev, net := t.net, nextId := t.nextId }
            ∧ t.tile tile = { s.tile tile with tlb := (t.tile tile).tlb, l1 := (t.tile tile).l1 }
            ∧ (∀ l, (∀ v ∈ y.asked, y.phys.getD v 0 ≠ l) → t.l1 tile l = s.l1 tile l)))
        ∧ (x.tableLines ≠ [] → (∀ l ∈ x.tableLines, ∃ p unc, s.Maps ctx l p unc (s.curG.level == .u) 2) →
          y = { x with reserving := true, asked := y.asked } ∧ issued cid t
          ∧ (∀ l, l ∈ y.asked ↔ l ∈ x.tableLines)
          ∧ (∀ l ∈ y.asked, ∃ k q unc, t.net.get? k = some q ∧ q.ev = 10 ∧ q.tag = .copy cid l
            ∧ s.Maps ctx l q.line unc (s.curG.level == .u) 2)
          ∧ (s.cur.slices ≠ 0 → t.reserving t.curG s.cur.slices = true)
          ∧ t = { s with
              groups := t.groups, copies := t.copies, tiles := t.tiles, dev := t.dev, net := t.net, nextId := t.nextId }
          ∧ t.tile tile = { s.tile tile with tlb := (t.tile tile).tlb }))
    ∧ (Ready h (coordRange b) [d, a, c] s → MapAtHand s (s.record d) m → s.copyCheck .red m (s.record a) = none →
      ∃ t cid, exec (.tred h d a b c) s = .next t ∧ issued cid t ∧ walked t
        ∧ t = { s with
            groups := t.groups, copies := t.copies, tiles := t.tiles, dev := t.dev, net := t.net, nextId := t.nextId }
        ∧ t.tile tile = { s.tile tile with tlb := (t.tile tile).tlb }
        ∧ t.copies.get? cid = some (new .red (s.record a) [team])))
    ∧ ∀ k id tid (x : Copy), s.mcasts.get? k = some (id, tid) → s.copies.get? id = some x →
      ∃ t, exec (.mcastReservation k) s = .next t ∧ t = { s with mcasts := t.mcasts, copies := t.copies, tiles := t.tiles }
        ∧ Removed k s.mcasts t.mcasts ∧ PutAt id { x with reserved := tid :: x.reserved } s.copies t.copies
        ∧ (∀ i, i ≠ (s.team tid).tile → t.tile i = s.tile i)
        ∧ t.tile (s.team tid).tile = { s.tile (s.team tid).tile with busy := (t.tile (s.team tid).tile).busy }
        ∧ if (s.team tid).ended = true then t.tiles = s.tiles
          else ∀ e ∈ x.beats, x.next ≤ e → id ∈ (t.tile (s.team tid).tile).busy.getD (s.beatBlock x tid e) [])

/-- R128-R131, R135-R137, R139, R147: one beat of a walk, and the end of a copy. A TCOPY's beat writes its elements, the
fill pattern of R130 where one is out of bounds, and its descriptor, and releases the block; a TSTORE's beat puts its
elements into their lines, the highest element last, and gives home the lines that no later element touches; a TRED presents
each element at its home. A TSTORE that reads its block table reserves its lines once the table has come. Nothing walks in a
changeover (R303) or in a cycle in which the tile may not issue (R311). A copy that is done decrements its token on each tile;
a checkpoint gives its lines back with what it has walked of them.
The model's own choices in it: log entries 32 and 85; log entry 33: an element of a TRED that lies in two lines is presented at
the home of the first; log entry 77 (DEDUCED): the token keeps the widest scope that has decremented it. -/
def Obligations.CopiesRun : Prop :=
  ∀ (s : State) (cid tid : Nat) (c : Copy),
    let es := c.beat c.next
    let tile := (s.team tid).tile
    let runs : Prop := c.paused = none ∧ c.stopped = false ∧ c.reserving = false ∧ c.stale = [] ∧ c.next < mapTotal c.map
      ∧ (s.tile (s.copyTile c)).change = none ∧ s.mayIssue (s.copyTile c) = true ∧ c.next % (64 / c.sz) = 0 ∧ mapEsz c.map ≤ 4
      ∧ ∀ e ∈ es, c.fate e = .oob ∨ ∃ g, c.fate e = .at g
    let past : Copy := { c with
      next := c.next + es.length, srcs := [], refused := c.refused.filter fun p => p.2 != 0x0C30 }
    let pattern (i : Nat) : Nat :=
      if mapFill c.map = 1 then
        match mapFillFmt c.map with
        | 0x10 => if i % 2 = 0 then 0xC0 else 0x7F
        | 0x11 => if i % 2 = 0 then 0x00 else 0x7E
        | 0x20 => 0x7F
        | 0x21 => 0x7E
        | _ => 0
      else if mapFillFmt c.map = 0x22 then 0x77 else 0
    let fromHere : Prop := s.heldBefore (s.copyTile c) (s.beatBlock c c.team c.next) cid = false
      ∧ s.localPending c.gid c.slices cid = false ∧ (s.localBeat c c.next).2.2 = false
    s.copies.get? cid = some c →
    ((s.tile (s.copyTile c)).change ≠ none ∨ s.mayIssue (s.copyTile c) = false → exec (.stagehandWalk cid) s = .next s) ∧
    (runs → c.kind = .load → c.tiles = [tid] → tid ∈ c.reserved → (s.team tid).ended = false → tile < 192 → s.accs = [] →
      (∀ p ∈ c.srcs, p.2.1 < 256 ^ 128) →
      s.heldBefore tile (s.beatBlock c tid c.next) cid = false → recBase c.record % 128 = 0 → (s.tile tile).store.wf = true →
      let b := s.beatBlock c tid c.next
      let at0 (e : Nat) : Nat := s.plaOf tid (c.localOff e)
      ∃ t, exec (.stagehandWalk cid) s = .next t ∧ t = { s with tiles := t.tiles, copies := t.copies, bad := t.bad }
        ∧ PutAt cid past s.copies t.copies ∧ (∀ i, i ≠ tile → t.tile i = s.tile i)
        ∧ t.tile tile = { s.tile tile with
            store := (t.tile tile).store, storeDesc := (t.tile tile).storeDesc, busy := (t.tile tile).busy }
        ∧ (∀ e ∈ es, ∀ i < c.sz,
          (c.fate e = .oob → ((t.tile tile).store.read (at0 e + i)).toNat = pattern i)
          ∧ ∀ g, c.fate e = .at g → ((t.tile tile).store.read (at0 e + i)).toNat =
            ((c.srcs.get? ((g + i) / 128)).map (·.1)).getD 0 / 256 ^ ((g + i) % 128) % 256)
        ∧ (∀ y, (∀ e ∈ es, y < at0 e ∨ at0 e + c.sz ≤ y) → (t.tile tile).store.read y = (s.tile tile).store.read y)
        ∧ (∀ y, y ≠ b → (t.tile tile).storeDesc.getD y 0 = (s.tile tile).storeDesc.getD y 0)
        ∧ ((∀ e ∈ es, c.fate e = .oob) →
          (t.tile tile).storeDesc.getD b 0 = BitVec.ofNat 16 (mapFillFmt c.map * 256 + mapFillScale c.map))
        ∧ (∀ e ∈ es, ∀ g, c.fate e = .at g →
          (∀ e' ∈ es, ∀ g', c.fate e' = .at g' → c.localOff e % 64 ≤ c.localOff e' % 64) →
          (t.tile tile).storeDesc.getD b 0 = c.sourceDesc g)
        ∧ ∀ y, (t.tile tile).busy.getD y [] =
            if y = b then ((s.tile tile).busy.getD y []).filter (· != cid) else (s.tile tile).busy.getD y [])
    ∧ (runs → c.kind = .store → fromHere →
      let takes (e p : Nat) : Prop := ∃ g, c.fate e = .at g ∧ g ≤ p ∧ p < g + c.sz
      let byte (f : Nat → LineImg) (p : Nat) : Nat × Bool :=
        ((f (p / 128)).data / 256 ^ (p % 128) % 256, (f (p / 128)).mask.getLsbD (p % 128))
      let leads (e l h : Nat) : Prop := ∃ g, c.fate e = .at g ∧ g / 64 ≤ 2 * l + h ∧ 2 * l + h ≤ (g + c.sz - 1) / 64
        ∧ (if h = 0 then (c.img l).low0 else (c.img l).low1).all (g ≤ ·) = true
      ∃ t x f, exec (.stagehandWalk cid) s = .next t ∧ t = { s with copies := t.copies, net := t.net, nextId := t.nextId }
        ∧ PutAt cid x s.copies t.copies
        ∧ x = { past with owned := x.owned, imgs := x.imgs, outs := x.outs }
        ∧ (∀ p, (∀ e ∈ es, ¬takes e p) → byte f p = byte c.img p)
        ∧ (∀ p, ∀ e ∈ es, ∀ g, c.fate e = .at g → g ≤ p → p < g + c.sz → (∀ e' ∈ es, e < e' → ¬takes e' p) →
          byte f p = (s.localElem c e / 256 ^ (p - g) % 256, true))
        ∧ (∀ l h, h < 2 →
          ((∃ e ∈ es, leads e l h) → descOf (f l).descs h = (s.localBeat c c.next).2.1 ∧ (f l).descW.getLsbD h = true)
          ∧ ((∀ e ∈ es, ¬leads e l h) →
            descOf (f l).descs h = descOf (c.img l).descs h ∧ (f l).descW.getLsbD h = (c.img l).descW.getLsbD h))
        ∧ (∀ l, l ∉ c.lastLines es → x.img l = f l ∧ (l ∈ x.owned ↔ l ∈ c.owned))
        ∧ ∀ l ∈ c.lastLines es, l ∉ x.owned ∧ ∃ k q, t.net.get? k = some q ∧ k ∈ x.outs
          ∧ q.ev = (if (f l).mask = 0 then 4 else 5) ∧ q.line = c.phys.getD l 0 ∧ q.holder = some (stagehandId (s.copyTile c))
          ∧ q.data = (f l).data ∧ q.mask = (f l).mask ∧ q.descs = (f l).descs ∧ q.descW = (f l).descW)
    ∧ (runs → c.kind = .red → fromHere →
      ∃ t x, exec (.stagehandWalk cid) s = .next t ∧ t = { s with copies := t.copies, net := t.net, nextId := t.nextId }
        ∧ PutAt cid x s.copies t.copies ∧ x = { past with outs := x.outs }
        ∧ ∀ e ∈ es, ∀ g, c.fate e = .at g → ∃ k q, t.net.get? k = some q ∧ k ∈ x.outs ∧ q.ev = 8
          ∧ q.line = c.phys.getD (g / 128) 0 ∧ q.tag = .copy cid e
          ∧ q.elems = [⟨0, e, 0, g % 128, c.sz, s.localElem c e, c.phys.getD (g / 128 + 1) 0, none⟩]
          ∧ (q.op, q.aty) = ropAtom (mapRop c.map))
    ∧ (c.left.find? (fun i => (s.team i).tile == tile) = some tid → s.copyDone c = true → c.stopped = false →
      s.teams.get? tid ≠ none → (∃ i ∈ (s.team c.team).groups, (s.group i).ended = false) →
      ∃ t, exec (.copyComplete cid tile) s = .next t
        ∧ t = { s with teams := t.teams, copies := t.copies, mons := t.mons, free := t.free }
        ∧ (c.kind ≠ .load → t.mons = s.mons ∧ t.free = s.free)
        ∧ (∀ i, i ≠ tid → t.teams.get? i = s.teams.get? i)
        ∧ t.team tid = { s.team tid with tokens := (t.team tid).tokens }
        ∧ (∀ j, (t.team tid).token j =
            let k := (s.team tid).token j
            if j ≠ c.tok then k
            else if k.count = 0 then { k with under := true, acq := max k.acq c.scope }
            else { k with count := k.count - 1, acq := max k.acq c.scope })
        ∧ if c.left.filter (· != tid) = [] then Removed cid s.copies t.copies
          else PutAt cid { c with left := c.left.filter (· != tid) } s.copies t.copies)
    ∧ ((s.cluster (s.team c.team).cluster).state = .draining → c.stopped = false →
      ∃ t x, exec (.copyCheckpoint cid) s = .next t ∧ t = { s with copies := t.copies, net := t.net, nextId := t.nextId }
        ∧ PutAt cid x s.copies t.copies
        ∧ x = { c with stopped := true, paused := none, stale := [], owned := [], outs := x.outs, imgs := x.imgs }
        ∧ ∀ l ∈ c.owned, ∃ k q, t.net.get? k = some q ∧ k ∈ x.outs ∧ q.line = c.phys.getD l 0
          ∧ q.holder = some (stagehandId (s.copyTile c))
          ∧ if l ∈ c.stale then q.ev = 4 ∧ x.img l = c.img l
            else q.ev = (if (c.img l).mask = 0 then 4 else 5) ∧ q.data = (c.img l).data ∧ q.mask = (c.img l).mask)
    ∧ (c.stopped = false → c.reserving = true → (s.tile (s.copyTile c)).change = none → s.mayIssue (s.copyTile c) = true →
      (∀ l ∈ c.tableLines, c.srcs.get? l ≠ none ∧ l ∉ c.asked) →
      ∃ t y, exec (.stagehandWalk cid) s = .next t ∧ t.copies.get? cid = some y ∧ y.reserving = false ∧ y.srcs = []
        ∧ y.next = c.next ∧ ∀ l ∈ y.asked, l ∈ c.asked ∨ ∃ k q, t.net.get? k = some q ∧ q.ev = 9
          ∧ q.line = y.phys.getD l 0 ∧ q.tag = .copy cid l ∧ q.holder = some (stagehandId (s.copyTile c)))
    ∧ ∀ (e : Nat) (j : Nat → Nat), mapBten c.map = false → mapNdim c.map ≤ 5 →
      (∀ i < 5, j i < mapBox c.map i) → c.coords.length = 5 →
      e = j 0 + mapBox c.map 0 * (j 1 + mapBox c.map 1 * (j 2 + mapBox c.map 2 * (j 3 + mapBox c.map 3 * j 4))) →
      let x (i : Nat) : Int := (c.coords[i]?).getD 0 + (j i : Int)
      let n (i : Nat) : Int := mapExt c.map i
      let edge : Prop := mapFill c.map = 2 ∧ c.kind = .load
      let y (i : Nat) : Int := if mapCirc c.map i then x i % n i else max 0 (min (x i) (n i - 1))
      let out (i : Nat) : Prop := mapCirc c.map i = false ∧ ¬edge ∧ (x i < 0 ∨ n i ≤ x i)
      let g : Int := mapBase c.map + ((List.range (mapNdim c.map)).map fun i => y i * mapStr c.map i).sum
      (∀ i < mapNdim c.map, 1 ≤ mapExt c.map i) →
      ((∃ i < mapNdim c.map, out i) → c.locate e = .oob)
      ∧ ((∀ i < mapNdim c.map, ¬out i) → c.locate e =
        if g < 0 ∨ 2 ^ 56 < g + (2 ^ mapEsz c.map : Nat) then .fails 0x0C 0x18 else .at g.toNat)

/-! ### Coherence registers and the fault queue -/

/-- R111, R120, R121, R123: scripts and ranges. A commit starts one load; the load's result is in SLDSTAT, and a script
that passes every check is the slot's from then on; the first check that fails gives its code. A range entry that passes its
checks sets BUSY and takes effect when every line of its ranges is retired, and not while one has a holder; one that fails
changes RTSTAT only, with the code of its first failing check.
The model's own choices in it: log entry 3: the image is read in one step; log entry 50: a script without FLAGS[2] clears the
slot's verified bit; log entry 75: SLDPA keeps the bits below its alignment. -/
def Obligations.ScriptsAndRanges : Prop :=
  ∀ (s : State) (die n : Nat) (val : W64),
    let c := s.cohOf die
    let only (t : State) : Prop := t = { s with coh := t.coh } ∧ ∀ d, d ≠ die → t.cohOf d = s.cohOf d
    let w0 := c.staged.getD n 0
    let old0 := c.force0.getD n 0
    let covers (w : W64) (l : Nat) : Prop := w.getLsbD 63 = true
      ∧ l * 128 / 2 ^ (w.toNat % 64) = w.toNat / 2 ^ 16 % 2 ^ 36 * 2 ^ 16 / 2 ^ (w.toNat % 64)
    let empty (w0 old0 : W64) : Prop := (∀ p ∈ s.dir, ¬(isDramLine p.1 = true ∧ homeDie p.1 = die
      ∧ (covers w0 p.1 ∨ covers old0 p.1))) ∧ ∀ p ∈ s.replicas, ¬(covers w0 p.line ∨ covers old0 p.line)
    (die < 2 → val.getLsbD 8 = true → c.sldBusy = false →
      ∃ t, exec (.sldcmdCommit die val) s = .next t ∧ only t ∧ t.cohOf die = { c with sldBusy := true, sldCmd := val })
    ∧ (die < 2 → val.getLsbD 8 = false ∨ c.sldBusy = true → exec (.sldcmdCommit die val) s = .next s)
    ∧ (c.sldBusy = true →
      let slot := c.sldCmd.toNat % 8
      let pa := c.sldpa.toNat
      let img := (List.range 1088).map fun i => BitVec.ofNat 8 (s.cohRead (pa + i) 1)
      let res := s.loadCheck die slot pa img
      ∃ t, exec (.scriptLoadDone die) s = .next t ∧ only t
        ∧ (t.cohOf die).sldBusy = false
        ∧ (t.cohOf die).sldstat.toNat = slot * 2 ^ 24 + res.2.1 * 2 ^ 16 + res.2.2 * 2 ^ 8 + res.1
        ∧ (res.1 ≠ 0 → (t.cohOf die).scripts = c.scripts ∧ (t.cohOf die).srep = c.srep)
        ∧ (slot < 6 → res.1 = 7)
        ∧ (6 ≤ slot →
          let named : Prop := (∃ k < 64, (c.word0 k).getLsbD 63 = true ∧ (c.word1 k).toNat % 8 = slot)
            ∨ ∃ p, c.rtPend = some p ∧ p.2.1.getLsbD 63 = true ∧ p.2.2.toNat % 8 = slot
          let far : Prop := isDram pa = false ∨ isDram (pa + 1087) = false
            ∨ ∃ b, pa / 64 ≤ b ∧ b ≤ (pa + 1087) / 64 ∧ s.newestErr (b / 2) (b % 2) ≠ 0
          let x := scriptOf img
          let any (f : Nat → Nat → Ent → Prop) : Prop := ∃ q < 16, ∃ e < 16, f q e (x.ent q e)
          let on (y : Ent) (b : Nat) : Prop := y.act.testBit b = true
          let only (y : Ent) : Prop := y.act = 2 ^ 14 ∧ y.save = false ∧ y.timer = false ∧ y.stall = false
          let ill (y : Ent) : Prop := ¬(y.msg ≤ 6 ∨ 0x10 ≤ y.msg ∧ y.msg ≤ 0x12) ∨ (on y 7 ∨ on y 8 ∨ on y 14) ∧ y.msg ≠ 0
            ∨ (on y 4 ∨ on y 5 ∨ on y 6) ∧ ¬(on y 9 ∧ y.msg = 0x12)
              ∧ ¬(on y 17 ∧ (on y 4 → y.msg = 2) ∧ (on y 5 → y.msg = 3) ∧ (on y 6 → y.msg = 4))
          let bad9 : Prop := x.cls 0 ≠ 0 ∨ 16 ≤ x.flags ∨ 64 ≤ x.redmask ∨ (∃ i, 8 ≤ i ∧ i < 64 ∧ img[i]? ≠ some 0)
            ∨ any fun q e y => leNat ((img.drop (64 + 4 * (16 * q + e))).take 4) / 2 ^ 29 % 4 ≠ 0 ∨ ill y
          let bad1 : Prop := any fun _ e y => if 12 ≤ e then ¬only y else y.valid = false ∧ ¬on y 14
          let bad5 : Prop := any fun _ _ y => on y 14 ∧ ¬only y
          let bad2 : Prop := any fun q _ y => (x.cls q = 1 ∨ x.cls q = 2) ∧ (on y 5 ∨ on y 6) ∧ ¬on y 8 ∧ ¬on y 9
          let bad3 : Prop := any fun q e y => x.cls q = 3
            ∧ (e = 6 ∧ x.settles 4 q = false ∨ e ∉ [4, 5, 6, 11] ∧ y.stall = false ∧ ¬on y 14)
          let bad4 : Prop := any fun _ _ y => on y 13 ∧ x.flags.testBit 0 = false ∨ on y 11 ∧ x.flags.testBit 1 = false
          let bad6 : Prop := x.flags.testBit 2 = true ∧ c.hashMatches img = false
          (named → res.1 = 8) ∧ (¬named → (far → res.1 = 0x0A) ∧ (¬far → (bad9 → res.1 = 9) ∧ (¬bad9 →
            (bad1 → res.1 = 1) ∧ (¬bad1 → (bad5 → res.1 = 5) ∧ (¬bad5 → (bad2 → res.1 = 2) ∧ (¬bad2 →
            (bad3 → res.1 = 3) ∧ (¬bad3 → (bad4 → res.1 = 4) ∧ (¬bad4 → (bad6 → res.1 = 6) ∧ (¬bad6 → res.1 = 0)))))))))
          )
        ∧ (res.1 = 0 → (t.cohOf die).script slot = scriptOf img ∧ (∀ k, k ≠ slot → (t.cohOf die).script k = c.script k)
          ∧ ∀ i < 64, (t.cohOf die).srep.getLsbD i =
              if i = slot then true else if i = 8 + slot then (img.getD 4 0).getLsbD 2 else c.srep.getLsbD i))
    ∧ (die < 2 → n < 64 → c.rtBusy = false →
      (c.rangeCheck w0 val ≠ 0 → ∃ t, exec (.rtabCommit die n val) s = .next t ∧ only t
        ∧ t.cohOf die = { c with rtstat := BitVec.ofNat 64 (n * 256 + c.rangeCheck w0 val) })
      ∧ (w0.getLsbD 63 = false → c.rangeCheck w0 val = 0)
      ∧ (w0.getLsbD 63 = true →
        let k := w0.toNat % 64
        let slot := val.toNat % 8
        let malformed : Prop := w0.toNat / 2 ^ 52 % 2 ^ 11 ≠ 0 ∨ w0.toNat / 2 ^ 6 % 2 ^ 10 ≠ 0 ∨ val.toNat / 2 ^ 8 ≠ 0
          ∨ val.toNat / 2 ^ 3 % 4 ≠ 0 ∨ k < 16 ∨ 51 < k ∨ w0.toNat / 2 ^ 16 % 2 ^ 36 * 2 ^ 16 % 2 ^ k ≠ 0
        let disabled : Prop := c.srep.getLsbD slot = false
        let exceeds : Prop := (c.script slot).flags.testBit 0 = true ∧ val.getLsbD 5 = false
          ∨ (c.script slot).flags.testBit 1 = true ∧ val.getLsbD 6 = false
        let unverified : Prop := val.getLsbD 7 = true ∧ c.srep.getLsbD (8 + slot) = false
        (malformed → c.rangeCheck w0 val = 9) ∧ (¬malformed → (disabled → c.rangeCheck w0 val = 0x0B)
          ∧ (¬disabled → (exceeds → c.rangeCheck w0 val = 4)
          ∧ (¬exceeds → (unverified → c.rangeCheck w0 val = 6) ∧ (¬unverified → c.rangeCheck w0 val = 0)))))
      ∧ (c.rangeCheck w0 val = 0 → empty w0 old0 →
        ∃ t, exec (.rtabCommit die n val) s = .next t ∧ only t
          ∧ t.cohOf die = { c with rtstat := BitVec.ofNat 64 (n * 256), rtBusy := true, rtPend := some (n, w0, val) })
      ∧ (c.rangeCheck w0 val = 0 → ∃ t, exec (.rtabCommit die n val) s = .next t
        ∧ t.cohOf die = { c with rtstat := BitVec.ofNat 64 (n * 256), rtBusy := true, rtPend := some (n, w0, val) }))
    ∧ (∀ (v0 v1 : W64) l (d : DirEntry), c.rtPend = some (n, v0, v1) → isDramLine l = true → homeDie l = die →
      covers v0 l ∨ covers old0 l → s.dir.get? l = some d → d.ptrs ≠ [] → exec (.rangeRetireDone die) s = .next s)
    ∧ (∀ v0 v1 : W64, c.rtPend = some (n, v0, v1) → empty v0 old0 →
      ∃ t, exec (.rangeRetireDone die) s = .next t ∧ only t
        ∧ t.cohOf die = { c with
            rtBusy := false, rtPend := none, force0 := (t.cohOf die).force0, force1 := (t.cohOf die).force1 }
        ∧ (∀ k, (t.cohOf die).word0 k = if k = n then v0 else c.word0 k)
        ∧ (∀ k, (t.cohOf die).word1 k = if k = n then v1 else c.word1 k)
        ∧ ∀ l, (∀ k < 64, covers ((t.cohOf die).word0 k) l → k = n) → covers v0 l → n < 64 →
          (t.cohOf die).slotAt (l * 128) = v1.toNat % 8)

/-- R75, R78, R134, R137: a write that leaves the fault queue enabled and with room writes the waiting entries in order,
advancing FQTAIL modulo 2^32, and signals when the queue was empty. FQRETRY frees the fetches, copies and logged accesses of
its context: with abort = 0 they try again, and one whose line is present now goes to its home; with abort = 1 they fail.
The model's own choices in it: log entries 3, 12, 19, 64, 72 and 73. -/
def Obligations.FaultQueue : Prop :=
  ∀ (s : State) (val : W64) (es : List (BitVec 256)) (size : Bool) (ctx k pl : Nat) (a : Access) (l : LineAcc) (unc : Bool),
    let room (q : Fq) : Prop :=
      q.enabled = true ∧ (q.tail.toNat + 2 ^ 32 - q.head.toNat % 2 ^ 32) % 2 ^ 32 + es.length ≤ q.size.toNat
    let slot (q : Fq) (i : Nat) : Nat := q.base.toNat + 32 * ((q.tail.toNat + i) % q.size.toNat)
    let written (q : Fq) (t : State) : Prop :=
      (∀ i e, es[i]? = some e → ∀ j < 32, (t.mem.read (slot q i + j)).toNat = e.toNat / 256 ^ j % 256)
      ∧ (∀ x, (∀ i < es.length, x < slot q i ∨ slot q i + 32 ≤ x) → t.mem.read x = s.mem.read x)
      ∧ t.fq = { q with waiting := [], tail := t.fq.tail, signals := t.fq.signals }
      ∧ t.fq.tail.toNat = (q.tail.toNat + es.length) % 2 ^ 32
      ∧ (q.tail.toNat % 2 ^ 32 = q.head.toNat % 2 ^ 32 → t.fq.signals = q.signals + 1)
      ∧ (q.tail.toNat % 2 ^ 32 ≠ q.head.toNat % 2 ^ 32 → t.fq.signals = q.signals)
    let config : Fq := if size then { s.fq with size := val } else { s.fq with base := val }
    let head : Fq := { s.fq with head := BitVec.ofNat 64 (val.toNat % 2 ^ 32) }
    let waits (t : State) (f : Wait → Wait) : Prop :=
      (∀ i g, s.groups.get? i = some g → g.ended = false → g.level ≠ .m → s.ctxOf g = ctx →
        t.groups.get? i = some { g with age := (t.group i).age, gangs := g.gangs.map fun x => { x with wait := f x.wait } })
      ∧ ∀ i, (∀ g, (i, g) ∈ s.groups → s.ctxOf g ≠ ctx) → t.groups.get? i = s.groups.get? i
    (∀ (i : Instr) (q : Fq), (i = .fqConfigWrite size val ∧ q = config) ∨ (i = .fqheadWrite val ∧ q = head) →
      (s.fq.waiting = [] ∨ q.enabled = false → exec i s = .next { s with fq := q })
      ∧ (s.fq.waiting = es → es ≠ [] → room q → s.mem.wf = true → (∀ i < es.length, s.Quiet (slot q i / 128)) →
        ∃ t, exec i s = .next t ∧ t = { s with mem := t.mem, l2 := t.l2, code := t.code, fq := t.fq } ∧ written q t))
    ∧ (s.accs = [] → s.launches = [] →
      (∃ t, exec (.fqretryRetry ctx) s = .next t ∧ t = { s with groups := t.groups, copies := t.copies, nextId := t.nextId }
        ∧ waits t (fun w => match w with
          | .retry _ false => .none
          | w => w)
        ∧ ∀ j c, s.copies.get? j = some c →
          t.copies.get? j = some (if c.ctx = ctx then { c with paused := none } else c))
      ∧ ∃ t, exec (.fqretryAbort ctx) s = .next t ∧ t = { s with groups := t.groups, copies := t.copies, nextId := t.nextId }
        ∧ waits t (fun w => match w with
          | .retry va false => .retry va true
          | w => w)
        ∧ ∀ j c, s.copies.get? j = some c →
          t.copies.get? j = some (if c.ctx = ctx ∧ c.paused ≠ none then { c with paused := none, abort := true } else c))
    ∧ (s.accs = [(k, a)] → s.launches = [] → s.copies = [] → a.log ≠ none → a.lines = [l] → l.status = .missing →
      a.kind = .store → a.acq = none → s.ctxOf (s.group a.gid) = ctx → s.accTile a ≠ 192 →
      s.groups.get? a.gid ≠ none → (s.group a.gid).ended = false → (∀ x ∈ (s.group a.gid).gangs, x.wait = .none) →
      ∃ t, exec (.fqretryAbort ctx) s = .next t
        ∧ t = { s with groups := t.groups, accs := t.accs, nextId := t.nextId } ∧ t.accs = []
        ∧ t.group a.gid = { s.group a.gid with
            age := (t.group a.gid).age
            pend := (s.group a.gid).pend ++ [⟨.access, a.pc,
              BitVec.ofNat 64 (2 ^ 63 + 0x30 * 2 ^ 56 + l.va / 128 * 128 % 2 ^ 56), (slicesOf a.slices).headD 8, a.level == .s, k⟩] })
    ∧ (s.accs = [(k, a)] → s.launches = [] → s.copies = [] → a.log ≠ none → a.lines = [l] → l.status = .missing →
      a.kind = .store → a.space = spcGlobal → a.level ≠ .m → (s.group a.gid).level ≠ .m → a.gate = [] → a.flushes = false →
      a.wbs = [] → s.ctxOf (s.group a.gid) = ctx → s.accTile a < 192 → s.l1 (s.accTile a) pl = none → s.CacheAgrees (s.accTile a) ctx →
      s.Maps ctx (l.va / 128) pl unc (a.level == .u) 3 →
      ∃ t j r, exec (.fqretryRetry ctx) s = .next t
        ∧ t = { s with groups := t.groups, accs := t.accs, tiles := t.tiles, dev := t.dev, net := t.net, nextId := t.nextId }
        ∧ t.accs = [(k, { a with lines := [⟨l.va / 128 * 128, pl, unc, .sent⟩] })]
        ∧ t.net.get? j = some r ∧ (∀ i, i < s.nextId → t.net.get? i = s.net.get? i)
        ∧ r.ev = 2 ∧ r.line = pl ∧ r.tag = .acc k 0 ∧ (r.data, r.mask, r.descs, r.descW) = a.writeOn 0)

/-! ### The distributor -/

/-- R278-R282, R349, R350, R391: queues and packets. A write of LQCTL that sets EN clears ERR; a packet copied from a queue
becomes its launch and HEAD counts on, a refused one stops the queue with its code and HEAD stays; the counters of a
waiting head are read; a notification of a queue's TAIL makes the distributor look there.
The model's own choices in it: log entries 3, 47 and 64. -/
def Obligations.LaunchQueues : Prop :=
  ∀ (s u : State) (who : Master) (q : Nat) (val : W64) (ring log head tail lid line ev : Nat) (l : Launch)
    (unc first : Bool) (r : List (Nat × Nat)),
    let x := s.dist.lqctl.getD q 0
    let refused (code : Nat) (t : State) : Prop := t.dist = { s.dist with lqctl := t.dist.lqctl }
      ∧ (∀ j, j ≠ q → t.dist.lqctl.getD j 0 = s.dist.lqctl.getD j 0)
      ∧ ∀ i < 64, (t.dist.lqctl.getD q 0).getLsbD i =
          if i = 3 then false else if 8 ≤ i ∧ i < 16 then code.testBit (i - 8) else x.getLsbD i
    let pkt := (s.cohLine ((ring + 128 * (head % 2 ^ log)) / 128)).1
    let noHead (s : State) : Prop := ∀ j < 64, s.headOf j = none
    let s1 : State := { s with dist := { s.dist with notifs := r } }
    (q < 64 → ∃ t, exec (.lqctlWrite who q val) s = .next t ∧ t = { s with dist := t.dist, sm := t.sm }
      ∧ t.dist = { s.dist with lqctl := t.dist.lqctl }
      ∧ (∀ j, j ≠ q → t.dist.lqctl.getD j 0 = s.dist.lqctl.getD j 0)
      ∧ (t.dist.lqctl.getD q 0).toNat = val.toNat % 256 + (if val.getLsbD 3 then 0 else x.toNat / 256 % 256 * 256)
      ∧ t.sm = { s.sm with seq := s.sm.seq + 1, evlog := t.sm.evlog, evlogOvf := t.sm.evlogOvf })
    ∧ (q < 64 → x.getLsbD 3 = true → s.headOf q = none →
      (s.readBlock q = none → ∃ t, exec (.packetCopy q) s = .next t ∧ t = { s with dist := t.dist } ∧ refused 0x0D t)
      ∧ (s.readBlock q = some (ring, log, head, tail) → head ≠ tail →
        (∀ code, s.packetFault pkt (x.toNat / 16 % 16) = some code →
          ∃ t, exec (.packetCopy q) s = .next t ∧ t = { s with dist := t.dist } ∧ refused code t)
        ∧ (s.packetFault pkt (x.toNat / 16 % 16) = none → s.mem.wf = true →
          s.Quiet ((s.dist.lqtab.toNat / 2 ^ 14 * 2 ^ 14 + 256 * q + 16) / 128) →
          ∃ t, exec (.packetCopy q) s = .next t
            ∧ t = { s with
                mem := t.mem, l2 := t.l2, code := t.code, launches := t.launches, dist := t.dist, nextId := s.nextId + 1 }
            ∧ t.dist = { s.dist with head := t.dist.head } ∧ PutAt q s.nextId s.dist.head t.dist.head
            ∧ PutAt s.nextId { Launch.blank with queue := q, ctx := x.toNat / 16 % 16, pkt := parsePacket pkt }
                s.launches t.launches
            ∧ BytesAt (s.dist.lqtab.toNat / 2 ^ 14 * 2 ^ 14 + 256 * q + 16) (leBytes 4 ((head + 1) % 2 ^ 32)) s.mem t.mem)))
    ∧ (let wait := if first then l.pkt.wait0 else l.pkt.wait1
      let other := if first then l.pkt.wait1 else l.pkt.wait0
      s.headOf q = some (lid, l) → wait.1 ≠ 0 → (if first then l.met0 = false ∧ l.posted0 = false
        else l.met1 = false ∧ l.posted1 = false) → other.1 = 0 ∨ (if first then l.met1 else l.met0) = true →
      (s.translate 256 l.ctx wait.1 false .r = (.ok line unc, u) → isPeerLine line = false →
        let v := (u.cohLine line).1 / 256 ^ (wait.1 % 128) % 2 ^ 64
        ∃ t, exec (.waitCounterPoll q) s = .next t ∧ t = { u with launches := t.launches }
          ∧ PutAt lid (if first then { l with met0 := decide (wait.2 ≤ v) } else { l with met1 := decide (wait.2 ≤ v) })
              s.launches t.launches)
      ∧ (s.translate 256 l.ctx wait.1 false .r = (.missing, u) → s.fq.enabled = false → wait.1 < 2 ^ 56 →
        ∃ t e, exec (.waitCounterPoll q) s = .next t ∧ t = { u with launches := t.launches, fq := t.fq, sm := t.sm }
          ∧ PutAt lid (if first then { l with posted0 := true } else { l with posted1 := true }) s.launches t.launches
          ∧ t.fq = { s.fq with waiting := s.fq.waiting ++ [e] } ∧ e.toNat / 2 ^ 72 % 256 = 0
          ∧ e.toNat % 2 ^ 64 = wait.1 / 128 * 128 ∧ e.toNat / 2 ^ 80 % 65536 = 0xFFFF)
      ∧ (∀ z, s.translate 256 l.ctx wait.1 false .r = (.access z, u) → l.queue = q →
        ∃ t, exec (.waitCounterPoll q) s = .next t ∧ t = { u with launches := t.launches, dist := t.dist }
          ∧ PutAt lid { l with refused := true } s.launches t.launches ∧ refused 0x0A t))
    ∧ (s.dist.rescan = false → s.dist.notifs = (line, ev) :: r → noHead s →
      ((∀ j < 64, s.queueBlock j + 128 ≠ line) → exec .notify s = .next s1)
      ∧ (q < 64 → s.queueBlock q + 128 = line →
        ((∀ t, exec (.packetCopy q) s1 = .next t → ∀ j i y, t.headOf j = some (i, y) →
          y.pkt.wait0.1 = 0 ∧ y.pkt.wait1.1 = 0) →
        exec .notify s = exec (.packetCopy q) s1)))
    ∧ (s.dist.rescan = true → noHead s → (∀ j < 64, s.queueOn j = false) →
      exec .notify s = .next { s with dist := { s.dist with rescan := false } })

/-- R283-R286, R332-R334, R391: placing and taking out. The one cluster that can be placed, its launch's records mapped for
reading, is admitted on its rectangle, team by tile, its groups at CODEVA with their lanes and their records; where a line of the
records is not present it has its place and waits, reported with kind 0; where one may not be read its launch is refused. Rotation
stops the cluster resident longest, and makes room for the next; once drained a cluster gives back every grant, registers, local
store, descriptors and busy bits of its team in its record; the drain's budget stops what still runs. A restore gives
registers, local store and descriptors back from the record, and keeps everything else of group and team.
The model's own choices in it: log entries 3, 40, 42, 43, 44, 45 and 47. -/
def Obligations.ClusterPlacement : Prop :=
  ∀ (s : State) (c : Cand) (ts : List Nat) (l : Launch) (cid tid tile : Nat),
    let placed (t : State) : Prop :=
      (t.launch c.lid).next = l.next + 1 ∧ ∃ k, t.clusters.get? s.nextId = some k ∧ k.launch = c.lid ∧ k.idx = l.next
        ∧ k.state = .resident ∧ k.ended = false ∧ k.teams.length = ts.length
        ∧ ∀ i < ts.length, ∃ id tm, k.teams[i]? = some id ∧ t.teams.get? id = some tm ∧ tm.cluster = s.nextId
          ∧ tm.idx = i ∧ ts[i]? = some tm.tile ∧ tm.prod = l.pkt.prod ∧ tm.lgran = l.pkt.lgran ∧ tm.t = []
          ∧ tm.tokens = [] ∧ tm.points = [] ∧ tm.groups.length = l.pkt.ngroup
          ∧ ∀ j < l.pkt.ngroup, ∃ gid g, tm.groups[j]? = some gid ∧ t.groups.get? gid = some g ∧ g.team = id ∧ g.idx = j
            ∧ g.level = .u ∧ g.regs = 16 * l.pkt.regs ∧ g.accN = l.pkt.acc ∧ g.v = [] ∧ g.p = [] ∧ g.g = []
            ∧ ∀ n < 8, (g.slice n).pc = BitVec.ofNat 56 l.pkt.codeva ∧ (g.slice n).am = (g.slice n).live
              ∧ (g.slice n).masks = [] ∧ (g.slice n).calls = []
              ∧ ∀ b < 4, (g.slice n).live.getLsbD b = decide (4 * n + b < l.pkt.live)
    let alone : Prop := ((List.range 64).filterMap s.candOf) = [c] ∧ c.out = none ∧ s.rectFor c = some ts
      ∧ s.launches.get? c.lid = some l ∧ l.waiting = 0
    let seen (n : Nat) : Prop := ∃ p unc, s.Maps l.ctx n p unc false 2
    let denied (n : Nat) : Prop := ∃ p unc, s.Leads l.ctx n p unc false 2 false
    let walked : Prop := ts ≠ [] ∧ s.CacheAgrees (ts.headD 0) l.ctx
    let line (i : Nat) : Nat := (l.pkt.recva + i) / 128
    let ctx := (s.launch (s.cluster cid).launch).ctx
    let base := s.saveBase ctx (s.cluster cid).idx (s.team tid).idx
    let u := s.team tid
    (alone → walked → (∀ i < 512, seen (line i)) →
      ∃ t, exec .distributorPlace s = .next t ∧ t.dist.served.get? c.prio = some c.queue ∧ placed t
        ∧ (t.launch c.lid).refused = l.refused ∧ (t.launch c.lid).waiting = 0
        ∧ ∀ k, t.clusters.get? s.nextId = some k → ∀ id ∈ k.teams, ∀ i ∈ (t.team id).groups, (t.group i).stopped = false
          ∧ ∀ n < 16, ∀ p unc, s.Maps l.ctx ((l.pkt.recva + 32 * n) / 128) p unc false 2 →
            (t.group i).b.get? n = some (BitVec.ofNat 256 (bytesOf (s.cohLine p).1 ((l.pkt.recva + 32 * n) % 128) 32)))
    ∧ (∀ i < 512, alone → walked → s.fq.enabled = false → (∀ j < 512, seen (line j) ∨ s.NotPresent l.ctx (line j)) →
      (∀ j < i, seen (line j)) → s.NotPresent l.ctx (line i) →
      ∃ t e, exec .distributorPlace s = .next t ∧ t.dist.served.get? c.prio = some c.queue ∧ placed t
        ∧ (t.launch c.lid).refused = l.refused ∧ (t.launch c.lid).waiting = s.nextId
        ∧ (∀ k, t.clusters.get? s.nextId = some k → ∀ id ∈ k.teams, ∀ i ∈ (t.team id).groups, (t.group i).stopped = true)
        ∧ t.fq = { s.fq with waiting := s.fq.waiting ++ [e] } ∧ e.toNat / 2 ^ 72 % 256 = 0
        ∧ e.toNat % 2 ^ 64 = line i * 128 ∧ e.toNat / 2 ^ 80 % 65536 = ts.headD 0)
    ∧ (∀ i < 512, alone → walked → (∀ j < 512, seen (line j) ∨ s.NotPresent l.ctx (line j) ∨ denied (line j)) → denied (line i) →
      ∃ t, exec .distributorPlace s = .next t ∧ t.dist.served.get? c.prio = some c.queue
        ∧ (t.launch c.lid).refused = true ∧ (t.launch c.lid).next = l.next ∧ (t.launch c.lid).waiting = 0
        ∧ t.clusters.get? s.nextId = none ∧ t.fq = s.fq ∧ (t.dist.lqctl.getD l.queue 0).getLsbD 3 = false
        ∧ (t.dist.lqctl.getD l.queue 0).toNat / 256 % 256 = 0x0A)
    ∧ (s.candOf l.queue = some c → s.launches.get? c.lid = some l → l.pkt.det = false → s.switching = false → l.waiting = 0 →
      s.rectFor c = none →
      let vs := s.victims fun v => v.2.launch == c.lid
      vs ≠ [] →
      ∃ t id v, exec (.rotationTimeout c.lid) s = .next t ∧ (id, v) ∈ vs ∧ (∀ w ∈ vs, v.placedAt ≤ w.2.placedAt)
        ∧ (t.cluster id).state = .stopping ∧ (t.cluster id).outAt = s.nextId ∧ t.mem = s.mem
        ∧ (t.launch c.lid).due = some (c.out.getD 0)
        ∧ (s.ctxPnote (s.launch (s.cluster id).launch).ctx = false →
          (∀ j ∈ (s.cluster id).teams, (s.team j).cluster = id ∧ (s.team j).tile < 192
            ∧ (s.tile (s.team j).tile).change = none) →
          ∀ i ∈ s.clusterGroups id, s.groups.get? i ≠ none → (s.group i).ended = false → (s.group i).stopped = false →
          (s.group i).preempting = false →
          t.group i = { s.group i with
            stopped := true, place := if (s.group i).place = .loft then .loft else .pool, age := (t.group i).age
            gangs := (t.group i).gangs, slicing := .no }))
    ∧ ((s.cluster cid).ended = false → (s.cluster cid).state = .stopping ∨ (s.cluster cid).state = .draining →
      s.drained cid = true → s.changing cid = false →
      (∀ i ∈ (s.cluster cid).teams, (s.team i).ended = false → s.tileClean (s.team i).tile = true) →
      s.clusters.get? cid ≠ none →
      ∃ t, exec (.clusterSwitchOut cid) s = .next t ∧ t.cluster cid = { s.cluster cid with state := .out }
        ∧ ∀ i ∈ (s.cluster cid).teams, s.teams.get? i ≠ none → (s.team i).ended = false →
          t.team i = { s.team i with tile := 192, gmap := [], saveLost := (t.team i).saveLost }
          ∧ ∀ j ∈ (s.team i).groups, s.groups.get? j ≠ none → t.group j = { s.group j with
              v := [], phys := [], place := .loft, saveLost := (t.group j).saveLost
              mapAns := if (s.group j).ended then (s.group j).mapAns else [] })
    ∧ ((s.cluster cid).ended = false → (s.cluster cid).state = .stopping ∨ (s.cluster cid).state = .draining →
      s.drained cid = true → s.changing cid = false → (s.cluster cid).teams = [tid] → s.teams.get? tid ≠ none → u.ended = false →
      u.tile < 192 → s.tileClean u.tile = true → u.gmap.length ≤ 256 → (s.tile u.tile).store.wf = true →
      (∀ j ∈ u.groups, s.groups.get? j ≠ none ∧ (s.group j).idx < 32 ∧ (s.group j).regs ≤ 256
        ∧ ∀ k ∈ u.groups, (s.group j).idx = (s.group k).idx → j = k) →
      s.RecordAt u.tile ctx base 3 → s.RecordApart ctx base →
      ∃ t, exec (.clusterSwitchOut cid) s = .next t ∧ t.fq = s.fq ∧
        let holds (o n x : Nat) : Prop := ∀ p unc, s.Maps ctx ((base + o) / 128) p unc false 3 →
          bytesOf (t.cohLine p).1 ((base + o) % 128) n = x
        let granule (b per : Nat) : Nat := (u.gmap[b / per]?).getD 0 * per + b % per
        (∀ j ∈ u.groups, (s.group j).ended = false → ∀ r < (s.group j).regs, ∀ k < 32,
          holds (0x100000 + 65536 * (s.group j).idx + 256 * r + 8 * k) 8 ((s.group j).laneV r k).toNat)
        ∧ (∀ o < 4096 * u.gmap.length, holds o 1 ((s.tile u.tile).store.read (granule o 4096)).toNat)
        ∧ ∀ b < 64 * u.gmap.length,
          holds (0x3B8000 + 2 * b) 2 ((s.tile u.tile).storeDesc.getD (granule b 64) 0).toNat
          ∧ ∀ p unc, s.Maps ctx ((base + 0x3C0000 + b / 8) / 128) p unc false 3 →
            (bytesOf (t.cohLine p).1 ((base + 0x3C0000 + b / 8) % 128) 1).testBit (b % 8) = s.blockBusy u.tile (granule b 64))
    ∧ (((List.range 64).filterMap s.candOf) = [c] → c.out = some cid → s.rectFor c = some [tile] → (s.launch c.lid).waiting = 0 →
      (s.cluster cid).teams = [tid] → s.clusters.get? cid ≠ none → s.teams.get? tid ≠ none → u.ended = false → u.saveLost = false →
      u.merges = [] → s.accs = [] → s.copies = [] → (s.tile tile).store.wf = true →
      (s.launch c.lid).pkt.lgran ≤ 256 → (s.cluster cid).launch = c.lid →
      (∀ j ∈ u.groups, s.groups.get? j ≠ none ∧ (s.group j).team = tid ∧ (s.group j).idx < 32 ∧ (s.group j).regs ≤ 256
        ∧ (s.group j).saveLost = false ∧ ∀ x ∈ (s.group j).gangs, x.wait = .none) →
      (∃ j ∈ u.groups, (s.group j).ended = false) → s.RecordAt tile ctx base 2 →
      ∃ t, exec .distributorPlace s = .next t ∧ t.dist.served.get? c.prio = some c.queue ∧ (t.cluster cid).state = .resident ∧
        let holds (o n x : Nat) : Prop := ∀ p unc, s.Maps ctx ((base + o) / 128) p unc false 2 →
          bytesOf (s.cohLine p).1 ((base + o) % 128) n = x
        let granule (b per : Nat) : Nat := ((t.team tid).gmap[b / per]?).getD 0 * per + b % per
        t.team tid = { u with tile := tile, gmap := (t.team tid).gmap }
        ∧ (t.team tid).gmap.length = (s.launch c.lid).pkt.lgran
        ∧ (∀ j ∈ u.groups, (s.group j).ended = false →
          t.group j = { s.group j with
            v := (t.group j).v, phys := (t.group j).phys, place := (t.group j).place, age := (t.group j).age
            since := (t.group j).since, stopped := false }
          ∧ ∀ r < (s.group j).regs, ∀ k < 32,
            holds (0x100000 + 65536 * (s.group j).idx + 256 * r + 8 * k) 8 ((t.group j).laneV r k).toNat)
        ∧ (∀ o < 4096 * (s.launch c.lid).pkt.lgran, holds o 1 ((t.tile tile).store.read (granule o 4096)).toNat)
        ∧ ∀ b < 64 * (s.launch c.lid).pkt.lgran,
          holds (0x3B8000 + 2 * b) 2 ((t.tile tile).storeDesc.getD (granule b 64) 0).toNat)
    ∧ ((s.cluster cid).state = .stopping → s.clusters.get? cid ≠ none →
      (s.changing cid = true → exec (.switchDrainTimeout cid) s = .next s) ∧
      (s.changing cid = false →
      let gs := s.clusterGroups cid
      ∃ t, exec (.switchDrainTimeout cid) s = .next t
        ∧ t = { s with groups := t.groups, subs := t.subs, clusters := t.clusters, nextId := t.nextId }
        ∧ t.cluster cid = { s.cluster cid with state := .draining, loops := (t.cluster cid).loops }
        ∧ (∀ i ∈ gs, s.groups.get? i ≠ none → (s.group i).ended = false → (t.group i).stopped = true
          ∧ (t.group i).slices = (s.group i).slices ∧ (t.group i).level = (s.group i).level ∧ (t.group i).v = (s.group i).v)
        ∧ (∀ p ∈ t.subs, ∀ m ∈ p.2.mloops, m.gid ∉ gs)
        ∧ ∀ p ∈ s.subs, ∀ m ∈ p.2.mloops, m.gid ∈ gs → { m with running := false } ∈ (t.cluster cid).loops))

/-- R31, R32, R106, R256, R289, R295, R296, R391: a launch goes with its clusters when all are released, its counter
raised by an atomic add of one; a counter that is not present is reported and waited for, one that may not be raised is reported and
dropped; the next phase starts when the last one is released; the watchdog is pending on every group of the
phase. Residence moves a group and changes nothing else of it; a time-slice yield is asked of the group resident longest.
The model's own choices in it: log entries 47, 48 and 49. -/
def Obligations.LaunchesAndResidence : Prop :=
  ∀ (s u : State) (lid line : Nat) (l : Launch) (unc : Bool) (gid tile q : Nat),
    let g := s.group gid
    let gone (t : State) : Prop := t.clusters = s.clusters.filter (fun c => c.2.launch != lid)
    let s1 : State := { s with replicas := s.replicas.filter fun r => r.launch != lid }
    let finished (t : State) : Prop := gone t ∧ Removed lid s.launches t.launches
      ∧ t.replicas = s.replicas.filter (fun r => r.launch != lid) ∧ (∀ q, t.dist.head.get? q ≠ some lid) ∧ t.mem = s.mem
    (s.launches.get? lid = some l → l.done = l.next → l.waiting = 0 → l.refused = true ∨ l.pkt.total ≤ l.next →
      s.released lid = true →
      (l.refused = true ∨ l.lastPhase = true → l.incPosted = false →
        (l.refused = true ∨ l.pkt.doneva = 0 → ∃ t, exec (.launchCompletion lid) s = .next t ∧ finished t ∧ t.net = s.net)
        ∧ (l.refused = false → l.pkt.doneva ≠ 0 → s1.translate 256 l.ctx l.pkt.doneva false .a = (.ok line unc, u) →
          ∃ t r, exec (.launchCompletion lid) s = .next t ∧ finished t ∧ Added r u.net t.net ∧ r.ev = 7 ∧ r.line = line
            ∧ (r.op, r.aty) = (0, 2) ∧ r.elems = [⟨0, 0, 0, l.pkt.doneva % 128, 8, 1, 0, none⟩])
        ∧ (l.refused = false → l.pkt.doneva ≠ 0 → l.pkt.doneva < 2 ^ 56 → s.fq.enabled = false →
          (s1.translate 256 l.ctx l.pkt.doneva false .a = (.missing, u) →
            ∃ t e, exec (.launchCompletion lid) s = .next t ∧ t = { u with launches := t.launches, fq := t.fq, sm := t.sm }
              ∧ PutAt lid { l with incPosted := true } s.launches t.launches
              ∧ t.fq = { s.fq with waiting := s.fq.waiting ++ [e] } ∧ e.toNat / 2 ^ 72 % 256 = 2
              ∧ e.toNat % 2 ^ 64 = l.pkt.doneva / 128 * 128)
          ∧ ∀ z, s1.translate 256 l.ctx l.pkt.doneva false .a = (.access z, u) →
            ∃ t e, exec (.launchCompletion lid) s = .next t ∧ finished t ∧ t.net = u.net
              ∧ t.fq = { s.fq with waiting := s.fq.waiting ++ [e] } ∧ e.toNat / 2 ^ 72 % 256 = 10
              ∧ e.toNat % 2 ^ 64 = l.pkt.doneva))
      ∧ (l.refused = false → l.pkt.det = true → l.phase + 1 < l.pkt.phases →
        ∃ t, exec (.phaseStart lid) s = .next t ∧ gone t
          ∧ t = { s with launches := t.launches, clusters := t.clusters, teams := t.teams, groups := t.groups, bad := t.bad }
          ∧ PutAt lid { l with phase := l.phase + 1, next := 0, done := 0, watchdog := false, wbs := [] }
              s.launches t.launches))
    ∧ (s.launches.get? lid = some l → l.pkt.det = true → l.watchdog = false →
      (∃ id c, s.clusters.get? id = some c ∧ c.launch = lid ∧ c.ended = false ∧ c.state ≠ .out) →
      ∃ t, exec (.phaseWatchdogExpire lid) s = .next t
        ∧ t = { s with launches := t.launches, groups := t.groups, nextId := t.nextId }
        ∧ PutAt lid { l with watchdog := true } s.launches t.launches
        ∧ ∀ id c, s.clusters.get? id = some c → c.launch = lid → c.ended = false →
          ∀ tid ∈ c.teams, ∀ i ∈ (s.team tid).groups, s.groups.get? i ≠ none → (s.group i).ended = false →
            t.group i = { s.group i with pend := (t.group i).pend, age := (t.group i).age }
            ∧ (∀ p ∈ (s.group i).pend, p ∈ (t.group i).pend)
            ∧ ∃ p ∈ (t.group i).pend, p.cause = .phaseTimeout ∧ p.info = BitVec.ofNat 64 (l.phase % 65536))
    ∧ (s.groups.get? gid ≠ none → tile = (s.team g.team).tile → q = g.idx % 4 → s.nextParked tile q = some gid →
      s.crowded tile q = true →
      ∃ t, exec (.groupPark gid) s = .next t ∧ t = { s with groups := t.groups }
        ∧ PutAt gid { g with place := .loft } s.groups t.groups)
    ∧ (s.groups.get? gid ≠ none → tile = (s.team g.team).tile → q = g.idx % 4 → s.nextResident tile q = some gid →
      (s.resident tile q).length < 16 → ((s.resident tile q).map fun i => (s.group i).regs).sum + g.regs ≤ 1024 →
      ∃ t, exec (.groupReloadDone gid) s = .next t ∧ t = { s with groups := t.groups, nextId := t.nextId }
        ∧ (t.group gid).place = .pool ∧ (t.group gid).since = s.nextId
        ∧ ∀ i, t.group i = { s.group i with
            place := (t.group i).place, since := (t.group i).since, age := (t.group i).age, slicing := (t.group i).slicing }
          ∧ (i ≠ gid → (t.group i).place = (s.group i).place ∧ (t.group i).since = (s.group i).since)
          ∧ (i ∈ s.groupsOn tile q → (t.group i).slicing = .no))
    ∧ (let can := s.resident tile q
      s.crowded tile q = true → s.nextParked tile q = none → can ≠ [] → (∀ i ∈ can, (s.group i).slicing = .no) →
      ∃ t i, exec (.timeSliceYield tile q) s = .next t ∧ i ∈ can ∧ (∀ j ∈ can, (s.group i).since ≤ (s.group j).since)
        ∧ t = { s with groups := t.groups } ∧ PutAt i { s.group i with slicing := .asked } s.groups t.groups)

/-! ### Device registers -/

/-- R310, R313, R349, R350, R355, R356, R390: a sample moves each threshold by its limit, hysteresis and dwell, every change
an event; the queues give their oldest entry; a register takes a write whole, numbered by the arbiter; a monitor snaps,
clears and samples.
The model's own choices in it: log entries 50 and 51. -/
def Obligations.SensorsAndRegisters : Prop :=
  ∀ (s : State) (n addr amps j : Nat) (reading : BitVec 16) (val e x h : W64) (r : List W64) (r3 : List (W64 × W64 × W64))
    (who : Master),
    let a := s.sensors.getD n Sensor.reset
    let lim : W64 := if n < 192 then s.sm.tthr else s.sm.tthrd
    let limit (i : Nat) : Int := asSigned 16 (lim.toNat / 2 ^ (16 * i) % 65536)
    let hyst : Int := lim.toNat / 2 ^ 48
    let stepped (on on' : Bool) (d d' i : Nat) : Prop :=
      if d + 1 < 20 then on' = on ∧ d' = d + 1
      else if on = false ∧ limit i ≤ reading.toInt then on' = true ∧ d' = 0
      else if on = true ∧ reading.toInt < limit i - hyst then on' = false ∧ d' = 0
      else on' = on ∧ d' = d + 1
    let logged (src detail : Nat) (t : State) : Prop := t.sm.seq = s.sm.seq + 1 ∧ (s.sm.evlog.length < 256 →
      ∃ y, t.sm.evlog = s.sm.evlog ++ [y] ∧ y.getLsbD 63 = true ∧ y.toNat / 2 ^ 56 % 64 = src
        ∧ y.toNat / 2 ^ 32 % 2 ^ 24 = detail ∧ y.toNat % 2 ^ 32 = s.sm.seq % 2 ^ 32)
    let src : Nat := if who = .host then 1 else 2
    let ovf (b : Bool) : W64 := if b then 0x4000000000000000 else 0
    let m := s.mons.getD n Monitor.reset
    let monOnly (t : State) : Prop := t = { s with mons := t.mons } ∧ ∀ i, i ≠ n → t.mons.get? i = s.mons.get? i
    let m' (t : State) : Monitor := t.mons.getD n Monitor.reset
    let edge (i : Nat) : Nat := (m.edges.getD (i / 4) 0).toNat / 2 ^ (16 * (i % 4)) % 65536
    let sampled (v : Nat) (t : State) : Prop :=
      let v := min v 65535
      let b := ((List.range 15).filter fun i => decide (edge i ≤ v)).length
      m' t = { m with lmin := min m.lmin v, lmax := max m.lmax v, lcnt := min (m.lcnt + 1) (2 ^ 64 - 1), lbin := (m' t).lbin }
      ∧ ∀ i, (m' t).lbin.getD i 0 = if i = b then min (m.lbin.getD i 0 + 1) (2 ^ 32 - 1) else m.lbin.getD i 0
    let takes (k : Nat) : Prop := m.ctl.getLsbD 0 = true ∧ m.ctl.toNat / 2 ^ 8 % 16 = k
    (n < 216 → ∃ t k, exec (.sensorSample n reading) s = .next t
      ∧ t = { s with sensors := t.sensors, sm := t.sm, tiles := t.tiles }
      ∧ (∀ i, i ≠ n → t.sensors.get? i = s.sensors.get? i)
      ∧ (let y := t.sensors.getD n Sensor.reset
        y.reading = reading ∧ stepped a.warn y.warn a.dWarn y.dWarn 0 ∧ stepped a.thr y.thr a.dThr y.dThr 1
        ∧ stepped a.crit y.crit a.dCrit y.dCrit 2
        ∧ k = (if y.warn = a.warn then 0 else 1) + (if y.thr = a.thr then 0 else 1) + (if y.crit = a.crit then 0 else 1)
        ∧ (y.crit = a.crit → t.tiles = s.tiles)
        ∧ t.sm.seq = s.sm.seq + k
        ∧ (s.sm.evseq.length + 3 ≤ 64 → t.sm.evseq.length = s.sm.evseq.length + k ∧ t.sm.evseq.take s.sm.evseq.length = s.sm.evseq
          ∧ ∀ i < k, ∃ q, t.sm.evseq[s.sm.evseq.length + i]? = some q ∧ q.getLsbD 63 = true ∧ q.getLsbD 48 = y.warn
            ∧ q.getLsbD 49 = y.thr ∧ q.getLsbD 50 = y.crit ∧ q.toNat / 2 ^ 32 % 65536 = n
            ∧ q.toNat % 2 ^ 32 = (s.sm.seq + i) % 2 ^ 32)))
    ∧ (s.sm.evseq = e :: r → exec .evseqRead s = .next
        { s with sm := { s.sm with evseq := r, evseqOvf := false, ioRead := e ||| ovf s.sm.evseqOvf } })
    ∧ (s.sm.evseq = [] → exec .evseqRead s = .next
        { s with sm := { s.sm with evseqOvf := false, ioRead := ovf s.sm.evseqOvf } })
    ∧ (s.sm.evlog = e :: r → exec .evlogRead s = .next
        { s with sm := { s.sm with evlog := r, evlogOvf := false, ioRead := e ||| ovf s.sm.evlogOvf } })
    ∧ (s.sm.evlog = [] → exec .evlogRead s = .next
        { s with sm := { s.sm with evlogOvf := false, ioRead := ovf s.sm.evlogOvf } })
    ∧ (s.sm.stallq = (e, x, h) :: r3 → exec .stallqRead s = .next
        { s with sm := { s.sm with
          stallq := r3, stallOvf := false, stallseq := x, stallh := h, ioRead := e ||| ovf s.sm.stallOvf } })
    ∧ (s.sm.stallq = [] → exec .stallqRead s = .next
        { s with sm := { s.sm with stallOvf := false, ioRead := ovf s.sm.stallOvf } })
    ∧ (∃ t, exec (.registerWrite .mgmt 0x101000 val) s = .next t ∧ t = { s with sm := t.sm } ∧ logged 2 0x20200 t
      ∧ t.sm.tthr.toNat = val.toNat % 2 ^ 48 + max 0x20 (val.toNat / 2 ^ 48) * 2 ^ 48 ∧ t.sm.tthrd = s.sm.tthrd)
    ∧ (∃ t, exec (.registerWrite .host 0x101000 val) s = .next t ∧ logged 1 0x20200 t
      ∧ t = { s with sm := { s.sm with seq := t.sm.seq, evlog := t.sm.evlog, evlogOvf := t.sm.evlogOvf } })
    ∧ (∃ t, exec (.registerWrite who 0x310000 val) s = .next t ∧ logged src 0x62000 t ∧ t.dist = { s.dist with lqtab := val }
      ∧ t = { s with dist := t.dist, sm := { s.sm with seq := t.sm.seq, evlog := t.sm.evlog, evlogOvf := t.sm.evlogOvf } })
    ∧ (n < 192 → j < 4 → ∃ t, exec (.registerWrite who (0x500008 + 0x100 * n + 8 * j) val) s = .next t ∧ monOnly t
      ∧ m' t = { m with edges := m.edges.set j val })
    ∧ (n < 192 → val.getLsbD 1 = false → val.getLsbD 2 = false →
      ∃ t, exec (.registerWrite who (0x500000 + 0x100 * n) val) s = .next t ∧ monOnly t ∧ m' t = { m with ctl := val &&& 0xF01 })
    ∧ (addr % 8 ≠ 0 → exec (.registerWrite who addr val) s = .next s)
    ∧ (∃ t, exec (.monSnap n) s = .next t ∧ monOnly t
      ∧ m' t = { m with smin := m.lmin, smax := m.lmax, scnt := m.lcnt, sbin := m.lbin })
    ∧ (∃ t, exec (.monClear n) s = .next t ∧ monOnly t ∧ m' t = { m with lmin := 0xFFFF, lmax := 0, lcnt := 0, lbin := [] })
    ∧ (n < 256 → takes 3 → ∃ t, exec (.monLevelSample n amps) s = .next t ∧ monOnly t ∧ sampled (max 0 a.reading.toInt).toNat t)
    ∧ (n < 256 → takes 4 → ∃ t, exec (.monLevelSample n amps) s = .next t ∧ monOnly t ∧ sampled amps t)
    ∧ (256 ≤ n →
      let here := s.dir.filter fun p => isDramLine p.1 && homeDie p.1 == (n - 256) / 128 && homeSlice p.1 == (n - 256) % 128
      (takes 9 → ∃ t, exec (.monLevelSample n amps) s = .next t ∧ monOnly t ∧ sampled (here.map fun p => p.2.queue.length).sum t)
      ∧ (takes 10 → ∃ t, exec (.monLevelSample n amps) s = .next t ∧ monOnly t ∧ sampled here.length t))

/-- R1, R342, R343, R345: ports and failed devices. A declared device is in FAILMAP, its requests end with reason 0x27, and
the host is told once, however often it is declared; a port that loses its link is down until it retrains with some of its
lanes; a route changes once nothing is in flight to its device, and where it ends a round that waits on the device alone is over; a
message for another device leaves by the port of its valid route, and one that no route takes on is answered to its sender.
The model's own choices in it: log entries 23, 50 and 86. -/
def Obligations.PortsAndPeers : Prop :=
  ∀ (s : State) (who : Master) (dev port lanes n src dst : Nat) (payload w : W64),
    let st := s.ports.stat.getD port 0
    let told (d how : Nat) (t : State) : Prop := ∃ e ∈ t.fq.waiting, e.toNat / 2 ^ 72 % 256 = 9 ∧ e.toNat % 2 ^ 64 = d
      ∧ e.toNat / 2 ^ 112 % 256 = how
    let portsOnly (t : State) : Prop := t = { s with ports := t.ports }
    let reachable (d : Nat) : Prop := (s.ports.route.getD d 0).getLsbD 4 = true ∧ d ∉ s.ports.failed
    (dev < 8192 → s.fq.enabled = false →
      (dev ∉ s.ports.failed → (∀ p ∈ s.dir, lineDevice p.1 ≠ some dev ∧ ∀ rd, p.2.round = some rd → deviceId dev ∉ rd.due) →
        ∃ t, exec (.peerfailDeclare who dev) s = .next t
          ∧ t = { s with ports := { s.ports with failed := dev :: s.ports.failed }
                         net := t.net, reps := t.reps, fq := t.fq, sm := t.sm, nextId := t.nextId }
          ∧ told dev 0 t ∧ (∃ e, t.fq = { s.fq with waiting := s.fq.waiting ++ [e] }) ∧ t.sm.seq = s.sm.seq + 3
          ∧ (∀ k, t.net.get? k = if (s.net.any fun p => p.1 == k && lineDevice p.2.line == some dev) then none else s.net.get? k)
          ∧ ∀ p ∈ s.net, lineDevice p.2.line = some dev → p.2.tag ≠ .ext → ∃ i, t.reps.get? i = some ⟨p.2, .fail 0x27⟩)
      ∧ (dev ∈ s.ports.failed → ∃ t, exec (.peerfailDeclare who dev) s = .next t ∧ t = { s with sm := t.sm }
        ∧ t.sm.seq = s.sm.seq + 1)
      ∧ ∃ t, exec (.peerfailClear who dev) s = .next t ∧ t = { s with ports := t.ports, sm := t.sm }
        ∧ t.ports = { s.ports with failed := s.ports.failed.filter (· != dev) } ∧ t.sm.seq = s.sm.seq + 1)
    ∧ (port < 16 → port ∈ s.ports.down → s.fq.enabled = false →
      ∃ t, exec (.portLossTimeout port) s = .next t ∧ t.groups = s.groups
        ∧ (∀ d, d ∈ t.ports.failed ↔ d ∈ s.ports.failed
          ∨ ∃ w, (d, w) ∈ s.ports.route ∧ w.getLsbD 4 = true ∧ w.toNat % 16 = port)
        ∧ ∀ d ∈ t.ports.failed, d ∉ s.ports.failed → d < 8192 → told d 1 t)
    ∧ (port < 17 →
      (∃ t, exec (.portDown port) s = .next t ∧ portsOnly t ∧ port ∈ t.ports.down
        ∧ (∀ p, p ∈ t.ports.down ↔ p = port ∨ p ∈ s.ports.down) ∧ t.ports.route = s.ports.route ∧ t.ports.failed = s.ports.failed
        ∧ (∀ p, p ≠ port → t.ports.stat.getD p 0 = s.ports.stat.getD p 0)
        ∧ ∀ i < 64, (t.ports.stat.getD port 0).getLsbD i =
            if i = 0 then false else if i = 1 then true else if 8 ≤ i ∧ i < 16 then false else st.getLsbD i)
      ∧ (1 ≤ lanes ∧ lanes ≤ (if port = 16 then 32 else 8) → ∃ t, exec (.portRetrain port lanes) s = .next t ∧ portsOnly t
        ∧ (∀ p, p ∈ t.ports.down ↔ p ∈ s.ports.down ∧ p ≠ port)
        ∧ t.ports.route = s.ports.route ∧ t.ports.failed = s.ports.failed
        ∧ (∀ p, p ≠ port → t.ports.stat.getD p 0 = s.ports.stat.getD p 0)
        ∧ (t.ports.stat.getD port 0).toNat = 1 + lanes * 2 ^ 8 + (st.toNat / 2 ^ 16 % 2 ^ 32 + 1) % 2 ^ 32 * 2 ^ 16))
    ∧ (s.ports.pend.find? (fun p => p.1 == n) = some (n, w) →
      let leads : Prop := w.getLsbD 4 = true ∧ n ∉ s.ports.failed
      (s.routeInUse n = false → ∃ t, exec (.routeWrite n) s = .next t
        ∧ (leads ∨ (∀ p ∈ s.dir, ∀ rd, p.2.round = some rd → deviceId n ∉ rd.due) → portsOnly t)
        ∧ (¬leads → ∀ l d rd, s.dir = [(l, d)] → d.round = some rd → rd.kind = retireKind → rd.due = [deviceId n] →
          d.queue = [] → d.pend = none → d.timer = false → d.tmo = 0 →
          t = { s with
            ports := t.ports, dir := [], mem := t.mem, descs := t.descs, bad := t.bad, code := t.code, mons := t.mons
            free := t.free })
        ∧ (t.ports.route.getD n 0).toNat = w.toNat % 32 ∧ t.ports.pend.length + 1 = s.ports.pend.length
        ∧ ∀ i, i ≠ n → t.ports.route.getD i 0 = s.ports.route.getD i 0)
      ∧ (s.routeInUse n = true → exec (.routeWrite n) s = .next s))
    ∧ (src ∉ s.ports.failed → dst ≠ s.ports.devid.toNat % 8192 →
      (reachable dst → exec (.peerMessageForward false src dst payload) s =
        .next { s with ports := { s.ports with
          outbox := s.ports.outbox ++ [((s.ports.route.getD dst 0).toNat % 16, src, dst, payload)] } })
      ∧ (¬reachable dst → ∃ t, exec (.peerMessageForward false src dst payload) s = .next t
        ∧ (src ≠ s.ports.devid.toNat % 8192 → reachable src → t = { s with
            free := s.free + 1
            ports := { s.ports with outbox := s.ports.outbox
              ++ [((s.ports.route.getD src 0).toNat % 16, dst, src, BitVec.ofNat 64 (Config.freeNat s.free))] } })
        ∧ (src = s.ports.devid.toNat % 8192 ∨ ¬reachable src → t = { s with free := s.free + 1 })))
    ∧ (∀ o, s.ports.outbox = (port, src, dst, payload) :: o →
      exec (.peerMessageForward true src dst payload) s = .next { s with ports := { s.ports with outbox := o } })

/-- R60, R319, R326, R351-R354: measurements, reports, resets and errors. A report is taken of nonce, ID, measurements and
version when it starts, is written with its signature, and only then is BUSY cleared; a measurement extends by SHA-256;
reset leaves nothing but the flash and runs the boot ROM; an uncorrectable error marks its place.
The model's own choices in it: log entries 3, 52, 54 and 78. -/
def Obligations.ReportsResetsErrors : Prop :=
  ∀ (s : State) (who : Master) (i : BitVec 3) (image : List Byte) (head : List Byte) (place : ErrPlace) (b : Nat)
    (h : Hdr) (m : IntM) (d x y rd : Spec),
    let pa := s.att.attpa.toNat
    let outside : Prop := pa % 64 ≠ 0 ∨ ∃ k < 128, paOk (pa + 64 * k) = false
    let at0 (l : List Byte) (o n : Nat) : Nat := leNat ((l.drop o).take n)
    let started (src : Nat) (t : State) : Prop := ∃ l, t.att = { s.att with busy := true, job := some l } ∧ l.length = 304
      ∧ at0 l 0 4 = 0x51545354 ∧ at0 l 4 32 = s.att.nonce.toNat ∧ at0 l 36 2 = s.ports.devid.toNat % 65536 ∧ at0 l 38 2 = 0
      ∧ (∀ k < 8, at0 l (40 + 32 * k) 32 = (s.att.meas.getD k 0).toNat) ∧ at0 l 296 4 = s.att.version % 2 ^ 32
      ∧ at0 l 300 4 = 0 ∧ t.sm.seq = s.sm.seq + src
    let booted (fl : List Byte) (t : State) : Prop := t.att.flash = fl ∧ (t.att.recovery = false ↔ imageOk fl = true)
      ∧ (t.sm.halted = false ↔ imageOk fl = true)
      ∧ t.group 0 = Group.manager (if imageOk fl then BitVec.ofNat 56 (at0 fl 12 4) else 0) ∧ t.sm.ctxid = 0 ∧ t.sm.tvec = 0
    (s.att.busy = false →
      (∃ t, exec (.attcmdStart who) s = .next t ∧ t = { s with att := t.att, sm := t.sm } ∧ started 2 t)
      ∧ ∃ t, exec .mctpAttestRequest s = .next t ∧ t = { s with att := t.att, sm := t.sm } ∧ started 1 t)
    ∧ (s.att.busy = true →
      (∃ t, exec (.attcmdStart who) s = .next t ∧ t = { s with sm := t.sm } ∧ t.sm.seq = s.sm.seq + 2)
      ∧ ∃ t, exec .mctpAttestRequest s = .next t ∧ t = { s with sm := t.sm } ∧ t.sm.seq = s.sm.seq + 1)
    ∧ (s.att.job = some head → head.length = 304 → s.mem.wf = true →
      (¬outside → (∀ l, pa / 128 ≤ l ∧ l ≤ (pa + 8159) / 128 → s.Quiet l) →
        let sig := identitySign (Config.freeNat s.free) head
        ∃ t, exec .attestReportDone s = .next t
          ∧ t = { s with mem := t.mem, l2 := t.l2, code := t.code, att := t.att, free := s.free + 1 }
          ∧ sig.length = 7856 ∧ BytesAt pa (head ++ sig) s.mem t.mem
          ∧ t.att = { s.att with busy := false, job := none, code := 0 })
      ∧ (outside → exec .attestReportDone s =
        .next { s with free := s.free + 1, att := { s.att with busy := false, job := none, code := 1 } }))
    ∧ (∃ t, exec (.mext i) s = .next t ∧ t = { s with att := t.att } ∧ t.att = { s.att with meas := t.att.meas }
      ∧ (t.att.meas.getD i.toNat 0).toNat =
          leNat (sha256 (leBytes 32 (s.att.meas.getD i.toNat 0).toNat ++ leBytes 32 s.att.mdig.toNat)) % 2 ^ 256
      ∧ ∀ k, k ≠ i.toNat → t.att.meas.getD k 0 = s.att.meas.getD k 0)
    ∧ (∃ t, exec .alwaysOnReset s = .next t ∧ booted s.att.flash t
      ∧ t = { State.reset with
          groups := t.groups, teams := t.teams, sm := t.sm, att := t.att, agenda := s.agenda, free := s.free, nextId := s.nextId }
      ∧ (∀ k, 1 ≤ k → t.att.meas.getD k 0 = 0)
      ∧ (imageOk s.att.flash = true → (t.att.meas.getD 0 0).toNat =
          leNat (sha256 (leBytes 32 0 ++ sha256 s.att.flash)) % 2 ^ 256 ∧ t.att.version = at0 s.att.flash 4 4)
      ∧ t.sm.seq = 0 ∧ t.sm.evseq = [] ∧ t.sm.tthr = 0x0030069005F00550 ∧ t.sm.tthrd = 0x003005F005800500)
    ∧ (s.att.recovery = true → ∃ t, exec (.recoveryImage image) s = .next t ∧ booted image t
      ∧ t = { s with groups := t.groups, teams := t.teams, sm := t.sm, att := t.att
                     bad := t.bad, accs := t.accs, fences := t.fences, tlbis := t.tlbis }
      ∧ (∀ p, p ∈ t.bad ↔ p ∈ s.bad ∧ ∀ r, p ≠ .reg 0 r) ∧ (∀ p, p ∈ t.accs ↔ p ∈ s.accs ∧ p.2.gid ≠ 0)
      ∧ (∀ p, p ∈ t.fences ↔ p ∈ s.fences ∧ p.2.team ≠ 0) ∧ ∀ p, p ∈ t.tlbis ↔ p ∈ s.tlbis ∧ p.2.team ≠ 0)
    ∧ (s.att.recovery = false → exec (.recoveryImage image) s = .next s)
    ∧ exec (.patrolScrub b) s = .next s
    ∧ (s.hasPlace place = true → ∃ t, exec (.uncorrectableError place) s = .next t
      ∧ (match place with | .reg g r => s.regPlace g r | p => p) ∈ t.bad ∧ (∀ p ∈ s.bad, p ∈ t.bad)
      ∧ t = { s with mem := t.mem, descs := t.descs, l2 := t.l2, tiles := t.tiles, groups := t.groups, teams := t.teams
                     subs := t.subs, bad := t.bad, free := t.free }
      ∧ (∀ b, place = .block b → s.mem.wf = true → t.groups = s.groups ∧ t.tiles = s.tiles ∧ t.l2 = s.l2
        ∧ ∀ a, a / 64 ≠ b → t.mem.read a = s.mem.read a)
      ∧ (∀ die l k, place = .l2 die l k → isDramLine l = false → t.mem = s.mem ∧ t.tiles = s.tiles ∧ t.groups = s.groups
        ∧ ∀ y, y ≠ l2Key die l → t.l2.get? y = s.l2.get? y)
      ∧ (∀ tile b, place = .store tile b → (s.tile tile).store.wf = true → t.mem = s.mem ∧ t.groups = s.groups ∧ t.subs = s.subs
        ∧ (∀ i, i ≠ tile → t.tile i = s.tile i) ∧ (t.tile tile).l1 = (s.tile tile).l1
        ∧ (∀ a, a / 64 ≠ b → (t.tile tile).store.read a = (s.tile tile).store.read a)
        ∧ ∀ k, k ≠ b → (t.tile tile).storeDesc.getD k 0 = (s.tile tile).storeDesc.getD k 0)
      ∧ (∀ tile l k, place = .l1 tile l k → t.mem = s.mem ∧ t.groups = s.groups ∧ t.subs = s.subs ∧ t.l2 = s.l2
        ∧ (∀ i, i ≠ tile → t.tile i = s.tile i) ∧ t.tile tile = { s.tile tile with l1 := (t.tile tile).l1 }
        ∧ ∀ j, j ≠ l → t.l1 tile j = s.l1 tile j)
      ∧ (∀ tile q k, place = .acc tile q k → t.mem = s.mem ∧ t.groups = s.groups ∧ t.tiles = s.tiles
        ∧ (∀ i, i ≠ subKey tile q → t.subs.get? i = s.subs.get? i)
        ∧ t.sub tile q = { s.sub tile q with acc := (t.sub tile q).acc })
      ∧ (∀ g k, place = .reg g (.v k) → t.mem = s.mem ∧ (∀ i, i ≠ g → t.groups.get? i = s.groups.get? i)
        ∧ t.group g = { s.group g with v := (t.group g).v } ∧ ∀ r l, r ≠ k.toNat → (t.group g).laneV r l = (s.group g).laneV r l))
    ∧ (s.groups.get? s.cur.gid ≠ none → (∀ r ∈ [d, x, y], s.curG.refuses r = false) → s.curT.tokensZero h.wt = true →
      s.busyOn [d, x, y] = [] → s.badSource h [x, y] (hasEffect h [d] s) = some rd → MayTrap s →
      Traps (.iadd h m d x y) s .memErr (s.curG.pcOf s.cur.slices) (BitVec.ofNat 64 (5 * 2 ^ 56 + rd.bits.toNat)))

/-! ### The machine as a whole -/

/-- R33-R40, R46: the decoder gives back every instruction that has an encoding, whatever bytes follow it; and what it reads
from any bytes is an instruction whose encoding is those bytes: no two words mean one instruction.
The model's own choice in it: log entry 14. -/
def Obligations.EncodeDecode : Prop :=
  (∀ i : Instr, i.encodable = true → ∃ bs h, i.hdr = some h ∧ bs.length = h.len.bytes ∧ encode i = some bs
      ∧ ∀ rest, decode (bs ++ rest) = .ok i)
  ∧ ∀ (bs : List Byte) (i : Instr), decode bs = .ok i →
      ∃ h, i.hdr = some h ∧ i.encodable = true ∧ encode i = some (bs.take h.len.bytes)

/-- Words written out from R36-R38, R46 and R55, a few of each length. -/
def Obligations.WordsDecode : Prop :=
  decodeTableWord 64 0xFF7FBFC0001C0000 = some (.nop ⟨.b64, .always, 0, .none, 0⟩)
  ∧ decodeTableWord 64 0xFF7FBFC0001C0A2C = some (.regang ⟨.b64, .always, 0, .none, 0⟩)
  ∧ decodeTableWord 64 0xFF7FA0A0001C2A30 =
      some (.mergeS ⟨.b64, .always, 0, .none, 0⟩ ⟨1, 0, 0⟩ (.g 5) .zero)
  ∧ decodeTableWord 64 0x00F00040001C5600 =
      some (.ld ⟨.b64, .always, 0, .none, 0⟩ ⟨false, 0, 5, 0⟩ ⟨0, 0⟩ (.v 2) (.b 0) (.v 1))
  ∧ decodeTableWord 64 0xFF7FA000001C0628 = some (.lfmr ⟨.b64, .always, 0, .none, 0⟩ false (.g 0))
  ∧ decodeTableWord 64 0xFF7FBFC0001C0C04 = some (.eret ⟨.b64, .always, 0, .none, 0⟩)
  ∧ decodeTableWord 64 0xFF7F80A0001C4C08 = some (.csrr ⟨.b64, .always, 0, .none, 0⟩ 4 (.v 5))
  ∧ decodeTableWord 96 0x0003FDD88570F840001C0801 =
      some (.tcopy ⟨.b96, .always, 0, .none, 0⟩ (.b 2) (.b 3) (.g 10) (.k 0))
  ∧ decodeTableWord 96 0x0003FC0301004100001D120D =
      some (.ffma ⟨.b96, .always, 0, .none, 0⟩ ⟨1, false, 1⟩ (.v 8) (.v 1) (.v 2) (.v 3))
  ∧ decodeTableWord 128 0x000000030003FDFEFF7FE0A0001C100A =
      some (.movi ⟨.b128, .always, 0, .none, 3⟩ ⟨0, false, false, 1⟩ (.g 5) .imm)
  ∧ decodeTableWord 128 0x0000001F0003FDFEFF808020001D0056 =
      some (.shr ⟨.b128, .always, 0, .none, 31⟩ ⟨1, false, false, 0⟩ (.v 1) (.v 2) .imm)
  ∧ decodeTableWord 64 0x3 = none ∧ decodeTableWord 64 0xFF7FBFC0001C0FFC = none

/-- A step runs what its turn comes to. An event whose turn it is runs as it stands. A turn of the stage manager with no
event due, and an issue cycle of the sub-gang the scheduler picks, fetch the bytes at the PC, decode them, let a satisfied
token wait of the word acquire, and run the instruction they are, which is then the state's current one. The cycle in which a
change of gear was decided still issues (R303). Behind an instruction of a tile the turns move, unless it could not issue or is an
RVWAIT that returns (R45, R287). The bytes are those of the PC's line where no write has changed it under the launch.
The model's own choices in it: log entries 4, 9, 68, 77 and 81. -/
def Obligations.StepRunsDecoded : Prop :=
  let acquired (i : Instr) (s : State) : State :=
    let wt := (i.hdr.map (·.wt)).getD 0
    if wt ≠ 0 ∧ s.curT.tokensZero wt = true then s.tokenAcquire s.curG.team wt else s
  (∀ (s : State) e r, s.agenda = .event e :: r → e.hdr = none → step s = exec e { s with agenda := r, held := [] })
  ∧ (∀ (s s1 : State) r x i w, s.agenda = .manager :: r → s.sm.halted = false →
      (s.group 0).tstate.getLsbD tsIe = false ∨ (s.group 0).tstate.getLsbD tsInTrap = true
        ∨ s.sm.evseq = [] ∧ s.sm.timerPend = 0 →
      s1 = { (s.modTeam 0 Team.sample) with
        agenda := r, free := s.free + 1, held := []
        sm := { s.sm with clock := s.sm.clock + BitVec.ofNat 64 (Config.freeNat s.free) } } →
      s1.pickGang 0 = some x → (s.group 0).level = .m → Undisturbed s1 0 x → ((s.group 0).pcOf x.slices).toNat % 4 = 0 →
      w = s.sm.sram.readN ((s.group 0).pcOf x.slices).toNat (max (32 - ((s.group 0).pcOf x.slices).toNat % 32) 8) →
      fetchDecode ((s.group 0).pcOf x.slices).toNat w = .instr i →
      step s = exec i (acquired i { s1 with cur := ⟨0, x.slices, BitVec.ofNat 64 w⟩ }))
  ∧ (∀ (s s1 s2 t : State) r tile q d (p : Pick) i, s.agenda = .cycle tile q :: r → tile < 192 → q < 4 →
      d = (if (s.tile tile).subNow < q then Config.freeNat s.free else Config.freeNat s.free + 1) →
      s1 = ({ s with agenda := r, free := s.free + 1 } : State).tick tile q d →
      ((s.tile tile).change = none ∧ s1.wantGear tile = (s1.tile tile).gear
        ∨ (s.tile tile).change ≠ none ∧ d = 0 ∧ (s.tile tile).lastCycle = true) →
      s1.mayIssue tile = true → s2 = s1.fillSlots tile q → s2.pick tile q = some p →
      Undisturbed s2 p.gid p.gang →
      (({ s2 with cur := ⟨p.gid, p.gang.slices, 0⟩ } : State).fetch p.gid p.gang.slices).1 = .instr i →
      let s3 := acquired i (({ s2 with cur := ⟨p.gid, p.gang.slices, 0⟩ } : State).fetch p.gid p.gang.slices).2
      exec i s3 = .next t →
      (t.held ≠ s3.held → step s = .next t)
      ∧ (t.held = s3.held → p.gang.wait = .freed → step s = .next { t with held := [] })
      ∧ (t.held = s3.held → p.gang.wait ≠ .freed → step s = .next (t.noteIssue p
        (if (s3.group p.gid).level = .u ∧ (t.group p.gid).level = .s ∧ (t.group p.gid).tcause.toNat ≠ Cause.trap.code
            ∧ (t.group p.gid).tcause.toNat ≠ Cause.bkpt.code then .none
          else (i.hdr.map (·.sch)).getD .none))))
  ∧ (∀ (s : State) gid m line u w i, (s.group gid).level ≠ .m → ((s.group gid).pcOf m).toNat % 4 = 0 →
      (∀ y ∈ (s.group gid).gangs, ∀ v, y.wait ≠ .retry v true) →
      let pc := ((s.group gid).pcOf m).toNat
      let tile := (s.team (s.group gid).team).tile
      let p := s.translate tile (s.ctxOf (s.group gid)) (pc / 128 * 128) ((s.group gid).level == .u) .r
      pc % 32 ≤ 24 → p.1 = .ok line u → isPeerLine line = false → p.2.fetchBad line pc = false →
      p.2.oldLines (s.launchIdOf (s.group gid)) line = [] →
      w = bytesOf (p.2.cohLine line).1 (pc % 128) (32 - pc % 32) → fetchDecode pc w = .instr i →
      s.fetch gid m = (.instr i, { p.2 with cur := ⟨gid, m, BitVec.ofNat 64 w⟩ }))
  ∧ ∀ pc w l i, lenOfBytes (natToBytes 1 w) = some l → pc % 32 + l.bytes ≤ 32 →
      decode (natToBytes 16 (w % 256 ^ l.bytes)) = .ok i → fetchDecode pc w = .instr i

/-- Every step that a state can take ends in a state: whatever the device is given to run, it executes or takes the trap
its rules name (R54, R315).
The model's own choice in it: log entry 7. -/
def Obligations.EveryStepAnswers : Prop := ∀ s : State, SafeStep s

/-- Memory, the stage manager's SRAM and every tile's local store keep their canonical form through every step: addresses
rising, and no byte listed that an unlisted address would give.
The model's own choice in it: log entry 1. -/
def Obligations.MemoryStaysCanonical : Prop := ∀ s t : State, Canonical s → step s = .next t → Canonical t

/-- After reset: memory is canonical and reads zero everywhere; the stage manager stands outside any handler with its masks
whole, its tokens and registers zero; the registers hold the values of R122, R278, R313 and R342; no launch, no
cluster, no access is under way. The boot ROM's turn is the first (R351).
The model's own choice in it: log entry 1. -/
def Obligations.ResetState : Prop :=
  Canonical State.reset ∧ (∀ a, State.reset.mem.read a = 0) ∧ State.reset.nextTurn.1 = .event .alwaysOnReset
  ∧ (let g := State.reset.group 0
    g.level = .m ∧ g.tstate = 0 ∧ g.tcause = 0 ∧ State.reset.sm.tvec = 0 ∧ g.gc = [] ∧ g.liveSlices = [0]
    ∧ (g.slice 0).am = 15 ∧ (g.slice 0).masks = [] ∧ (g.slice 0).calls = []
    ∧ (∀ n l, g.laneV n l = 0) ∧ (∀ n < 16, g.b.getD n 0 = 0) ∧ (∀ n < 7, ∀ l, g.laneP n l = false) ∧ (∀ n, g.parentG n = 0)
    ∧ ∀ k, (State.reset.team 0).tokens.getD k Token.reset = Token.reset)
  ∧ (let rd (a : Nat) : W64 := (State.reset.regRead .mgmt a).1
    (∀ n < 192, rd (0x110000 + 8 * n) = 0 ∧ rd (0x110800 + 8 * n) = 1 ∧ rd (0x111000 + 8 * n) = 0x2484
      ∧ rd (0x111800 + 8 * n) = 0x8424 ∧ rd (0x310400 + 8 * n) = BitVec.ofNat 64 (128 + n % 96))
    ∧ rd 0x101000 = 0x0030069005F00550 ∧ rd 0x101010 = 0x003005F005800500 ∧ rd 0x101008 = 0 ∧ rd 0x120000 = 0
    ∧ rd 0x120100 = 0 ∧ rd 0x310000 = 0 ∧ rd 0x310008 = 0 ∧ (∀ q < 64, rd (0x310100 + 8 * q) = 0)
    ∧ (∀ d < 2, rd (0x200818 + 0x10000 * d) = 0x3F3F ∧ rd (0x200800 + 0x10000 * d) = 0
      ∧ rd (0x200810 + 0x10000 * d) = 0 ∧ rd (0x200820 + 0x10000 * d) = 0 ∧ rd (0x200A00 + 0x10000 * d) = 0
      ∧ ∀ j < 128, rd (0x200000 + 0x10000 * d + 8 * j) = 0)
    ∧ rd 0x400000 = 0 ∧ (∀ p < 17, rd (0x400100 + 8 * p) = 0) ∧ (∀ n < 8192, rd (0x410000 + 8 * n) = 0)
    ∧ ∀ w < 128, rd (0x420000 + 8 * w) = 0)
  ∧ State.reset.launches = [] ∧ State.reset.clusters = [] ∧ State.reset.accs = [] ∧ State.reset.net = []

/-- R70-R72, R74, R343, R345: the end of a page walk, where no cached translation of the context can differ: an entry not present, an
entry that no rule allows, a table outside DRAM, the U bit, the right, and the page's line, uncached under MT = 01: in device
or host memory, in a 64 KiB page whose sixteen entries agree, in a peer's memory, or through a stripe set; a host or device that is
declared failed, or that no route reaches, is reason 0x27. The order of the checks of the target before those of U and of
the right is the model's own.
The model's own choices in it: log entries 12, 71 and 82. -/
def Obligations.PageWalks : Prop :=
  ∀ (s : State) tile ctx va (um : Bool) need lvl table, va < 2 ^ 56 → va % 128 = 0 → 1 ≤ lvl → lvl ≤ 5 →
    (∀ p ∈ (s.tile tile).tlb ++ s.dev.tcache.getD (dieOf tile) [], p.ctx ≠ ctx) → s.tableAt ctx va lvl = some table →
    let e := s.entryAt table lvl va
    let size := 12 + 9 * (lvl - 1)
    let res := (s.translate tile ctx va um need).1
    let frame := field e 12 40 * 4096
    (e.getLsbD 0 = false → res = .missing)
    ∧ (e.getLsbD 0 = true →
      (field e 52 12 ≠ 0 ∨ e.getLsbD 1 = false ∧ (lvl = 1 ∨ field e 2 10 ≠ 0)
        ∨ e.getLsbD 1 = true ∧ (4 ≤ lvl ∨ e.getLsbD 6 = true ∨ 2 ≤ field e 10 2 ∨ field e 8 2 = 1
          ∨ e.getLsbD 7 = true ∧ lvl ≠ 1) → res = .access 0x21)
      ∧ (e.getLsbD 1 = false → lvl ≠ 1 → field e 52 12 = 0 → field e 2 10 = 0 → dramEnd ≤ frame → res = .access 0x22)
      ∧ (e.getLsbD 1 = true → lvl ≤ 3 → field e 52 12 = 0 → e.getLsbD 6 = false → field e 10 2 < 2 → field e 8 2 ≠ 1 →
        (e.getLsbD 7 = true → lvl = 1) →
        (frame % 2 ^ size ≠ 0 ∨ field e 8 2 = 3 ∧ field e 20 32 ≠ 0 → res = .access 0x21)
        ∧ (frame % 2 ^ size = 0 → (e.getLsbD 7 = true → ∀ i < 16,
            let x := s.entryAt table 1 (va / 65536 * 65536 + 4096 * i)
            field x 12 4 = i ∧ ∀ b < 64, b < 12 ∨ 16 ≤ b → x.getLsbD b = e.getLsbD b) →
          let page := if e.getLsbD 7 then 16 else size
          let at0 (frame : Nat) : Nat := frame / 2 ^ page * 2 ^ page + va % 2 ^ page
          let onTo (l : Nat) : WalkRes := if um = true ∧ e.getLsbD 5 = false then .access 0x24
            else if (match need with | .r => e.getLsbD 2 | .w => e.getLsbD 3 | .a => e.getLsbD 4) = false then .access 0x20
            else .ok l (field e 10 2 == 1)
          let there (dev ppa : Nat) : WalkRes :=
            if dev = s.ports.devid.toNat % 8192 then (if ppa < dramEnd then onTo (ppa / 128) else .access 0x22)
            else if (s.ports.route.getD dev 0).getLsbD 4 = true ∧ dev ∉ s.ports.failed then onTo (peerLine dev ppa)
            else .access 0x27
          (field e 8 2 = 0 → res = if at0 frame < dramEnd then onTo (at0 frame / 128)
            else if at0 frame / 2 ^ 48 ≠ 1 then .access 0x22
            else if 0x1FFF ∈ s.ports.failed then .access 0x27 else onTo (at0 frame / 128))
          ∧ (field e 8 2 = 2 → res = there (field e 39 13) (at0 (field e 12 27 * 4096)))
          ∧ (field e 8 2 = 3 → field e 20 32 = 0 → (∀ t ∈ (s.tile tile).stripe, t.lvl ≠ field e 12 8) →
            let f (off n : Nat) : Nat := s.cohRead (s.dev.sstab.toNat + 256 * field e 12 8 + off) n
            let bad : Prop := f 144 1 = 0 ∨ 64 < f 144 1 ∨ (∃ i < 111, f (145 + i) 1 ≠ 0) ∨ (∃ i < 64, 8192 ≤ f (2 * i) 2)
              ∨ va < f 128 8
            let g := (va - f 128 8) / 4096
            (bad → res = .access 0x23)
            ∧ (¬bad → res = there (f (2 * (g % f 144 1)) 2) (f 136 8 + g / f 144 1 * 4096 + va % 4096))))))
end

