-- ==== Sys2Proof/Laws/Bits.lean ====
section
/-! SUPPORT. Laws of packing: a sub-element read back from a register packed from its sub-elements (R22). -/

namespace Sys2Proof.Machine

/-- The sum that `pack` forms. -/
theorem pack_sum (w k : Nat) (f : Nat → Nat) :
    (List.range k).foldl (fun a i => a + f i % 2 ^ w * 2 ^ (w * i)) 0 < 2 ^ (w * k) ∧
    ∀ i < k, (List.range k).foldl (fun a i => a + f i % 2 ^ w * 2 ^ (w * i)) 0 / 2 ^ (w * i) % 2 ^ w = f i % 2 ^ w := by
  induction k with
  | zero => simp
  | succ k ih =>
    obtain ⟨hlt, hget⟩ := ih
    rw [List.range_succ, List.foldl_append, List.foldl_cons, List.foldl_nil]
    generalize (List.range k).foldl (fun a i => a + f i % 2 ^ w * 2 ^ (w * i)) 0 = S at *
    have hf : f k % 2 ^ w < 2 ^ w := Nat.mod_lt _ (by positivity)
    constructor
    · calc S + f k % 2 ^ w * 2 ^ (w * k) < 2 ^ (w * k) + f k % 2 ^ w * 2 ^ (w * k) := by omega
        _ = (f k % 2 ^ w + 1) * 2 ^ (w * k) := by ring
        _ ≤ 2 ^ w * 2 ^ (w * k) := Nat.mul_le_mul_right _ hf
        _ = 2 ^ (w * (k + 1)) := by ring
    · intro i hi
      rcases Nat.lt_succ_iff_lt_or_eq.mp hi with h | rfl
      · have hsplit : f k % 2 ^ w * 2 ^ (w * k) = 2 ^ (w * i) * (2 ^ w * (f k % 2 ^ w * 2 ^ (w * (k - i - 1)))) := by
          have : w * k = w * i + (w + w * (k - i - 1)) := by
            obtain ⟨j, rfl⟩ : ∃ j, k = i + 1 + j := ⟨k - (i + 1), by omega⟩
            rw [show i + 1 + j - i - 1 = j by omega]
            ring
          rw [this, pow_add, pow_add]
          ring
        rw [hsplit, Nat.add_mul_div_left _ _ (by positivity), Nat.add_mul_mod_self_left]
        exact hget i h
      · rw [Nat.add_mul_div_right _ _ (by positivity), Nat.div_eq_of_lt hlt, Nat.zero_add, Nat.mod_mod]

/-- A sub-element of a packed register. -/
theorem sub_pack {w k : Nat} (f : Nat → Nat) {i : Nat} (hi : i < k) (hw : w * k ≤ 64) :
    sub w (pack w k f) i = f i % 2 ^ w := by
  obtain ⟨hlt, hget⟩ := pack_sum w k f
  have : (2 : Nat) ^ (w * k) ≤ 2 ^ 64 := Nat.pow_le_pow_right (by omega) hw
  simp only [sub, pack, BitVec.toNat_ofNat]
  rw [Nat.mod_eq_of_lt (lt_of_lt_of_le hlt this)]
  exact hget i hi

theorem sub_lt (w : Nat) (x : W64) (i : Nat) : sub w x i < 2 ^ w := Nat.mod_lt _ (by positivity)

theorem pack_lt {w k : Nat} (f : Nat → Nat) : (pack w k f).toNat < 2 ^ (w * k) :=
  lt_of_le_of_lt (by simpa [pack] using Nat.mod_le _ _) (pack_sum w k f).1

/-- The widths of integer types fill a register. -/
theorem width_fills (w : BitVec 2) : widthOf w * perReg (widthOf w) = 64 := by
  revert w
  decide

theorem ft_fits (ft : BitVec 2) : ftWidth ft * ftCount ft ≤ 64 := by
  revert ft
  decide

theorem wrapInt_lt (w : Nat) (x : Int) : wrapInt w x < 2 ^ w := by
  have h : (0 : Int) < 2 ^ w := by positivity
  have h1 := Int.emod_lt_of_pos x h
  have h2 := Int.emod_nonneg x (ne_of_gt h)
  unfold wrapInt
  zify
  rw [Int.toNat_of_nonneg h2]
  exact_mod_cast h1

end Sys2Proof.Machine
end

