-- ==== Sys2Proof/Laws/Table.lean ====
section
/-! SUPPORT. Laws of tables and of byte memory: a read after a write, and the canonical form that every memory operation
keeps. -/

namespace Sys2Proof.Machine

/-! ### Tables -/

section Tables
variable {α : Type}

@[simp] theorem Table.get?_nil (k : Nat) : Table.get? ([] : Table α) k = none := rfl

theorem Table.get?_set_self (t : Table α) (k : Nat) (x : α) : (t.set k x).get? k = some x := by
  induction t with
  | nil => simp [Table.set, Table.get?]
  | cons p r ih =>
    obtain ⟨j, y⟩ := p
    simp only [Table.set]
    split
    · simp [Table.get?]
    · split
      · simp [Table.get?]
      · simp [Table.get?, *]

theorem Table.get?_set_ne (t : Table α) {k i : Nat} (x : α) (h : i ≠ k) : (t.set k x).get? i = t.get? i := by
  induction t with
  | nil => simp [Table.set, Table.get?, Ne.symm h]
  | cons p r ih =>
    obtain ⟨j, y⟩ := p
    simp only [Table.set]
    split
    · subst j
      simp [Table.get?, Ne.symm h]
    · split
      · simp [Table.get?, Ne.symm h]
      · simp [Table.get?, ih]

@[simp] theorem Table.getD_set_self (t : Table α) (k : Nat) (x d : α) : (t.set k x).getD k d = x := by
  simp [Table.getD, Table.get?_set_self]

theorem Table.getD_set_ne (t : Table α) {k i : Nat} (x d : α) (h : i ≠ k) : (t.set k x).getD i d = t.getD i d := by
  simp [Table.getD, Table.get?_set_ne t x h]

theorem Table.get?_alter_self (t : Table α) (k : Nat) (f : α → α) : (t.alter k f).get? k = (t.get? k).map f := by
  unfold Table.alter
  cases h : t.get? k with
  | none => simpa using h
  | some x => simp [Table.get?_set_self]

theorem Table.get?_alter_ne (t : Table α) {k i : Nat} (f : α → α) (h : i ≠ k) : (t.alter k f).get? i = t.get? i := by
  unfold Table.alter
  cases t.get? k with
  | none => rfl
  | some x => simp [Table.get?_set_ne t _ h]

theorem Table.getD_alter_ne (t : Table α) {k i : Nat} (f : α → α) (d : α) (h : i ≠ k) :
    (t.alter k f).getD i d = t.getD i d := by
  simp [Table.getD, Table.get?_alter_ne t f h]

theorem Table.getD_alter_self (t : Table α) {k : Nat} {y : α} (f : α → α) (d : α) (h : t.get? k = some y) :
    (t.alter k f).getD k d = f (t.getD k d) := by
  simp [Table.getD, Table.get?_alter_self, h]

end Tables

/-! ### Memory -/

@[simp] theorem Memory.read_nil (a : Nat) : Memory.read [] a = Memory.empty := rfl

/-- Below the bound nothing is listed. -/
theorem Memory.read_below {lo a : Nat} {m : Memory} (h : Memory.wfFrom lo m) (ha : a < lo) :
    m.read a = Memory.empty := by
  induction m generalizing lo with
  | nil => rfl
  | cons c r ih =>
    obtain ⟨j, y⟩ := c
    simp only [Memory.wfFrom, Bool.and_eq_true, decide_eq_true_eq] at h
    have hj : j ≠ a := by omega
    simp [Memory.read, hj, ih h.2 (by omega)]

theorem Memory.wfFrom_mono {lo lo' : Nat} {m : Memory} (h : Memory.wfFrom lo' m) (hl : lo ≤ lo') :
    Memory.wfFrom lo m := by
  cases m with
  | nil => rfl
  | cons c r =>
    obtain ⟨j, y⟩ := c
    simp only [Memory.wfFrom, Bool.and_eq_true, decide_eq_true_eq] at h ⊢
    exact ⟨⟨by omega, h.1.2⟩, h.2⟩

/-- A write keeps the canonical form. -/
theorem Memory.wfFrom_write {lo : Nat} {m : Memory} (h : Memory.wfFrom lo m) (a : Nat) (x : Byte) (ha : lo ≤ a) :
    Memory.wfFrom lo (m.write a x) := by
  induction m generalizing lo with
  | nil =>
    simp only [Memory.write]
    split <;> simp_all [Memory.wfFrom]
  | cons c r ih =>
    obtain ⟨j, y⟩ := c
    simp only [Memory.wfFrom, Bool.and_eq_true, decide_eq_true_eq] at h
    simp only [Memory.write]
    split
    · subst j
      split
      · exact Memory.wfFrom_mono h.2 (by omega)
      · simp_all [Memory.wfFrom]
    · split
      · split
        · simp_all [Memory.wfFrom]
        · simp only [Memory.wfFrom, Bool.and_eq_true, decide_eq_true_eq]
          exact ⟨⟨ha, by assumption⟩, ⟨⟨by omega, h.1.2⟩, h.2⟩⟩
      · simp only [Memory.wfFrom, Bool.and_eq_true, decide_eq_true_eq]
        exact ⟨h.1, ih h.2 (by omega)⟩

theorem Memory.wf_nil : Memory.wf [] = true := rfl

theorem Memory.wf_write {m : Memory} (h : m.wf) (a : Nat) (x : Byte) : (m.write a x).wf :=
  Memory.wfFrom_write h a x (Nat.zero_le a)

theorem Memory.wf_writeN {m : Memory} (h : m.wf) (a n x : Nat) : (m.writeN a n x).wf := by
  induction n generalizing a x with
  | zero => exact h
  | succ n ih => exact Memory.wf_write (ih (a + 1) (x / 256)) a _

theorem Memory.wf_writeMasked {m : Memory} (h : m.wf) (a n x k : Nat) : (m.writeMasked a n x k).wf := by
  induction n generalizing a x k with
  | zero => exact h
  | succ n ih =>
    simp only [Memory.writeMasked]
    split
    · exact Memory.wf_write (ih (a + 1) (x / 256) (k / 2)) a _
    · exact ih (a + 1) (x / 256) (k / 2)

theorem Memory.wfFrom_filter {lo : Nat} {m : Memory} (h : Memory.wfFrom lo m) (p : Host.Cell → Bool) :
    Memory.wfFrom lo (m.filter p) := by
  induction m generalizing lo with
  | nil => rfl
  | cons c r ih =>
    obtain ⟨j, y⟩ := c
    simp only [Memory.wfFrom, Bool.and_eq_true, decide_eq_true_eq] at h
    simp only [List.filter]
    split
    · simp only [Memory.wfFrom, Bool.and_eq_true, decide_eq_true_eq]
      exact ⟨h.1, ih h.2⟩
    · exact Memory.wfFrom_mono (ih h.2) (by omega)

theorem Memory.wf_clear {m : Memory} (h : m.wf) (a n : Nat) : (m.clear a n).wf := Memory.wfFrom_filter h _

/-- A read after a write to the same place gives what was written. -/
theorem Memory.read_write_self {lo : Nat} {m : Memory} (h : Memory.wfFrom lo m) (a : Nat) (x : Byte) :
    (m.write a x).read a = x := by
  induction m generalizing lo with
  | nil =>
    simp only [Memory.write]
    split <;> simp_all [Memory.read]
  | cons c r ih =>
    obtain ⟨j, y⟩ := c
    simp only [Memory.wfFrom, Bool.and_eq_true, decide_eq_true_eq] at h
    simp only [Memory.write]
    split
    · subst j
      split
      · rw [Memory.read_below h.2 (by omega)]
        exact (by assumption : x = Memory.empty).symm
      · simp [Memory.read]
    · split
      · split
        · rename_i hlt hx
          rw [Memory.read, if_neg (by omega), Memory.read_below h.2 (by omega)]
          exact hx.symm
        · simp [Memory.read]
      · simp [Memory.read, ih h.2, *]

/-- A write leaves every other place as it was. -/
theorem Memory.read_write_ne {lo : Nat} {m : Memory} (h : Memory.wfFrom lo m) {a b : Nat} (x : Byte) (hb : b ≠ a) :
    (m.write a x).read b = m.read b := by
  induction m generalizing lo with
  | nil =>
    simp only [Memory.write]
    split
    · rfl
    · simp [Memory.read, Ne.symm hb]
  | cons c r ih =>
    obtain ⟨j, y⟩ := c
    simp only [Memory.wfFrom, Bool.and_eq_true, decide_eq_true_eq] at h
    simp only [Memory.write]
    split
    · subst j
      split <;> simp [Memory.read, Ne.symm hb]
    · split
      · split
        · rfl
        · simp [Memory.read, Ne.symm hb]
      · simp [Memory.read, ih h.2]

/-- A little-endian write leaves every byte outside it as it was. -/
theorem Memory.read_writeN_out {m : Memory} (h : m.wf) {a n x b : Nat} (hb : b < a ∨ a + n ≤ b) :
    (m.writeN a n x).read b = m.read b := by
  induction n generalizing a x with
  | zero => rfl
  | succ n ih =>
    simp only [Memory.writeN]
    rw [Memory.read_write_ne (Memory.wf_writeN h (a + 1) n (x / 256)) _ (by omega), ih (by omega)]

/-- A little-endian read of what a little-endian write stored. -/
theorem Memory.readN_writeN {m : Memory} (h : m.wf) (a n x : Nat) : (m.writeN a n x).readN a n = x % 256 ^ n := by
  suffices H : ∀ (n a x : Nat) (m' : Memory), m'.wf → (∀ i, i < n → m'.read (a + i) = BitVec.ofNat 8 (x / 256 ^ i)) →
      m'.readN a n = x % 256 ^ n by
    refine H n a x _ (Memory.wf_writeN h a n x) ?_
    clear H
    induction n generalizing a x with
    | zero => intro i hi; omega
    | succ n ih =>
      intro i hi
      simp only [Memory.writeN]
      cases i with
      | zero =>
        simp only [Nat.add_zero, Nat.pow_zero, Nat.div_one]
        exact Memory.read_write_self (Memory.wf_writeN h (a + 1) n (x / 256)) a _
      | succ i =>
        rw [Memory.read_write_ne (Memory.wf_writeN h (a + 1) n (x / 256)) _ (by omega)]
        have := ih (a + 1) (x / 256) i (by omega)
        rw [show a + (i + 1) = a + 1 + i by omega, this, Nat.div_div_eq_div_mul, Nat.pow_succ, Nat.mul_comm]
  intro n
  induction n with
  | zero => intro a x m' _ _; simp [Memory.readN, Nat.mod_one]
  | succ n ih =>
    intro a x m' hw H
    have h0 := H 0 (by omega)
    simp only [Nat.add_zero, Nat.pow_zero, Nat.div_one] at h0
    have hr := ih (a + 1) (x / 256) m' hw fun i hi => by
      have := H (i + 1) (by omega)
      rw [show a + 1 + i = a + (i + 1) by omega, this, Nat.div_div_eq_div_mul, Nat.pow_succ, Nat.mul_comm]
    simp only [Memory.readN, h0, hr, BitVec.toNat_ofNat]
    rw [show (256 : Nat) ^ (n + 1) = 256 * 256 ^ n by ring, Nat.mod_mul]

end Sys2Proof.Machine
end

