-- ==== Sys2Proof/Laws/State.lean ====
section
/-! SUPPORT. Laws of the state: one lemma for each field under each update of a part, and reading a part back. -/

namespace Sys2Proof.Machine

/-! ### setGroup -/

@[simp] theorem State.setGroup_mem (s : State) (i : Nat) (x : Group) : (s.setGroup i x).mem = s.mem := rfl
@[simp] theorem State.setGroup_descs (s : State) (i : Nat) (x : Group) : (s.setGroup i x).descs = s.descs := rfl
@[simp] theorem State.setGroup_bad (s : State) (i : Nat) (x : Group) : (s.setGroup i x).bad = s.bad := rfl
@[simp] theorem State.setGroup_dir (s : State) (i : Nat) (x : Group) : (s.setGroup i x).dir = s.dir := rfl
@[simp] theorem State.setGroup_l2 (s : State) (i : Nat) (x : Group) : (s.setGroup i x).l2 = s.l2 := rfl
@[simp] theorem State.setGroup_coh (s : State) (i : Nat) (x : Group) : (s.setGroup i x).coh = s.coh := rfl
@[simp] theorem State.setGroup_replicas (s : State) (i : Nat) (x : Group) : (s.setGroup i x).replicas = s.replicas := rfl
@[simp] theorem State.setGroup_code (s : State) (i : Nat) (x : Group) : (s.setGroup i x).code = s.code := rfl
@[simp] theorem State.setGroup_net (s : State) (i : Nat) (x : Group) : (s.setGroup i x).net = s.net := rfl
@[simp] theorem State.setGroup_reps (s : State) (i : Nat) (x : Group) : (s.setGroup i x).reps = s.reps := rfl
@[simp] theorem State.setGroup_recs (s : State) (i : Nat) (x : Group) : (s.setGroup i x).recs = s.recs := rfl
@[simp] theorem State.setGroup_answers (s : State) (i : Nat) (x : Group) : (s.setGroup i x).answers = s.answers := rfl
@[simp] theorem State.setGroup_pushes (s : State) (i : Nat) (x : Group) : (s.setGroup i x).pushes = s.pushes := rfl
@[simp] theorem State.setGroup_tiles (s : State) (i : Nat) (x : Group) : (s.setGroup i x).tiles = s.tiles := rfl
@[simp] theorem State.setGroup_subs (s : State) (i : Nat) (x : Group) : (s.setGroup i x).subs = s.subs := rfl
@[simp] theorem State.setGroup_teams (s : State) (i : Nat) (x : Group) : (s.setGroup i x).teams = s.teams := rfl
@[simp] theorem State.setGroup_clusters (s : State) (i : Nat) (x : Group) : (s.setGroup i x).clusters = s.clusters := rfl
@[simp] theorem State.setGroup_launches (s : State) (i : Nat) (x : Group) : (s.setGroup i x).launches = s.launches := rfl
@[simp] theorem State.setGroup_accs (s : State) (i : Nat) (x : Group) : (s.setGroup i x).accs = s.accs := rfl
@[simp] theorem State.setGroup_copies (s : State) (i : Nat) (x : Group) : (s.setGroup i x).copies = s.copies := rfl
@[simp] theorem State.setGroup_mcasts (s : State) (i : Nat) (x : Group) : (s.setGroup i x).mcasts = s.mcasts := rfl
@[simp] theorem State.setGroup_fences (s : State) (i : Nat) (x : Group) : (s.setGroup i x).fences = s.fences := rfl
@[simp] theorem State.setGroup_tlbis (s : State) (i : Nat) (x : Group) : (s.setGroup i x).tlbis = s.tlbis := rfl
@[simp] theorem State.setGroup_arrivals (s : State) (i : Nat) (x : Group) : (s.setGroup i x).arrivals = s.arrivals := rfl
@[simp] theorem State.setGroup_releases (s : State) (i : Nat) (x : Group) : (s.setGroup i x).releases = s.releases := rfl
@[simp] theorem State.setGroup_dist (s : State) (i : Nat) (x : Group) : (s.setGroup i x).dist = s.dist := rfl
@[simp] theorem State.setGroup_fq (s : State) (i : Nat) (x : Group) : (s.setGroup i x).fq = s.fq := rfl
@[simp] theorem State.setGroup_sensors (s : State) (i : Nat) (x : Group) : (s.setGroup i x).sensors = s.sensors := rfl
@[simp] theorem State.setGroup_sm (s : State) (i : Nat) (x : Group) : (s.setGroup i x).sm = s.sm := rfl
@[simp] theorem State.setGroup_dev (s : State) (i : Nat) (x : Group) : (s.setGroup i x).dev = s.dev := rfl
@[simp] theorem State.setGroup_ports (s : State) (i : Nat) (x : Group) : (s.setGroup i x).ports = s.ports := rfl
@[simp] theorem State.setGroup_att (s : State) (i : Nat) (x : Group) : (s.setGroup i x).att = s.att := rfl
@[simp] theorem State.setGroup_mons (s : State) (i : Nat) (x : Group) : (s.setGroup i x).mons = s.mons := rfl
@[simp] theorem State.setGroup_agenda (s : State) (i : Nat) (x : Group) : (s.setGroup i x).agenda = s.agenda := rfl
@[simp] theorem State.setGroup_held (s : State) (i : Nat) (x : Group) : (s.setGroup i x).held = s.held := rfl
@[simp] theorem State.setGroup_cur (s : State) (i : Nat) (x : Group) : (s.setGroup i x).cur = s.cur := rfl
@[simp] theorem State.setGroup_free (s : State) (i : Nat) (x : Group) : (s.setGroup i x).free = s.free := rfl
@[simp] theorem State.setGroup_nextId (s : State) (i : Nat) (x : Group) : (s.setGroup i x).nextId = s.nextId := rfl

/-! ### modGroup -/

@[simp] theorem State.modGroup_mem (s : State) (i : Nat) (f : Group → Group) : (s.modGroup i f).mem = s.mem := rfl
@[simp] theorem State.modGroup_descs (s : State) (i : Nat) (f : Group → Group) : (s.modGroup i f).descs = s.descs := rfl
@[simp] theorem State.modGroup_bad (s : State) (i : Nat) (f : Group → Group) : (s.modGroup i f).bad = s.bad := rfl
@[simp] theorem State.modGroup_dir (s : State) (i : Nat) (f : Group → Group) : (s.modGroup i f).dir = s.dir := rfl
@[simp] theorem State.modGroup_l2 (s : State) (i : Nat) (f : Group → Group) : (s.modGroup i f).l2 = s.l2 := rfl
@[simp] theorem State.modGroup_coh (s : State) (i : Nat) (f : Group → Group) : (s.modGroup i f).coh = s.coh := rfl
@[simp] theorem State.modGroup_replicas (s : State) (i : Nat) (f : Group → Group) : (s.modGroup i f).replicas = s.replicas := rfl
@[simp] theorem State.modGroup_code (s : State) (i : Nat) (f : Group → Group) : (s.modGroup i f).code = s.code := rfl
@[simp] theorem State.modGroup_net (s : State) (i : Nat) (f : Group → Group) : (s.modGroup i f).net = s.net := rfl
@[simp] theorem State.modGroup_reps (s : State) (i : Nat) (f : Group → Group) : (s.modGroup i f).reps = s.reps := rfl
@[simp] theorem State.modGroup_recs (s : State) (i : Nat) (f : Group → Group) : (s.modGroup i f).recs = s.recs := rfl
@[simp] theorem State.modGroup_answers (s : State) (i : Nat) (f : Group → Group) : (s.modGroup i f).answers = s.answers := rfl
@[simp] theorem State.modGroup_pushes (s : State) (i : Nat) (f : Group → Group) : (s.modGroup i f).pushes = s.pushes := rfl
@[simp] theorem State.modGroup_tiles (s : State) (i : Nat) (f : Group → Group) : (s.modGroup i f).tiles = s.tiles := rfl
@[simp] theorem State.modGroup_subs (s : State) (i : Nat) (f : Group → Group) : (s.modGroup i f).subs = s.subs := rfl
@[simp] theorem State.modGroup_teams (s : State) (i : Nat) (f : Group → Group) : (s.modGroup i f).teams = s.teams := rfl
@[simp] theorem State.modGroup_clusters (s : State) (i : Nat) (f : Group → Group) : (s.modGroup i f).clusters = s.clusters := rfl
@[simp] theorem State.modGroup_launches (s : State) (i : Nat) (f : Group → Group) : (s.modGroup i f).launches = s.launches := rfl
@[simp] theorem State.modGroup_accs (s : State) (i : Nat) (f : Group → Group) : (s.modGroup i f).accs = s.accs := rfl
@[simp] theorem State.modGroup_copies (s : State) (i : Nat) (f : Group → Group) : (s.modGroup i f).copies = s.copies := rfl
@[simp] theorem State.modGroup_mcasts (s : State) (i : Nat) (f : Group → Group) : (s.modGroup i f).mcasts = s.mcasts := rfl
@[simp] theorem State.modGroup_fences (s : State) (i : Nat) (f : Group → Group) : (s.modGroup i f).fences = s.fences := rfl
@[simp] theorem State.modGroup_tlbis (s : State) (i : Nat) (f : Group → Group) : (s.modGroup i f).tlbis = s.tlbis := rfl
@[simp] theorem State.modGroup_arrivals (s : State) (i : Nat) (f : Group → Group) : (s.modGroup i f).arrivals = s.arrivals := rfl
@[simp] theorem State.modGroup_releases (s : State) (i : Nat) (f : Group → Group) : (s.modGroup i f).releases = s.releases := rfl
@[simp] theorem State.modGroup_dist (s : State) (i : Nat) (f : Group → Group) : (s.modGroup i f).dist = s.dist := rfl
@[simp] theorem State.modGroup_fq (s : State) (i : Nat) (f : Group → Group) : (s.modGroup i f).fq = s.fq := rfl
@[simp] theorem State.modGroup_sensors (s : State) (i : Nat) (f : Group → Group) : (s.modGroup i f).sensors = s.sensors := rfl
@[simp] theorem State.modGroup_sm (s : State) (i : Nat) (f : Group → Group) : (s.modGroup i f).sm = s.sm := rfl
@[simp] theorem State.modGroup_dev (s : State) (i : Nat) (f : Group → Group) : (s.modGroup i f).dev = s.dev := rfl
@[simp] theorem State.modGroup_ports (s : State) (i : Nat) (f : Group → Group) : (s.modGroup i f).ports = s.ports := rfl
@[simp] theorem State.modGroup_att (s : State) (i : Nat) (f : Group → Group) : (s.modGroup i f).att = s.att := rfl
@[simp] theorem State.modGroup_mons (s : State) (i : Nat) (f : Group → Group) : (s.modGroup i f).mons = s.mons := rfl
@[simp] theorem State.modGroup_agenda (s : State) (i : Nat) (f : Group → Group) : (s.modGroup i f).agenda = s.agenda := rfl
@[simp] theorem State.modGroup_held (s : State) (i : Nat) (f : Group → Group) : (s.modGroup i f).held = s.held := rfl
@[simp] theorem State.modGroup_cur (s : State) (i : Nat) (f : Group → Group) : (s.modGroup i f).cur = s.cur := rfl
@[simp] theorem State.modGroup_free (s : State) (i : Nat) (f : Group → Group) : (s.modGroup i f).free = s.free := rfl
@[simp] theorem State.modGroup_nextId (s : State) (i : Nat) (f : Group → Group) : (s.modGroup i f).nextId = s.nextId := rfl

/-! ### setTeam -/

@[simp] theorem State.setTeam_mem (s : State) (i : Nat) (x : Team) : (s.setTeam i x).mem = s.mem := rfl
@[simp] theorem State.setTeam_descs (s : State) (i : Nat) (x : Team) : (s.setTeam i x).descs = s.descs := rfl
@[simp] theorem State.setTeam_bad (s : State) (i : Nat) (x : Team) : (s.setTeam i x).bad = s.bad := rfl
@[simp] theorem State.setTeam_dir (s : State) (i : Nat) (x : Team) : (s.setTeam i x).dir = s.dir := rfl
@[simp] theorem State.setTeam_l2 (s : State) (i : Nat) (x : Team) : (s.setTeam i x).l2 = s.l2 := rfl
@[simp] theorem State.setTeam_coh (s : State) (i : Nat) (x : Team) : (s.setTeam i x).coh = s.coh := rfl
@[simp] theorem State.setTeam_replicas (s : State) (i : Nat) (x : Team) : (s.setTeam i x).replicas = s.replicas := rfl
@[simp] theorem State.setTeam_code (s : State) (i : Nat) (x : Team) : (s.setTeam i x).code = s.code := rfl
@[simp] theorem State.setTeam_net (s : State) (i : Nat) (x : Team) : (s.setTeam i x).net = s.net := rfl
@[simp] theorem State.setTeam_reps (s : State) (i : Nat) (x : Team) : (s.setTeam i x).reps = s.reps := rfl
@[simp] theorem State.setTeam_recs (s : State) (i : Nat) (x : Team) : (s.setTeam i x).recs = s.recs := rfl
@[simp] theorem State.setTeam_answers (s : State) (i : Nat) (x : Team) : (s.setTeam i x).answers = s.answers := rfl
@[simp] theorem State.setTeam_pushes (s : State) (i : Nat) (x : Team) : (s.setTeam i x).pushes = s.pushes := rfl
@[simp] theorem State.setTeam_tiles (s : State) (i : Nat) (x : Team) : (s.setTeam i x).tiles = s.tiles := rfl
@[simp] theorem State.setTeam_subs (s : State) (i : Nat) (x : Team) : (s.setTeam i x).subs = s.subs := rfl
@[simp] theorem State.setTeam_groups (s : State) (i : Nat) (x : Team) : (s.setTeam i x).groups = s.groups := rfl
@[simp] theorem State.setTeam_clusters (s : State) (i : Nat) (x : Team) : (s.setTeam i x).clusters = s.clusters := rfl
@[simp] theorem State.setTeam_launches (s : State) (i : Nat) (x : Team) : (s.setTeam i x).launches = s.launches := rfl
@[simp] theorem State.setTeam_accs (s : State) (i : Nat) (x : Team) : (s.setTeam i x).accs = s.accs := rfl
@[simp] theorem State.setTeam_copies (s : State) (i : Nat) (x : Team) : (s.setTeam i x).copies = s.copies := rfl
@[simp] theorem State.setTeam_mcasts (s : State) (i : Nat) (x : Team) : (s.setTeam i x).mcasts = s.mcasts := rfl
@[simp] theorem State.setTeam_fences (s : State) (i : Nat) (x : Team) : (s.setTeam i x).fences = s.fences := rfl
@[simp] theorem State.setTeam_tlbis (s : State) (i : Nat) (x : Team) : (s.setTeam i x).tlbis = s.tlbis := rfl
@[simp] theorem State.setTeam_arrivals (s : State) (i : Nat) (x : Team) : (s.setTeam i x).arrivals = s.arrivals := rfl
@[simp] theorem State.setTeam_releases (s : State) (i : Nat) (x : Team) : (s.setTeam i x).releases = s.releases := rfl
@[simp] theorem State.setTeam_dist (s : State) (i : Nat) (x : Team) : (s.setTeam i x).dist = s.dist := rfl
@[simp] theorem State.setTeam_fq (s : State) (i : Nat) (x : Team) : (s.setTeam i x).fq = s.fq := rfl
@[simp] theorem State.setTeam_sensors (s : State) (i : Nat) (x : Team) : (s.setTeam i x).sensors = s.sensors := rfl
@[simp] theorem State.setTeam_sm (s : State) (i : Nat) (x : Team) : (s.setTeam i x).sm = s.sm := rfl
@[simp] theorem State.setTeam_dev (s : State) (i : Nat) (x : Team) : (s.setTeam i x).dev = s.dev := rfl
@[simp] theorem State.setTeam_ports (s : State) (i : Nat) (x : Team) : (s.setTeam i x).ports = s.ports := rfl
@[simp] theorem State.setTeam_att (s : State) (i : Nat) (x : Team) : (s.setTeam i x).att = s.att := rfl
@[simp] theorem State.setTeam_mons (s : State) (i : Nat) (x : Team) : (s.setTeam i x).mons = s.mons := rfl
@[simp] theorem State.setTeam_agenda (s : State) (i : Nat) (x : Team) : (s.setTeam i x).agenda = s.agenda := rfl
@[simp] theorem State.setTeam_held (s : State) (i : Nat) (x : Team) : (s.setTeam i x).held = s.held := rfl
@[simp] theorem State.setTeam_cur (s : State) (i : Nat) (x : Team) : (s.setTeam i x).cur = s.cur := rfl
@[simp] theorem State.setTeam_free (s : State) (i : Nat) (x : Team) : (s.setTeam i x).free = s.free := rfl
@[simp] theorem State.setTeam_nextId (s : State) (i : Nat) (x : Team) : (s.setTeam i x).nextId = s.nextId := rfl

/-! ### modTeam -/

@[simp] theorem State.modTeam_mem (s : State) (i : Nat) (f : Team → Team) : (s.modTeam i f).mem = s.mem := rfl
@[simp] theorem State.modTeam_descs (s : State) (i : Nat) (f : Team → Team) : (s.modTeam i f).descs = s.descs := rfl
@[simp] theorem State.modTeam_bad (s : State) (i : Nat) (f : Team → Team) : (s.modTeam i f).bad = s.bad := rfl
@[simp] theorem State.modTeam_dir (s : State) (i : Nat) (f : Team → Team) : (s.modTeam i f).dir = s.dir := rfl
@[simp] theorem State.modTeam_l2 (s : State) (i : Nat) (f : Team → Team) : (s.modTeam i f).l2 = s.l2 := rfl
@[simp] theorem State.modTeam_coh (s : State) (i : Nat) (f : Team → Team) : (s.modTeam i f).coh = s.coh := rfl
@[simp] theorem State.modTeam_replicas (s : State) (i : Nat) (f : Team → Team) : (s.modTeam i f).replicas = s.replicas := rfl
@[simp] theorem State.modTeam_code (s : State) (i : Nat) (f : Team → Team) : (s.modTeam i f).code = s.code := rfl
@[simp] theorem State.modTeam_net (s : State) (i : Nat) (f : Team → Team) : (s.modTeam i f).net = s.net := rfl
@[simp] theorem State.modTeam_reps (s : State) (i : Nat) (f : Team → Team) : (s.modTeam i f).reps = s.reps := rfl
@[simp] theorem State.modTeam_recs (s : State) (i : Nat) (f : Team → Team) : (s.modTeam i f).recs = s.recs := rfl
@[simp] theorem State.modTeam_answers (s : State) (i : Nat) (f : Team → Team) : (s.modTeam i f).answers = s.answers := rfl
@[simp] theorem State.modTeam_pushes (s : State) (i : Nat) (f : Team → Team) : (s.modTeam i f).pushes = s.pushes := rfl
@[simp] theorem State.modTeam_tiles (s : State) (i : Nat) (f : Team → Team) : (s.modTeam i f).tiles = s.tiles := rfl
@[simp] theorem State.modTeam_subs (s : State) (i : Nat) (f : Team → Team) : (s.modTeam i f).subs = s.subs := rfl
@[simp] theorem State.modTeam_groups (s : State) (i : Nat) (f : Team → Team) : (s.modTeam i f).groups = s.groups := rfl
@[simp] theorem State.modTeam_clusters (s : State) (i : Nat) (f : Team → Team) : (s.modTeam i f).clusters = s.clusters := rfl
@[simp] theorem State.modTeam_launches (s : State) (i : Nat) (f : Team → Team) : (s.modTeam i f).launches = s.launches := rfl
@[simp] theorem State.modTeam_accs (s : State) (i : Nat) (f : Team → Team) : (s.modTeam i f).accs = s.accs := rfl
@[simp] theorem State.modTeam_copies (s : State) (i : Nat) (f : Team → Team) : (s.modTeam i f).copies = s.copies := rfl
@[simp] theorem State.modTeam_mcasts (s : State) (i : Nat) (f : Team → Team) : (s.modTeam i f).mcasts = s.mcasts := rfl
@[simp] theorem State.modTeam_fences (s : State) (i : Nat) (f : Team → Team) : (s.modTeam i f).fences = s.fences := rfl
@[simp] theorem State.modTeam_tlbis (s : State) (i : Nat) (f : Team → Team) : (s.modTeam i f).tlbis = s.tlbis := rfl
@[simp] theorem State.modTeam_arrivals (s : State) (i : Nat) (f : Team → Team) : (s.modTeam i f).arrivals = s.arrivals := rfl
@[simp] theorem State.modTeam_releases (s : State) (i : Nat) (f : Team → Team) : (s.modTeam i f).releases = s.releases := rfl
@[simp] theorem State.modTeam_dist (s : State) (i : Nat) (f : Team → Team) : (s.modTeam i f).dist = s.dist := rfl
@[simp] theorem State.modTeam_fq (s : State) (i : Nat) (f : Team → Team) : (s.modTeam i f).fq = s.fq := rfl
@[simp] theorem State.modTeam_sensors (s : State) (i : Nat) (f : Team → Team) : (s.modTeam i f).sensors = s.sensors := rfl
@[simp] theorem State.modTeam_sm (s : State) (i : Nat) (f : Team → Team) : (s.modTeam i f).sm = s.sm := rfl
@[simp] theorem State.modTeam_dev (s : State) (i : Nat) (f : Team → Team) : (s.modTeam i f).dev = s.dev := rfl
@[simp] theorem State.modTeam_ports (s : State) (i : Nat) (f : Team → Team) : (s.modTeam i f).ports = s.ports := rfl
@[simp] theorem State.modTeam_att (s : State) (i : Nat) (f : Team → Team) : (s.modTeam i f).att = s.att := rfl
@[simp] theorem State.modTeam_mons (s : State) (i : Nat) (f : Team → Team) : (s.modTeam i f).mons = s.mons := rfl
@[simp] theorem State.modTeam_agenda (s : State) (i : Nat) (f : Team → Team) : (s.modTeam i f).agenda = s.agenda := rfl
@[simp] theorem State.modTeam_held (s : State) (i : Nat) (f : Team → Team) : (s.modTeam i f).held = s.held := rfl
@[simp] theorem State.modTeam_cur (s : State) (i : Nat) (f : Team → Team) : (s.modTeam i f).cur = s.cur := rfl
@[simp] theorem State.modTeam_free (s : State) (i : Nat) (f : Team → Team) : (s.modTeam i f).free = s.free := rfl
@[simp] theorem State.modTeam_nextId (s : State) (i : Nat) (f : Team → Team) : (s.modTeam i f).nextId = s.nextId := rfl

/-! ### modCluster -/

@[simp] theorem State.modCluster_mem (s : State) (i : Nat) (f : Cluster → Cluster) : (s.modCluster i f).mem = s.mem := rfl
@[simp] theorem State.modCluster_descs (s : State) (i : Nat) (f : Cluster → Cluster) : (s.modCluster i f).descs = s.descs := rfl
@[simp] theorem State.modCluster_bad (s : State) (i : Nat) (f : Cluster → Cluster) : (s.modCluster i f).bad = s.bad := rfl
@[simp] theorem State.modCluster_dir (s : State) (i : Nat) (f : Cluster → Cluster) : (s.modCluster i f).dir = s.dir := rfl
@[simp] theorem State.modCluster_l2 (s : State) (i : Nat) (f : Cluster → Cluster) : (s.modCluster i f).l2 = s.l2 := rfl
@[simp] theorem State.modCluster_coh (s : State) (i : Nat) (f : Cluster → Cluster) : (s.modCluster i f).coh = s.coh := rfl
@[simp] theorem State.modCluster_replicas (s : State) (i : Nat) (f : Cluster → Cluster) : (s.modCluster i f).replicas = s.replicas := rfl
@[simp] theorem State.modCluster_code (s : State) (i : Nat) (f : Cluster → Cluster) : (s.modCluster i f).code = s.code := rfl
@[simp] theorem State.modCluster_net (s : State) (i : Nat) (f : Cluster → Cluster) : (s.modCluster i f).net = s.net := rfl
@[simp] theorem State.modCluster_reps (s : State) (i : Nat) (f : Cluster → Cluster) : (s.modCluster i f).reps = s.reps := rfl
@[simp] theorem State.modCluster_recs (s : State) (i : Nat) (f : Cluster → Cluster) : (s.modCluster i f).recs = s.recs := rfl
@[simp] theorem State.modCluster_answers (s : State) (i : Nat) (f : Cluster → Cluster) : (s.modCluster i f).answers = s.answers := rfl
@[simp] theorem State.modCluster_pushes (s : State) (i : Nat) (f : Cluster → Cluster) : (s.modCluster i f).pushes = s.pushes := rfl
@[simp] theorem State.modCluster_tiles (s : State) (i : Nat) (f : Cluster → Cluster) : (s.modCluster i f).tiles = s.tiles := rfl
@[simp] theorem State.modCluster_subs (s : State) (i : Nat) (f : Cluster → Cluster) : (s.modCluster i f).subs = s.subs := rfl
@[simp] theorem State.modCluster_groups (s : State) (i : Nat) (f : Cluster → Cluster) : (s.modCluster i f).groups = s.groups := rfl
@[simp] theorem State.modCluster_teams (s : State) (i : Nat) (f : Cluster → Cluster) : (s.modCluster i f).teams = s.teams := rfl
@[simp] theorem State.modCluster_launches (s : State) (i : Nat) (f : Cluster → Cluster) : (s.modCluster i f).launches = s.launches := rfl
@[simp] theorem State.modCluster_accs (s : State) (i : Nat) (f : Cluster → Cluster) : (s.modCluster i f).accs = s.accs := rfl
@[simp] theorem State.modCluster_copies (s : State) (i : Nat) (f : Cluster → Cluster) : (s.modCluster i f).copies = s.copies := rfl
@[simp] theorem State.modCluster_mcasts (s : State) (i : Nat) (f : Cluster → Cluster) : (s.modCluster i f).mcasts = s.mcasts := rfl
@[simp] theorem State.modCluster_fences (s : State) (i : Nat) (f : Cluster → Cluster) : (s.modCluster i f).fences = s.fences := rfl
@[simp] theorem State.modCluster_tlbis (s : State) (i : Nat) (f : Cluster → Cluster) : (s.modCluster i f).tlbis = s.tlbis := rfl
@[simp] theorem State.modCluster_arrivals (s : State) (i : Nat) (f : Cluster → Cluster) : (s.modCluster i f).arrivals = s.arrivals := rfl
@[simp] theorem State.modCluster_releases (s : State) (i : Nat) (f : Cluster → Cluster) : (s.modCluster i f).releases = s.releases := rfl
@[simp] theorem State.modCluster_dist (s : State) (i : Nat) (f : Cluster → Cluster) : (s.modCluster i f).dist = s.dist := rfl
@[simp] theorem State.modCluster_fq (s : State) (i : Nat) (f : Cluster → Cluster) : (s.modCluster i f).fq = s.fq := rfl
@[simp] theorem State.modCluster_sensors (s : State) (i : Nat) (f : Cluster → Cluster) : (s.modCluster i f).sensors = s.sensors := rfl
@[simp] theorem State.modCluster_sm (s : State) (i : Nat) (f : Cluster → Cluster) : (s.modCluster i f).sm = s.sm := rfl
@[simp] theorem State.modCluster_dev (s : State) (i : Nat) (f : Cluster → Cluster) : (s.modCluster i f).dev = s.dev := rfl
@[simp] theorem State.modCluster_ports (s : State) (i : Nat) (f : Cluster → Cluster) : (s.modCluster i f).ports = s.ports := rfl
@[simp] theorem State.modCluster_att (s : State) (i : Nat) (f : Cluster → Cluster) : (s.modCluster i f).att = s.att := rfl
@[simp] theorem State.modCluster_mons (s : State) (i : Nat) (f : Cluster → Cluster) : (s.modCluster i f).mons = s.mons := rfl
@[simp] theorem State.modCluster_agenda (s : State) (i : Nat) (f : Cluster → Cluster) : (s.modCluster i f).agenda = s.agenda := rfl
@[simp] theorem State.modCluster_held (s : State) (i : Nat) (f : Cluster → Cluster) : (s.modCluster i f).held = s.held := rfl
@[simp] theorem State.modCluster_cur (s : State) (i : Nat) (f : Cluster → Cluster) : (s.modCluster i f).cur = s.cur := rfl
@[simp] theorem State.modCluster_free (s : State) (i : Nat) (f : Cluster → Cluster) : (s.modCluster i f).free = s.free := rfl
@[simp] theorem State.modCluster_nextId (s : State) (i : Nat) (f : Cluster → Cluster) : (s.modCluster i f).nextId = s.nextId := rfl

/-! ### modLaunch -/

@[simp] theorem State.modLaunch_mem (s : State) (i : Nat) (f : Launch → Launch) : (s.modLaunch i f).mem = s.mem := rfl
@[simp] theorem State.modLaunch_descs (s : State) (i : Nat) (f : Launch → Launch) : (s.modLaunch i f).descs = s.descs := rfl
@[simp] theorem State.modLaunch_bad (s : State) (i : Nat) (f : Launch → Launch) : (s.modLaunch i f).bad = s.bad := rfl
@[simp] theorem State.modLaunch_dir (s : State) (i : Nat) (f : Launch → Launch) : (s.modLaunch i f).dir = s.dir := rfl
@[simp] theorem State.modLaunch_l2 (s : State) (i : Nat) (f : Launch → Launch) : (s.modLaunch i f).l2 = s.l2 := rfl
@[simp] theorem State.modLaunch_coh (s : State) (i : Nat) (f : Launch → Launch) : (s.modLaunch i f).coh = s.coh := rfl
@[simp] theorem State.modLaunch_replicas (s : State) (i : Nat) (f : Launch → Launch) : (s.modLaunch i f).replicas = s.replicas := rfl
@[simp] theorem State.modLaunch_code (s : State) (i : Nat) (f : Launch → Launch) : (s.modLaunch i f).code = s.code := rfl
@[simp] theorem State.modLaunch_net (s : State) (i : Nat) (f : Launch → Launch) : (s.modLaunch i f).net = s.net := rfl
@[simp] theorem State.modLaunch_reps (s : State) (i : Nat) (f : Launch → Launch) : (s.modLaunch i f).reps = s.reps := rfl
@[simp] theorem State.modLaunch_recs (s : State) (i : Nat) (f : Launch → Launch) : (s.modLaunch i f).recs = s.recs := rfl
@[simp] theorem State.modLaunch_answers (s : State) (i : Nat) (f : Launch → Launch) : (s.modLaunch i f).answers = s.answers := rfl
@[simp] theorem State.modLaunch_pushes (s : State) (i : Nat) (f : Launch → Launch) : (s.modLaunch i f).pushes = s.pushes := rfl
@[simp] theorem State.modLaunch_tiles (s : State) (i : Nat) (f : Launch → Launch) : (s.modLaunch i f).tiles = s.tiles := rfl
@[simp] theorem State.modLaunch_subs (s : State) (i : Nat) (f : Launch → Launch) : (s.modLaunch i f).subs = s.subs := rfl
@[simp] theorem State.modLaunch_groups (s : State) (i : Nat) (f : Launch → Launch) : (s.modLaunch i f).groups = s.groups := rfl
@[simp] theorem State.modLaunch_teams (s : State) (i : Nat) (f : Launch → Launch) : (s.modLaunch i f).teams = s.teams := rfl
@[simp] theorem State.modLaunch_clusters (s : State) (i : Nat) (f : Launch → Launch) : (s.modLaunch i f).clusters = s.clusters := rfl
@[simp] theorem State.modLaunch_accs (s : State) (i : Nat) (f : Launch → Launch) : (s.modLaunch i f).accs = s.accs := rfl
@[simp] theorem State.modLaunch_copies (s : State) (i : Nat) (f : Launch → Launch) : (s.modLaunch i f).copies = s.copies := rfl
@[simp] theorem State.modLaunch_mcasts (s : State) (i : Nat) (f : Launch → Launch) : (s.modLaunch i f).mcasts = s.mcasts := rfl
@[simp] theorem State.modLaunch_fences (s : State) (i : Nat) (f : Launch → Launch) : (s.modLaunch i f).fences = s.fences := rfl
@[simp] theorem State.modLaunch_tlbis (s : State) (i : Nat) (f : Launch → Launch) : (s.modLaunch i f).tlbis = s.tlbis := rfl
@[simp] theorem State.modLaunch_arrivals (s : State) (i : Nat) (f : Launch → Launch) : (s.modLaunch i f).arrivals = s.arrivals := rfl
@[simp] theorem State.modLaunch_releases (s : State) (i : Nat) (f : Launch → Launch) : (s.modLaunch i f).releases = s.releases := rfl
@[simp] theorem State.modLaunch_dist (s : State) (i : Nat) (f : Launch → Launch) : (s.modLaunch i f).dist = s.dist := rfl
@[simp] theorem State.modLaunch_fq (s : State) (i : Nat) (f : Launch → Launch) : (s.modLaunch i f).fq = s.fq := rfl
@[simp] theorem State.modLaunch_sensors (s : State) (i : Nat) (f : Launch → Launch) : (s.modLaunch i f).sensors = s.sensors := rfl
@[simp] theorem State.modLaunch_sm (s : State) (i : Nat) (f : Launch → Launch) : (s.modLaunch i f).sm = s.sm := rfl
@[simp] theorem State.modLaunch_dev (s : State) (i : Nat) (f : Launch → Launch) : (s.modLaunch i f).dev = s.dev := rfl
@[simp] theorem State.modLaunch_ports (s : State) (i : Nat) (f : Launch → Launch) : (s.modLaunch i f).ports = s.ports := rfl
@[simp] theorem State.modLaunch_att (s : State) (i : Nat) (f : Launch → Launch) : (s.modLaunch i f).att = s.att := rfl
@[simp] theorem State.modLaunch_mons (s : State) (i : Nat) (f : Launch → Launch) : (s.modLaunch i f).mons = s.mons := rfl
@[simp] theorem State.modLaunch_agenda (s : State) (i : Nat) (f : Launch → Launch) : (s.modLaunch i f).agenda = s.agenda := rfl
@[simp] theorem State.modLaunch_held (s : State) (i : Nat) (f : Launch → Launch) : (s.modLaunch i f).held = s.held := rfl
@[simp] theorem State.modLaunch_cur (s : State) (i : Nat) (f : Launch → Launch) : (s.modLaunch i f).cur = s.cur := rfl
@[simp] theorem State.modLaunch_free (s : State) (i : Nat) (f : Launch → Launch) : (s.modLaunch i f).free = s.free := rfl
@[simp] theorem State.modLaunch_nextId (s : State) (i : Nat) (f : Launch → Launch) : (s.modLaunch i f).nextId = s.nextId := rfl

/-! ### setTile -/

@[simp] theorem State.setTile_mem (s : State) (i : Nat) (x : Tile) : (s.setTile i x).mem = s.mem := rfl
@[simp] theorem State.setTile_descs (s : State) (i : Nat) (x : Tile) : (s.setTile i x).descs = s.descs := rfl
@[simp] theorem State.setTile_bad (s : State) (i : Nat) (x : Tile) : (s.setTile i x).bad = s.bad := rfl
@[simp] theorem State.setTile_dir (s : State) (i : Nat) (x : Tile) : (s.setTile i x).dir = s.dir := rfl
@[simp] theorem State.setTile_l2 (s : State) (i : Nat) (x : Tile) : (s.setTile i x).l2 = s.l2 := rfl
@[simp] theorem State.setTile_coh (s : State) (i : Nat) (x : Tile) : (s.setTile i x).coh = s.coh := rfl
@[simp] theorem State.setTile_replicas (s : State) (i : Nat) (x : Tile) : (s.setTile i x).replicas = s.replicas := rfl
@[simp] theorem State.setTile_code (s : State) (i : Nat) (x : Tile) : (s.setTile i x).code = s.code := rfl
@[simp] theorem State.setTile_net (s : State) (i : Nat) (x : Tile) : (s.setTile i x).net = s.net := rfl
@[simp] theorem State.setTile_reps (s : State) (i : Nat) (x : Tile) : (s.setTile i x).reps = s.reps := rfl
@[simp] theorem State.setTile_recs (s : State) (i : Nat) (x : Tile) : (s.setTile i x).recs = s.recs := rfl
@[simp] theorem State.setTile_answers (s : State) (i : Nat) (x : Tile) : (s.setTile i x).answers = s.answers := rfl
@[simp] theorem State.setTile_pushes (s : State) (i : Nat) (x : Tile) : (s.setTile i x).pushes = s.pushes := rfl
@[simp] theorem State.setTile_subs (s : State) (i : Nat) (x : Tile) : (s.setTile i x).subs = s.subs := rfl
@[simp] theorem State.setTile_groups (s : State) (i : Nat) (x : Tile) : (s.setTile i x).groups = s.groups := rfl
@[simp] theorem State.setTile_teams (s : State) (i : Nat) (x : Tile) : (s.setTile i x).teams = s.teams := rfl
@[simp] theorem State.setTile_clusters (s : State) (i : Nat) (x : Tile) : (s.setTile i x).clusters = s.clusters := rfl
@[simp] theorem State.setTile_launches (s : State) (i : Nat) (x : Tile) : (s.setTile i x).launches = s.launches := rfl
@[simp] theorem State.setTile_accs (s : State) (i : Nat) (x : Tile) : (s.setTile i x).accs = s.accs := rfl
@[simp] theorem State.setTile_copies (s : State) (i : Nat) (x : Tile) : (s.setTile i x).copies = s.copies := rfl
@[simp] theorem State.setTile_mcasts (s : State) (i : Nat) (x : Tile) : (s.setTile i x).mcasts = s.mcasts := rfl
@[simp] theorem State.setTile_fences (s : State) (i : Nat) (x : Tile) : (s.setTile i x).fences = s.fences := rfl
@[simp] theorem State.setTile_tlbis (s : State) (i : Nat) (x : Tile) : (s.setTile i x).tlbis = s.tlbis := rfl
@[simp] theorem State.setTile_arrivals (s : State) (i : Nat) (x : Tile) : (s.setTile i x).arrivals = s.arrivals := rfl
@[simp] theorem State.setTile_releases (s : State) (i : Nat) (x : Tile) : (s.setTile i x).releases = s.releases := rfl
@[simp] theorem State.setTile_dist (s : State) (i : Nat) (x : Tile) : (s.setTile i x).dist = s.dist := rfl
@[simp] theorem State.setTile_fq (s : State) (i : Nat) (x : Tile) : (s.setTile i x).fq = s.fq := rfl
@[simp] theorem State.setTile_sensors (s : State) (i : Nat) (x : Tile) : (s.setTile i x).sensors = s.sensors := rfl
@[simp] theorem State.setTile_sm (s : State) (i : Nat) (x : Tile) : (s.setTile i x).sm = s.sm := rfl
@[simp] theorem State.setTile_dev (s : State) (i : Nat) (x : Tile) : (s.setTile i x).dev = s.dev := rfl
@[simp] theorem State.setTile_ports (s : State) (i : Nat) (x : Tile) : (s.setTile i x).ports = s.ports := rfl
@[simp] theorem State.setTile_att (s : State) (i : Nat) (x : Tile) : (s.setTile i x).att = s.att := rfl
@[simp] theorem State.setTile_mons (s : State) (i : Nat) (x : Tile) : (s.setTile i x).mons = s.mons := rfl
@[simp] theorem State.setTile_agenda (s : State) (i : Nat) (x : Tile) : (s.setTile i x).agenda = s.agenda := rfl
@[simp] theorem State.setTile_held (s : State) (i : Nat) (x : Tile) : (s.setTile i x).held = s.held := rfl
@[simp] theorem State.setTile_cur (s : State) (i : Nat) (x : Tile) : (s.setTile i x).cur = s.cur := rfl
@[simp] theorem State.setTile_free (s : State) (i : Nat) (x : Tile) : (s.setTile i x).free = s.free := rfl
@[simp] theorem State.setTile_nextId (s : State) (i : Nat) (x : Tile) : (s.setTile i x).nextId = s.nextId := rfl

/-! ### modTile -/

@[simp] theorem State.modTile_mem (s : State) (i : Nat) (f : Tile → Tile) : (s.modTile i f).mem = s.mem := rfl
@[simp] theorem State.modTile_descs (s : State) (i : Nat) (f : Tile → Tile) : (s.modTile i f).descs = s.descs := rfl
@[simp] theorem State.modTile_bad (s : State) (i : Nat) (f : Tile → Tile) : (s.modTile i f).bad = s.bad := rfl
@[simp] theorem State.modTile_dir (s : State) (i : Nat) (f : Tile → Tile) : (s.modTile i f).dir = s.dir := rfl
@[simp] theorem State.modTile_l2 (s : State) (i : Nat) (f : Tile → Tile) : (s.modTile i f).l2 = s.l2 := rfl
@[simp] theorem State.modTile_coh (s : State) (i : Nat) (f : Tile → Tile) : (s.modTile i f).coh = s.coh := rfl
@[simp] theorem State.modTile_replicas (s : State) (i : Nat) (f : Tile → Tile) : (s.modTile i f).replicas = s.replicas := rfl
@[simp] theorem State.modTile_code (s : State) (i : Nat) (f : Tile → Tile) : (s.modTile i f).code = s.code := rfl
@[simp] theorem State.modTile_net (s : State) (i : Nat) (f : Tile → Tile) : (s.modTile i f).net = s.net := rfl
@[simp] theorem State.modTile_reps (s : State) (i : Nat) (f : Tile → Tile) : (s.modTile i f).reps = s.reps := rfl
@[simp] theorem State.modTile_recs (s : State) (i : Nat) (f : Tile → Tile) : (s.modTile i f).recs = s.recs := rfl
@[simp] theorem State.modTile_answers (s : State) (i : Nat) (f : Tile → Tile) : (s.modTile i f).answers = s.answers := rfl
@[simp] theorem State.modTile_pushes (s : State) (i : Nat) (f : Tile → Tile) : (s.modTile i f).pushes = s.pushes := rfl
@[simp] theorem State.modTile_subs (s : State) (i : Nat) (f : Tile → Tile) : (s.modTile i f).subs = s.subs := rfl
@[simp] theorem State.modTile_groups (s : State) (i : Nat) (f : Tile → Tile) : (s.modTile i f).groups = s.groups := rfl
@[simp] theorem State.modTile_teams (s : State) (i : Nat) (f : Tile → Tile) : (s.modTile i f).teams = s.teams := rfl
@[simp] theorem State.modTile_clusters (s : State) (i : Nat) (f : Tile → Tile) : (s.modTile i f).clusters = s.clusters := rfl
@[simp] theorem State.modTile_launches (s : State) (i : Nat) (f : Tile → Tile) : (s.modTile i f).launches = s.launches := rfl
@[simp] theorem State.modTile_accs (s : State) (i : Nat) (f : Tile → Tile) : (s.modTile i f).accs = s.accs := rfl
@[simp] theorem State.modTile_copies (s : State) (i : Nat) (f : Tile → Tile) : (s.modTile i f).copies = s.copies := rfl
@[simp] theorem State.modTile_mcasts (s : State) (i : Nat) (f : Tile → Tile) : (s.modTile i f).mcasts = s.mcasts := rfl
@[simp] theorem State.modTile_fences (s : State) (i : Nat) (f : Tile → Tile) : (s.modTile i f).fences = s.fences := rfl
@[simp] theorem State.modTile_tlbis (s : State) (i : Nat) (f : Tile → Tile) : (s.modTile i f).tlbis = s.tlbis := rfl
@[simp] theorem State.modTile_arrivals (s : State) (i : Nat) (f : Tile → Tile) : (s.modTile i f).arrivals = s.arrivals := rfl
@[simp] theorem State.modTile_releases (s : State) (i : Nat) (f : Tile → Tile) : (s.modTile i f).releases = s.releases := rfl
@[simp] theorem State.modTile_dist (s : State) (i : Nat) (f : Tile → Tile) : (s.modTile i f).dist = s.dist := rfl
@[simp] theorem State.modTile_fq (s : State) (i : Nat) (f : Tile → Tile) : (s.modTile i f).fq = s.fq := rfl
@[simp] theorem State.modTile_sensors (s : State) (i : Nat) (f : Tile → Tile) : (s.modTile i f).sensors = s.sensors := rfl
@[simp] theorem State.modTile_sm (s : State) (i : Nat) (f : Tile → Tile) : (s.modTile i f).sm = s.sm := rfl
@[simp] theorem State.modTile_dev (s : State) (i : Nat) (f : Tile → Tile) : (s.modTile i f).dev = s.dev := rfl
@[simp] theorem State.modTile_ports (s : State) (i : Nat) (f : Tile → Tile) : (s.modTile i f).ports = s.ports := rfl
@[simp] theorem State.modTile_att (s : State) (i : Nat) (f : Tile → Tile) : (s.modTile i f).att = s.att := rfl
@[simp] theorem State.modTile_mons (s : State) (i : Nat) (f : Tile → Tile) : (s.modTile i f).mons = s.mons := rfl
@[simp] theorem State.modTile_agenda (s : State) (i : Nat) (f : Tile → Tile) : (s.modTile i f).agenda = s.agenda := rfl
@[simp] theorem State.modTile_held (s : State) (i : Nat) (f : Tile → Tile) : (s.modTile i f).held = s.held := rfl
@[simp] theorem State.modTile_cur (s : State) (i : Nat) (f : Tile → Tile) : (s.modTile i f).cur = s.cur := rfl
@[simp] theorem State.modTile_free (s : State) (i : Nat) (f : Tile → Tile) : (s.modTile i f).free = s.free := rfl
@[simp] theorem State.modTile_nextId (s : State) (i : Nat) (f : Tile → Tile) : (s.modTile i f).nextId = s.nextId := rfl

/-! ### setSub -/

@[simp] theorem State.setSub_mem (s : State) (i q : Nat) (x : SubCore) : (s.setSub i q x).mem = s.mem := rfl
@[simp] theorem State.setSub_descs (s : State) (i q : Nat) (x : SubCore) : (s.setSub i q x).descs = s.descs := rfl
@[simp] theorem State.setSub_bad (s : State) (i q : Nat) (x : SubCore) : (s.setSub i q x).bad = s.bad := rfl
@[simp] theorem State.setSub_dir (s : State) (i q : Nat) (x : SubCore) : (s.setSub i q x).dir = s.dir := rfl
@[simp] theorem State.setSub_l2 (s : State) (i q : Nat) (x : SubCore) : (s.setSub i q x).l2 = s.l2 := rfl
@[simp] theorem State.setSub_coh (s : State) (i q : Nat) (x : SubCore) : (s.setSub i q x).coh = s.coh := rfl
@[simp] theorem State.setSub_replicas (s : State) (i q : Nat) (x : SubCore) : (s.setSub i q x).replicas = s.replicas := rfl
@[simp] theorem State.setSub_code (s : State) (i q : Nat) (x : SubCore) : (s.setSub i q x).code = s.code := rfl
@[simp] theorem State.setSub_net (s : State) (i q : Nat) (x : SubCore) : (s.setSub i q x).net = s.net := rfl
@[simp] theorem State.setSub_reps (s : State) (i q : Nat) (x : SubCore) : (s.setSub i q x).reps = s.reps := rfl
@[simp] theorem State.setSub_recs (s : State) (i q : Nat) (x : SubCore) : (s.setSub i q x).recs = s.recs := rfl
@[simp] theorem State.setSub_answers (s : State) (i q : Nat) (x : SubCore) : (s.setSub i q x).answers = s.answers := rfl
@[simp] theorem State.setSub_pushes (s : State) (i q : Nat) (x : SubCore) : (s.setSub i q x).pushes = s.pushes := rfl
@[simp] theorem State.setSub_tiles (s : State) (i q : Nat) (x : SubCore) : (s.setSub i q x).tiles = s.tiles := rfl
@[simp] theorem State.setSub_groups (s : State) (i q : Nat) (x : SubCore) : (s.setSub i q x).groups = s.groups := rfl
@[simp] theorem State.setSub_teams (s : State) (i q : Nat) (x : SubCore) : (s.setSub i q x).teams = s.teams := rfl
@[simp] theorem State.setSub_clusters (s : State) (i q : Nat) (x : SubCore) : (s.setSub i q x).clusters = s.clusters := rfl
@[simp] theorem State.setSub_launches (s : State) (i q : Nat) (x : SubCore) : (s.setSub i q x).launches = s.launches := rfl
@[simp] theorem State.setSub_accs (s : State) (i q : Nat) (x : SubCore) : (s.setSub i q x).accs = s.accs := rfl
@[simp] theorem State.setSub_copies (s : State) (i q : Nat) (x : SubCore) : (s.setSub i q x).copies = s.copies := rfl
@[simp] theorem State.setSub_mcasts (s : State) (i q : Nat) (x : SubCore) : (s.setSub i q x).mcasts = s.mcasts := rfl
@[simp] theorem State.setSub_fences (s : State) (i q : Nat) (x : SubCore) : (s.setSub i q x).fences = s.fences := rfl
@[simp] theorem State.setSub_tlbis (s : State) (i q : Nat) (x : SubCore) : (s.setSub i q x).tlbis = s.tlbis := rfl
@[simp] theorem State.setSub_arrivals (s : State) (i q : Nat) (x : SubCore) : (s.setSub i q x).arrivals = s.arrivals := rfl
@[simp] theorem State.setSub_releases (s : State) (i q : Nat) (x : SubCore) : (s.setSub i q x).releases = s.releases := rfl
@[simp] theorem State.setSub_dist (s : State) (i q : Nat) (x : SubCore) : (s.setSub i q x).dist = s.dist := rfl
@[simp] theorem State.setSub_fq (s : State) (i q : Nat) (x : SubCore) : (s.setSub i q x).fq = s.fq := rfl
@[simp] theorem State.setSub_sensors (s : State) (i q : Nat) (x : SubCore) : (s.setSub i q x).sensors = s.sensors := rfl
@[simp] theorem State.setSub_sm (s : State) (i q : Nat) (x : SubCore) : (s.setSub i q x).sm = s.sm := rfl
@[simp] theorem State.setSub_dev (s : State) (i q : Nat) (x : SubCore) : (s.setSub i q x).dev = s.dev := rfl
@[simp] theorem State.setSub_ports (s : State) (i q : Nat) (x : SubCore) : (s.setSub i q x).ports = s.ports := rfl
@[simp] theorem State.setSub_att (s : State) (i q : Nat) (x : SubCore) : (s.setSub i q x).att = s.att := rfl
@[simp] theorem State.setSub_mons (s : State) (i q : Nat) (x : SubCore) : (s.setSub i q x).mons = s.mons := rfl
@[simp] theorem State.setSub_agenda (s : State) (i q : Nat) (x : SubCore) : (s.setSub i q x).agenda = s.agenda := rfl
@[simp] theorem State.setSub_held (s : State) (i q : Nat) (x : SubCore) : (s.setSub i q x).held = s.held := rfl
@[simp] theorem State.setSub_cur (s : State) (i q : Nat) (x : SubCore) : (s.setSub i q x).cur = s.cur := rfl
@[simp] theorem State.setSub_free (s : State) (i q : Nat) (x : SubCore) : (s.setSub i q x).free = s.free := rfl
@[simp] theorem State.setSub_nextId (s : State) (i q : Nat) (x : SubCore) : (s.setSub i q x).nextId = s.nextId := rfl

/-! ### modSub -/

@[simp] theorem State.modSub_mem (s : State) (i q : Nat) (f : SubCore → SubCore) : (s.modSub i q f).mem = s.mem := rfl
@[simp] theorem State.modSub_descs (s : State) (i q : Nat) (f : SubCore → SubCore) : (s.modSub i q f).descs = s.descs := rfl
@[simp] theorem State.modSub_bad (s : State) (i q : Nat) (f : SubCore → SubCore) : (s.modSub i q f).bad = s.bad := rfl
@[simp] theorem State.modSub_dir (s : State) (i q : Nat) (f : SubCore → SubCore) : (s.modSub i q f).dir = s.dir := rfl
@[simp] theorem State.modSub_l2 (s : State) (i q : Nat) (f : SubCore → SubCore) : (s.modSub i q f).l2 = s.l2 := rfl
@[simp] theorem State.modSub_coh (s : State) (i q : Nat) (f : SubCore → SubCore) : (s.modSub i q f).coh = s.coh := rfl
@[simp] theorem State.modSub_replicas (s : State) (i q : Nat) (f : SubCore → SubCore) : (s.modSub i q f).replicas = s.replicas := rfl
@[simp] theorem State.modSub_code (s : State) (i q : Nat) (f : SubCore → SubCore) : (s.modSub i q f).code = s.code := rfl
@[simp] theorem State.modSub_net (s : State) (i q : Nat) (f : SubCore → SubCore) : (s.modSub i q f).net = s.net := rfl
@[simp] theorem State.modSub_reps (s : State) (i q : Nat) (f : SubCore → SubCore) : (s.modSub i q f).reps = s.reps := rfl
@[simp] theorem State.modSub_recs (s : State) (i q : Nat) (f : SubCore → SubCore) : (s.modSub i q f).recs = s.recs := rfl
@[simp] theorem State.modSub_answers (s : State) (i q : Nat) (f : SubCore → SubCore) : (s.modSub i q f).answers = s.answers := rfl
@[simp] theorem State.modSub_pushes (s : State) (i q : Nat) (f : SubCore → SubCore) : (s.modSub i q f).pushes = s.pushes := rfl
@[simp] theorem State.modSub_tiles (s : State) (i q : Nat) (f : SubCore → SubCore) : (s.modSub i q f).tiles = s.tiles := rfl
@[simp] theorem State.modSub_groups (s : State) (i q : Nat) (f : SubCore → SubCore) : (s.modSub i q f).groups = s.groups := rfl
@[simp] theorem State.modSub_teams (s : State) (i q : Nat) (f : SubCore → SubCore) : (s.modSub i q f).teams = s.teams := rfl
@[simp] theorem State.modSub_clusters (s : State) (i q : Nat) (f : SubCore → SubCore) : (s.modSub i q f).clusters = s.clusters := rfl
@[simp] theorem State.modSub_launches (s : State) (i q : Nat) (f : SubCore → SubCore) : (s.modSub i q f).launches = s.launches := rfl
@[simp] theorem State.modSub_accs (s : State) (i q : Nat) (f : SubCore → SubCore) : (s.modSub i q f).accs = s.accs := rfl
@[simp] theorem State.modSub_copies (s : State) (i q : Nat) (f : SubCore → SubCore) : (s.modSub i q f).copies = s.copies := rfl
@[simp] theorem State.modSub_mcasts (s : State) (i q : Nat) (f : SubCore → SubCore) : (s.modSub i q f).mcasts = s.mcasts := rfl
@[simp] theorem State.modSub_fences (s : State) (i q : Nat) (f : SubCore → SubCore) : (s.modSub i q f).fences = s.fences := rfl
@[simp] theorem State.modSub_tlbis (s : State) (i q : Nat) (f : SubCore → SubCore) : (s.modSub i q f).tlbis = s.tlbis := rfl
@[simp] theorem State.modSub_arrivals (s : State) (i q : Nat) (f : SubCore → SubCore) : (s.modSub i q f).arrivals = s.arrivals := rfl
@[simp] theorem State.modSub_releases (s : State) (i q : Nat) (f : SubCore → SubCore) : (s.modSub i q f).releases = s.releases := rfl
@[simp] theorem State.modSub_dist (s : State) (i q : Nat) (f : SubCore → SubCore) : (s.modSub i q f).dist = s.dist := rfl
@[simp] theorem State.modSub_fq (s : State) (i q : Nat) (f : SubCore → SubCore) : (s.modSub i q f).fq = s.fq := rfl
@[simp] theorem State.modSub_sensors (s : State) (i q : Nat) (f : SubCore → SubCore) : (s.modSub i q f).sensors = s.sensors := rfl
@[simp] theorem State.modSub_sm (s : State) (i q : Nat) (f : SubCore → SubCore) : (s.modSub i q f).sm = s.sm := rfl
@[simp] theorem State.modSub_dev (s : State) (i q : Nat) (f : SubCore → SubCore) : (s.modSub i q f).dev = s.dev := rfl
@[simp] theorem State.modSub_ports (s : State) (i q : Nat) (f : SubCore → SubCore) : (s.modSub i q f).ports = s.ports := rfl
@[simp] theorem State.modSub_att (s : State) (i q : Nat) (f : SubCore → SubCore) : (s.modSub i q f).att = s.att := rfl
@[simp] theorem State.modSub_mons (s : State) (i q : Nat) (f : SubCore → SubCore) : (s.modSub i q f).mons = s.mons := rfl
@[simp] theorem State.modSub_agenda (s : State) (i q : Nat) (f : SubCore → SubCore) : (s.modSub i q f).agenda = s.agenda := rfl
@[simp] theorem State.modSub_held (s : State) (i q : Nat) (f : SubCore → SubCore) : (s.modSub i q f).held = s.held := rfl
@[simp] theorem State.modSub_cur (s : State) (i q : Nat) (f : SubCore → SubCore) : (s.modSub i q f).cur = s.cur := rfl
@[simp] theorem State.modSub_free (s : State) (i q : Nat) (f : SubCore → SubCore) : (s.modSub i q f).free = s.free := rfl
@[simp] theorem State.modSub_nextId (s : State) (i q : Nat) (f : SubCore → SubCore) : (s.modSub i q f).nextId = s.nextId := rfl

/-! ### modCoh -/

@[simp] theorem State.modCoh_mem (s : State) (i : Nat) (f : Coh → Coh) : (s.modCoh i f).mem = s.mem := rfl
@[simp] theorem State.modCoh_descs (s : State) (i : Nat) (f : Coh → Coh) : (s.modCoh i f).descs = s.descs := rfl
@[simp] theorem State.modCoh_bad (s : State) (i : Nat) (f : Coh → Coh) : (s.modCoh i f).bad = s.bad := rfl
@[simp] theorem State.modCoh_dir (s : State) (i : Nat) (f : Coh → Coh) : (s.modCoh i f).dir = s.dir := rfl
@[simp] theorem State.modCoh_l2 (s : State) (i : Nat) (f : Coh → Coh) : (s.modCoh i f).l2 = s.l2 := rfl
@[simp] theorem State.modCoh_replicas (s : State) (i : Nat) (f : Coh → Coh) : (s.modCoh i f).replicas = s.replicas := rfl
@[simp] theorem State.modCoh_code (s : State) (i : Nat) (f : Coh → Coh) : (s.modCoh i f).code = s.code := rfl
@[simp] theorem State.modCoh_net (s : State) (i : Nat) (f : Coh → Coh) : (s.modCoh i f).net = s.net := rfl
@[simp] theorem State.modCoh_reps (s : State) (i : Nat) (f : Coh → Coh) : (s.modCoh i f).reps = s.reps := rfl
@[simp] theorem State.modCoh_recs (s : State) (i : Nat) (f : Coh → Coh) : (s.modCoh i f).recs = s.recs := rfl
@[simp] theorem State.modCoh_answers (s : State) (i : Nat) (f : Coh → Coh) : (s.modCoh i f).answers = s.answers := rfl
@[simp] theorem State.modCoh_pushes (s : State) (i : Nat) (f : Coh → Coh) : (s.modCoh i f).pushes = s.pushes := rfl
@[simp] theorem State.modCoh_tiles (s : State) (i : Nat) (f : Coh → Coh) : (s.modCoh i f).tiles = s.tiles := rfl
@[simp] theorem State.modCoh_subs (s : State) (i : Nat) (f : Coh → Coh) : (s.modCoh i f).subs = s.subs := rfl
@[simp] theorem State.modCoh_groups (s : State) (i : Nat) (f : Coh → Coh) : (s.modCoh i f).groups = s.groups := rfl
@[simp] theorem State.modCoh_teams (s : State) (i : Nat) (f : Coh → Coh) : (s.modCoh i f).teams = s.teams := rfl
@[simp] theorem State.modCoh_clusters (s : State) (i : Nat) (f : Coh → Coh) : (s.modCoh i f).clusters = s.clusters := rfl
@[simp] theorem State.modCoh_launches (s : State) (i : Nat) (f : Coh → Coh) : (s.modCoh i f).launches = s.launches := rfl
@[simp] theorem State.modCoh_accs (s : State) (i : Nat) (f : Coh → Coh) : (s.modCoh i f).accs = s.accs := rfl
@[simp] theorem State.modCoh_copies (s : State) (i : Nat) (f : Coh → Coh) : (s.modCoh i f).copies = s.copies := rfl
@[simp] theorem State.modCoh_mcasts (s : State) (i : Nat) (f : Coh → Coh) : (s.modCoh i f).mcasts = s.mcasts := rfl
@[simp] theorem State.modCoh_fences (s : State) (i : Nat) (f : Coh → Coh) : (s.modCoh i f).fences = s.fences := rfl
@[simp] theorem State.modCoh_tlbis (s : State) (i : Nat) (f : Coh → Coh) : (s.modCoh i f).tlbis = s.tlbis := rfl
@[simp] theorem State.modCoh_arrivals (s : State) (i : Nat) (f : Coh → Coh) : (s.modCoh i f).arrivals = s.arrivals := rfl
@[simp] theorem State.modCoh_releases (s : State) (i : Nat) (f : Coh → Coh) : (s.modCoh i f).releases = s.releases := rfl
@[simp] theorem State.modCoh_dist (s : State) (i : Nat) (f : Coh → Coh) : (s.modCoh i f).dist = s.dist := rfl
@[simp] theorem State.modCoh_fq (s : State) (i : Nat) (f : Coh → Coh) : (s.modCoh i f).fq = s.fq := rfl
@[simp] theorem State.modCoh_sensors (s : State) (i : Nat) (f : Coh → Coh) : (s.modCoh i f).sensors = s.sensors := rfl
@[simp] theorem State.modCoh_sm (s : State) (i : Nat) (f : Coh → Coh) : (s.modCoh i f).sm = s.sm := rfl
@[simp] theorem State.modCoh_dev (s : State) (i : Nat) (f : Coh → Coh) : (s.modCoh i f).dev = s.dev := rfl
@[simp] theorem State.modCoh_ports (s : State) (i : Nat) (f : Coh → Coh) : (s.modCoh i f).ports = s.ports := rfl
@[simp] theorem State.modCoh_att (s : State) (i : Nat) (f : Coh → Coh) : (s.modCoh i f).att = s.att := rfl
@[simp] theorem State.modCoh_mons (s : State) (i : Nat) (f : Coh → Coh) : (s.modCoh i f).mons = s.mons := rfl
@[simp] theorem State.modCoh_agenda (s : State) (i : Nat) (f : Coh → Coh) : (s.modCoh i f).agenda = s.agenda := rfl
@[simp] theorem State.modCoh_held (s : State) (i : Nat) (f : Coh → Coh) : (s.modCoh i f).held = s.held := rfl
@[simp] theorem State.modCoh_cur (s : State) (i : Nat) (f : Coh → Coh) : (s.modCoh i f).cur = s.cur := rfl
@[simp] theorem State.modCoh_free (s : State) (i : Nat) (f : Coh → Coh) : (s.modCoh i f).free = s.free := rfl
@[simp] theorem State.modCoh_nextId (s : State) (i : Nat) (f : Coh → Coh) : (s.modCoh i f).nextId = s.nextId := rfl

/-! ### modCur -/

@[simp] theorem State.modCur_mem (s : State) (f : Group → Group) : (s.modCur f).mem = s.mem := rfl
@[simp] theorem State.modCur_descs (s : State) (f : Group → Group) : (s.modCur f).descs = s.descs := rfl
@[simp] theorem State.modCur_bad (s : State) (f : Group → Group) : (s.modCur f).bad = s.bad := rfl
@[simp] theorem State.modCur_dir (s : State) (f : Group → Group) : (s.modCur f).dir = s.dir := rfl
@[simp] theorem State.modCur_l2 (s : State) (f : Group → Group) : (s.modCur f).l2 = s.l2 := rfl
@[simp] theorem State.modCur_coh (s : State) (f : Group → Group) : (s.modCur f).coh = s.coh := rfl
@[simp] theorem State.modCur_replicas (s : State) (f : Group → Group) : (s.modCur f).replicas = s.replicas := rfl
@[simp] theorem State.modCur_code (s : State) (f : Group → Group) : (s.modCur f).code = s.code := rfl
@[simp] theorem State.modCur_net (s : State) (f : Group → Group) : (s.modCur f).net = s.net := rfl
@[simp] theorem State.modCur_reps (s : State) (f : Group → Group) : (s.modCur f).reps = s.reps := rfl
@[simp] theorem State.modCur_recs (s : State) (f : Group → Group) : (s.modCur f).recs = s.recs := rfl
@[simp] theorem State.modCur_answers (s : State) (f : Group → Group) : (s.modCur f).answers = s.answers := rfl
@[simp] theorem State.modCur_pushes (s : State) (f : Group → Group) : (s.modCur f).pushes = s.pushes := rfl
@[simp] theorem State.modCur_tiles (s : State) (f : Group → Group) : (s.modCur f).tiles = s.tiles := rfl
@[simp] theorem State.modCur_subs (s : State) (f : Group → Group) : (s.modCur f).subs = s.subs := rfl
@[simp] theorem State.modCur_teams (s : State) (f : Group → Group) : (s.modCur f).teams = s.teams := rfl
@[simp] theorem State.modCur_clusters (s : State) (f : Group → Group) : (s.modCur f).clusters = s.clusters := rfl
@[simp] theorem State.modCur_launches (s : State) (f : Group → Group) : (s.modCur f).launches = s.launches := rfl
@[simp] theorem State.modCur_accs (s : State) (f : Group → Group) : (s.modCur f).accs = s.accs := rfl
@[simp] theorem State.modCur_copies (s : State) (f : Group → Group) : (s.modCur f).copies = s.copies := rfl
@[simp] theorem State.modCur_mcasts (s : State) (f : Group → Group) : (s.modCur f).mcasts = s.mcasts := rfl
@[simp] theorem State.modCur_fences (s : State) (f : Group → Group) : (s.modCur f).fences = s.fences := rfl
@[simp] theorem State.modCur_tlbis (s : State) (f : Group → Group) : (s.modCur f).tlbis = s.tlbis := rfl
@[simp] theorem State.modCur_arrivals (s : State) (f : Group → Group) : (s.modCur f).arrivals = s.arrivals := rfl
@[simp] theorem State.modCur_releases (s : State) (f : Group → Group) : (s.modCur f).releases = s.releases := rfl
@[simp] theorem State.modCur_dist (s : State) (f : Group → Group) : (s.modCur f).dist = s.dist := rfl
@[simp] theorem State.modCur_fq (s : State) (f : Group → Group) : (s.modCur f).fq = s.fq := rfl
@[simp] theorem State.modCur_sensors (s : State) (f : Group → Group) : (s.modCur f).sensors = s.sensors := rfl
@[simp] theorem State.modCur_sm (s : State) (f : Group → Group) : (s.modCur f).sm = s.sm := rfl
@[simp] theorem State.modCur_dev (s : State) (f : Group → Group) : (s.modCur f).dev = s.dev := rfl
@[simp] theorem State.modCur_ports (s : State) (f : Group → Group) : (s.modCur f).ports = s.ports := rfl
@[simp] theorem State.modCur_att (s : State) (f : Group → Group) : (s.modCur f).att = s.att := rfl
@[simp] theorem State.modCur_mons (s : State) (f : Group → Group) : (s.modCur f).mons = s.mons := rfl
@[simp] theorem State.modCur_agenda (s : State) (f : Group → Group) : (s.modCur f).agenda = s.agenda := rfl
@[simp] theorem State.modCur_held (s : State) (f : Group → Group) : (s.modCur f).held = s.held := rfl
@[simp] theorem State.modCur_cur (s : State) (f : Group → Group) : (s.modCur f).cur = s.cur := rfl
@[simp] theorem State.modCur_free (s : State) (f : Group → Group) : (s.modCur f).free = s.free := rfl
@[simp] theorem State.modCur_nextId (s : State) (f : Group → Group) : (s.modCur f).nextId = s.nextId := rfl

/-! ### takeFree -/

@[simp] theorem State.takeFree_mem (s : State) : s.takeFree.2.mem = s.mem := rfl
@[simp] theorem State.takeFree_descs (s : State) : s.takeFree.2.descs = s.descs := rfl
@[simp] theorem State.takeFree_bad (s : State) : s.takeFree.2.bad = s.bad := rfl
@[simp] theorem State.takeFree_dir (s : State) : s.takeFree.2.dir = s.dir := rfl
@[simp] theorem State.takeFree_l2 (s : State) : s.takeFree.2.l2 = s.l2 := rfl
@[simp] theorem State.takeFree_coh (s : State) : s.takeFree.2.coh = s.coh := rfl
@[simp] theorem State.takeFree_replicas (s : State) : s.takeFree.2.replicas = s.replicas := rfl
@[simp] theorem State.takeFree_code (s : State) : s.takeFree.2.code = s.code := rfl
@[simp] theorem State.takeFree_net (s : State) : s.takeFree.2.net = s.net := rfl
@[simp] theorem State.takeFree_reps (s : State) : s.takeFree.2.reps = s.reps := rfl
@[simp] theorem State.takeFree_recs (s : State) : s.takeFree.2.recs = s.recs := rfl
@[simp] theorem State.takeFree_answers (s : State) : s.takeFree.2.answers = s.answers := rfl
@[simp] theorem State.takeFree_pushes (s : State) : s.takeFree.2.pushes = s.pushes := rfl
@[simp] theorem State.takeFree_tiles (s : State) : s.takeFree.2.tiles = s.tiles := rfl
@[simp] theorem State.takeFree_subs (s : State) : s.takeFree.2.subs = s.subs := rfl
@[simp] theorem State.takeFree_groups (s : State) : s.takeFree.2.groups = s.groups := rfl
@[simp] theorem State.takeFree_teams (s : State) : s.takeFree.2.teams = s.teams := rfl
@[simp] theorem State.takeFree_clusters (s : State) : s.takeFree.2.clusters = s.clusters := rfl
@[simp] theorem State.takeFree_launches (s : State) : s.takeFree.2.launches = s.launches := rfl
@[simp] theorem State.takeFree_accs (s : State) : s.takeFree.2.accs = s.accs := rfl
@[simp] theorem State.takeFree_copies (s : State) : s.takeFree.2.copies = s.copies := rfl
@[simp] theorem State.takeFree_mcasts (s : State) : s.takeFree.2.mcasts = s.mcasts := rfl
@[simp] theorem State.takeFree_fences (s : State) : s.takeFree.2.fences = s.fences := rfl
@[simp] theorem State.takeFree_tlbis (s : State) : s.takeFree.2.tlbis = s.tlbis := rfl
@[simp] theorem State.takeFree_arrivals (s : State) : s.takeFree.2.arrivals = s.arrivals := rfl
@[simp] theorem State.takeFree_releases (s : State) : s.takeFree.2.releases = s.releases := rfl
@[simp] theorem State.takeFree_dist (s : State) : s.takeFree.2.dist = s.dist := rfl
@[simp] theorem State.takeFree_fq (s : State) : s.takeFree.2.fq = s.fq := rfl
@[simp] theorem State.takeFree_sensors (s : State) : s.takeFree.2.sensors = s.sensors := rfl
@[simp] theorem State.takeFree_sm (s : State) : s.takeFree.2.sm = s.sm := rfl
@[simp] theorem State.takeFree_dev (s : State) : s.takeFree.2.dev = s.dev := rfl
@[simp] theorem State.takeFree_ports (s : State) : s.takeFree.2.ports = s.ports := rfl
@[simp] theorem State.takeFree_att (s : State) : s.takeFree.2.att = s.att := rfl
@[simp] theorem State.takeFree_mons (s : State) : s.takeFree.2.mons = s.mons := rfl
@[simp] theorem State.takeFree_agenda (s : State) : s.takeFree.2.agenda = s.agenda := rfl
@[simp] theorem State.takeFree_held (s : State) : s.takeFree.2.held = s.held := rfl
@[simp] theorem State.takeFree_cur (s : State) : s.takeFree.2.cur = s.cur := rfl
@[simp] theorem State.takeFree_nextId (s : State) : s.takeFree.2.nextId = s.nextId := rfl
@[simp] theorem State.takeFree_counts (s : State) : s.takeFree.2.free = s.free + 1 := rfl

/-! ### takeBit -/

@[simp] theorem State.takeBit_mem (s : State) : s.takeBit.2.mem = s.mem := rfl
@[simp] theorem State.takeBit_descs (s : State) : s.takeBit.2.descs = s.descs := rfl
@[simp] theorem State.takeBit_bad (s : State) : s.takeBit.2.bad = s.bad := rfl
@[simp] theorem State.takeBit_dir (s : State) : s.takeBit.2.dir = s.dir := rfl
@[simp] theorem State.takeBit_l2 (s : State) : s.takeBit.2.l2 = s.l2 := rfl
@[simp] theorem State.takeBit_coh (s : State) : s.takeBit.2.coh = s.coh := rfl
@[simp] theorem State.takeBit_replicas (s : State) : s.takeBit.2.replicas = s.replicas := rfl
@[simp] theorem State.takeBit_code (s : State) : s.takeBit.2.code = s.code := rfl
@[simp] theorem State.takeBit_net (s : State) : s.takeBit.2.net = s.net := rfl
@[simp] theorem State.takeBit_reps (s : State) : s.takeBit.2.reps = s.reps := rfl
@[simp] theorem State.takeBit_recs (s : State) : s.takeBit.2.recs = s.recs := rfl
@[simp] theorem State.takeBit_answers (s : State) : s.takeBit.2.answers = s.answers := rfl
@[simp] theorem State.takeBit_pushes (s : State) : s.takeBit.2.pushes = s.pushes := rfl
@[simp] theorem State.takeBit_tiles (s : State) : s.takeBit.2.tiles = s.tiles := rfl
@[simp] theorem State.takeBit_subs (s : State) : s.takeBit.2.subs = s.subs := rfl
@[simp] theorem State.takeBit_groups (s : State) : s.takeBit.2.groups = s.groups := rfl
@[simp] theorem State.takeBit_teams (s : State) : s.takeBit.2.teams = s.teams := rfl
@[simp] theorem State.takeBit_clusters (s : State) : s.takeBit.2.clusters = s.clusters := rfl
@[simp] theorem State.takeBit_launches (s : State) : s.takeBit.2.launches = s.launches := rfl
@[simp] theorem State.takeBit_accs (s : State) : s.takeBit.2.accs = s.accs := rfl
@[simp] theorem State.takeBit_copies (s : State) : s.takeBit.2.copies = s.copies := rfl
@[simp] theorem State.takeBit_mcasts (s : State) : s.takeBit.2.mcasts = s.mcasts := rfl
@[simp] theorem State.takeBit_fences (s : State) : s.takeBit.2.fences = s.fences := rfl
@[simp] theorem State.takeBit_tlbis (s : State) : s.takeBit.2.tlbis = s.tlbis := rfl
@[simp] theorem State.takeBit_arrivals (s : State) : s.takeBit.2.arrivals = s.arrivals := rfl
@[simp] theorem State.takeBit_releases (s : State) : s.takeBit.2.releases = s.releases := rfl
@[simp] theorem State.takeBit_dist (s : State) : s.takeBit.2.dist = s.dist := rfl
@[simp] theorem State.takeBit_fq (s : State) : s.takeBit.2.fq = s.fq := rfl
@[simp] theorem State.takeBit_sensors (s : State) : s.takeBit.2.sensors = s.sensors := rfl
@[simp] theorem State.takeBit_sm (s : State) : s.takeBit.2.sm = s.sm := rfl
@[simp] theorem State.takeBit_dev (s : State) : s.takeBit.2.dev = s.dev := rfl
@[simp] theorem State.takeBit_ports (s : State) : s.takeBit.2.ports = s.ports := rfl
@[simp] theorem State.takeBit_att (s : State) : s.takeBit.2.att = s.att := rfl
@[simp] theorem State.takeBit_mons (s : State) : s.takeBit.2.mons = s.mons := rfl
@[simp] theorem State.takeBit_agenda (s : State) : s.takeBit.2.agenda = s.agenda := rfl
@[simp] theorem State.takeBit_held (s : State) : s.takeBit.2.held = s.held := rfl
@[simp] theorem State.takeBit_cur (s : State) : s.takeBit.2.cur = s.cur := rfl
@[simp] theorem State.takeBit_nextId (s : State) : s.takeBit.2.nextId = s.nextId := rfl
@[simp] theorem State.takeBit_counts (s : State) : s.takeBit.2.free = s.free + 1 := rfl

/-! ### fresh -/

@[simp] theorem State.fresh_mem (s : State) : s.fresh.2.mem = s.mem := rfl
@[simp] theorem State.fresh_descs (s : State) : s.fresh.2.descs = s.descs := rfl
@[simp] theorem State.fresh_bad (s : State) : s.fresh.2.bad = s.bad := rfl
@[simp] theorem State.fresh_dir (s : State) : s.fresh.2.dir = s.dir := rfl
@[simp] theorem State.fresh_l2 (s : State) : s.fresh.2.l2 = s.l2 := rfl
@[simp] theorem State.fresh_coh (s : State) : s.fresh.2.coh = s.coh := rfl
@[simp] theorem State.fresh_replicas (s : State) : s.fresh.2.replicas = s.replicas := rfl
@[simp] theorem State.fresh_code (s : State) : s.fresh.2.code = s.code := rfl
@[simp] theorem State.fresh_net (s : State) : s.fresh.2.net = s.net := rfl
@[simp] theorem State.fresh_reps (s : State) : s.fresh.2.reps = s.reps := rfl
@[simp] theorem State.fresh_recs (s : State) : s.fresh.2.recs = s.recs := rfl
@[simp] theorem State.fresh_answers (s : State) : s.fresh.2.answers = s.answers := rfl
@[simp] theorem State.fresh_pushes (s : State) : s.fresh.2.pushes = s.pushes := rfl
@[simp] theorem State.fresh_tiles (s : State) : s.fresh.2.tiles = s.tiles := rfl
@[simp] theorem State.fresh_subs (s : State) : s.fresh.2.subs = s.subs := rfl
@[simp] theorem State.fresh_groups (s : State) : s.fresh.2.groups = s.groups := rfl
@[simp] theorem State.fresh_teams (s : State) : s.fresh.2.teams = s.teams := rfl
@[simp] theorem State.fresh_clusters (s : State) : s.fresh.2.clusters = s.clusters := rfl
@[simp] theorem State.fresh_launches (s : State) : s.fresh.2.launches = s.launches := rfl
@[simp] theorem State.fresh_accs (s : State) : s.fresh.2.accs = s.accs := rfl
@[simp] theorem State.fresh_copies (s : State) : s.fresh.2.copies = s.copies := rfl
@[simp] theorem State.fresh_mcasts (s : State) : s.fresh.2.mcasts = s.mcasts := rfl
@[simp] theorem State.fresh_fences (s : State) : s.fresh.2.fences = s.fences := rfl
@[simp] theorem State.fresh_tlbis (s : State) : s.fresh.2.tlbis = s.tlbis := rfl
@[simp] theorem State.fresh_arrivals (s : State) : s.fresh.2.arrivals = s.arrivals := rfl
@[simp] theorem State.fresh_releases (s : State) : s.fresh.2.releases = s.releases := rfl
@[simp] theorem State.fresh_dist (s : State) : s.fresh.2.dist = s.dist := rfl
@[simp] theorem State.fresh_fq (s : State) : s.fresh.2.fq = s.fq := rfl
@[simp] theorem State.fresh_sensors (s : State) : s.fresh.2.sensors = s.sensors := rfl
@[simp] theorem State.fresh_sm (s : State) : s.fresh.2.sm = s.sm := rfl
@[simp] theorem State.fresh_dev (s : State) : s.fresh.2.dev = s.dev := rfl
@[simp] theorem State.fresh_ports (s : State) : s.fresh.2.ports = s.ports := rfl
@[simp] theorem State.fresh_att (s : State) : s.fresh.2.att = s.att := rfl
@[simp] theorem State.fresh_mons (s : State) : s.fresh.2.mons = s.mons := rfl
@[simp] theorem State.fresh_agenda (s : State) : s.fresh.2.agenda = s.agenda := rfl
@[simp] theorem State.fresh_held (s : State) : s.fresh.2.held = s.held := rfl
@[simp] theorem State.fresh_cur (s : State) : s.fresh.2.cur = s.cur := rfl
@[simp] theorem State.fresh_free (s : State) : s.fresh.2.free = s.free := rfl
@[simp] theorem State.fresh_counts (s : State) : s.fresh.2.nextId = s.nextId + 1 := rfl

/-! ### Advancing, waiting and parting of a group -/

@[simp] theorem Group.mapSlices_team (g : Group) (m : BitVec 8) (f : Nat → Slice → Slice) : (g.mapSlices m f).team = g.team := rfl
@[simp] theorem Group.mapSlices_idx (g : Group) (m : BitVec 8) (f : Nat → Slice → Slice) : (g.mapSlices m f).idx = g.idx := rfl
@[simp] theorem Group.mapSlices_level (g : Group) (m : BitVec 8) (f : Nat → Slice → Slice) : (g.mapSlices m f).level = g.level := rfl
@[simp] theorem Group.mapSlices_regs (g : Group) (m : BitVec 8) (f : Nat → Slice → Slice) : (g.mapSlices m f).regs = g.regs := rfl
@[simp] theorem Group.mapSlices_accN (g : Group) (m : BitVec 8) (f : Nat → Slice → Slice) : (g.mapSlices m f).accN = g.accN := rfl
@[simp] theorem Group.mapSlices_gangs (g : Group) (m : BitVec 8) (f : Nat → Slice → Slice) : (g.mapSlices m f).gangs = g.gangs := rfl
@[simp] theorem Group.mapSlices_turn (g : Group) (m : BitVec 8) (f : Nat → Slice → Slice) : (g.mapSlices m f).turn = g.turn := rfl
@[simp] theorem Group.mapSlices_stay (g : Group) (m : BitVec 8) (f : Nat → Slice → Slice) : (g.mapSlices m f).stay = g.stay := rfl
@[simp] theorem Group.mapSlices_v (g : Group) (m : BitVec 8) (f : Nat → Slice → Slice) : (g.mapSlices m f).v = g.v := rfl
@[simp] theorem Group.mapSlices_p (g : Group) (m : BitVec 8) (f : Nat → Slice → Slice) : (g.mapSlices m f).p = g.p := rfl
@[simp] theorem Group.mapSlices_g (g : Group) (m : BitVec 8) (f : Nat → Slice → Slice) : (g.mapSlices m f).g = g.g := rfl
@[simp] theorem Group.mapSlices_gc (g : Group) (m : BitVec 8) (f : Nat → Slice → Slice) : (g.mapSlices m f).gc = g.gc := rfl
@[simp] theorem Group.mapSlices_b (g : Group) (m : BitVec 8) (f : Nat → Slice → Slice) : (g.mapSlices m f).b = g.b := rfl
@[simp] theorem Group.mapSlices_lfm (g : Group) (m : BitVec 8) (f : Nat → Slice → Slice) : (g.mapSlices m f).lfm = g.lfm := rfl
@[simp] theorem Group.mapSlices_shadow (g : Group) (m : BitVec 8) (f : Nat → Slice → Slice) : (g.mapSlices m f).shadow = g.shadow := rfl
@[simp] theorem Group.mapSlices_tcause (g : Group) (m : BitVec 8) (f : Nat → Slice → Slice) : (g.mapSlices m f).tcause = g.tcause := rfl
@[simp] theorem Group.mapSlices_tpc (g : Group) (m : BitVec 8) (f : Nat → Slice → Slice) : (g.mapSlices m f).tpc = g.tpc := rfl
@[simp] theorem Group.mapSlices_tinfo (g : Group) (m : BitVec 8) (f : Nat → Slice → Slice) : (g.mapSlices m f).tinfo = g.tinfo := rfl
@[simp] theorem Group.mapSlices_tscratch (g : Group) (m : BitVec 8) (f : Nat → Slice → Slice) : (g.mapSlices m f).tscratch = g.tscratch := rfl
@[simp] theorem Group.mapSlices_tstate (g : Group) (m : BitVec 8) (f : Nat → Slice → Slice) : (g.mapSlices m f).tstate = g.tstate := rfl
@[simp] theorem Group.mapSlices_accsel (g : Group) (m : BitVec 8) (f : Nat → Slice → Slice) : (g.mapSlices m f).accsel = g.accsel := rfl
@[simp] theorem Group.mapSlices_cohaddr (g : Group) (m : BitVec 8) (f : Nat → Slice → Slice) : (g.mapSlices m f).cohaddr = g.cohaddr := rfl
@[simp] theorem Group.mapSlices_qseq (g : Group) (m : BitVec 8) (f : Nat → Slice → Slice) : (g.mapSlices m f).qseq = g.qseq := rfl
@[simp] theorem Group.mapSlices_rv (g : Group) (m : BitVec 8) (f : Nat → Slice → Slice) : (g.mapSlices m f).rv = g.rv := rfl
@[simp] theorem Group.mapSlices_phys (g : Group) (m : BitVec 8) (f : Nat → Slice → Slice) : (g.mapSlices m f).phys = g.phys := rfl
@[simp] theorem Group.mapSlices_place (g : Group) (m : BitVec 8) (f : Nat → Slice → Slice) : (g.mapSlices m f).place = g.place := rfl
@[simp] theorem Group.mapSlices_age (g : Group) (m : BitVec 8) (f : Nat → Slice → Slice) : (g.mapSlices m f).age = g.age := rfl
@[simp] theorem Group.mapSlices_since (g : Group) (m : BitVec 8) (f : Nat → Slice → Slice) : (g.mapSlices m f).since = g.since := rfl
@[simp] theorem Group.mapSlices_pend (g : Group) (m : BitVec 8) (f : Nat → Slice → Slice) : (g.mapSlices m f).pend = g.pend := rfl
@[simp] theorem Group.mapSlices_inAccFirst (g : Group) (m : BitVec 8) (f : Nat → Slice → Slice) : (g.mapSlices m f).inAccFirst = g.inAccFirst := rfl
@[simp] theorem Group.mapSlices_stopped (g : Group) (m : BitVec 8) (f : Nat → Slice → Slice) : (g.mapSlices m f).stopped = g.stopped := rfl
@[simp] theorem Group.mapSlices_preempting (g : Group) (m : BitVec 8) (f : Nat → Slice → Slice) : (g.mapSlices m f).preempting = g.preempting := rfl
@[simp] theorem Group.mapSlices_slicing (g : Group) (m : BitVec 8) (f : Nat → Slice → Slice) : (g.mapSlices m f).slicing = g.slicing := rfl
@[simp] theorem Group.mapSlices_mapAns (g : Group) (m : BitVec 8) (f : Nat → Slice → Slice) : (g.mapSlices m f).mapAns = g.mapAns := rfl
@[simp] theorem Group.mapSlices_saveLost (g : Group) (m : BitVec 8) (f : Nat → Slice → Slice) : (g.mapSlices m f).saveLost = g.saveLost := rfl
@[simp] theorem Group.mapSlices_ended (g : Group) (m : BitVec 8) (f : Nat → Slice → Slice) : (g.mapSlices m f).ended = g.ended := rfl

@[simp] theorem Group.setWait_team (g : Group) (m : BitVec 8) (w : Wait) : (g.setWait m w).team = g.team := rfl
@[simp] theorem Group.setWait_idx (g : Group) (m : BitVec 8) (w : Wait) : (g.setWait m w).idx = g.idx := rfl
@[simp] theorem Group.setWait_level (g : Group) (m : BitVec 8) (w : Wait) : (g.setWait m w).level = g.level := rfl
@[simp] theorem Group.setWait_regs (g : Group) (m : BitVec 8) (w : Wait) : (g.setWait m w).regs = g.regs := rfl
@[simp] theorem Group.setWait_accN (g : Group) (m : BitVec 8) (w : Wait) : (g.setWait m w).accN = g.accN := rfl
@[simp] theorem Group.setWait_slices (g : Group) (m : BitVec 8) (w : Wait) : (g.setWait m w).slices = g.slices := rfl
@[simp] theorem Group.setWait_turn (g : Group) (m : BitVec 8) (w : Wait) : (g.setWait m w).turn = g.turn := rfl
@[simp] theorem Group.setWait_stay (g : Group) (m : BitVec 8) (w : Wait) : (g.setWait m w).stay = g.stay := rfl
@[simp] theorem Group.setWait_v (g : Group) (m : BitVec 8) (w : Wait) : (g.setWait m w).v = g.v := rfl
@[simp] theorem Group.setWait_p (g : Group) (m : BitVec 8) (w : Wait) : (g.setWait m w).p = g.p := rfl
@[simp] theorem Group.setWait_g (g : Group) (m : BitVec 8) (w : Wait) : (g.setWait m w).g = g.g := rfl
@[simp] theorem Group.setWait_gc (g : Group) (m : BitVec 8) (w : Wait) : (g.setWait m w).gc = g.gc := rfl
@[simp] theorem Group.setWait_b (g : Group) (m : BitVec 8) (w : Wait) : (g.setWait m w).b = g.b := rfl
@[simp] theorem Group.setWait_lfm (g : Group) (m : BitVec 8) (w : Wait) : (g.setWait m w).lfm = g.lfm := rfl
@[simp] theorem Group.setWait_shadow (g : Group) (m : BitVec 8) (w : Wait) : (g.setWait m w).shadow = g.shadow := rfl
@[simp] theorem Group.setWait_tcause (g : Group) (m : BitVec 8) (w : Wait) : (g.setWait m w).tcause = g.tcause := rfl
@[simp] theorem Group.setWait_tpc (g : Group) (m : BitVec 8) (w : Wait) : (g.setWait m w).tpc = g.tpc := rfl
@[simp] theorem Group.setWait_tinfo (g : Group) (m : BitVec 8) (w : Wait) : (g.setWait m w).tinfo = g.tinfo := rfl
@[simp] theorem Group.setWait_tscratch (g : Group) (m : BitVec 8) (w : Wait) : (g.setWait m w).tscratch = g.tscratch := rfl
@[simp] theorem Group.setWait_tstate (g : Group) (m : BitVec 8) (w : Wait) : (g.setWait m w).tstate = g.tstate := rfl
@[simp] theorem Group.setWait_accsel (g : Group) (m : BitVec 8) (w : Wait) : (g.setWait m w).accsel = g.accsel := rfl
@[simp] theorem Group.setWait_cohaddr (g : Group) (m : BitVec 8) (w : Wait) : (g.setWait m w).cohaddr = g.cohaddr := rfl
@[simp] theorem Group.setWait_qseq (g : Group) (m : BitVec 8) (w : Wait) : (g.setWait m w).qseq = g.qseq := rfl
@[simp] theorem Group.setWait_rv (g : Group) (m : BitVec 8) (w : Wait) : (g.setWait m w).rv = g.rv := rfl
@[simp] theorem Group.setWait_phys (g : Group) (m : BitVec 8) (w : Wait) : (g.setWait m w).phys = g.phys := rfl
@[simp] theorem Group.setWait_place (g : Group) (m : BitVec 8) (w : Wait) : (g.setWait m w).place = g.place := rfl
@[simp] theorem Group.setWait_age (g : Group) (m : BitVec 8) (w : Wait) : (g.setWait m w).age = g.age := rfl
@[simp] theorem Group.setWait_since (g : Group) (m : BitVec 8) (w : Wait) : (g.setWait m w).since = g.since := rfl
@[simp] theorem Group.setWait_pend (g : Group) (m : BitVec 8) (w : Wait) : (g.setWait m w).pend = g.pend := rfl
@[simp] theorem Group.setWait_inAccFirst (g : Group) (m : BitVec 8) (w : Wait) : (g.setWait m w).inAccFirst = g.inAccFirst := rfl
@[simp] theorem Group.setWait_stopped (g : Group) (m : BitVec 8) (w : Wait) : (g.setWait m w).stopped = g.stopped := rfl
@[simp] theorem Group.setWait_preempting (g : Group) (m : BitVec 8) (w : Wait) : (g.setWait m w).preempting = g.preempting := rfl
@[simp] theorem Group.setWait_slicing (g : Group) (m : BitVec 8) (w : Wait) : (g.setWait m w).slicing = g.slicing := rfl
@[simp] theorem Group.setWait_mapAns (g : Group) (m : BitVec 8) (w : Wait) : (g.setWait m w).mapAns = g.mapAns := rfl
@[simp] theorem Group.setWait_saveLost (g : Group) (m : BitVec 8) (w : Wait) : (g.setWait m w).saveLost = g.saveLost := rfl
@[simp] theorem Group.setWait_ended (g : Group) (m : BitVec 8) (w : Wait) : (g.setWait m w).ended = g.ended := rfl

@[simp] theorem Group.advance_team (g : Group) (m : BitVec 8) (n : Nat) : (g.advance m n).team = g.team := rfl
@[simp] theorem Group.advance_idx (g : Group) (m : BitVec 8) (n : Nat) : (g.advance m n).idx = g.idx := rfl
@[simp] theorem Group.advance_level (g : Group) (m : BitVec 8) (n : Nat) : (g.advance m n).level = g.level := rfl
@[simp] theorem Group.advance_regs (g : Group) (m : BitVec 8) (n : Nat) : (g.advance m n).regs = g.regs := rfl
@[simp] theorem Group.advance_accN (g : Group) (m : BitVec 8) (n : Nat) : (g.advance m n).accN = g.accN := rfl
@[simp] theorem Group.advance_gangs (g : Group) (m : BitVec 8) (n : Nat) : (g.advance m n).gangs = g.gangs := rfl
@[simp] theorem Group.advance_turn (g : Group) (m : BitVec 8) (n : Nat) : (g.advance m n).turn = g.turn := rfl
@[simp] theorem Group.advance_stay (g : Group) (m : BitVec 8) (n : Nat) : (g.advance m n).stay = g.stay := rfl
@[simp] theorem Group.advance_v (g : Group) (m : BitVec 8) (n : Nat) : (g.advance m n).v = g.v := rfl
@[simp] theorem Group.advance_p (g : Group) (m : BitVec 8) (n : Nat) : (g.advance m n).p = g.p := rfl
@[simp] theorem Group.advance_g (g : Group) (m : BitVec 8) (n : Nat) : (g.advance m n).g = g.g := rfl
@[simp] theorem Group.advance_gc (g : Group) (m : BitVec 8) (n : Nat) : (g.advance m n).gc = g.gc := rfl
@[simp] theorem Group.advance_b (g : Group) (m : BitVec 8) (n : Nat) : (g.advance m n).b = g.b := rfl
@[simp] theorem Group.advance_lfm (g : Group) (m : BitVec 8) (n : Nat) : (g.advance m n).lfm = g.lfm := rfl
@[simp] theorem Group.advance_shadow (g : Group) (m : BitVec 8) (n : Nat) : (g.advance m n).shadow = g.shadow := rfl
@[simp] theorem Group.advance_tcause (g : Group) (m : BitVec 8) (n : Nat) : (g.advance m n).tcause = g.tcause := rfl
@[simp] theorem Group.advance_tpc (g : Group) (m : BitVec 8) (n : Nat) : (g.advance m n).tpc = g.tpc := rfl
@[simp] theorem Group.advance_tinfo (g : Group) (m : BitVec 8) (n : Nat) : (g.advance m n).tinfo = g.tinfo := rfl
@[simp] theorem Group.advance_tscratch (g : Group) (m : BitVec 8) (n : Nat) : (g.advance m n).tscratch = g.tscratch := rfl
@[simp] theorem Group.advance_tstate (g : Group) (m : BitVec 8) (n : Nat) : (g.advance m n).tstate = g.tstate := rfl
@[simp] theorem Group.advance_accsel (g : Group) (m : BitVec 8) (n : Nat) : (g.advance m n).accsel = g.accsel := rfl
@[simp] theorem Group.advance_cohaddr (g : Group) (m : BitVec 8) (n : Nat) : (g.advance m n).cohaddr = g.cohaddr := rfl
@[simp] theorem Group.advance_qseq (g : Group) (m : BitVec 8) (n : Nat) : (g.advance m n).qseq = g.qseq := rfl
@[simp] theorem Group.advance_rv (g : Group) (m : BitVec 8) (n : Nat) : (g.advance m n).rv = g.rv := rfl
@[simp] theorem Group.advance_phys (g : Group) (m : BitVec 8) (n : Nat) : (g.advance m n).phys = g.phys := rfl
@[simp] theorem Group.advance_place (g : Group) (m : BitVec 8) (n : Nat) : (g.advance m n).place = g.place := rfl
@[simp] theorem Group.advance_age (g : Group) (m : BitVec 8) (n : Nat) : (g.advance m n).age = g.age := rfl
@[simp] theorem Group.advance_since (g : Group) (m : BitVec 8) (n : Nat) : (g.advance m n).since = g.since := rfl
@[simp] theorem Group.advance_pend (g : Group) (m : BitVec 8) (n : Nat) : (g.advance m n).pend = g.pend := rfl
@[simp] theorem Group.advance_inAccFirst (g : Group) (m : BitVec 8) (n : Nat) : (g.advance m n).inAccFirst = g.inAccFirst := rfl
@[simp] theorem Group.advance_stopped (g : Group) (m : BitVec 8) (n : Nat) : (g.advance m n).stopped = g.stopped := rfl
@[simp] theorem Group.advance_preempting (g : Group) (m : BitVec 8) (n : Nat) : (g.advance m n).preempting = g.preempting := rfl
@[simp] theorem Group.advance_slicing (g : Group) (m : BitVec 8) (n : Nat) : (g.advance m n).slicing = g.slicing := rfl
@[simp] theorem Group.advance_mapAns (g : Group) (m : BitVec 8) (n : Nat) : (g.advance m n).mapAns = g.mapAns := rfl
@[simp] theorem Group.advance_saveLost (g : Group) (m : BitVec 8) (n : Nat) : (g.advance m n).saveLost = g.saveLost := rfl
@[simp] theorem Group.advance_ended (g : Group) (m : BitVec 8) (n : Nat) : (g.advance m n).ended = g.ended := rfl

@[simp] theorem Group.part_team (g : Group) (m : BitVec 8) : (g.part m).team = g.team := rfl
@[simp] theorem Group.part_idx (g : Group) (m : BitVec 8) : (g.part m).idx = g.idx := rfl
@[simp] theorem Group.part_level (g : Group) (m : BitVec 8) : (g.part m).level = g.level := rfl
@[simp] theorem Group.part_regs (g : Group) (m : BitVec 8) : (g.part m).regs = g.regs := rfl
@[simp] theorem Group.part_accN (g : Group) (m : BitVec 8) : (g.part m).accN = g.accN := rfl
@[simp] theorem Group.part_slices (g : Group) (m : BitVec 8) : (g.part m).slices = g.slices := rfl
@[simp] theorem Group.part_turn (g : Group) (m : BitVec 8) : (g.part m).turn = g.turn := rfl
@[simp] theorem Group.part_stay (g : Group) (m : BitVec 8) : (g.part m).stay = g.stay := rfl
@[simp] theorem Group.part_v (g : Group) (m : BitVec 8) : (g.part m).v = g.v := rfl
@[simp] theorem Group.part_p (g : Group) (m : BitVec 8) : (g.part m).p = g.p := rfl
@[simp] theorem Group.part_g (g : Group) (m : BitVec 8) : (g.part m).g = g.g := rfl
@[simp] theorem Group.part_gc (g : Group) (m : BitVec 8) : (g.part m).gc = g.gc := rfl
@[simp] theorem Group.part_b (g : Group) (m : BitVec 8) : (g.part m).b = g.b := rfl
@[simp] theorem Group.part_lfm (g : Group) (m : BitVec 8) : (g.part m).lfm = g.lfm := rfl
@[simp] theorem Group.part_shadow (g : Group) (m : BitVec 8) : (g.part m).shadow = g.shadow := rfl
@[simp] theorem Group.part_tcause (g : Group) (m : BitVec 8) : (g.part m).tcause = g.tcause := rfl
@[simp] theorem Group.part_tpc (g : Group) (m : BitVec 8) : (g.part m).tpc = g.tpc := rfl
@[simp] theorem Group.part_tinfo (g : Group) (m : BitVec 8) : (g.part m).tinfo = g.tinfo := rfl
@[simp] theorem Group.part_tscratch (g : Group) (m : BitVec 8) : (g.part m).tscratch = g.tscratch := rfl
@[simp] theorem Group.part_tstate (g : Group) (m : BitVec 8) : (g.part m).tstate = g.tstate := rfl
@[simp] theorem Group.part_accsel (g : Group) (m : BitVec 8) : (g.part m).accsel = g.accsel := rfl
@[simp] theorem Group.part_cohaddr (g : Group) (m : BitVec 8) : (g.part m).cohaddr = g.cohaddr := rfl
@[simp] theorem Group.part_qseq (g : Group) (m : BitVec 8) : (g.part m).qseq = g.qseq := rfl
@[simp] theorem Group.part_rv (g : Group) (m : BitVec 8) : (g.part m).rv = g.rv := rfl
@[simp] theorem Group.part_phys (g : Group) (m : BitVec 8) : (g.part m).phys = g.phys := rfl
@[simp] theorem Group.part_place (g : Group) (m : BitVec 8) : (g.part m).place = g.place := rfl
@[simp] theorem Group.part_age (g : Group) (m : BitVec 8) : (g.part m).age = g.age := rfl
@[simp] theorem Group.part_since (g : Group) (m : BitVec 8) : (g.part m).since = g.since := rfl
@[simp] theorem Group.part_pend (g : Group) (m : BitVec 8) : (g.part m).pend = g.pend := rfl
@[simp] theorem Group.part_inAccFirst (g : Group) (m : BitVec 8) : (g.part m).inAccFirst = g.inAccFirst := rfl
@[simp] theorem Group.part_stopped (g : Group) (m : BitVec 8) : (g.part m).stopped = g.stopped := rfl
@[simp] theorem Group.part_preempting (g : Group) (m : BitVec 8) : (g.part m).preempting = g.preempting := rfl
@[simp] theorem Group.part_slicing (g : Group) (m : BitVec 8) : (g.part m).slicing = g.slicing := rfl
@[simp] theorem Group.part_mapAns (g : Group) (m : BitVec 8) : (g.part m).mapAns = g.mapAns := rfl
@[simp] theorem Group.part_saveLost (g : Group) (m : BitVec 8) : (g.part m).saveLost = g.saveLost := rfl
@[simp] theorem Group.part_ended (g : Group) (m : BitVec 8) : (g.part m).ended = g.ended := rfl

/-! ### Reading a part back -/

@[simp] theorem State.group_setGroup (s : State) (i : Nat) (x : Group) : (s.setGroup i x).group i = x := by
  simp [State.group, State.setGroup]

theorem State.group_setGroup_ne (s : State) {i j : Nat} (x : Group) (h : j ≠ i) : (s.setGroup i x).group j = s.group j := by
  simp [State.group, State.setGroup, Table.getD_set_ne _ _ _ h]

theorem State.group_modGroup (s : State) {i : Nat} {g : Group} (f : Group → Group) (h : s.groups.get? i = some g) :
    (s.modGroup i f).group i = f (s.group i) :=
  Table.getD_alter_self _ f _ h

theorem State.group_modGroup_ne (s : State) {i j : Nat} (f : Group → Group) (h : j ≠ i) :
    (s.modGroup i f).group j = s.group j :=
  Table.getD_alter_ne _ f _ h

@[simp] theorem State.team_setTeam (s : State) (i : Nat) (x : Team) : (s.setTeam i x).team i = x := by
  simp [State.team, State.setTeam]

theorem State.team_setTeam_ne (s : State) {i j : Nat} (x : Team) (h : j ≠ i) : (s.setTeam i x).team j = s.team j := by
  simp [State.team, State.setTeam, Table.getD_set_ne _ _ _ h]

@[simp] theorem State.tile_setTile (s : State) (i : Nat) (x : Tile) : (s.setTile i x).tile i = x := by
  simp [State.tile, State.setTile]

theorem State.tile_setTile_ne (s : State) {i j : Nat} (x : Tile) (h : j ≠ i) : (s.setTile i x).tile j = s.tile j := by
  simp [State.tile, State.setTile, Table.getD_set_ne _ _ _ h]

@[simp] theorem State.tile_modTile (s : State) (i : Nat) (f : Tile → Tile) : (s.modTile i f).tile i = f (s.tile i) := by
  simp [State.modTile]

theorem State.tile_modTile_ne (s : State) {i j : Nat} (f : Tile → Tile) (h : j ≠ i) :
    (s.modTile i f).tile j = s.tile j :=
  State.tile_setTile_ne s _ h

@[simp] theorem State.sub_setSub (s : State) (i q : Nat) (x : SubCore) : (s.setSub i q x).sub i q = x := by
  simp [State.sub, State.setSub]

@[simp] theorem State.sub_modSub (s : State) (i q : Nat) (f : SubCore → SubCore) :
    (s.modSub i q f).sub i q = f (s.sub i q) := by
  simp [State.modSub]

end Sys2Proof.Machine
end

