-- ==== Sys2Proof/Laws/Issue.lean ====
section
/-! SUPPORT. Laws of issuing: a ready instruction comes to its body with only its sub-gang's wait ended, and every read
gives what it gave before. -/

namespace Sys2Proof.Machine

/-- The state in which the body of a ready instruction runs: its sub-gang waits for nothing. -/
abbrev State.woken (s : State) : State := s.modCur fun g => g.setWait s.cur.slices .none

theorem State.curG_modCur (s : State) (f : Group → Group) (h : s.groups.get? s.cur.gid ≠ none) :
    (s.modCur f).curG = f s.curG := by
  obtain ⟨g, hg⟩ := Option.ne_none_iff_exists'.mp h
  exact State.group_modGroup s f hg

theorem State.curG_woken {s : State} (h : s.groups.get? s.cur.gid ≠ none) :
    s.woken.curG = s.curG.setWait s.cur.slices .none := State.curG_modCur s _ h

theorem State.curT_woken {s : State} (h : s.groups.get? s.cur.gid ≠ none) : s.woken.curT = s.curT := by
  unfold State.curT
  rw [State.curG_woken h]
  rfl

theorem State.src_woken {s : State} (h : s.groups.get? s.cur.gid ≠ none) (hd : Hdr) (e : Expand) (x : Spec) (l : Nat) :
    s.woken.src hd e x l = s.src hd e x l := by
  unfold State.src
  rw [State.curG_woken h, State.curT_woken h]
  cases x <;> rfl

theorem State.srcP_woken {s : State} (h : s.groups.get? s.cur.gid ≠ none) (x : Spec) (l : Nat) :
    s.woken.srcP x l = s.srcP x l := by
  unfold State.srcP
  rw [State.curG_woken h]
  cases x <;> rfl

theorem State.record_woken {s : State} (h : s.groups.get? s.cur.gid ≠ none) (x : Spec) :
    s.woken.record x = s.record x := by
  unfold State.record
  rw [State.curG_woken h]
  cases x <;> rfl

theorem State.leader_woken {s : State} (h : s.groups.get? s.cur.gid ≠ none) : s.woken.leader = s.leader := by
  unfold State.leader
  rw [State.curG_woken h]
  rfl

theorem State.uniform_woken {s : State} (h : s.groups.get? s.cur.gid ≠ none) (hd : Hdr) :
    s.woken.uniform hd = s.uniform hd := by
  unfold State.uniform
  rw [State.leader_woken h, State.curG_woken h]
  rfl

theorem State.actLanes_woken {s : State} (h : s.groups.get? s.cur.gid ≠ none) (hd : Hdr) :
    s.woken.actLanes hd = s.actLanes hd := by
  unfold State.actLanes
  rw [State.curG_woken h]
  rfl

theorem State.resultLanes_woken {s : State} (h : s.groups.get? s.cur.gid ≠ none) (hd : Hdr) (d : Spec) :
    s.woken.resultLanes hd d = s.resultLanes hd d := by
  unfold State.resultLanes
  rw [State.actLanes_woken h, State.uniform_woken h, State.curG_woken h]
  cases d <;> rfl

theorem State.leaderSrc_woken {s : State} (h : s.groups.get? s.cur.gid ≠ none) (hd : Hdr) (e : Expand) (x : Spec) :
    s.woken.leaderSrc hd e x = s.leaderSrc hd e x := by
  unfold State.leaderSrc
  rw [State.leader_woken h, State.src_woken h]

theorem State.foldLanes_woken {s : State} (h : s.groups.get? s.cur.gid ≠ none) (hd : Hdr) (d : Spec) :
    s.woken.foldLanes hd d = s.foldLanes hd d := by
  unfold State.foldLanes
  rw [State.actLanes_woken h, State.uniform_woken h, State.curG_woken h]
  cases d <;> rfl

/-- No error in any source is none in those that an instruction reads. -/
theorem State.badSource_of_all {s : State} {h : Hdr} {src : List Spec} (hs : s.badSource h src true = none) (e g : Bool) :
    s.badSource h src e g = none := by
  simp only [State.badSource, State.badReg, List.find?_eq_none, List.mem_append, if_true, Bool.not_true, Bool.false_or] at hs ⊢
  intro x hx
  refine hs x (hx.imp (fun h => ?_) fun h => ?_)
  · cases g
    · simp at h
    · simpa using h
  · cases e
    · simp at h
    · simpa using h

theorem State.regPlace_woken {s : State} (h : s.groups.get? s.cur.gid ≠ none) (r : Spec) :
    s.woken.regPlace s.cur.gid r = s.regPlace s.cur.gid r := by
  have hg : s.woken.group s.cur.gid = s.curG.setWait s.cur.slices .none := State.curG_woken h
  unfold State.regPlace
  rw [hg]
  cases r <;> rfl

theorem State.badReg_woken {s : State} (h : s.groups.get? s.cur.gid ≠ none) (regs : List Spec) :
    s.woken.badReg regs = s.badReg regs := by
  have hg : s.woken.group s.cur.gid = s.curG.setWait s.cur.slices .none := State.curG_woken h
  have ho (r : Spec) : s.woken.ownCopy s.cur.gid r = s.ownCopy s.cur.gid r := by
    unfold State.ownCopy
    rw [hg]
    cases r <;> rfl
  unfold State.badReg
  exact List.find?_congr fun r _ => by
    show (!s.woken.ownCopy s.cur.gid r && s.isBad (s.woken.regPlace s.cur.gid r)) = _
    rw [ho, State.regPlace_woken h]

theorem State.badSource_woken {s : State} (h : s.groups.get? s.cur.gid ≠ none) (hd : Hdr) (src : List Spec) (e g : Bool) :
    s.woken.badSource hd src e g = s.badSource hd src e g := by
  unfold State.badSource
  rw [State.curG_woken h, State.badReg_woken h]
  rfl

/-- A ready instruction whose own checks pass comes to its body. -/
theorem issueWith_ready {pre : State → Option (Cause × W64)} {h : Hdr} {dst src : List Spec} {s : State}
    (hr : Ready h dst src s) (hp : pre s = none) (body : State → Res) (eff gd : State → Bool) :
    issueWith pre h dst src s body eff gd = .next ((body s.woken).finish h s.curPc) := by
  have hg : (dst ++ src).any s.curG.refuses = false :=
    List.any_eq_false.mpr fun r hm => by simp [hr.granted r hm]
  have hb : s.woken.badSource h src (eff s.woken) (gd s.woken) = none := by
    rw [State.badSource_woken hr.listed]
    exact State.badSource_of_all hr.sound _ _
  unfold issueWith
  simp only [hg, hp, hr.tokens, hr.board, Bool.not_true]
  simp only [Bool.false_eq_true, if_false]
  simp only [hb]

theorem issue_ready {h : Hdr} {dst src : List Spec} {s : State} (hr : Ready h dst src s) (body : State → Res)
    (eff : State → Bool) : issue h dst src s body eff = .next ((body s.woken).finish h s.curPc) :=
  issueWith_ready hr rfl body eff _

/-! ### Slices and sub-gangs -/

theorem maskOf_bit (l : List Nat) (i : Nat) (h : i < 8) : (maskOf l).getLsbD i = decide (i ∈ l) := by
  suffices H : ∀ m : BitVec 8, (l.foldl (fun m i => m ||| BitVec.ofNat 8 (2 ^ i)) m).getLsbD i
      = (m.getLsbD i || decide (i ∈ l)) by simpa [maskOf] using H 0
  induction l with
  | nil => simp
  | cons a r ih =>
    intro m
    simp only [List.foldl_cons, ih, BitVec.getLsbD_or, BitVec.getLsbD_ofNat, List.mem_cons, Nat.testBit_two_pow, h,
      decide_true, Bool.true_and]
    by_cases ha : a = i <;> by_cases hm : i ∈ r <;> simp [ha, hm, eq_comm (a := i)]

theorem mem_slicesOf (m : BitVec 8) (i : Nat) : i ∈ slicesOf m ↔ i < 8 ∧ m.getLsbD i = true := by
  simp [slicesOf, those]

theorem inside_iff (x m : BitVec 8) : x &&& ~~~ m = 0 ↔ ∀ i, x.getLsbD i = true → m.getLsbD i = true := by
  constructor
  · intro h i hi
    have := congrArg (·.getLsbD i) h
    have hlt : i < 8 := BitVec.lt_of_getLsbD hi
    simpa [hi, hlt] using this
  · intro h
    apply BitVec.eq_of_getLsbD_eq
    intro i hi
    specialize h i
    cases hx : x.getLsbD i <;> simp_all

theorem Group.slice_mapSlices (g : Group) (m : BitVec 8) (f : Nat → Slice → Slice) (i : Nat) :
    (g.mapSlices m f).slice i = if m.getLsbD i = true ∧ i < g.slices.length then f i (g.slice i) else g.slice i := by
  unfold Group.mapSlices Group.slice
  by_cases hi : i < g.slices.length
  · simp [hi]
  · simp [hi]

/-- The parts of a sub-gang hold slices of one PC, and only slices of it. -/
theorem Group.mem_splitGang {g : Group} {x y : SubGang} (h : y ∈ g.splitGang x) :
    y.wait = x.wait ∧ (∀ i, y.slices.getLsbD i = true → x.slices.getLsbD i = true)
      ∧ ∀ i j, y.slices.getLsbD i = true → y.slices.getLsbD j = true → (g.slice i).pc = (g.slice j).pc := by
  simp only [Group.splitGang, List.mem_map] at h
  obtain ⟨a, -, rfl⟩ := h
  have hb : ∀ i, (maskOf ((slicesOf x.slices).filter fun j => (g.slice j).pc == (g.slice a).pc)).getLsbD i = true →
      x.slices.getLsbD i = true ∧ (g.slice i).pc = (g.slice a).pc := by
    intro i hi
    have hlt : i < 8 := BitVec.lt_of_getLsbD hi
    rw [maskOf_bit _ _ hlt] at hi
    simpa [mem_slicesOf, hlt] using hi
  exact ⟨rfl, fun i hi => (hb i hi).1, fun i j hi hj => by rw [(hb i hi).2, (hb j hj).2]⟩

/-- Parting by PCs. -/
theorem Group.part_spec (g : Group) (m : BitVec 8) :
    (∀ x ∈ (g.part m).gangs, x.slices &&& ~~~ m = 0 → (∃ y ∈ g.gangs, y.slices &&& ~~~ m = 0 ∧ x.wait = y.wait)
      ∧ ∀ i j, x.slices.getLsbD i = true → x.slices.getLsbD j = true → (g.slice i).pc = (g.slice j).pc)
    ∧ ∀ x, x.slices &&& ~~~ m ≠ 0 → (x ∈ (g.part m).gangs ↔ x ∈ g.gangs) := by
  constructor
  · intro x hx hm
    simp only [Group.part, List.mem_flatMap] at hx
    obtain ⟨y, hy, hxy⟩ := hx
    split at hxy
    · obtain ⟨h1, -, h3⟩ := Group.mem_splitGang hxy
      exact ⟨⟨y, hy, by assumption, h1⟩, h3⟩
    · simp only [List.mem_singleton] at hxy
      subst hxy
      contradiction
  · intro x hx
    simp only [Group.part, List.mem_flatMap]
    constructor
    · rintro ⟨y, hy, hxy⟩
      split at hxy
      · obtain ⟨-, h2, -⟩ := Group.mem_splitGang hxy
        rename_i h0
        exact absurd ((inside_iff _ _).mpr fun i hi => (inside_iff _ _).mp h0 i (h2 i hi)) hx
      · simp only [List.mem_singleton] at hxy
        exact hxy ▸ hy
    · intro h
      exact ⟨x, h, by rw [if_neg hx]; exact List.mem_singleton.mpr rfl⟩

/-- Slices or PCs changed, then parted: the waits and the other sub-gangs, from a state with its sub-gang's wait ended. -/
theorem parted_of {s t : State} (_hc : t.cur = s.cur) {g : Group} (hg : t.curG = g.part s.cur.slices)
    (hw : g.gangs = (s.curG.setWait s.cur.slices .none).gangs) : Parted s t := by
  have hs : ∀ i, t.curG.slice i = g.slice i := fun i => by rw [hg]; rfl
  obtain ⟨h1, h2⟩ := Group.part_spec g s.cur.slices
  constructor
  · intro x hx hm
    rw [hg] at hx
    obtain ⟨⟨y, hy, hym, hxy⟩, h3⟩ := h1 x hx hm
    refine ⟨?_, fun i j hi hj => by rw [hs, hs]; exact h3 i j hi hj⟩
    rw [hw] at hy
    simp only [Group.setWait, List.mem_map] at hy
    obtain ⟨z, -, rfl⟩ := hy
    rw [hxy]
    split at hym <;> simp_all
  · intro x hx
    rw [hg, h2 x hx, hw]
    simp only [Group.setWait, List.mem_map]
    constructor
    · rintro ⟨z, hz, rfl⟩
      split at hx
      · simp_all
      · simp_all
    · intro h
      exact ⟨x, h, if_neg hx⟩

/-- An instruction that is done went on past itself. -/
theorem done_wentOn {s s' : State} {h : Hdr} {pc : PC} (hl : s'.groups.get? s'.cur.gid ≠ none) (hc : s'.cur = s.cur)
    (hs : s'.curG.slices = s.curG.slices) (hw : s'.curG.gangs = (s.curG.setWait s.cur.slices .none).gangs) :
    WentOn h.len.bytes s ((Res.done s').finish h pc) := by
  have hg : ((Res.done s').finish h pc).curG = (s'.curG.advance s'.cur.slices h.len.bytes).part s'.cur.slices :=
    State.curG_modCur s' _ hl
  rw [hc] at hg
  refine ⟨parted_of (by exact hc) hg hw, fun i => ?_⟩
  have hsl : ∀ i, s'.curG.slice i = s.curG.slice i := fun i => by simp [Group.slice, hs]
  rw [hg]
  show ((s'.curG.advance s.cur.slices h.len.bytes).slice i) = _
  simp only [Group.advance, Group.slice_mapSlices, hs, hsl]

end Sys2Proof.Machine
end

