-- ==== Sys2Proof/Laws/PerInstr.lean ====
section
/-! SUPPORT. For every instruction: the decoder reads its fields back as the instruction itself. -/

namespace Sys2Proof

set_option Elab.async false

/-! ### Each part reads back from its bits -/

theorem Len.ofBits_bits (l : Len) : Len.ofBits l.bits = some l := by cases l <;> rfl
theorem Sch.ofBits_bits (x : Sch) : Sch.ofBits x.bits = some x := by cases x <;> rfl

theorem Spec.ofBits_bits (x : Spec) : Spec.ofBits x.bits = some x := by
  cases x with
  | v n => revert n; decide +kernel
  | g n => revert n; decide +kernel
  | t n => revert n; decide +kernel
  | b n => revert n; decide +kernel
  | p n => revert n; decide +kernel
  | k n => revert n; decide +kernel
  | a n => revert n; decide +kernel
  | sp n => revert n; decide +kernel
  | zero => rfl
  | imm => rfl

theorem IntM.ofBits_bits (m : IntM) : IntM.ofBits m.bits = m := by
  obtain ⟨w, sat, sgn, var⟩ := m
  revert w sat sgn var; decide +kernel
theorem FltM.ofBits_bits (m : FltM) : FltM.ofBits m.bits = m := by
  obtain ⟨ft, sat, rm⟩ := m
  revert ft sat rm; decide +kernel
theorem CvtM.ofBits_bits (m : CvtM) : CvtM.ofBits m.bits m.bits2 = m := by
  obtain ⟨dty, sat, sty, rm, part⟩ := m
  have h1 : ∀ (d : BitVec 4) (s : Bool), ((0 : BitVec 1) ++ bit1 s ++ d).truncate 4 = d
      ∧ ((0 : BitVec 1) ++ bit1 s ++ d).getLsbD 4 = s := by decide +kernel
  have h2 : ∀ (p : BitVec 4) (r : BitVec 2) (t : BitVec 4), (p ++ r ++ t).truncate 4 = t
      ∧ (p ++ r ++ t).extractLsb' 4 2 = r ∧ (p ++ r ++ t).extractLsb' 6 4 = p := by decide +kernel
  simp only [CvtM.ofBits, CvtM.bits, CvtM.bits2]
  rw [(h1 dty sat).1, (h1 dty sat).2, (h2 part rm sty).1, (h2 part rm sty).2.1, (h2 part rm sty).2.2]
theorem QuantM.ofBits_bits (m : QuantM) : QuantM.ofBits m.bits m.bits2 = m := by
  obtain ⟨sft, dfm, n⟩ := m
  revert sft dfm n; decide +kernel
theorem DeqM.ofBits_bits (m : DeqM) :
    (⟨FltM.ofBits m.flt.bits, (m.wc.zeroExtend 10 : BitVec 10).truncate 2⟩ : DeqM) = m := by
  obtain ⟨flt, wc⟩ := m
  simp only [FltM.ofBits_bits, DeqM.mk.injEq, true_and]
  revert wc; decide +kernel
theorem RedM.ofBits_bits (m : RedM) : RedM.ofBits m.bits m.bits2 = m := by
  obtain ⟨w, op, rm, excl⟩ := m
  revert w op rm excl; decide +kernel
theorem MemM.ofBits_bits (m : MemM) : MemM.ofBits m.bits (m.sc.zeroExtend 10) = m := by
  obtain ⟨ord, n, ty, sc⟩ := m
  revert ord n ty sc; decide +kernel
theorem AtomM.ofBits_bits (m : AtomM) : AtomM.ofBits m.bits m.bits2 = m := by
  obtain ⟨aty, op, ord, sc⟩ := m
  revert aty op ord sc; decide +kernel
/-- REDQ's two operations, with no ATY (R158). -/
theorem AtomM.ofBitsQ_bits (m : AtomM) (hop : m.op.toNat ≤ 1) (ht : m.aty = 0) :
    AtomM.ofBitsQ (m.op.zeroExtend 6) m.bits2 = m := by
  obtain ⟨aty, op, ord, sc⟩ := m
  simp only at hop ht
  subst ht
  revert op ord sc; decide +kernel
theorem FenceM.ofBits_bits (m : FenceM) : FenceM.ofBits m.bits (bit10 m.eng 0) = m := by
  obtain ⟨x, y, z, e, sc⟩ := m
  revert x y z e sc; decide +kernel
theorem MmaM.ofBits_bits (m : MmaM) : MmaM.ofBits m.bits (bit10 m.kh 0) = m := by
  obtain ⟨x, y, si, q, kh⟩ := m
  revert x y si q kh; decide +kernel
theorem AccM.ofBits_bits (m : AccM) : AccM.ofBits m.bits = m := by
  obtain ⟨x, y, z, ty⟩ := m
  revert x y z ty; decide +kernel
theorem MergeM.ofBits_bits (m : MergeM) (l : Bool) : MergeM.ofBits (m.bits l) m.bits2 = m := by
  obtain ⟨mode, ty, rp⟩ := m
  have h1 : ∀ (x : BitVec 3) (l : Bool), ((0 : BitVec 2) ++ x ++ bit1 l).extractLsb' 1 3 = x := by decide +kernel
  have h2 : ∀ (t : BitVec 3) (r : BitVec 5), ((0 : BitVec 2) ++ r ++ t).truncate 3 = t
      ∧ ((0 : BitVec 2) ++ r ++ t).extractLsb' 3 5 = r := by decide +kernel
  simp only [MergeM.ofBits, MergeM.bits, MergeM.bits2]
  rw [h1 mode l, (h2 ty rp).1, (h2 ty rp).2]
theorem MergeM.level_bits (m : MergeM) (l : Bool) : (m.bits l).getLsbD 0 = l := by
  obtain ⟨mode, ty, rp⟩ := m
  simp only [MergeM.bits]
  revert mode l; decide +kernel

namespace Laws.RoundTrip

/-- An instruction that has an encoding is what the decoder reads from its fields (R36-R40, R54). -/
def Statement (i : Instr) : Prop := i.encodable = true → ∀ f, i.fields = some f → decodeFields f = .ok i

/-- It is enough that the opcode and the fields name the instruction. -/
theorem of_instrOf {i : Instr} {h : Hdr} {opc : Nat} {mod : BitVec 6} {mod2 : BitVec 10} {ch : Hint} {d a b c e : Spec}
    (hf : i.fields = some (mkFields h opc mod mod2 ch d a b c e))
    (hi : i.encodable = true → instrOf (mkFields h opc mod mod2 ch d a b c e) h d a b c e = some i) : Statement i := by
  intro he f hf'
  rw [hf] at hf'
  cases hf'
  have hi := hi he
  simp only [Instr.encodable, Bool.and_eq_true] at he
  have hl : Len.ofBits (mkFields h opc mod mod2 ch d a b c e).len = some h.len := Len.ofBits_bits _
  have hs : Sch.ofBits (mkFields h opc mod mod2 ch d a b c e).sch = some h.sch := Sch.ofBits_bits _
  have hd : Spec.ofBits (mkFields h opc mod mod2 ch d a b c e).d = some d := Spec.ofBits_bits _
  have ha : Spec.ofBits (mkFields h opc mod mod2 ch d a b c e).a = some a := Spec.ofBits_bits _
  have hb : Spec.ofBits (mkFields h opc mod mod2 ch d a b c e).b = some b := Spec.ofBits_bits _
  have hc : Spec.ofBits (mkFields h opc mod mod2 ch d a b c e).c = some c := Spec.ofBits_bits _
  have hx : Spec.ofBits (mkFields h opc mod mod2 ch d a b c e).e = some e := Spec.ofBits_bits _
  simp only [decodeFields, hl, hs, hd, ha, hb, hc, hx]
  have hi' : instrOf (mkFields h opc mod mod2 ch d a b c e)
      ⟨h.len, ⟨h.grd.g0, h.grd.g1, h.grd.gop, h.grd.gn⟩, h.wt, h.sch, h.imm⟩ d a b c e = some i := hi
  simp only [mkFields] at hi' hf ⊢
  simp [hi', hf, he.1.1, he.1.2]

/-- An event has no fields. -/
theorem of_event {i : Instr} (hf : i.fields = none) : Statement i := fun _ f h => by rw [hf] at h; cases h

theorem nop (h : Hdr) : Statement (.nop h) := of_instrOf rfl fun _ => rfl
theorem mov (h : Hdr) (m : IntM) (d : Spec) (a : Spec) : Statement (.mov h m d a) := of_instrOf rfl fun _ => congrArg (fun m => some (Instr.mov h m d a)) (IntM.ofBits_bits m)
theorem movi (h : Hdr) (m : IntM) (d : Spec) (a : Spec) : Statement (.movi h m d a) := of_instrOf rfl fun _ => congrArg (fun m => some (Instr.movi h m d a)) (IntM.ofBits_bits m)
theorem movp (h : Hdr) (d : Spec) (a : Spec) : Statement (.movp h d a) := of_instrOf rfl fun _ => rfl
theorem sel (h : Hdr) (m : IntM) (d : Spec) (a : Spec) (b : Spec) (c : Spec) : Statement (.sel h m d a b c) := of_instrOf rfl fun _ => congrArg (fun m => some (Instr.sel h m d a b c)) (IntM.ofBits_bits m)
theorem iadd (h : Hdr) (m : IntM) (d : Spec) (a : Spec) (b : Spec) : Statement (.iadd h m d a b) := of_instrOf rfl fun _ => congrArg (fun m => some (Instr.iadd h m d a b)) (IntM.ofBits_bits m)
theorem isub (h : Hdr) (m : IntM) (d : Spec) (a : Spec) (b : Spec) : Statement (.isub h m d a b) := of_instrOf rfl fun _ => congrArg (fun m => some (Instr.isub h m d a b)) (IntM.ofBits_bits m)
theorem imul (h : Hdr) (m : IntM) (d : Spec) (a : Spec) (b : Spec) : Statement (.imul h m d a b) := of_instrOf rfl fun _ => congrArg (fun m => some (Instr.imul h m d a b)) (IntM.ofBits_bits m)
theorem imulh (h : Hdr) (m : IntM) (d : Spec) (a : Spec) (b : Spec) : Statement (.imulh h m d a b) := of_instrOf rfl fun _ => congrArg (fun m => some (Instr.imulh h m d a b)) (IntM.ofBits_bits m)
theorem imad (h : Hdr) (m : IntM) (d : Spec) (a : Spec) (b : Spec) (c : Spec) : Statement (.imad h m d a b c) := of_instrOf rfl fun _ => congrArg (fun m => some (Instr.imad h m d a b c)) (IntM.ofBits_bits m)
theorem imin (h : Hdr) (m : IntM) (d : Spec) (a : Spec) (b : Spec) : Statement (.imin h m d a b) := of_instrOf rfl fun _ => congrArg (fun m => some (Instr.imin h m d a b)) (IntM.ofBits_bits m)
theorem imax (h : Hdr) (m : IntM) (d : Spec) (a : Spec) (b : Spec) : Statement (.imax h m d a b) := of_instrOf rfl fun _ => congrArg (fun m => some (Instr.imax h m d a b)) (IntM.ofBits_bits m)
theorem iabs (h : Hdr) (m : IntM) (d : Spec) (a : Spec) : Statement (.iabs h m d a) := of_instrOf rfl fun _ => congrArg (fun m => some (Instr.iabs h m d a)) (IntM.ofBits_bits m)
theorem land (h : Hdr) (m : IntM) (d : Spec) (a : Spec) (b : Spec) : Statement (.land h m d a b) := of_instrOf rfl fun _ => congrArg (fun m => some (Instr.land h m d a b)) (IntM.ofBits_bits m)
theorem lor (h : Hdr) (m : IntM) (d : Spec) (a : Spec) (b : Spec) : Statement (.lor h m d a b) := of_instrOf rfl fun _ => congrArg (fun m => some (Instr.lor h m d a b)) (IntM.ofBits_bits m)
theorem lxor (h : Hdr) (m : IntM) (d : Spec) (a : Spec) (b : Spec) : Statement (.lxor h m d a b) := of_instrOf rfl fun _ => congrArg (fun m => some (Instr.lxor h m d a b)) (IntM.ofBits_bits m)
theorem lnot (h : Hdr) (m : IntM) (d : Spec) (a : Spec) : Statement (.lnot h m d a) := of_instrOf rfl fun _ => congrArg (fun m => some (Instr.lnot h m d a)) (IntM.ofBits_bits m)
theorem shl (h : Hdr) (m : IntM) (d : Spec) (a : Spec) (b : Spec) : Statement (.shl h m d a b) := of_instrOf rfl fun _ => congrArg (fun m => some (Instr.shl h m d a b)) (IntM.ofBits_bits m)
theorem shr (h : Hdr) (m : IntM) (d : Spec) (a : Spec) (b : Spec) : Statement (.shr h m d a b) := of_instrOf rfl fun _ => congrArg (fun m => some (Instr.shr h m d a b)) (IntM.ofBits_bits m)
theorem sar (h : Hdr) (m : IntM) (d : Spec) (a : Spec) (b : Spec) : Statement (.sar h m d a b) := of_instrOf rfl fun _ => congrArg (fun m => some (Instr.sar h m d a b)) (IntM.ofBits_bits m)
theorem rot (h : Hdr) (m : IntM) (d : Spec) (a : Spec) (b : Spec) : Statement (.rot h m d a b) := of_instrOf rfl fun _ => congrArg (fun m => some (Instr.rot h m d a b)) (IntM.ofBits_bits m)
theorem bfe (h : Hdr) (m : IntM) (d : Spec) (a : Spec) (b : Spec) (c : Spec) : Statement (.bfe h m d a b c) := of_instrOf rfl fun _ => congrArg (fun m => some (Instr.bfe h m d a b c)) (IntM.ofBits_bits m)
theorem bfi (h : Hdr) (m : IntM) (d : Spec) (a : Spec) (b : Spec) (c : Spec) (e : Spec) : Statement (.bfi h m d a b c e) := of_instrOf rfl fun _ => congrArg (fun m => some (Instr.bfi h m d a b c e)) (IntM.ofBits_bits m)
theorem popc (h : Hdr) (m : IntM) (d : Spec) (a : Spec) : Statement (.popc h m d a) := of_instrOf rfl fun _ => congrArg (fun m => some (Instr.popc h m d a)) (IntM.ofBits_bits m)
theorem clz (h : Hdr) (m : IntM) (d : Spec) (a : Spec) : Statement (.clz h m d a) := of_instrOf rfl fun _ => congrArg (fun m => some (Instr.clz h m d a)) (IntM.ofBits_bits m)
theorem ctz (h : Hdr) (m : IntM) (d : Spec) (a : Spec) : Statement (.ctz h m d a) := of_instrOf rfl fun _ => congrArg (fun m => some (Instr.ctz h m d a)) (IntM.ofBits_bits m)
theorem brev (h : Hdr) (m : IntM) (d : Spec) (a : Spec) : Statement (.brev h m d a) := of_instrOf rfl fun _ => congrArg (fun m => some (Instr.brev h m d a)) (IntM.ofBits_bits m)
theorem icmp (h : Hdr) (m : IntM) (d : Spec) (a : Spec) (b : Spec) : Statement (.icmp h m d a b) := of_instrOf rfl fun _ => congrArg (fun m => some (Instr.icmp h m d a b)) (IntM.ofBits_bits m)
theorem fadd (h : Hdr) (m : FltM) (d : Spec) (a : Spec) (b : Spec) : Statement (.fadd h m d a b) := of_instrOf rfl fun _ => congrArg (fun m => some (Instr.fadd h m d a b)) (FltM.ofBits_bits m)
theorem fsub (h : Hdr) (m : FltM) (d : Spec) (a : Spec) (b : Spec) : Statement (.fsub h m d a b) := of_instrOf rfl fun _ => congrArg (fun m => some (Instr.fsub h m d a b)) (FltM.ofBits_bits m)
theorem fmul (h : Hdr) (m : FltM) (d : Spec) (a : Spec) (b : Spec) : Statement (.fmul h m d a b) := of_instrOf rfl fun _ => congrArg (fun m => some (Instr.fmul h m d a b)) (FltM.ofBits_bits m)
theorem ffma (h : Hdr) (m : FltM) (d : Spec) (a : Spec) (b : Spec) (c : Spec) : Statement (.ffma h m d a b c) := of_instrOf rfl fun _ => congrArg (fun m => some (Instr.ffma h m d a b c)) (FltM.ofBits_bits m)
theorem fmin (h : Hdr) (m : FltM) (d : Spec) (a : Spec) (b : Spec) : Statement (.fmin h m d a b) := of_instrOf rfl fun _ => congrArg (fun m => some (Instr.fmin h m d a b)) (FltM.ofBits_bits m)
theorem fmax (h : Hdr) (m : FltM) (d : Spec) (a : Spec) (b : Spec) : Statement (.fmax h m d a b) := of_instrOf rfl fun _ => congrArg (fun m => some (Instr.fmax h m d a b)) (FltM.ofBits_bits m)
theorem fneg (h : Hdr) (m : FltM) (d : Spec) (a : Spec) : Statement (.fneg h m d a) := of_instrOf rfl fun _ => congrArg (fun m => some (Instr.fneg h m d a)) (FltM.ofBits_bits m)
theorem fabs (h : Hdr) (m : FltM) (d : Spec) (a : Spec) : Statement (.fabs h m d a) := of_instrOf rfl fun _ => congrArg (fun m => some (Instr.fabs h m d a)) (FltM.ofBits_bits m)
theorem fcmp (h : Hdr) (m : FltM) (d : Spec) (a : Spec) (b : Spec) : Statement (.fcmp h m d a b) := of_instrOf rfl fun _ => congrArg (fun m => some (Instr.fcmp h m d a b)) (FltM.ofBits_bits m)
theorem fclass (h : Hdr) (m : FltM) (d : Spec) (a : Spec) (b : Spec) : Statement (.fclass h m d a b) := of_instrOf rfl fun _ => congrArg (fun m => some (Instr.fclass h m d a b)) (FltM.ofBits_bits m)
theorem frnd (h : Hdr) (m : FltM) (d : Spec) (a : Spec) : Statement (.frnd h m d a) := of_instrOf rfl fun _ => congrArg (fun m => some (Instr.frnd h m d a)) (FltM.ofBits_bits m)
theorem fscl (h : Hdr) (m : FltM) (d : Spec) (a : Spec) (b : Spec) : Statement (.fscl h m d a b) := of_instrOf rfl fun _ => congrArg (fun m => some (Instr.fscl h m d a b)) (FltM.ofBits_bits m)
theorem fdot (h : Hdr) (m : FltM) (d : Spec) (a : Spec) (b : Spec) (c : Spec) : Statement (.fdot h m d a b c) := of_instrOf rfl fun _ => congrArg (fun m => some (Instr.fdot h m d a b c)) (FltM.ofBits_bits m)
theorem cvt (h : Hdr) (m : CvtM) (d : Spec) (a : Spec) (b : Spec) : Statement (.cvt h m d a b) := of_instrOf rfl fun _ => congrArg (fun m => some (Instr.cvt h m d a b)) (CvtM.ofBits_bits m)
theorem cvti (h : Hdr) (m : CvtM) (d : Spec) (a : Spec) (b : Spec) : Statement (.cvti h m d a b) := of_instrOf rfl fun _ => congrArg (fun m => some (Instr.cvti h m d a b)) (CvtM.ofBits_bits m)
theorem quant (h : Hdr) (m : QuantM) (d : Spec) (a : Spec) (b : Spec) (c : Spec) : Statement (.quant h m d a b c) := of_instrOf rfl fun _ => congrArg (fun m => some (Instr.quant h m d a b c)) (QuantM.ofBits_bits m)
theorem deq (h : Hdr) (m : DeqM) (d : Spec) (a : Spec) (b : Spec) : Statement (.deq h m d a b) := of_instrOf rfl fun _ => congrArg (fun m => some (Instr.deq h m d a b)) (DeqM.ofBits_bits m)
theorem amax (h : Hdr) (ft : BitVec 2) (nanprop : Bool) (d : Spec) (a : Spec) : Statement (.amax h ft nanprop d a) := of_instrOf rfl fun _ => by
  have key : ∀ (ft : BitVec 2) (nanprop : Bool), (((ft ++ (0 : BitVec 3) ++ bit1 nanprop) : BitVec 6).extractLsb' 4 2) = ft ∧ (((ft ++ (0 : BitVec 3) ++ bit1 nanprop) : BitVec 6).getLsbD 0) = nanprop := by decide +kernel
  change some (Instr.amax h (((ft ++ (0 : BitVec 3) ++ bit1 nanprop) : BitVec 6).extractLsb' 4 2) (((ft ++ (0 : BitVec 3) ++ bit1 nanprop) : BitVec 6).getLsbD 0) d a) = _
  rw [(key ft nanprop).1, (key ft nanprop).2]
theorem rcp (h : Hdr) (m : FltM) (d : Spec) (a : Spec) : Statement (.rcp h m d a) := of_instrOf rfl fun _ => congrArg (fun m => some (Instr.rcp h m d a)) (FltM.ofBits_bits m)
theorem rsq (h : Hdr) (m : FltM) (d : Spec) (a : Spec) : Statement (.rsq h m d a) := of_instrOf rfl fun _ => congrArg (fun m => some (Instr.rsq h m d a)) (FltM.ofBits_bits m)
theorem sqrt (h : Hdr) (m : FltM) (d : Spec) (a : Spec) : Statement (.sqrt h m d a) := of_instrOf rfl fun _ => congrArg (fun m => some (Instr.sqrt h m d a)) (FltM.ofBits_bits m)
theorem ex2 (h : Hdr) (m : FltM) (d : Spec) (a : Spec) : Statement (.ex2 h m d a) := of_instrOf rfl fun _ => congrArg (fun m => some (Instr.ex2 h m d a)) (FltM.ofBits_bits m)
theorem lg2 (h : Hdr) (m : FltM) (d : Spec) (a : Spec) : Statement (.lg2 h m d a) := of_instrOf rfl fun _ => congrArg (fun m => some (Instr.lg2 h m d a)) (FltM.ofBits_bits m)
theorem sinr (h : Hdr) (m : FltM) (d : Spec) (a : Spec) : Statement (.sinr h m d a) := of_instrOf rfl fun _ => congrArg (fun m => some (Instr.sinr h m d a)) (FltM.ofBits_bits m)
theorem cosr (h : Hdr) (m : FltM) (d : Spec) (a : Spec) : Statement (.cosr h m d a) := of_instrOf rfl fun _ => congrArg (fun m => some (Instr.cosr h m d a)) (FltM.ofBits_bits m)
theorem welf (h : Hdr) (d : Spec) (a : Spec) : Statement (.welf h d a) := of_instrOf rfl fun _ => rfl
theorem wmerge (h : Hdr) (d : Spec) (a : Spec) : Statement (.wmerge h d a) := of_instrOf rfl fun _ => rfl
theorem shfl (h : Hdr) (w : BitVec 2) (z : Bool) (mode : BitVec 2) (d : Spec) (a : Spec) (b : Spec) : Statement (.shfl h w z mode d a b) := of_instrOf rfl fun _ => by
  have key : ∀ (w : BitVec 2) (z : Bool) (mode : BitVec 2), (((w ++ bit1 z ++ (0 : BitVec 1) ++ mode) : BitVec 6).extractLsb' 4 2) = w ∧ (((w ++ bit1 z ++ (0 : BitVec 1) ++ mode) : BitVec 6).getLsbD 3) = z ∧ (((w ++ bit1 z ++ (0 : BitVec 1) ++ mode) : BitVec 6).truncate 2) = mode := by decide +kernel
  change some (Instr.shfl h (((w ++ bit1 z ++ (0 : BitVec 1) ++ mode) : BitVec 6).extractLsb' 4 2) (((w ++ bit1 z ++ (0 : BitVec 1) ++ mode) : BitVec 6).getLsbD 3) (((w ++ bit1 z ++ (0 : BitVec 1) ++ mode) : BitVec 6).truncate 2) d a b) = _
  rw [(key w z mode).1, (key w z mode).2.1, (key w z mode).2.2]
theorem push (h : Hdr) (w : BitVec 2) (d : Spec) (a : Spec) (b : Spec) (c : Spec) : Statement (.push h w d a b c) := of_instrOf rfl fun _ => by
  have key : ∀ (w : BitVec 2), (((w ++ (0 : BitVec 4)) : BitVec 6).extractLsb' 4 2) = w := by decide +kernel
  change some (Instr.push h (((w ++ (0 : BitVec 4)) : BitVec 6).extractLsb' 4 2) d a b c) = _
  rw [key w]
theorem readl (h : Hdr) (w : BitVec 2) (sgn : Bool) (d : Spec) (a : Spec) (b : Spec) : Statement (.readl h w sgn d a b) := of_instrOf rfl fun _ => by
  have key : ∀ (w : BitVec 2) (sgn : Bool), (((w ++ (0 : BitVec 1) ++ bit1 sgn ++ (0 : BitVec 2)) : BitVec 6).extractLsb' 4 2) = w ∧ (((w ++ (0 : BitVec 1) ++ bit1 sgn ++ (0 : BitVec 2)) : BitVec 6).getLsbD 2) = sgn := by decide +kernel
  change some (Instr.readl h (((w ++ (0 : BitVec 1) ++ bit1 sgn ++ (0 : BitVec 2)) : BitVec 6).extractLsb' 4 2) (((w ++ (0 : BitVec 1) ++ bit1 sgn ++ (0 : BitVec 2)) : BitVec 6).getLsbD 2) d a b) = _
  rw [(key w sgn).1, (key w sgn).2]
theorem writel (h : Hdr) (w : BitVec 2) (d : Spec) (a : Spec) (b : Spec) : Statement (.writel h w d a b) := of_instrOf rfl fun _ => by
  have key : ∀ (w : BitVec 2), (((w ++ (0 : BitVec 4)) : BitVec 6).extractLsb' 4 2) = w := by decide +kernel
  change some (Instr.writel h (((w ++ (0 : BitVec 4)) : BitVec 6).extractLsb' 4 2) d a b) = _
  rw [key w]
theorem vote (h : Hdr) (mode : BitVec 2) (d : Spec) (a : Spec) : Statement (.vote h mode d a) := of_instrOf rfl fun _ => by
  have key : ∀ (mode : BitVec 2), (((mode.zeroExtend 6) : BitVec 6).truncate 2) = mode := by decide +kernel
  change some (Instr.vote h (((mode.zeroExtend 6) : BitVec 6).truncate 2) d a) = _
  rw [key mode]
theorem redl (h : Hdr) (m : RedM) (d : Spec) (a : Spec) : Statement (.redl h m d a) := of_instrOf rfl fun _ => congrArg (fun m => some (Instr.redl h m d a)) (RedM.ofBits_bits m)
theorem scanl (h : Hdr) (m : RedM) (d : Spec) (a : Spec) : Statement (.scanl h m d a) := of_instrOf rfl fun _ => congrArg (fun m => some (Instr.scanl h m d a)) (RedM.ofBits_bits m)
theorem perm (h : Hdr) (w : BitVec 2) (d : Spec) (a : Spec) (b : Spec) (c : Spec) : Statement (.perm h w d a b c) := of_instrOf rfl fun _ => by
  have key : ∀ (w : BitVec 2), (((w ++ (0 : BitVec 4)) : BitVec 6).extractLsb' 4 2) = w := by decide +kernel
  change some (Instr.perm h (((w ++ (0 : BitVec 4)) : BitVec 6).extractLsb' 4 2) d a b c) = _
  rw [key w]
theorem ld (h : Hdr) (m : MemM) (ch : Hint) (d : Spec) (a : Spec) (b : Spec) : Statement (.ld h m ch d a b) := of_instrOf rfl fun _ => congrArg (fun m => some (Instr.ld h m ch d a b)) (MemM.ofBits_bits m)
theorem st (h : Hdr) (m : MemM) (ch : Hint) (d : Spec) (a : Spec) (b : Spec) : Statement (.st h m ch d a b) := of_instrOf rfl fun _ => congrArg (fun m => some (Instr.st h m ch d a b)) (MemM.ofBits_bits m)
theorem atom (h : Hdr) (m : AtomM) (ch : Hint) (d : Spec) (a : Spec) (b : Spec) (c : Spec) (e : Spec) : Statement (.atom h m ch d a b c e) := of_instrOf rfl fun _ => congrArg (fun m => some (Instr.atom h m ch d a b c e)) (AtomM.ofBits_bits m)
theorem red (h : Hdr) (m : AtomM) (ch : Hint) (d : Spec) (a : Spec) (b : Spec) : Statement (.red h m ch d a b) := of_instrOf rfl fun _ => congrArg (fun m => some (Instr.red h m ch d a b)) (AtomM.ofBits_bits m)
theorem redq (h : Hdr) (m : AtomM) (ch : Hint) (d : Spec) (a : Spec) (b : Spec) (c : Spec) : Statement (.redq h m ch d a b c) := of_instrOf rfl fun he => by
  simp only [Instr.encodable, Instr.accepts, Bool.and_eq_true, decide_eq_true_eq, beq_iff_eq] at he
  exact congrArg (fun m => some (Instr.redq h m ch d a b c))
    (AtomM.ofBitsQ_bits m he.1.2.1.1.1.1.1.1.1.1 he.1.2.1.1.1.1.1.1.1.2)
theorem fence (h : Hdr) (m : FenceM) (d : Spec) : Statement (.fence h m d) := of_instrOf rfl fun _ => congrArg (fun m => some (Instr.fence h m d)) (FenceM.ofBits_bits m)
theorem waitt (h : Hdr) : Statement (.waitt h) := of_instrOf rfl fun _ => rfl
theorem bufset (h : Hdr) (form : BitVec 2) (d : Spec) (a : Spec) (b : Spec) (c : Spec) (e : Spec) : Statement (.bufset h form d a b c e) := of_instrOf rfl fun _ => by
  have key : ∀ (form : BitVec 2), (((form.zeroExtend 6) : BitVec 6).truncate 2) = form := by decide +kernel
  change some (Instr.bufset h (((form.zeroExtend 6) : BitVec 6).truncate 2) d a b c e) = _
  rw [key form]
theorem bufq (h : Hdr) (fld : BitVec 2) (d : Spec) (a : Spec) : Statement (.bufq h fld d a) := of_instrOf rfl fun _ => by
  have key : ∀ (fld : BitVec 2), (((fld.zeroExtend 6) : BitVec 6).truncate 2) = fld := by decide +kernel
  change some (Instr.bufq h (((fld.zeroExtend 6) : BitVec 6).truncate 2) d a) = _
  rw [key fld]
theorem pref (h : Hdr) (l2 : Bool) (ch : Hint) (d : Spec) (a : Spec) : Statement (.pref h l2 ch d a) := of_instrOf rfl fun _ => by
  have key : ∀ (l2 : Bool), (((bit6 l2 0) : BitVec 6).getLsbD 0) = l2 := by decide +kernel
  change some (Instr.pref h (((bit6 l2 0) : BitVec 6).getLsbD 0) ch d a) = _
  rw [key l2]
theorem lfmr (h : Hdr) (clr : Bool) (d : Spec) : Statement (.lfmr h clr d) := of_instrOf rfl fun _ => by
  have key : ∀ (clr : Bool), (((bit6 clr 0) : BitVec 6).getLsbD 0) = clr := by decide +kernel
  change some (Instr.lfmr h (((bit6 clr 0) : BitVec 6).getLsbD 0) d) = _
  rw [key clr]
theorem tcopy (h : Hdr) (d : Spec) (a : Spec) (b : Spec) (c : Spec) : Statement (.tcopy h d a b c) := of_instrOf rfl fun _ => rfl
theorem tstore (h : Hdr) (d : Spec) (a : Spec) (b : Spec) (c : Spec) : Statement (.tstore h d a b c) := of_instrOf rfl fun _ => rfl
theorem tred (h : Hdr) (d : Spec) (a : Spec) (b : Spec) (c : Spec) : Statement (.tred h d a b c) := of_instrOf rfl fun _ => rfl
theorem tokset (h : Hdr) (d : Spec) (a : Spec) : Statement (.tokset h d a) := of_instrOf rfl fun _ => rfl
theorem yield (h : Hdr) (mask : BitVec 8) (a : Spec) : Statement (.yield h mask a) := of_instrOf rfl fun _ => by
  have key : ∀ (mask : BitVec 8), (((mask.zeroExtend 10) : BitVec 10).truncate 8) = mask := by decide +kernel
  change some (Instr.yield h (((mask.zeroExtend 10) : BitVec 10).truncate 8) a) = _
  rw [key mask]
theorem tokq (h : Hdr) (clr : Bool) (d : Spec) (a : Spec) : Statement (.tokq h clr d a) := of_instrOf rfl fun _ => by
  have key : ∀ (clr : Bool), (((bit6 clr 0) : BitVec 6).getLsbD 0) = clr := by decide +kernel
  change some (Instr.tokq h (((bit6 clr 0) : BitVec 6).getLsbD 0) d a) = _
  rw [key clr]
theorem mma (h : Hdr) (m : MmaM) (d : Spec) (a : Spec) (b : Spec) (c : Spec) (e : Spec) : Statement (.mma h m d a b c e) := of_instrOf rfl fun _ => congrArg (fun m => some (Instr.mma h m d a b c e)) (MmaM.ofBits_bits m)
theorem mloop (h : Hdr) (m : MmaM) (d : Spec) (a : Spec) (b : Spec) (c : Spec) (e : Spec) : Statement (.mloop h m d a b c e) := of_instrOf rfl fun _ => congrArg (fun m => some (Instr.mloop h m d a b c e)) (MmaM.ofBits_bits m)
theorem accz (h : Hdr) (part : BitVec 2) (d : Spec) : Statement (.accz h part d) := of_instrOf rfl fun _ => by
  have key : ∀ (part : BitVec 2), (((part.zeroExtend 6) : BitVec 6).truncate 2) = part := by decide +kernel
  change some (Instr.accz h (((part.zeroExtend 6) : BitVec 6).truncate 2) d) = _
  rw [key part]
theorem accld (h : Hdr) (m : AccM) (ch : Hint) (d : Spec) (a : Spec) (b : Spec) (c : Spec) : Statement (.accld h m ch d a b c) := of_instrOf rfl fun _ => congrArg (fun m => some (Instr.accld h m ch d a b c)) (AccM.ofBits_bits m)
theorem accst (h : Hdr) (m : AccM) (ch : Hint) (d : Spec) (a : Spec) (b : Spec) (c : Spec) : Statement (.accst h m ch d a b c) := of_instrOf rfl fun _ => congrArg (fun m => some (Instr.accst h m ch d a b c)) (AccM.ofBits_bits m)
theorem accmv (h : Hdr) (side : Bool) (d : Spec) (a : Spec) : Statement (.accmv h side d a) := of_instrOf rfl fun _ => by
  have key : ∀ (side : Bool), (((bit6 side 0) : BitVec 6).getLsbD 0) = side := by decide +kernel
  change some (Instr.accmv h (((bit6 side 0) : BitVec 6).getLsbD 0) d a) = _
  rw [key side]
theorem smx (h : Hdr) (d : Spec) (a : Spec) (b : Spec) (c : Spec) : Statement (.smx h d a b c) := of_instrOf rfl fun _ => rfl
theorem accq (h : Hdr) (d : Spec) (a : Spec) : Statement (.accq h d a) := of_instrOf rfl fun _ => rfl
theorem ifOp (h : Hdr) (neg : Bool) (els : Bool) (a : Spec) (b : Spec) : Statement (.ifOp h neg els a b) := of_instrOf rfl fun _ => by
  have key : ∀ (neg : Bool) (els : Bool), (((bit6 neg 1 ||| bit6 els 0) : BitVec 6).getLsbD 1) = neg ∧ (((bit6 neg 1 ||| bit6 els 0) : BitVec 6).getLsbD 0) = els := by decide +kernel
  change some (Instr.ifOp h (((bit6 neg 1 ||| bit6 els 0) : BitVec 6).getLsbD 1) (((bit6 neg 1 ||| bit6 els 0) : BitVec 6).getLsbD 0) a b) = _
  rw [(key neg els).1, (key neg els).2]
theorem elseOp (h : Hdr) (b : Spec) : Statement (.elseOp h b) := of_instrOf rfl fun _ => rfl
theorem endif (h : Hdr) : Statement (.endif h) := of_instrOf rfl fun _ => rfl
theorem loop (h : Hdr) (b : Spec) : Statement (.loop h b) := of_instrOf rfl fun _ => rfl
theorem endloop (h : Hdr) (b : Spec) : Statement (.endloop h b) := of_instrOf rfl fun _ => rfl
theorem brk (h : Hdr) (neg : Bool) (a : Spec) (b : Spec) : Statement (.brk h neg a b) := of_instrOf rfl fun _ => by
  have key : ∀ (neg : Bool), (((bit6 neg 1) : BitVec 6).getLsbD 1) = neg := by decide +kernel
  change some (Instr.brk h (((bit6 neg 1) : BitVec 6).getLsbD 1) a b) = _
  rw [key neg]
theorem cont (h : Hdr) (neg : Bool) (a : Spec) (b : Spec) : Statement (.cont h neg a b) := of_instrOf rfl fun _ => by
  have key : ∀ (neg : Bool), (((bit6 neg 1) : BitVec 6).getLsbD 1) = neg := by decide +kernel
  change some (Instr.cont h (((bit6 neg 1) : BitVec 6).getLsbD 1) a b) = _
  rw [key neg]
theorem jmp (h : Hdr) (b : Spec) : Statement (.jmp h b) := of_instrOf rfl fun _ => rfl
theorem call (h : Hdr) (b : Spec) : Statement (.call h b) := of_instrOf rfl fun _ => rfl
theorem ret (h : Hdr) : Statement (.ret h) := of_instrOf rfl fun _ => rfl
theorem exit (h : Hdr) : Statement (.exit h) := of_instrOf rfl fun _ => rfl
theorem regang (h : Hdr) : Statement (.regang h) := of_instrOf rfl fun _ => rfl
theorem mergeS (h : Hdr) (m : MergeM) (d : Spec) (a : Spec) : Statement (.mergeS h m d a) := of_instrOf rfl fun _ => by
  have h0 := MergeM.level_bits m false
  have h1 := MergeM.ofBits_bits m false
  change (if (m.bits false).getLsbD 0 then some (Instr.mergeG h (MergeM.ofBits (m.bits false) m.bits2) d a)
    else some (Instr.mergeS h (MergeM.ofBits (m.bits false) m.bits2) d a)) = _
  rw [h0, h1]
  rfl
theorem mergeG (h : Hdr) (m : MergeM) (d : Spec) (a : Spec) : Statement (.mergeG h m d a) := of_instrOf rfl fun _ => by
  have h0 := MergeM.level_bits m true
  have h1 := MergeM.ofBits_bits m true
  change (if (m.bits true).getLsbD 0 then some (Instr.mergeG h (MergeM.ofBits (m.bits true) m.bits2) d a)
    else some (Instr.mergeS h (MergeM.ofBits (m.bits true) m.bits2) d a)) = _
  rw [h0, h1]
  rfl
theorem drop (h : Hdr) (d : Spec) : Statement (.drop h d) := of_instrOf rfl fun _ => rfl
theorem rankq (h : Hdr) (d : Spec) (a : Spec) : Statement (.rankq h d a) := of_instrOf rfl fun _ => rfl
theorem rvinit (h : Hdr) (rp : BitVec 5) (a : Spec) : Statement (.rvinit h rp a) := of_instrOf rfl fun _ => by
  have key : ∀ (rp : BitVec 5), (((rp.zeroExtend 6) : BitVec 6).truncate 5) = rp := by decide +kernel
  change some (Instr.rvinit h (((rp.zeroExtend 6) : BitVec 6).truncate 5) a) = _
  rw [key rp]
theorem rvarr (h : Hdr) (rp : BitVec 5) : Statement (.rvarr h rp) := of_instrOf rfl fun _ => by
  have key : ∀ (rp : BitVec 5), (((rp.zeroExtend 6) : BitVec 6).truncate 5) = rp := by decide +kernel
  change some (Instr.rvarr h (((rp.zeroExtend 6) : BitVec 6).truncate 5)) = _
  rw [key rp]
theorem rvwait (h : Hdr) (rp : BitVec 5) (idle : Bool) : Statement (.rvwait h rp idle) := of_instrOf rfl fun _ => by
  have key : ∀ (rp : BitVec 5) (idle : Bool), (((rp.zeroExtend 6 ||| bit6 idle 5) : BitVec 6).truncate 5) = rp ∧ (((rp.zeroExtend 6 ||| bit6 idle 5) : BitVec 6).getLsbD 5) = idle := by decide +kernel
  change some (Instr.rvwait h (((rp.zeroExtend 6 ||| bit6 idle 5) : BitVec 6).truncate 5) (((rp.zeroExtend 6 ||| bit6 idle 5) : BitVec 6).getLsbD 5)) = _
  rw [(key rp idle).1, (key rp idle).2]
theorem rvtest (h : Hdr) (rp : BitVec 5) (d : Spec) : Statement (.rvtest h rp d) := of_instrOf rfl fun _ => by
  have key : ∀ (rp : BitVec 5), (((rp.zeroExtend 6) : BitVec 6).truncate 5) = rp := by decide +kernel
  change some (Instr.rvtest h (((rp.zeroExtend 6) : BitVec 6).truncate 5) d) = _
  rw [key rp]
theorem gearSet (h : Hdr) (f : Bool) : Statement (.gearSet h f) := of_instrOf rfl fun _ => by
  have key : ∀ f : Bool, (bit6 f 0).getLsbD 1 = false ∧ (bit6 f 0).getLsbD 0 = f := by decide +kernel
  change (if (bit6 f 0).getLsbD 1 then some (Instr.gearQ h .zero) else some (Instr.gearSet h ((bit6 f 0).getLsbD 0))) = _
  rw [(key f).1, (key f).2]
  rfl
theorem gearQ (h : Hdr) (d : Spec) : Statement (.gearQ h d) := of_instrOf rfl fun _ => by
  have key : (2 : BitVec 6).getLsbD 1 = true := by decide
  change (if (2 : BitVec 6).getLsbD 1 then some (Instr.gearQ h d) else some (Instr.gearSet h ((2 : BitVec 6).getLsbD 0))) = _
  rw [key]
  rfl
theorem nap (h : Hdr) (a : Spec) : Statement (.nap h a) := of_instrOf rfl fun _ => rfl
theorem trap (h : Hdr) (a : Spec) : Statement (.trap h a) := of_instrOf rfl fun _ => rfl
theorem eret (h : Hdr) : Statement (.eret h) := of_instrOf rfl fun _ => rfl
theorem csrr (h : Hdr) (csr : BitVec 6) (d : Spec) : Statement (.csrr h csr d) := of_instrOf rfl fun _ => by
  have key : ∀ (csr : BitVec 6), (((csr) : BitVec 6)) = csr := by decide +kernel
  change some (Instr.csrr h (((csr) : BitVec 6)) d) = _
  rw [key csr]
theorem csrw (h : Hdr) (csr : BitVec 6) (a : Spec) : Statement (.csrw h csr a) := of_instrOf rfl fun _ => by
  have key : ∀ (csr : BitVec 6), (((csr) : BitVec 6)) = csr := by decide +kernel
  change some (Instr.csrw h (((csr) : BitVec 6)) a) = _
  rw [key csr]
theorem bkpt (h : Hdr) : Statement (.bkpt h) := of_instrOf rfl fun _ => rfl
theorem halt (h : Hdr) : Statement (.halt h) := of_instrOf rfl fun _ => rfl
theorem wfi (h : Hdr) : Statement (.wfi h) := of_instrOf rfl fun _ => rfl
theorem tlbi (h : Hdr) (kind : BitVec 2) (d : Spec) (a : Spec) : Statement (.tlbi h kind d a) := of_instrOf rfl fun _ => by
  have key : ∀ (kind : BitVec 2), (((kind.zeroExtend 6) : BitVec 6).truncate 2) = kind := by decide +kernel
  change some (Instr.tlbi h (((kind.zeroExtend 6) : BitVec 6).truncate 2) d a) = _
  rw [key kind]
theorem quantRetire (k : Nat) : Statement (.quantRetire k) := of_event rfl
theorem mmaQMeeting (team : Nat) (quad : Nat) : Statement (.mmaQMeeting team quad) := of_event rfl
theorem mloopStart (tile : Nat) (sub : Nat) (steps : Nat) : Statement (.mloopStart tile sub steps) := of_event rfl
theorem mloopComplete (tile : Nat) (sub : Nat) : Statement (.mloopComplete tile sub) := of_event rfl
theorem tlbiComplete (k : Nat) : Statement (.tlbiComplete k) := of_event rfl
theorem fenceComplete (k : Nat) : Statement (.fenceComplete k) := of_event rfl
theorem waitSatisfied (gid : Nat) (low : Nat) : Statement (.waitSatisfied gid low) := of_event rfl
theorem stagehandWalk (cid : Nat) : Statement (.stagehandWalk cid) := of_event rfl
theorem mcastReservation (k : Nat) : Statement (.mcastReservation k) := of_event rfl
theorem copyComplete (cid : Nat) (tile : Nat) : Statement (.copyComplete cid tile) := of_event rfl
theorem copyCheckpoint (cid : Nat) : Statement (.copyCheckpoint cid) := of_event rfl
theorem loadDataArrival (k : Nat) : Statement (.loadDataArrival k) := of_event rfl
theorem fillReply (k : Nat) : Statement (.fillReply k) := of_event rfl
theorem writeAccept (k : Nat) : Statement (.writeAccept k) := of_event rfl
theorem lineNack (k : Nat) : Statement (.lineNack k) := of_event rfl
theorem l1WritebackTimeout (tile : Nat) (line : Nat) : Statement (.l1WritebackTimeout tile line) := of_event rfl
theorem read (src : ReqSrc) : Statement (.read src) := of_event rfl
theorem readOwn (src : ReqSrc) : Statement (.readOwn src) := of_event rfl
theorem writeThrough (src : ReqSrc) : Statement (.writeThrough src) := of_event rfl
theorem update (src : ReqSrc) : Statement (.update src) := of_event rfl
theorem evictClean (src : ReqSrc) : Statement (.evictClean src) := of_event rfl
theorem evictDirty (src : ReqSrc) : Statement (.evictDirty src) := of_event rfl
theorem recallAnswer (k : Nat) : Statement (.recallAnswer k) := of_event rfl
theorem atomic (src : ReqSrc) : Statement (.atomic src) := of_event rfl
theorem reduce (src : ReqSrc) : Statement (.reduce src) := of_event rfl
theorem engineOwn (src : ReqSrc) : Statement (.engineOwn src) := of_event rfl
theorem replicaRead (src : ReqSrc) : Statement (.replicaRead src) := of_event rfl
theorem timeout (line : Nat) : Statement (.timeout line) := of_event rfl
theorem holderRecall (src : ReqSrc) : Statement (.holderRecall src) := of_event rfl
theorem pushUpdateReceive (k : Nat) : Statement (.pushUpdateReceive k) := of_event rfl
theorem notify : Statement .notify := of_event rfl
theorem sldcmdCommit (die : Nat) (val : W64) : Statement (.sldcmdCommit die val) := of_event rfl
theorem scriptLoadDone (die : Nat) : Statement (.scriptLoadDone die) := of_event rfl
theorem rtabCommit (die : Nat) (n : Nat) (val : W64) : Statement (.rtabCommit die n val) := of_event rfl
theorem rangeRetireDone (die : Nat) : Statement (.rangeRetireDone die) := of_event rfl
theorem fqretryRetry (ctx : Nat) : Statement (.fqretryRetry ctx) := of_event rfl
theorem fqretryAbort (ctx : Nat) : Statement (.fqretryAbort ctx) := of_event rfl
theorem fqConfigWrite (size : Bool) (val : W64) : Statement (.fqConfigWrite size val) := of_event rfl
theorem fqheadWrite (val : W64) : Statement (.fqheadWrite val) := of_event rfl
theorem lqctlWrite (who : Master) (q : Nat) (val : W64) : Statement (.lqctlWrite who q val) := of_event rfl
theorem packetCopy (q : Nat) : Statement (.packetCopy q) := of_event rfl
theorem waitCounterPoll (q : Nat) : Statement (.waitCounterPoll q) := of_event rfl
theorem distributorPlace : Statement .distributorPlace := of_event rfl
theorem rotationTimeout (lid : Nat) : Statement (.rotationTimeout lid) := of_event rfl
theorem clusterSwitchOut (cid : Nat) : Statement (.clusterSwitchOut cid) := of_event rfl
theorem switchDrainTimeout (cid : Nat) : Statement (.switchDrainTimeout cid) := of_event rfl
theorem launchCompletion (lid : Nat) : Statement (.launchCompletion lid) := of_event rfl
theorem phaseStart (lid : Nat) : Statement (.phaseStart lid) := of_event rfl
theorem phaseWatchdogExpire (lid : Nat) : Statement (.phaseWatchdogExpire lid) := of_event rfl
theorem groupPark (gid : Nat) : Statement (.groupPark gid) := of_event rfl
theorem groupReloadDone (gid : Nat) : Statement (.groupReloadDone gid) := of_event rfl
theorem timeSliceYield (tile : Nat) (sub : Nat) : Statement (.timeSliceYield tile sub) := of_event rfl
theorem napExpire (gid : Nat) (low : Nat) : Statement (.napExpire gid low) := of_event rfl
theorem rvRelease (k : Nat) : Statement (.rvRelease k) := of_event rfl
theorem curtainWave (tile : Nat) : Statement (.curtainWave tile) := of_event rfl
theorem changeoverComplete (tile : Nat) : Statement (.changeoverComplete tile) := of_event rfl
theorem fllRampStep (tile : Nat) : Statement (.fllRampStep tile) := of_event rfl
theorem tfreqWrite (who : Master) (tile : Nat) (val : W64) : Statement (.tfreqWrite who tile val) := of_event rfl
theorem gcapWrite (who : Master) (tile : Nat) (val : W64) : Statement (.gcapWrite who tile val) := of_event rfl
theorem sensorSample (n : Nat) (reading : BitVec 16) : Statement (.sensorSample n reading) := of_event rfl
theorem timerWrite (val : W64) : Statement (.timerWrite val) := of_event rfl
theorem timerElapse : Statement .timerElapse := of_event rfl
theorem thermal : Statement .thermal := of_event rfl
theorem timer : Statement .timer := of_event rfl
theorem evseqRead : Statement .evseqRead := of_event rfl
theorem evlogRead : Statement .evlogRead := of_event rfl
theorem stallqRead : Statement .stallqRead := of_event rfl
theorem peerfailDeclare (who : Master) (dev : Nat) : Statement (.peerfailDeclare who dev) := of_event rfl
theorem peerfailClear (who : Master) (dev : Nat) : Statement (.peerfailClear who dev) := of_event rfl
theorem portLossTimeout (port : Nat) : Statement (.portLossTimeout port) := of_event rfl
theorem routeWrite (n : Nat) : Statement (.routeWrite n) := of_event rfl
theorem peerMessageForward (depart : Bool) (src : Nat) (dst : Nat) (payload : W64) : Statement (.peerMessageForward depart src dst payload) := of_event rfl
theorem attcmdStart (who : Master) : Statement (.attcmdStart who) := of_event rfl
theorem mctpAttestRequest : Statement .mctpAttestRequest := of_event rfl
theorem attestReportDone : Statement .attestReportDone := of_event rfl
theorem mext (i : BitVec 3) : Statement (.mext i) := of_event rfl
theorem monSnap (mon : Nat) : Statement (.monSnap mon) := of_event rfl
theorem monClear (mon : Nat) : Statement (.monClear mon) := of_event rfl
theorem monLevelSample (mon : Nat) (amps : Nat) : Statement (.monLevelSample mon amps) := of_event rfl
theorem patrolScrub (blk : Nat) : Statement (.patrolScrub blk) := of_event rfl
theorem alwaysOnReset : Statement .alwaysOnReset := of_event rfl
theorem managementReset : Statement .managementReset := of_event rfl
theorem recoveryImage (image : List Byte) : Statement (.recoveryImage image) := of_event rfl
theorem registerWrite (who : Master) (addr : Nat) (val : W64) : Statement (.registerWrite who addr val) := of_event rfl
theorem portDown (port : Nat) : Statement (.portDown port) := of_event rfl
theorem portRetrain (port : Nat) (lanes : Nat) : Statement (.portRetrain port lanes) := of_event rfl
theorem rvArrival (k : Nat) : Statement (.rvArrival k) := of_event rfl
theorem mmaComplete (tile : Nat) (sub : Nat) : Statement (.mmaComplete tile sub) := of_event rfl
theorem uncorrectableError (place : ErrPlace) : Statement (.uncorrectableError place) := of_event rfl

end Laws.RoundTrip

end Sys2Proof
end

