-- ==== Sys2Proof/Laws/Report.lean ====
section
/-! SUPPORT. How long hashes, signatures and reports are (R353). -/

namespace Sys2Proof.Machine

@[simp] theorem beBytes_length (n x : Nat) : (beBytes n x).length = n := by simp [beBytes]

@[simp] theorem leBytes_length (n x : Nat) : (leBytes n x).length = n := by simp [leBytes]

/-- Strings of one length, joined. -/
theorem flatMap_length_const {α β : Type} (f : α → List β) (l : List α) (n : Nat) (h : ∀ x, (f x).length = n) :
    (l.flatMap f).length = l.length * n := by
  induction l with
  | nil => simp
  | cons a l ih => simp [h, ih, Nat.succ_mul, Nat.add_comm]

theorem shaExtend_length (n : Nat) (w : List Nat) : (shaExtend n w).length = w.length + n := by
  induction n generalizing w with
  | zero => rfl
  | succ n ih => simp only [shaExtend, ih, List.length_cons]; omega

theorem shaRound_length (st : List Nat) (kw : Nat × Nat) : (shaRound st kw).length = st.length := by
  unfold shaRound
  split <;> simp

theorem shaRounds_length (l : List (Nat × Nat)) (st : List Nat) : (l.foldl shaRound st).length = st.length := by
  induction l generalizing st with
  | nil => rfl
  | cons a l ih => simp [ih, shaRound_length]

theorem shaBlock_length (hs : List Nat) (blk : List Byte) : (shaBlock hs blk).length = hs.length := by
  simp [shaBlock, shaRounds_length]

theorem shaBlocks_length (n : Nat) (hs : List Nat) (m : List Byte) : (shaBlocks n hs m).length = hs.length := by
  induction n generalizing hs m with
  | zero => rfl
  | succ n ih => simp [shaBlocks, ih, shaBlock_length]

@[simp] theorem sha256_length (m : List Byte) : (sha256 m).length = 32 := by
  simp only [sha256]
  rw [flatMap_length_const _ _ 4 (fun x => beBytes_length 4 x), shaBlocks_length]
  rfl

@[simp] theorem slhHash_length (seed : List Byte) (a : Adrs) (m : List Byte) : (slhHash seed a m).length = 16 := by
  simp [slhHash]

theorem slhChain_length (seed : List Byte) (a : Adrs) (i n : Nat) (x : List Byte) (h : x.length = 16) :
    (slhChain seed a i n x).length = 16 := by
  induction n generalizing i x with
  | zero => exact h
  | succ n ih => exact ih _ _ (slhHash_length ..)

theorem slhNode_length (seed : List Byte) (a : Adrs) (leaf : Nat → List Byte) (h : ∀ i, (leaf i).length = 16) (z i : Nat) :
    (slhNode seed a leaf z i).length = 16 := by
  cases z with
  | zero => exact h i
  | succ z => exact slhHash_length ..

theorem slhPath_length (seed : List Byte) (a : Adrs) (leaf : Nat → List Byte) (h : ∀ i, (leaf i).length = 16)
    (height base i : Nat) : (slhPath seed a leaf height base i).length = height * 16 := by
  simp only [slhPath]
  rw [flatMap_length_const _ _ 16 fun j => slhNode_length seed a leaf h _ _, List.length_range]

theorem wotsSign_length (seed sk : List Byte) (a : Adrs) (m : List Byte) : (wotsSign seed sk a m).length = 560 := by
  simp only [wotsSign]
  rw [flatMap_length_const _ _ 16, List.length_range]
  exact fun i => slhChain_length _ _ _ _ _ (slhHash_length ..)

theorem xmssSign_length (seed sk : List Byte) (layer tree i : Nat) (m : List Byte) :
    (xmssSign seed sk layer tree i m).length = 704 := by
  simp only [xmssSign, List.length_append, wotsSign_length]
  rw [slhPath_length]
  exact fun i => slhHash_length ..

theorem htSign_length (seed sk : List Byte) (n layer tree i : Nat) (m : List Byte) :
    (htSign seed sk n layer tree i m).length = n * 704 := by
  induction n generalizing layer tree i m with
  | zero => rfl
  | succ n ih => simp only [htSign, List.length_append, xmssSign_length, ih]; omega

theorem forsSign_length (seed sk : List Byte) (a : Adrs) (ds : List Nat) : (forsSign seed sk a ds).length = 2912 := by
  simp only [forsSign]
  rw [flatMap_length_const _ _ 208, List.length_range]
  intro t
  rw [List.length_append, slhPath_length]
  · simp [forsSecret]
  · exact fun i => slhHash_length ..

/-- A signature has the 7,856 bytes that R353 gives it. -/
theorem slhSign_length (seed sk prf rand m : List Byte) : (slhSign seed sk prf rand m).length = slhBytes := by
  simp [slhSign, hmac256, htSign_length, forsSign_length, slhBytes]

theorem identitySign_length (rand : Nat) (m : List Byte) : (identitySign rand m).length = slhBytes := slhSign_length ..

end Sys2Proof.Machine
end

