-- ==== Sys2Proof/Laws/Write.lean ====
section
/-! SUPPORT. Laws of writing: what a write of a result set leaves at every rank (R25-R27), and the whole effect of an
arithmetic instruction (R170). -/

namespace Sys2Proof.Machine

/-! ### Rows -/

theorem rowWith_get {α : Type} (row : List α) (dflt : α) (lanes : List Nat) (f : Nat → α) {l : Nat} (h : l < 32) :
    (((rowWith row dflt lanes f)[l]?).getD dflt) = if l ∈ lanes then f l else (row[l]?).getD dflt := by
  simp [rowWith, lanesOf, h]

theorem Group.laneV_writeV (g : Group) (n : Nat) (lanes : List Nat) (f : Nat → W64) {l : Nat} (h : l < 32) :
    (g.writeV n lanes f).laneV n l = if l ∈ lanes then f l else g.laneV n l := by
  unfold Group.writeV
  by_cases hl : lanes = []
  · simp [hl]
  · simp [hl, Group.laneV, rowWith_get _ _ _ _ h]

theorem Group.laneV_writeV_ne (g : Group) {n r : Nat} (lanes : List Nat) (f : Nat → W64) (l : Nat) (h : r ≠ n) :
    (g.writeV n lanes f).laneV r l = g.laneV r l := by
  unfold Group.writeV
  split
  · rfl
  · simp [Group.laneV, Table.getD_set_ne _ _ _ h]

theorem Group.laneP_writeP (g : Group) (n : Nat) (lanes : List Nat) (f : Nat → Bool) {l : Nat} (h : l < 32) :
    (g.writeP n lanes f).laneP n l = if n ≠ 7 ∧ l ∈ lanes then f l else g.laneP n l := by
  unfold Group.writeP
  by_cases h7 : n = 7
  · simp [h7]
  · by_cases hl : lanes = []
    · simp [hl]
    · have : (n == 7) = false := by simpa using h7
      simp [h7, hl, this, Group.laneP, rowWith_get _ _ _ _ h]

theorem Group.laneP_writeP_ne (g : Group) {n r : Nat} (lanes : List Nat) (f : Nat → Bool) (l : Nat) (h : r ≠ n) :
    (g.writeP n lanes f).laneP r l = g.laneP r l := by
  unfold Group.writeP
  split
  · rfl
  · simp [Group.laneP, Table.getD_set_ne _ _ _ h]

/-! ### The lanes of a uniform write -/

theorem Group.firstLane_div (g : Group) (i : Nat) : g.firstLane i / 4 = i := by
  unfold Group.firstLane
  cases h : (List.range 4).find? fun j => g.laneOn (4 * i + j) with
  | none => simp
  | some j =>
    have := List.mem_of_find?_eq_some h
    simp only [List.mem_range] at this
    simp only [Option.elim_some]
    omega

theorem Group.firstLane_lt (g : Group) {i : Nat} (h : i < 8) : g.firstLane i < 32 := by
  have := g.firstLane_div i
  omega

/-- One lane for each contributing slice. -/
theorem Group.map_firstLane_div (g : Group) (sl : List Nat) : (sl.map g.firstLane).map (· / 4) = sl := by
  simp [Function.comp_def, Group.firstLane_div]

/-! ### `g` names -/

theorem gKey_inj {n m i j : Nat} (hi : i < 8) (hj : j < 8) : gKey n i = gKey m j ↔ n = m ∧ i = j := by
  unfold gKey
  omega

theorem Table.get?_filter {α : Type} (t : Table α) (p : Nat → Bool) (k : Nat) :
    Table.get? (t.filter fun x => p x.1) k = if p k then t.get? k else none := by
  induction t with
  | nil => simp
  | cons a r ih =>
    obtain ⟨j, y⟩ := a
    simp only [List.filter_cons]
    by_cases hj : p j = true
    · simp only [hj, if_true, Table.get?]
      split
      · subst j; simp [hj]
      · exact ih
    · simp only [hj, Bool.false_eq_true, if_false, Table.get?, ih]
      by_cases hk : j = k
      · subst j; simp [hj]
      · simp [hk]

theorem foldl_set_get?_out {α : Type} (lanes : List Nat) (key : Nat → Nat) (f : Nat → α) (t : Table α) {k : Nat}
    (h : ∀ l ∈ lanes, key l ≠ k) : Table.get? (lanes.foldl (fun c l => Table.set c (key l) (f l)) t) k = t.get? k := by
  induction lanes generalizing t with
  | nil => rfl
  | cons a r ih =>
    simp only [List.foldl_cons]
    rw [ih _ fun l hl => h l (List.mem_cons_of_mem _ hl),
      Table.get?_set_ne _ _ (Ne.symm (h a List.mem_cons_self))]

theorem foldl_set_get?_in {α : Type} (lanes : List Nat) (key : Nat → Nat) (f : Nat → α) (t : Table α)
    (hn : (lanes.map key).Nodup) {l : Nat} (hl : l ∈ lanes) :
    Table.get? (lanes.foldl (fun c l => Table.set c (key l) (f l)) t) (key l) = some (f l) := by
  induction lanes generalizing t with
  | nil => cases hl
  | cons a r ih =>
    simp only [List.map_cons, List.nodup_cons] at hn
    simp only [List.foldl_cons]
    rcases List.mem_cons.mp hl with rfl | hr
    · rw [foldl_set_get?_out _ _ _ _ fun b hb he => hn.1 (List.mem_map.mpr ⟨b, hb, he⟩), Table.get?_set_self]
    · exact ih _ hn.2 hr

theorem allEqual_cons (a : Nat) (r : List Nat) (f : Nat → W64) :
    allEqual (a :: r) f = true ↔ ∀ l ∈ a :: r, f l = f a := by
  simp [allEqual]

/-- The group after a write to `gN` that has room. -/
theorem Group.wroteG_copies (g : Group) (n : Nat) (sl : List Nat) (hs : ∀ i ∈ sl, i < 8) (hd : sl.Nodup) (f : Nat → W64)
    (h0 : g.shadowed n = false) (hne : sl ≠ [])
    (he : ¬(sl = g.liveSlices ∧ ∀ l ∈ sl.map g.firstLane, f l = f ((sl.map g.firstLane).headD 0))) :
    WroteG n (sl.map g.firstLane) f g
      { g with gc := (sl.map g.firstLane).foldl (fun c l => c.set (gKey n (l / 4)) (f l)) g.gc } := by
  have hmem : ∀ l ∈ sl.map g.firstLane, l / 4 ∈ sl := by
    intro l hl
    obtain ⟨i, hi, rfl⟩ := List.mem_map.mp hl
    rwa [Group.firstLane_div]
  have hview : ∀ (c : Table W64) r i, ({ g with gc := c } : Group).viewG r i
      = if g.shadowed r then g.shadow.getD r 0 else (c.get? (gKey r i)).getD (g.g.getD r 0) := fun _ _ _ => rfl
  refine ⟨fun r i hr hi => ⟨?_, rfl⟩, ?_⟩
  · rw [hview, foldl_set_get?_out]
    · rfl
    · intro l hl
      have := hs _ (hmem l hl)
      rw [Ne, gKey_inj this hi]
      omega
  · rw [if_neg (by simpa using hne), if_neg (by simp [h0]), if_neg (by rwa [Group.map_firstLane_div])]
    refine ⟨rfl, fun l hl => ?_, fun i hi _ hn => ?_, rfl⟩
    · have hk : ((sl.map g.firstLane).map fun l => gKey n (l / 4)).Nodup := by
        rw [List.map_map, show ((fun l => gKey n (l / 4)) ∘ g.firstLane) = gKey n from
          funext fun i => by simp [Function.comp, Group.firstLane_div]]
        exact hd.map_on fun a ha b hb hab => ((gKey_inj (hs a ha) (hs b hb)).mp hab).2
      rw [hview, foldl_set_get?_in _ (fun l => gKey n (l / 4)) f _ hk hl]
      simp [h0]
    · rw [hview, foldl_set_get?_out]
      · rfl
      · intro l hl
        have := hmem l hl
        rw [Group.map_firstLane_div] at hn
        rw [Ne, gKey_inj (hs _ this) hi]
        rintro ⟨-, rfl⟩
        exact hn this

/-- The group after a uniform write to `gN` that every live slice makes. -/
theorem Group.wroteG_parent (g : Group) (n : Nat) (lanes : List Nat) (f : Nat → W64) (h0 : g.shadowed n = false)
    (hne : lanes ≠ []) (hl : lanes.map (· / 4) = g.liveSlices) (he : ∀ l ∈ lanes, f l = f (lanes.headD 0)) :
    WroteG n lanes f g { g.dropG n with g := g.g.set n (f (lanes.headD 0)) } := by
  have hget : ∀ r i, i < 8 → Table.get? (g.dropG n).gc (gKey r i) = if r = n then none else g.gc.get? (gKey r i) := by
    intro r i hi
    have hdiv : gKey r i / 8 = r := by unfold gKey; omega
    unfold Group.dropG
    rw [Table.get?_filter g.gc (fun k => k / 8 != n) (gKey r i), hdiv]
    by_cases hr : r = n <;> simp [hr]
  have hview : ∀ r i, ({ g.dropG n with g := g.g.set n (f (lanes.headD 0)) } : Group).viewG r i
      = if g.shadowed r then g.shadow.getD r 0
        else (Table.get? (g.dropG n).gc (gKey r i)).getD ((g.g.set n (f (lanes.headD 0))).getD r 0) := fun _ _ => rfl
  have hpar : ∀ r, ({ g.dropG n with g := g.g.set n (f (lanes.headD 0)) } : Group).parentG r
      = if g.shadowed r then g.shadow.getD r 0 else (g.g.set n (f (lanes.headD 0))).getD r 0 := fun _ => rfl
  refine ⟨fun r i hr hi => ⟨?_, ?_⟩, ?_⟩
  · rw [hview, hget r i hi, if_neg hr, Table.getD_set_ne _ _ _ hr]
    rfl
  · rw [hpar, Table.getD_set_ne _ _ _ hr]
    rfl
  · rw [if_neg hne, if_neg (by simp [h0]), if_pos ⟨hl, he⟩]
    refine ⟨rfl, fun l hm => ?_, fun i hi hlive hn => ?_, ?_, fun i hi => ?_⟩
    · have hlt : l / 4 < 8 := by
        have : l / 4 ∈ g.liveSlices := hl ▸ List.mem_map_of_mem hm
        simp only [Group.liveSlices, those, List.mem_filter, List.mem_range] at this
        exact this.1
      rw [hview, hget n _ hlt]
      simp [h0, he l hm]
    · exact absurd (hl ▸ (by simp [Group.liveSlices, those, hi, hlive] : i ∈ g.liveSlices)) hn
    · rw [hpar]
      simp [h0]
    · rw [hget n i hi]
      simp

/-! ### Results at every rank -/

theorem Group.slicesOn_lt (g : Group) (m : BitVec 8) : ∀ i ∈ g.slicesOn m, i < 8 := by
  intro i hi
  simp only [Group.slicesOn, those, List.mem_filter, List.mem_range] at hi
  exact hi.1

theorem Group.slicesOn_nodup (g : Group) (m : BitVec 8) : (g.slicesOn m).Nodup := List.nodup_range.filter _

/-- What a write leaves beside the registers of its rank. -/
structure WriteKeeps (d : Spec) (s t : State) : Prop where
  cur : t.cur = s.cur
  listed : t.groups.get? t.cur.gid ≠ none
  slices : t.curG.slices = s.curG.slices
  gangs : t.curG.gangs = s.curG.gangs
  only : OnlyDest d s t

theorem State.curG_setGroup (s : State) (x : Group) : (s.setGroup s.cur.gid x).curG = x := State.group_setGroup s _ x

/-- An uncorrectable error that ends changes nothing else. -/
theorem State.freshReg_eq (s : State) (gid : Nat) (r : Spec) (lanes : List Nat) :
    ∃ b, s.freshReg gid r lanes = { s with bad := b } ∧ (∀ p ∈ b, p ∈ s.bad)
      ∧ ∀ p ∈ s.bad, p ≠ s.regPlace gid r → p ∈ b := by
  have hsplit : s.freshReg gid r lanes = s.clearBad (s.regPlace gid r) ∨ s.freshReg gid r lanes = s := by
    unfold State.freshReg
    exact ite_eq_or_eq _ _ _
  rcases hsplit with h | h
  · exact ⟨s.bad.filter (· != s.regPlace gid r), h, fun p hp => (List.mem_filter.mp hp).1,
      fun p hp hn => List.mem_filter.mpr ⟨hp, by simpa using hn⟩⟩
  · exact ⟨s.bad, h, fun p hp => hp, fun p hp _ => hp⟩

/-- An error of a register of any rank but `t` stands with its group. -/
theorem State.regPlace_own (s : State) (gid : Nat) {r : Spec} (h : ∀ n, r ≠ .t n) : s.regPlace gid r = .reg gid r := by
  cases r <;> first
    | exact absurd rfl (h _)
    | rfl

/-- A change of the issuing group alone, then a fresh register. -/
theorem WriteKeeps.of_group {s : State} {d : Spec} (hn : ∀ n, d ≠ .t n) (x : Group) (lanes : List Nat)
    (hs : x.slices = s.curG.slices)
    (hg : x.gangs = s.curG.gangs)
    (hd : ∀ t : State, t.curG = x → t.teams = s.teams → t.cur = s.cur → OnlyGroup d s t → OnlyDest d s t) :
    WriteKeeps d s ((s.setGroup s.cur.gid x).freshReg s.cur.gid d lanes)
      ∧ ((s.setGroup s.cur.gid x).freshReg s.cur.gid d lanes).curG = x := by
  obtain ⟨b, hb, h1, h2⟩ := (s.setGroup s.cur.gid x).freshReg_eq s.cur.gid d lanes
  rw [hb]
  rw [State.regPlace_own _ _ hn, ← State.regPlace_own s _ hn] at h2
  have hc : ({ s.setGroup s.cur.gid x with bad := b } : State).curG = x := State.curG_setGroup s x
  refine ⟨⟨rfl, ?_, by rw [hc, hs], by rw [hc, hg], hd _ hc rfl rfl ⟨rfl, fun i hi => ?_, h1, h2⟩⟩, hc⟩
  · show Table.get? (s.groups.set s.cur.gid x) s.cur.gid ≠ none
    rw [Table.get?_set_self]
    exact Option.some_ne_none _
  · exact Table.get?_set_ne _ _ hi

/-- A write of a result set that has room: its registers, and nothing else (R25-R27). -/
theorem State.writeTo_room {s : State} {h : Hdr} {d : Spec} (hl : s.groups.get? s.cur.gid ≠ none) (hr : Room h d s)
    (f : Nat → W64)
    (ha : ∀ n, d = .t n → ∀ l ∈ s.resultLanes h d, ∀ k ∈ s.resultLanes h d, f l = f k) :
    ∃ t, s.writeTo d (s.resultLanes h d) f = .ok t ∧ WriteKeeps d s t ∧ Wrote d (s.resultLanes h d) f s t := by
  cases d with
  | v n =>
    obtain ⟨hk, hc⟩ := WriteKeeps.of_group (s := s) (d := .v n) (by simp) (s.curG.writeV n.toNat (s.resultLanes h (.v n)) f)
      (s.resultLanes h (.v n)) (by unfold Group.writeV; split <;> rfl) (by unfold Group.writeV; split <;> rfl)
      (fun t ht hT _ ho => ⟨ho, hT, by rw [ht]; unfold Group.writeV; split <;> rfl⟩)
    refine ⟨_, rfl, hk, fun l hlt => ?_, fun r l hne => ?_⟩
    · rw [hc]; exact Group.laneV_writeV _ _ _ _ hlt
    · rw [hc]; exact Group.laneV_writeV_ne _ _ _ _ hne
  | p n =>
    obtain ⟨hk, hc⟩ := WriteKeeps.of_group (s := s) (d := .p n) (by simp)
      (s.curG.writeP n.toNat (s.resultLanes h (.p n)) fun l => f l != 0)
      (s.resultLanes h (.p n)) (by unfold Group.writeP; split <;> rfl) (by unfold Group.writeP; split <;> rfl)
      (fun t ht hT _ ho => ⟨ho, hT, by rw [ht]; unfold Group.writeP; split <;> rfl⟩)
    have h7 : n.toNat ≠ 7 ↔ n ≠ 7 := by
      constructor
      · rintro h rfl; exact h rfl
      · intro h h'; exact h (BitVec.eq_of_toNat_eq (by simpa using h'))
    refine ⟨_, rfl, hk, fun l hlt => ?_, fun r l hne => ?_⟩
    · rw [hc, Group.laneP_writeP _ _ _ _ hlt]
      simp only [h7]
    · rw [hc]; exact Group.laneP_writeP_ne _ _ _ _ hne
  | g n =>
    have hsl : s.resultLanes h (.g n) = if s.uniform h then (s.curG.slicesOn s.cur.slices).map s.curG.firstLane else [] := rfl
    have hkeep : ∀ x : Group, x = { s.curG with g := x.g, gc := x.gc, shadow := x.shadow } →
        WriteKeeps (.g n) s ((s.setGroup s.cur.gid x).freshReg s.cur.gid (.g n) (s.resultLanes h (.g n)))
        ∧ ((s.setGroup s.cur.gid x).freshReg s.cur.gid (.g n) (s.resultLanes h (.g n))).curG = x := fun x hx =>
      WriteKeeps.of_group (by simp) x _ (by rw [hx]) (by rw [hx]) fun t ht hT _ ho => ⟨ho, hT, by rw [ht]; rw [hx]⟩
    generalize hL : s.resultLanes h (.g n) = lanes at *
    cases lanes with
    | nil =>
      have hw : s.writeTo (.g n) [] f = .ok (s.freshReg s.cur.gid (.g n) []) := rfl
      obtain ⟨b, hb, h1, h2⟩ := s.freshReg_eq s.cur.gid (.g n) []
      refine ⟨_, hw, ?_, ?_⟩
      · rw [hb]
        exact ⟨rfl, hl, rfl, rfl, ⟨rfl, fun _ _ => rfl, h1, h2⟩, rfl, rfl⟩
      · rw [hb]
        exact ⟨fun _ _ _ _ => ⟨rfl, rfl⟩, by simp [State.curG, State.group]⟩
    | cons l0 r =>
      have hu : s.uniform h = true := by
        by_contra hu
        simp [hu] at hsl
      rw [if_pos hu] at hsl
      by_cases h0 : s.curG.shadowed n.toNat = true
      · obtain ⟨hk, hc⟩ := hkeep { s.curG with shadow := s.curG.shadow.set n.toNat (f l0) } rfl
        refine ⟨_, by simp only [State.writeTo, State.writeG, h0, if_true]; rfl, hk, ?_⟩
        show WroteG n.toNat (l0 :: r) f s.curG _
        rw [hc]
        refine ⟨fun i j hne hj => ?_, ?_⟩
        · simp only [Group.viewG, Group.parentG, Group.shadowed, Table.getD_set_ne _ _ _ hne]
          exact ⟨rfl, rfl⟩
        · simp only [reduceCtorEq, if_false, h0, if_true, List.headD_cons]
          refine ⟨?_, trivial, trivial⟩
          have : Group.shadowed { s.curG with shadow := s.curG.shadow.set n.toNat (f l0) } n.toNat = true := h0
          simp [Group.parentG, this]
      · have h0' : s.curG.shadowed n.toNat = false := by simpa using h0
        by_cases he : (l0 :: r).map (· / 4) = s.curG.liveSlices ∧ ∀ l ∈ l0 :: r, f l = f l0
        · obtain ⟨hk, hc⟩ := hkeep { s.curG.dropG n.toNat with g := s.curG.g.set n.toNat (f l0) } rfl
          refine ⟨_, ?_, hk, ?_⟩
          · simp only [State.writeTo, State.writeG, h0', Bool.false_eq_true, if_false]
            rw [if_pos (by simpa [(allEqual_cons l0 r f).mpr he.2] using he.1)]
            rfl
          · show WroteG n.toNat (l0 :: r) f s.curG _
            rw [hc]
            exact Group.wroteG_parent _ _ _ _ h0' (by simp) he.1 he.2
        · have hroom : s.curG.gc.length + (s.curG.slicesOn s.cur.slices).length ≤ 16 := by
            rcases hr with hr | hr
            · simp [h0'] at hr
            · exact hr
          obtain ⟨hk, hc⟩ := hkeep
            { s.curG with gc := (l0 :: r).foldl (fun c l => c.set (gKey n.toNat (l / 4)) (f l)) s.curG.gc } rfl
          refine ⟨_, ?_, hk, ?_⟩
          · simp only [State.writeTo, State.writeG, h0', Bool.false_eq_true, if_false]
            rw [if_neg, if_neg]
            · rfl
            · have h3 := List.length_filter_le (fun i => (s.curG.gc.get? (gKey n.toNat i)).isNone)
                ((l0 :: r).map (· / 4))
              have h4 : ((l0 :: r).map (· / 4)).length = (s.curG.slicesOn s.cur.slices).length := by
                rw [hsl]; simp
              omega
            · simp only [Bool.and_eq_true, beq_iff_eq, not_and]
              intro h5 h6
              exact he ⟨h5, (allEqual_cons l0 r f).mp h6⟩
          · show WroteG n.toNat (l0 :: r) f s.curG _
            rw [hc]
            have := Group.wroteG_copies s.curG n.toNat (s.curG.slicesOn s.cur.slices) (Group.slicesOn_lt _ _)
              (Group.slicesOn_nodup _ _) f h0' (by intro h7; rw [h7] at hsl; simp at hsl)
            rw [← hsl] at this
            apply this
            rintro ⟨h5, h6⟩
            refine he ⟨?_, h6⟩
            rw [← h5, hsl, Group.map_firstLane_div]
  | t n =>
    have hsl : s.resultLanes h (.t n) = if s.uniform h then (s.curG.slicesOn s.cur.slices).map s.curG.firstLane else [] := rfl
    generalize hL : s.resultLanes h (.t n) = lanes at *
    cases lanes with
    | nil =>
      have hw : s.writeTo (.t n) [] f = .ok (s.freshReg s.cur.gid (.t n) []) := rfl
      obtain ⟨b, hb, h1, h2⟩ := s.freshReg_eq s.cur.gid (.t n) []
      refine ⟨_, hw, ?_, ?_⟩
      · rw [hb]
        exact ⟨rfl, hl, rfl, rfl, ⟨rfl, fun _ _ => rfl, h1, h2⟩, rfl, fun _ _ => rfl, rfl⟩
      · rw [hb]
        exact ⟨fun _ _ => rfl, fun _ _ => rfl, by simp, fun _ => rfl, by split <;> rfl⟩
    | cons l0 r =>
      have hu : s.uniform h = true := by
        by_contra hu
        simp [hu] at hsl
      rw [if_pos hu] at hsl
      have hr' : s.curG.whole s.cur.slices = true ∧ s.curG.slicesOn s.cur.slices = s.curG.liveSlices
        ∧ if s.curT.groups.length = 1 then s.curT.tc.get? (tKey n.toNat s.curG.idx) = none
          else s.curT.tc.get? (tKey n.toNat s.curG.idx) ≠ none ∨ s.curT.tc.length < 32 := by
        rcases hr with hr | hr
        · simp [hu] at hr
        · exact hr
      obtain ⟨hw, hon, hroom⟩ := hr'
      have hall : ∀ l ∈ l0 :: r, f l = f l0 := fun l hm => ha n rfl l hm l0 List.mem_cons_self
      have htw : s.teamWrite (l0 :: r) f = true := by
        simp only [State.teamWrite, hw, Bool.true_and, Bool.and_eq_true, beq_iff_eq]
        exact ⟨by rw [hsl, Group.map_firstLane_div, hon], (allEqual_cons l0 r f).mpr hall⟩
      have key : ∀ T : Team, T = { s.curT with t := T.t, tc := T.tc } →
          WroteT n.toNat s.curG.idx (l0 :: r) f s.curT T →
          WriteKeeps (.t n) s ((s.setTeam s.curG.team T).freshReg s.cur.gid (.t n) (l0 :: r))
          ∧ Wrote (.t n) (l0 :: r) f s ((s.setTeam s.curG.team T).freshReg s.cur.gid (.t n) (l0 :: r)) := by
        intro T hT hW
        obtain ⟨b, hb, h1, h2⟩ := (s.setTeam s.curG.team T).freshReg_eq s.cur.gid (.t n) (l0 :: r)
        rw [hb]
        have hpl : (s.setTeam s.curG.team T).regPlace s.cur.gid (.t n) = s.regPlace s.cur.gid (.t n) := by
          show ErrPlace.reg (((s.setTeam s.curG.team T).team s.curG.team).groups.headD s.cur.gid) (.t n) = _
          rw [State.team_setTeam, hT]
          rfl
        rw [hpl] at h2
        have hc : ({ s.setTeam s.curG.team T with bad := b } : State).curT = T := State.team_setTeam s _ T
        refine ⟨⟨rfl, hl, rfl, rfl, ⟨rfl, fun _ _ => rfl, h1, h2⟩, rfl, fun i hi => Table.get?_set_ne _ _ hi, ?_⟩, ?_⟩
        · rw [hc]; exact hT
        · show WroteT n.toNat s.curG.idx (l0 :: r) f s.curT _
          rw [hc]; exact hW
      by_cases h1 : s.curT.groups.length = 1
      · rw [if_pos h1] at hroom
        obtain ⟨hk, hW⟩ := key { s.curT with t := s.curT.t.set n.toNat (f l0) } rfl
          ⟨fun _ _ => rfl, fun i hi => Table.get?_set_ne _ _ hi, fun l hm => by
            simp [Team.viewT, hroom, hall l hm], by simp, by simp [h1]⟩
        refine ⟨_, ?_, hk, hW⟩
        simp only [State.writeTo, State.writeT, htw, Bool.not_true, Bool.false_eq_true, if_false, h1, if_true]
        rfl
      · rw [if_neg h1] at hroom
        obtain ⟨hk, hW⟩ := key { s.curT with tc := s.curT.tc.set (tKey n.toNat s.curG.idx) (f l0) } rfl
          ⟨fun k hk => Table.get?_set_ne _ _ hk, fun _ _ => rfl, fun l hm => by
            simp [Team.viewT, Table.get?_set_self, hall l hm], by simp, by simp [h1]⟩
        refine ⟨_, ?_, hk, hW⟩
        simp only [State.writeTo, State.writeT, htw, Bool.not_true, Bool.false_eq_true, if_false, h1]
        rw [if_neg]
        · rfl
        · rcases hroom with h2 | h2
          · simp [Option.isNone_iff_eq_none, h2]
          · simp only [Bool.and_eq_true, decide_eq_true_eq, not_and]
            intro _; omega
  | zero =>
    exact ⟨s, rfl, ⟨rfl, hl, rfl, rfl, ⟨rfl, fun _ _ => rfl, fun _ h => h, fun _ h _ => h⟩, rfl, rfl⟩, trivial⟩
  | _ => exact hr.elim

/-- Room in the state whose sub-gang has ended its wait. -/
theorem Room.woken {h : Hdr} {d : Spec} {s : State} (hl : s.groups.get? s.cur.gid ≠ none) (hr : Room h d s) :
    Room h d s.woken := by
  cases d <;> first
    | trivial
    | exact hr.elim
    | (simp only [Room, State.curG_woken hl, State.curT_woken hl, State.uniform_woken hl] at hr ⊢
       exact hr)

/-- The whole effect of an arithmetic instruction: `F s` gives its result in each lane. -/
theorem issueWith_gives {pre : State → Option (Cause × W64)} {h : Hdr} {d : Spec} {src : List Spec} {s : State}
    (F : State → Nat → W64) (hr : Ready h [d] src s) (hp : pre s = none) (hroom : Room h d s)
    (hF : F s.woken = F s)
    (ha : ∀ n, d = .t n → ∀ l ∈ s.resultLanes h d, ∀ k ∈ s.resultLanes h d, F s l = F s k) :
    ∃ t, issueWith pre h [d] src s (fun s => s.arith h d (F s)) = .next t ∧ Wrote d (s.resultLanes h d) (F s) s t
      ∧ WentOn h.len.bytes s t ∧ OnlyDest d s t := by
  have hl := hr.listed
  have hlw : s.woken.groups.get? s.woken.cur.gid ≠ none := by
    obtain ⟨g, hg⟩ := Option.ne_none_iff_exists'.mp hl
    show Table.get? (s.groups.alter s.cur.gid _) s.cur.gid ≠ none
    rw [Table.get?_alter_self, hg]
    exact Option.some_ne_none _
  have hlanes := State.resultLanes_woken hl h d
  obtain ⟨t, ht, hk, hw⟩ := State.writeTo_room hlw (hroom.woken hl) (F s) (by rw [hlanes]; exact ha)
  rw [issueWith_ready hr hp]
  have hres : s.woken.arith h d (F s.woken) = .done t := by
    rw [hF]
    unfold State.arith
    rw [ht]
    rfl
  rw [hres]
  have hcur : t.cur = s.cur := hk.cur
  have hgw : s.woken.curG = s.curG.setWait s.cur.slices .none := State.curG_woken hl
  have hfin : ((Res.done t).finish h s.curPc).curG = (t.curG.advance t.cur.slices h.len.bytes).part t.cur.slices :=
    State.curG_modCur t _ hk.listed
  have hTw : s.woken.curT = s.curT := State.curT_woken hl
  have hcG : ∀ x : Group, ((x.advance t.cur.slices h.len.bytes).part t.cur.slices)
      = { x with slices := ((x.advance t.cur.slices h.len.bytes).part t.cur.slices).slices
                 gangs := ((x.advance t.cur.slices h.len.bytes).part t.cur.slices).gangs } := fun _ => rfl
  have hteam : t.curG.team = s.curG.team := by
    obtain ⟨-, h5⟩ := hk.only
    rw [hgw] at h5
    cases d <;> first
      | exact hroom.elim
      | (rw [h5.2]; rfl)
      | (rw [h5.1]; rfl)
  have hT : ((Res.done t).finish h s.curPc).curT = t.curT := by
    show ((Res.done t).finish h s.curPc).team ((Res.done t).finish h s.curPc).curG.team = t.team t.curG.team
    rw [hfin]; rfl
  refine ⟨_, rfl, ?_, ?_, ?_⟩
  · rw [hlanes] at hw
    cases d with
    | v n =>
      simp only [Wrote, hfin] at hw ⊢
      rw [hgw] at hw
      exact hw
    | p n =>
      simp only [Wrote, hfin] at hw ⊢
      rw [hgw] at hw
      exact hw
    | g n =>
      simp only [Wrote, hfin] at hw ⊢
      rw [hgw] at hw
      exact hw
    | t n =>
      simp only [Wrote, hT] at hw ⊢
      rw [hgw, hTw] at hw
      exact hw
    | _ => trivial
  · exact done_wentOn hk.listed hcur (by rw [hk.slices, hgw]; rfl) (by rw [hk.gangs, hgw])
  · obtain ⟨⟨h1, h2, h3, h4⟩, h5⟩ := hk.only
    change ∀ p ∈ s.bad, p ≠ s.woken.regPlace s.cur.gid d → p ∈ t.bad at h4
    rw [State.regPlace_woken hl] at h4
    refine ⟨⟨?_, fun i hi => ?_, h3, h4⟩, ?_⟩
    · rw [h1]; rfl
    · show Table.get? (Table.alter t.groups t.cur.gid _) i = _
      rw [hcur, Table.get?_alter_ne _ _ hi, h2 i hi]
      exact Table.get?_alter_ne _ _ hi
    · rw [hgw] at h5
      cases d with
      | v n => refine ⟨h5.1, ?_⟩; rw [hfin, h5.2]; rfl
      | p n => refine ⟨h5.1, ?_⟩; rw [hfin, h5.2]; rfl
      | g n => refine ⟨h5.1, ?_⟩; rw [hfin, h5.2]; rfl
      | t n =>
        refine ⟨?_, h5.2.1, ?_⟩
        · rw [hfin, h5.1]; rfl
        · rw [hT, h5.2.2, hTw]
      | zero => refine ⟨h5.1, ?_⟩; rw [hfin, h5.2]; rfl
      | _ => exact hroom.elim

/-- The same for an instruction with no check of its own. -/
theorem issue_gives {i : Instr} {h : Hdr} {d : Spec} {e : Expand} {src : List Spec} {s : State} (F : State → Nat → W64)
    {val : Nat → W64 → Prop} (hf : Fit h d e src s)
    (hi : exec i s = issue h [d] src s fun s => s.arith h d (F s)) (hF : F s.woken = F s)
    (ha : ∀ n, d = .t n → ∀ l ∈ s.resultLanes h d, ∀ k ∈ s.resultLanes h d, F s l = F s k)
    (hv : ∀ l ∈ s.resultLanes h d, val l (F s l)) : Gives i h d s val := by
  obtain ⟨t, h1, h2, h3, h4⟩ := issueWith_gives (pre := fun _ => none) F hf.ready rfl hf.room hF ha
  exact ⟨t, F s, hi.trans h1, h2, hv, h3, h4⟩

end Sys2Proof.Machine
end

