-- ==== Sys2Proof/Tests/Slice0.lean ====
section
/-! SUPPORT. Tests of the model's own author: ill-formed terms, words written out from the spec's encodings, and for
every statement with hypotheses a state and operands that meet them. -/

namespace Sys2Proof.Tests

open Sys2Proof.Machine

set_option maxRecDepth 100000
set_option Elab.async false

/-! ### The states the tests run on -/

/-- A 64-bit header with guard `pt`. -/
def h0 : Hdr := ⟨.b64, .always, 0, .none, 0⟩
/-- A 128-bit header with an immediate. -/
def hI (x : Nat) : Hdr := ⟨.b128, .always, 0, .none, BitVec.ofNat 32 x⟩

/-- One placed group of 32 lanes, its whole gang issuing. -/
def w0 : State := { State.reset.placed 0 with cur := ⟨1, 255, 0⟩, agenda := [] }

/-- As `w0`, with the group changed. -/
def wg (f : Group → Group) : State := w0.modGroup 1 f

/-! ### Arithmetic -/

/-- The conditions of `Ready` as one Boolean. -/
def readyB (h : Hdr) (dst src : List Spec) (s : State) : Bool :=
  (s.groups.get? s.cur.gid).isSome && (dst ++ src).all (fun r => !s.curG.refuses r) && s.curT.tokensZero h.wt
    && (s.busyOn (dst ++ src)).isEmpty && (s.badSource h src true).isNone

theorem ready_of {h : Hdr} {dst src : List Spec} {s : State} (hb : readyB h dst src s = true) : Ready h dst src s := by
  simp only [readyB, Bool.and_eq_true, List.all_eq_true, Bool.not_eq_true', Option.isNone_iff_eq_none,
    List.isEmpty_iff] at hb
  exact ⟨fun hn => (by rw [hn] at hb; exact absurd hb.1.1.1.1 (by simp)), hb.1.1.1.2, hb.1.1.2, hb.1.2, hb.2⟩

theorem fit_v {h : Hdr} {n : BitVec 8} {e : Expand} {src : List Spec} {s : State} (r : Ready h [.v n] src s) :
    Fit h (.v n) e src s := ⟨r, trivial, trivial⟩

theorem fit_p {h : Hdr} {n : BitVec 3} {e : Expand} {src : List Spec} {s : State} (r : Ready h [.p n] src s) :
    Fit h (.p n) e src s := ⟨r, trivial, trivial⟩

theorem witness_IntegerArithmetic (m : IntM) :
    Fit h0 (.v 3) m.expand [.v 1] w0 ∧ Fit h0 (.v 3) m.expand [.v 1, .v 2] w0
    ∧ Fit h0 (.v 255) m.expand [.v 255, .v 255, .v 255] w0 :=
  ⟨fit_v (ready_of (by decide +kernel)), fit_v (ready_of (by decide +kernel)), fit_v (ready_of (by decide +kernel))⟩

/-- A group name and a team name as destination: the split store has room, and all lanes read the team name's source
alike. -/
theorem witness_destinations : Fit h0 (.g 5) .zx64 [.g 6] w0 ∧ Fit h0 (.t 5) .zx64 [.t 6] w0 ∧ Fit h0 (.p 7) .zx64 [.v 1] w0 :=
  ⟨⟨ready_of (by decide +kernel), Or.inr (by decide +kernel), trivial⟩,
    ⟨ready_of (by decide +kernel), Or.inr (by decide +kernel), by
      intro x hx l _ k _
      simp only [List.mem_singleton] at hx
      subst hx
      rfl⟩, fit_p (ready_of (by decide +kernel))⟩

theorem witness_MovesLogicAndCompare :
    Ready h0 [] [] w0 ∧ Fit h0 (.v 3) .zx64 [.v 1] w0 ∧ Alike h0 (.v 3) .zx64 [.v 1, .v 3] w0
    ∧ Ready h0 [.v 3] [.v 1, .v 3] w0
    ∧ Fit h0 (.v 3) .zx64 [.g 127] w0 ∧ Fit h0 (.v 3) .zx64 [.t 63] w0 ∧ Fit h0 (.v 3) .zx64 [.v 1, .v 2, .p 6] w0
    ∧ Fit h0 (.v 3) .zx64 [.v 1, .v 2, .zero] w0 ∧ Fit h0 (.v 3) .zx64 [.v 1, .v 2] w0
    ∧ (⟨0, true, false, 1⟩ : IntM).cc.toNat < 6 ∧ Fit h0 (.p 0) .zx64 [.v 1, .v 2] w0 :=
  by
  and_intros <;> first
    | trivial
    | decide +kernel
    | exact ready_of (by decide +kernel)
    | exact fit_v (ready_of (by decide +kernel))
    | exact fit_p (ready_of (by decide +kernel))

theorem witness_ShiftsAndBits (m : IntM) :
    Fit h0 (.v 3) m.expand [.v 1, .v 2] w0 ∧ Fit h0 (.v 3) m.expand [.v 1, .v 2, .v 4] w0
    ∧ Fit h0 (.v 3) m.expand [.v 1, .v 2, .v 4, .v 5] w0 ∧ Fit h0 (.v 3) m.expand [.v 1] w0 :=
  by and_intros <;> exact fit_v (ready_of (by decide +kernel))

theorem witness_FloatArithmetic (m : FltM) :
    Fit h0 (.v 3) m.expand [.v 1, .v 2] w0 ∧ Fit h0 (.v 3) m.expand [.v 1, .v 2, .v 4] w0
    ∧ Alike h0 (.v 3) .rep32 [.v 4] w0 ∧ Ready h0 [.v 3] [.v 1, .v 2, .v 4] w0 :=
  ⟨fit_v (ready_of (by decide +kernel)), fit_v (ready_of (by decide +kernel)), trivial, ready_of (by decide +kernel)⟩

theorem witness_FloatFormats :
    fp32 ∈ [fp32, fp16, bf16, fpE4M3, fpE5M2, fpE2M1] ∧ (1 : Nat) ≠ 0
    ∧ |(Num.fin false 1 0).toRat| ≤ (fp32.decode fp32.maxBits).toRat
    ∧ 1 < 2 ^ fp32.width ∧ (fp32.decode 1).isFin := by
  refine ⟨by simp, by decide, ?_, by decide, ?_⟩
  swap
  · rw [show fp32.decode 1 = .fin false 1 (-149) by decide +kernel]
    trivial
  have h : fp32.decode fp32.maxBits = .fin false 16777215 104 := by decide +kernel
  rw [h]
  norm_num [Num.toRat, signed]

/-- 2.5 lies midway between 2 and 3 in FP4, and 7 beyond its largest magnitude. -/
theorem witness_tiesAndOverflow :
    (let v := (Num.fin false 5 (-1)).toRat
     let r := (fpE2M1.decode (fpE2M1.encode .near true (.fin false 5 (-1)))).toRat
     |v| ≤ (fpE2M1.decode fpE2M1.maxBits).toRat ∧ 5 < 2 ^ fpE2M1.width ∧ (fpE2M1.decode 5).isFin
     ∧ |r - v| = |(fpE2M1.decode 5).toRat - v| ∧ (fpE2M1.decode 5).toRat ≠ r)
    ∧ (fpE2M1.decode fpE2M1.maxBits).toRat < |(Num.fin false 7 0).toRat| := by
  have h4 : fpE2M1.decode (fpE2M1.encode .near true (.fin false 5 (-1))) = .fin false 2 0 := by decide +kernel
  have h5 : fpE2M1.decode 5 = .fin false 3 0 := by decide +kernel
  have h7 : fpE2M1.decode fpE2M1.maxBits = .fin false 3 1 := by decide +kernel
  rw [h4, h5, h7]
  refine ⟨⟨?_, by decide, trivial, ?_, ?_⟩, ?_⟩ <;> norm_num [Num.toRat, signed]

theorem witness_FloatSelectAndSign (m : FltM) :
    Fit h0 (.v 3) m.expand [.v 1] w0 ∧ Fit h0 (.v 3) m.expand [.v 1, .v 2] w0 ∧ (⟨0, false, 6⟩ : FltM).rm.toNat < 7 :=
  ⟨fit_v (ready_of (by decide +kernel)), fit_v (ready_of (by decide +kernel)), by decide⟩

theorem witness_SpecialFunctions (m : FltM) :
    Fit h0 (.v 3) m.expand [.v 1] w0 ∧ bf16 ∈ [fp32, fp16, bf16] ∧ (1 : Nat) ≠ 0 :=
  ⟨fit_v (ready_of (by decide +kernel)), by simp, by decide⟩

/-- The last of the four parts of a conversion from FP32 to E4M3. -/
theorem witness_Conversions :
    let m : CvtM := ⟨3, false, 0, 0, 3⟩
    Ready h0 [.v 3] [.v 1, .v 2, .v 3] w0 ∧ Room h0 (.v 3) w0 ∧ Alike h0 (.v 3) .zx64 [.v 3] w0
    ∧ Alike h0 (.v 3) (cvtExpand m.sty) [.v 1] w0 ∧ Alike h0 (.v 3) .sx64 [.v 2] w0
    ∧ m.part.toNat < max (cvtWidth m.sty) (cvtWidth m.dty) / min (cvtWidth m.sty) (cvtWidth m.dty) :=
  ⟨ready_of (by decide +kernel), trivial, trivial, trivial, trivial, by decide⟩

theorem witness_WelfordTriples :
    Ready h0 [.v 3, .v 4] [.v 3, .v 4, .v 1] w0 ∧ RoomPair h0 (.v 3) w0 ∧ Alike h0 (.v 3) .rep32 [.v 1] w0
    ∧ Ready h0 [.v 254, .v 255] [.v 254, .v 255, .v 1, .v 2] w0 ∧ RoomPair h0 (.v 254) w0
    ∧ (∀ k, Spec.v 1 = .v k → RoomPair h0 (.v 1) w0) ∧ Alike h0 (.v 254) .zx64 [.v 1, .v 2] w0 := by
  refine ⟨ready_of (by decide +kernel), ?_, trivial, ready_of (by decide +kernel), ?_, fun k _ => ?_, trivial⟩ <;>
    (simp only [RoomPair]; decide +kernel)

/-- A QUANT of the placed group that has finished, with the destination `g5` and one element of value one. -/
def quantAcc : Access where
  gid := 1
  slices := 255
  level := .u
  pc := 0x4000
  kind := .quant
  info := { AccInfo.dst (.g 5) with aux := 0x11111111, qmax := [(0, 0x3F800000, false)] }
  record := 0
  rtype := .through
  rep := false
  evict := false
  elems := [⟨0, 0, 0, 0, 64, 0, 0, none⟩]
  lines := [⟨0, 0, false, .done⟩]
  acq := none
  rel := none
  gate := []
  wbs := []
  order := 0
  log := none
  ready := true
  failed := none

theorem witness_RunningMaximum :
    Ready h0 [.g 5] [.g 5, .v 1] w0 ∧ Room h0 (.g 5) w0 ∧ Ready h0 [.t 5] [.t 5, .v 1] w0 ∧ Room h0 (.t 5) w0
    ∧ (let s := { w0 with accs := [(7, quantAcc), (8, { quantAcc with lines := [⟨0, 0, false, .sent⟩] })] }
      quantAcc.info.dest ≠ .zero ∧ quantAcc.finished = true ∧ quantAcc.failed = none ∧ quantAcc.log = none ∧ quantAcc.acq = none
      ∧ (∀ p ∈ s.accs, p.1 ≠ 7 → ∀ l ∈ p.2.lines, l.status = .sent ∨ l.status = .done)
      ∧ (∃ m, quantAcc.quantMax = some m) ∧ (s.group 1).ended = false ∧ s.groups.get? 1 ≠ none
      ∧ (let s1 := { (s.modGroup 1 fun g => { g with level := .u }) with cur := ⟨1, 255, s.cur.word⟩ }
        let lanes := (List.range 32).filter fun l => (0x11111111 : Nat).testBit l && s1.curG.sliceLive (l / 4)
        s1.curG.gc.length + lanes.length ≤ 16 ∧ (lanes.map (· / 4)).Nodup
        ∧ s1.curG.whole quantAcc.slices = true ∧ lanes.map (· / 4) = s1.curG.liveSlices ∧ s.teams.get? s1.curG.team ≠ none
        ∧ s1.curT.groups.length = 1 ∧ s1.curT.tc.get? (tKey 5 s1.curG.idx) = none)) :=
  ⟨ready_of (by decide +kernel), Or.inr (by decide +kernel), ready_of (by decide +kernel), Or.inr (by decide +kernel),
    by decide, by decide +kernel, rfl, rfl, rfl, by decide +kernel, ⟨_, rfl⟩, by decide +kernel, by decide +kernel,
    by decide +kernel⟩

/-! ### Cross-lane -/

theorem witness_CrossLaneMoves (w : BitVec 2) :
    Fit h0 (.v 3) (wExpand w) [.v 1, .v 2] w0 ∧ Alike h0 (.v 3) .zx64 [.v 4] w0 ∧ Ready h0 [.v 3] [.v 1, .v 2, .v 4] w0
    ∧ Ready h0 [.v 3] [.v 1, .v 2, .p 6] w0 ∧ Ready h0 [.v 3] [.v 1, .v 2, .zero] w0
    ∧ Fit h0 (.v 3) (wExpand w) [.v 2] w0 ∧ Ready h0 [.v 3] [.v 1, .v 2] w0 :=
  ⟨fit_v (ready_of (by decide +kernel)), trivial, ready_of (by decide +kernel), ready_of (by decide +kernel),
    ready_of (by decide +kernel), fit_v (ready_of (by decide +kernel)), ready_of (by decide +kernel)⟩

theorem witness_VotesReductionsScans (m : RedM) :
    Ready h0 [.v 3] [.v 1] w0 ∧ Room h0 (.v 3) w0 ∧ (∀ n, Spec.v 3 ≠ .p n) ∧ Fit h0 (.v 3) m.expand [.v 1] w0 :=
  ⟨ready_of (by decide +kernel), trivial, nofun, fit_v (ready_of (by decide +kernel))⟩

/-! ### Control -/

/-- The placed group with every slice's stacks replaced. -/
def ws (f : Slice → Slice) : State := wg fun g => { g with slices := g.slices.map f }

/-- Every slice of the issuing gang, by its number. -/
theorem eachSlice_of {s : State} {p : Nat → Slice → Prop} (h : ∀ i < 8, p i (s.curG.slice i)) : EachSlice s p := by
  intro i hi
  refine h i ?_
  by_contra hc
  rw [BitVec.getLsbD_of_ge _ _ (by omega)] at hi
  cases hi

/-- A stack with one IF entry under which another side waits, and one with a LOOP entry below an IF entry. -/
def ifEntry : MaskEntry := ⟨false, false, 15, 3⟩
def loopEntry : MaskEntry := ⟨true, false, 15, 0⟩
def wIf : State := ws fun x => { x with masks := [ifEntry] }
def wLoop : State := ws fun x => { x with masks := [loopEntry] }
def wIfLoop : State := ws fun x => { x with masks := [ifEntry, loopEntry] }
/-- A stack one short of full, and a full one. -/
def w15 : State := ws fun x => { x with masks := List.replicate 15 loopEntry }
def w16 : State := ws fun x => { x with masks := List.replicate 16 loopEntry }

theorem witness_StructuredControl :
    Ready (hI 0) [] [.p 0, .imm] w15 ∧ EachSlice w15 (fun _ x => x.masks.length < 16) ∧ Ready (hI 0) [] [.imm] w15
    ∧ Ready (hI 0) [] [.imm] wIf ∧ Ready h0 [] [] wIf
    ∧ EachSlice wIf (fun _ x => x.masks = ifEntry :: [] ∧ ifEntry.loop = false) ∧ ifEntry.els = false
    ∧ Ready (hI 0) [] [.imm] wLoop ∧ EachSlice wLoop (fun _ x => x.masks = loopEntry :: [] ∧ loopEntry.loop = true)
    ∧ Ready (hI 0) [] [.p 0, .imm] wIfLoop
    ∧ EachSlice wIfLoop (fun _ x => x.masks = [ifEntry] ++ loopEntry :: []
        ∧ (∀ e ∈ [ifEntry], e.loop = false) ∧ loopEntry.loop = true) :=
  ⟨ready_of (by decide +kernel), eachSlice_of (by decide +kernel), ready_of (by decide +kernel), ready_of (by decide +kernel),
    ready_of (by decide +kernel), eachSlice_of (by decide +kernel), rfl, ready_of (by decide +kernel),
    eachSlice_of (by decide +kernel), ready_of (by decide +kernel), eachSlice_of (by decide +kernel)⟩

/-- The group's parts: eight slices, and sub-gangs that share none. -/
theorem issuing_of {s : State} {l : List SubGang} (h8 : s.curG.slices.length = 8) (hg : s.curG.gangs = l)
    (hc : ∃ x ∈ l, x.slices = s.cur.slices) (h0 : s.cur.slices ≠ 0)
    (hd : ∀ x ∈ l, ∀ y ∈ l, x.slices &&& y.slices = 0 ∨ x = y) : Issuing s := by
  refine ⟨h8, by rw [hg]; exact hc, ?_, h0⟩
  intro x hx y hy i h1 h2
  rw [hg] at hx hy
  refine (hd x hx y hy).resolve_left fun h => ?_
  have := congrArg (fun z : BitVec 8 => z.getLsbD i) h
  simp [h1, h2] at this

/-- The placed group's parts: its eight slices in one gang. -/
theorem issuing_one {s : State} (h8 : s.curG.slices.length = 8) (hg : s.curG.gangs = [⟨255, .none, 0⟩])
    (hc : s.cur.slices = 255) : Issuing s :=
  issuing_of h8 hg ⟨_, List.mem_cons_self, hc.symm⟩ (by rw [hc]; decide) (by decide)

theorem issuing_w0 : Issuing w0 := issuing_one (by decide +kernel) (by decide +kernel) rfl

/-- A call stack one short of full, and one with a frame at this depth. -/
def wCall7 : State := ws fun x => { x with calls := List.replicate 7 ⟨0, 0x4010⟩ }
def wRet : State := ws fun x => { x with calls := [⟨0, 0x4010⟩] }

theorem witness_TransfersAndExit :
    EachSlice wCall7 (fun i x => guardLanes wCall7 (hI 0) i &&& (x.am &&& x.live) = 0
        ∨ guardLanes wCall7 (hI 0) i &&& (x.am &&& x.live) = x.am &&& x.live)
    ∧ Ready (hI 0) [] [.imm] wCall7 ∧ EachSlice wCall7 (fun _ x => x.calls.length < 8)
    ∧ EachSlice wRet (fun i x => guardLanes wRet h0 i &&& (x.am &&& x.live) = 0
        ∨ guardLanes wRet h0 i &&& (x.am &&& x.live) = x.am &&& x.live)
    ∧ Ready h0 [] [] wRet ∧ EachSlice wRet (fun _ x => x.calls = [⟨0, 0x4010⟩] ∧ 0 = x.masks.length)
    ∧ Ready h0 [] [] w0 ∧ Issuing w0 ∧ (∀ x ∈ w0.curG.gangs, ∀ op, x.wait ≠ .rejoin op) := by
  refine ⟨eachSlice_of (by decide +kernel), ready_of (by decide +kernel), eachSlice_of (by decide +kernel),
    eachSlice_of (by decide +kernel), ready_of (by decide +kernel), eachSlice_of (by decide +kernel),
    ready_of (by decide +kernel), issuing_w0, ?_⟩
  have h : w0.curG.gangs = [⟨255, .none, 0⟩] := by decide +kernel
  intro x hx op
  rw [h, List.mem_singleton] at hx
  rw [hx]
  nofun

/-- An awake sub-gang beside one that naps, in a slot; it ends with every lane at its EXIT. -/
def wLast : State :=
  { (wg fun g => { g with gangs := [⟨1, .none, 0⟩, ⟨254, .nap 9 8, 0⟩], place := .slot 0 }) with cur := ⟨1, 1, 0⟩ }

theorem witness_exitLeaves :
    Ready h0 [] [] wLast ∧ wLast.curG.level ≠ .m ∧ (∃ n, wLast.curG.place = .slot n)
    ∧ ((match exec (.exit h0) wLast with
      | .next t => (t.group 1).place == .pool && (t.group 1).gangs == [⟨254, .nap 9 8, 0⟩]
      | _ => false) = true) :=
  ⟨ready_of (by decide +kernel), by decide +kernel, ⟨0, by decide +kernel⟩, by decide +kernel⟩

/-- Two slices apart: slices 1-7 wait at a REGANG elsewhere. -/
def wApart : State :=
  { (wg fun g => { g with
      gangs := [⟨1, .none, 0⟩, ⟨254, .rejoin (.regang h0), 0⟩]
      slices := { Slice.start 0x4000 15 with pc := 0x4008 } :: (g.slices.drop 1) }) with cur := ⟨1, 1, 0⟩ }
/-- The last slice to arrive at a rejoin the other seven wait at. -/
def wJoin (op : Instr) : State :=
  { (wg fun g => { g with gangs := [⟨1, .none, 0⟩, ⟨254, .rejoin op, 0⟩] }) with cur := ⟨1, 1, 0⟩ }

theorem issuing_two {s : State} {w : Wait} (h8 : s.curG.slices.length = 8)
    (hg : s.curG.gangs = [⟨1, .none, 0⟩, ⟨254, w, 0⟩]) (hc : s.cur.slices = 1) : Issuing s := by
  refine issuing_of h8 hg ⟨_, List.mem_cons_self, hc.symm⟩ (by rw [hc]; decide) ?_
  intro x hx y hy
  simp only [List.mem_cons, List.not_mem_nil, or_false] at hx hy
  obtain rfl | rfl := hx <;> obtain rfl | rfl := hy <;> first
    | exact Or.inr rfl
    | exact Or.inl (show (1 : BitVec 8) &&& 254 = 0 by decide)
    | exact Or.inl (show (254 : BitVec 8) &&& 1 = 0 by decide)

/-- A guard that is true in lane 0 only. -/
def hP : Hdr := { hI 0 with grd := ⟨0, 0, 0, false⟩ }
def wSplit : State := wg fun g => { g with p := [(0, [true])] }

theorem witness_ControlTraps :
    MayTrap w16 ∧ w16.cur.slices.getLsbD 0 = true ∧ Ready (hI 0) [] [.p 0, .imm] w16 ∧ 16 ≤ (w16.curG.slice 0).masks.length
    ∧ MayTrap w0 ∧ Ready (hI 0) [] [.p 0, .imm] w0 ∧ (∀ e ∈ (w0.curG.slice 0).masks, e.loop = false)
    ∧ Ready (hI 0) [] [.imm] w0 ∧ Ready (hI 0) [] [.imm] w16 ∧ Ready h0 [] [] w0 ∧ Ready h0 [] [] w16
    ∧ (∀ e r, (w16.curG.slice 0).masks = e :: r → e.loop = true)
    ∧ (∀ e r, (wIf.curG.slice 0).masks = e :: r → e.loop = false) ∧ Ready (hI 0) [] [.imm] wIf
    ∧ MayTrap wSplit ∧ Ready hP [] [.imm] wSplit
    ∧ guardLanes wSplit hP 0 &&& ((wSplit.curG.slice 0).am &&& (wSplit.curG.slice 0).live) = 1
    ∧ (wSplit.curG.slice 0).am &&& (wSplit.curG.slice 0).live = 15 := by
  refine ⟨Or.inl (by decide +kernel), by decide, ready_of (by decide +kernel), by decide +kernel, Or.inl (by decide +kernel),
    ready_of (by decide +kernel), by decide +kernel, ready_of (by decide +kernel), ready_of (by decide +kernel),
    ready_of (by decide +kernel), ready_of (by decide +kernel), ?_, ?_, ready_of (by decide +kernel),
    Or.inl (by decide +kernel), ready_of (by decide +kernel), by decide +kernel, by decide +kernel⟩
  · intro e r h
    rw [show (w16.curG.slice 0).masks = List.replicate 16 loopEntry by decide +kernel] at h
    cases h
    rfl
  · intro e r h
    rw [show (wIf.curG.slice 0).masks = [ifEntry] by decide +kernel] at h
    cases h
    rfl

/-- A full call stack; a frame of another depth. -/
def wCall8 : State := ws fun x => { x with calls := List.replicate 8 ⟨0, 0x4010⟩ }
def wRet1 : State := ws fun x => { x with calls := [⟨1, 0x4010⟩] }
/-- No slice's guards disagree. -/
def agreedB (h : Hdr) (s : State) : Bool := (List.range 8).all fun i =>
  let x := guardLanes s h i &&& ((s.curG.slice i).am &&& (s.curG.slice i).live)
  x == 0 || x == (s.curG.slice i).am &&& (s.curG.slice i).live

theorem witness_callTraps :
    (let s := wCall8
     MayTrap s ∧ Ready (hI 0) [] [.imm] s ∧ agreedB (hI 0) s = true
     ∧ guardLanes s (hI 0) 0 &&& ((s.curG.slice 0).am &&& (s.curG.slice 0).live) ≠ 0 ∧ 8 ≤ (s.curG.slice 0).calls.length)
    ∧ (∀ s ∈ [w0, wRet1], agreedB h0 s = true
      ∧ guardLanes s h0 0 &&& ((s.curG.slice 0).am &&& (s.curG.slice 0).live) ≠ 0
      ∧ ∀ c ∈ (s.curG.slice 0).calls.head?, c.depth ≠ (s.curG.slice 0).masks.length)
    ∧ MayTrap wRet1 ∧ Ready h0 [] [] wRet1 :=
  ⟨⟨Or.inl (by decide +kernel), ready_of (by decide +kernel), by decide +kernel, by decide +kernel, by decide +kernel⟩,
    by decide +kernel, Or.inl (by decide +kernel), ready_of (by decide +kernel)⟩

/-- Slice 0 at its EXIT, slice 1 and the others waiting at two rejoins apart. -/
def wExitApart : State :=
  { (wg fun g => { g with
      gangs := [⟨1, .none, 0⟩, ⟨2, .rejoin (.regang h0), 1⟩, ⟨252, .rejoin (.regang h0), 2⟩]
      slices := g.slices.take 1 ++ { Slice.start 0x4000 15 with pc := 0x4008 } :: g.slices.drop 2 }) with cur := ⟨1, 1, 0⟩ }

theorem witness_exitMismatch :
    let s := wExitApart
    let waiting := s.curG.liveSlices.filter fun j => !s.cur.slices.getLsbD j
    Issuing s ∧ Ready h0 [] [] s ∧ s.curG.level = .u
    ∧ (∀ j < 8, s.cur.slices.getLsbD j = true → (s.curG.slice j).live &&& ~~~ ((s.curG.slice j).am &&& guardLanes s h0 j) = 0)
    ∧ (∀ j ∈ waiting, s.curG.rejoinAt j ≠ none) ∧ waiting.head? = some 1
    ∧ (∃ i ∈ waiting, (s.curG.slice i).pc ≠ (s.curG.slice 1).pc)
    ∧ Ready h0 [.g 5] [.g 5, .zero] wApart :=
  ⟨issuing_of (l := [⟨1, .none, 0⟩, ⟨2, .rejoin (.regang h0), 1⟩, ⟨252, .rejoin (.regang h0), 2⟩]) (by decide +kernel)
      (by decide +kernel) ⟨_, List.mem_cons_self, rfl⟩ (by decide) (by decide +kernel), ready_of (by decide +kernel),
    by decide +kernel, by decide +kernel, by decide +kernel, by decide +kernel, ⟨2, by decide +kernel, by decide +kernel⟩,
    ready_of (by decide +kernel)⟩

theorem witness_RejoinMismatch :
    Issuing wApart ∧ Ready h0 [] [] wApart ∧ wApart.curG.level = .u ∧ wApart.curG.liveSlices.head? = some 0
    ∧ (∀ i ∈ wApart.curG.liveSlices, wApart.cur.slices.getLsbD i = true ∨ wApart.curG.rejoinAt i ≠ none)
    ∧ ∃ i ∈ wApart.curG.liveSlices, (wApart.curG.slice i).pc ≠ (wApart.curG.slice 0).pc :=
  ⟨issuing_two (w := .rejoin (.regang h0)) (by decide +kernel) (by decide +kernel) rfl, ready_of (by decide +kernel),
    by decide +kernel, by decide +kernel, by decide +kernel, ⟨1, by decide +kernel, by decide +kernel⟩⟩

/-- The whole gang of a team of one at MERGE.G, its point's round open. -/
def wMergeG : State := w0.modTeam 1 fun t => { t with points := [(3, ⟨false, 0, 0, 1⟩)] }

theorem witness_Rejoins :
    (let s := wJoin (.regang h0)
     Issuing s ∧ s.logged 1 = false ∧ s.curG.rejoinSlices ≠ [] ∧ Ready h0 [] [] s
      ∧ ∀ i ∈ s.curG.rejoinSlices, (s.curG.slice i).pc = s.curPc
        ∧ (s.cur.slices.getLsbD i = true ∨ s.curG.rejoinAt i = some (.regang h0)))
    ∧ (let op : Instr := .mergeS h0 ⟨0, 0, 0⟩ (.g 5) (.p 6)
       let s := wJoin op
       Issuing s ∧ s.logged 1 = false ∧ s.curG.rejoinSlices ≠ [] ∧ Ready h0 [.g 5] [.g 5, .p 6] s
      ∧ s.curG.shadowed 5 = false
      ∧ ∀ i ∈ s.curG.rejoinSlices, (s.curG.slice i).pc = s.curPc
        ∧ (s.cur.slices.getLsbD i = true ∨ s.curG.rejoinAt i = some op))
    ∧ Issuing wMergeG ∧ Ready h0 [.t 5] [.zero] wMergeG ∧ wMergeG.curG.level ≠ .m ∧ wMergeG.curG.whole 255 = true
    ∧ wMergeG.curG.ended = false ∧ wMergeG.myAccesses = [] ∧ wMergeG.teams.get? 1 ≠ none
    ∧ (wMergeG.curT.points.getD 3 RvPoint.reset).exp = wMergeG.curT.groups.length
    ∧ (wMergeG.curT.points.getD 3 RvPoint.reset).arr = 0 ∧ 1 ∈ wMergeG.curT.groups
    ∧ wMergeG.curT.merges.getD 3 [] = [] ∧ (∀ i ∈ wMergeG.curT.groups, i = 1) := by
  refine ⟨⟨issuing_two (w := .rejoin (.regang h0)) (by decide +kernel) (by decide +kernel) rfl, by decide +kernel, by decide +kernel,
      ready_of (by decide +kernel), by decide +kernel⟩,
    ⟨issuing_two (w := .rejoin (.mergeS h0 ⟨0, 0, 0⟩ (.g 5) (.p 6))) (by decide +kernel) (by decide +kernel) rfl,
      by decide +kernel, by decide +kernel,
      ready_of (by decide +kernel), by decide +kernel, by decide +kernel⟩, ?_, ready_of (by decide +kernel),
    by decide +kernel⟩
  exact issuing_one (by decide +kernel) (by decide +kernel) rfl

/-- A team of two at MERGE.G with `.agree`: group 2 has arrived, with a predicate to write. -/
def wMerge2 : State :=
  { (w0.modTeam 1 fun t => { t with
      groups := [1, 2], points := [(3, ⟨true, 0, 1, 2⟩)], merges := [(3, [⟨2, 5, 0, 0, some 4, 8⟩])], tc := [(tKey 5 0, 7)] }) with
    groups := w0.groups.set 2 { placeGroup with idx := 1, gangs := [⟨255, .mergeG 3 8, 0⟩] } }

theorem witness_mergeGModes :
    let s := wMerge2
    let pt := s.curT.points.getD 3 RvPoint.reset
    let arrs := s.curT.merges.getD 3 []
    Issuing s ∧ Ready h0 [.t 5] [.p 3] s ∧ s.curG.level ≠ .m ∧ s.curG.whole s.cur.slices = true ∧ s.curG.ended = false
    ∧ s.myAccesses = [] ∧ (s.curT.tc.Pairwise fun x y => x.1 < y.1) ∧ s.teams.get? s.curG.team ≠ none
    ∧ pt.exp = s.curT.groups.length ∧ pt.merge = true ∧ 1 ∈ s.curT.groups
    ∧ (∀ x ∈ arrs, x.group ≠ s.cur.gid ∧ x.name = 5 ∧ x.mode = 0 ∧ x.ty = 0)
    ∧ (∀ i ∈ s.curT.groups, i ≠ s.cur.gid → (s.group i).ended = true ∨ ∃ x ∈ arrs, x.group = i)
    ∧ (∀ x ∈ arrs, x.pred = some 4 ∧ s.groups.get? x.group ≠ none ∧ (s.group x.group).ended = false
      ∧ ∀ y ∈ arrs, y.group = x.group → y = x)
    ∧ s.curT.tc.get? (tKey 5 0) = some 7 ∧ s.curT.groups.map (fun i => s.curT.viewT 5 (s.group i).idx) = [7, 0] :=
  ⟨issuing_one (by decide +kernel) (by decide +kernel) rfl, ready_of (by decide +kernel), by decide +kernel⟩

theorem witness_CopiesOfNames :
    Ready h0 [.g 5] [] w0 ∧ w0.uniform h0 = true ∧ w0.curG.shadowed 5 = false ∧ Ready h0 [.t 63] [] w0
    ∧ w0.curG.whole w0.cur.slices = true ∧ w0.curG.slicesOn w0.cur.slices = w0.curG.liveSlices
    ∧ w0.teams.get? w0.curG.team ≠ none ∧ Ready h0 [.v 3] [.g 5] w0 ∧ Room h0 (.v 3) w0 ∧ Ready h0 [.v 3] [.t 63] w0 :=
  ⟨ready_of (by decide +kernel), by decide +kernel, by decide +kernel, ready_of (by decide +kernel), by decide +kernel,
    by decide +kernel, by decide +kernel, ready_of (by decide +kernel), trivial, ready_of (by decide +kernel)⟩

/-! ### Memory instructions -/

/-- A record with every right: space, element size code, extent, stride; its base is 0. -/
def recOf (spc esz ext str : Nat) : BitVec 256 :=
  BitVec.ofNat 256 (ext * 2 ^ 64 + esz * 2 ^ 104 + spc * 2 ^ 109 + 7 * 2 ^ 111 + str * 2 ^ 128)

/-- The placed group with a record in `b0`. -/
def wb (r : BitVec 256) : State := wg fun g => { g with b := [(0, r)] }

theorem localNow_of {s : State} {r : BitVec 256} (hv : recordFault (s.curG.level == .m) r = none) (hs : recSpc r = spcLocal)
    (ha : s.accs = []) (ht : s.curTile = 0) (he : s.curG.ended = false) (hb : (s.tile 0).busy = []) (hd : s.bad = [])
    (hc : s.localMem.wf = true) (hp : s.curG.place = .slot 0) (hk : s.copies = []) : LocalNow r s where
  slot := ⟨0, hp⟩
  restored := by rw [State.copiesRest, hk]; rfl
  valid := hv
  space := hs
  alone := by rw [ha]; exact fun p hp => nomatch hp
  here := by rw [ht]; decide
  alive := he
  idle := by intro b; rw [ht]; simp [State.blockBusy, hb, Table.getD]
  sound := by intro b; simp [State.isBad, hd]
  canon := hc

theorem localNow_wb {r : BitVec 256} (hv : recordFault false r = none) (hs : recSpc r = spcLocal) : LocalNow r (wb r) :=
  localNow_of hv hs rfl rfl rfl rfl rfl rfl rfl rfl

theorem settled_wb (r : BitVec 256) (rel : Option Nat) : Settled rel (wb r) := by
  intro sc _ _ _
  constructor
  · rw [show ((wb r).tile (wb r).curTile).l1 = [] from rfl]
    exact fun p hp => nomatch hp
  · rw [show (wb r).flying = [] from rfl]
    exact fun p hp => nomatch hp

/-- Records of 4-byte elements, of 16-byte elements, of blocks. -/
def r4 : BitVec 256 := recOf spcLocal 2 262144 4
def r16 : BitVec 256 := recOf spcLocal 4 65536 16
def r64 : BitVec 256 := recOf spcLocal 4 16384 64

/-- 4-byte elements; the 16-byte form up to the last register pair; blocks of four registers up to `v255`. -/
theorem witness_LocalLoads :
    LocalNow r4 (wb r4) ∧ recR r4 = true ∧ Ready h0 [.v 3] [.b 0, .v 1] (wb r4)
    ∧ (wb r4).widthOk r4 ⟨false, 0, 5, 0⟩ (.v 3) = true
    ∧ LocalNow r16 (wb r16) ∧ recR r16 = true ∧ Ready h0 [.v 254] [.b 0, .v 1] (wb r16)
    ∧ (wb r16).widthOk r16 ⟨true, 0, 0, 4⟩ (.v 254) = true ∧ (wb r16).busyOn [.v 255] = []
    ∧ LocalNow r64 (wb r64) ∧ blockRecordOk r64 = true
    ∧ Ready h0 (vRange (.v 240) 16) [.b 0, .v 1] (wb r64) ∧ (wb r64).rangeOut (.v 240) 16 = false :=
  ⟨localNow_wb (by decide +kernel) (by decide +kernel), by decide +kernel, ready_of (by decide +kernel), by decide +kernel,
    localNow_wb (by decide +kernel) (by decide +kernel), by decide +kernel, ready_of (by decide +kernel), by decide +kernel,
    by decide +kernel, localNow_wb (by decide +kernel) (by decide +kernel), by decide +kernel,
    ready_of (by decide +kernel), by decide +kernel⟩

theorem witness_LocalStores :
    LocalNow r4 (wb r4) ∧ recW r4 = true ∧ Ready h0 [] [.b 0, .v 1, .v 2] (wb r4)
    ∧ (wb r4).widthOk r4 ⟨true, 0, 5, 4⟩ (.v 2) = true ∧ Settled (some 4) (wb r4)
    ∧ LocalNow r16 (wb r16) ∧ Ready h0 [] [.b 0, .v 1, .v 254] (wb r16)
    ∧ (wb r16).widthOk r16 ⟨false, 0, 0, 0⟩ (.v 254) = true ∧ (wb r16).busyOn [Spec.second (.v 254)] = []
    ∧ (wb r16).isBad (.reg 1 (Spec.second (.v 254))) = false
    ∧ Settled none (wb r16)
    ∧ LocalNow r64 (wb r64) ∧ recW r64 = true ∧ blockRecordOk r64 = true
    ∧ Ready h0 [] ([.b 0, .v 1, .zero] ++ vRange (.v 2) 16) (wb r64) ∧ (wb r64).rangeOut (.v 2) 16 = false :=
  ⟨localNow_wb (by decide +kernel) (by decide +kernel), by decide +kernel, ready_of (by decide +kernel), by decide +kernel,
    settled_wb _ _, localNow_wb (by decide +kernel) (by decide +kernel), ready_of (by decide +kernel), by decide +kernel,
    by decide +kernel, by decide +kernel, settled_wb _ _, localNow_wb (by decide +kernel) (by decide +kernel), by decide +kernel,
    by decide +kernel, ready_of (by decide +kernel), by decide +kernel⟩

/-- An AND.u32 that is a release at system scope; an ADD.f32; REDQ's addition of 8 bytes. -/
theorem witness_LocalAtomics :
    LocalNow r4 (wb r4) ∧ (wb r4).atomCheck r4 4 = none ∧ atWidth 3 0 = 4 ∧ Settled (ordRel ⟨0, 3, 2, 4⟩) (wb r4)
    ∧ (let s := wb r4
       let ins := s.inRange h0 r4 4 1 fun l => (s.src h0 .zx64 (.v 1) l).toNat
       ∀ l ∈ ins, ∀ j ∈ ins, (s.src h0 .zx64 (.v 1) l).toNat = (s.src h0 .zx64 (.v 1) j).toNat)
    ∧ Ready h0 [.v 3] [.b 0, .v 1, .v 2, .v 4] (wb r4) ∧ Ready h0 [.zero] [.b 0, .v 1, .v 2, .v 4] (wb r4)
    ∧ Ready h0 [] [.b 0, .v 1, .v 2] (wb r4)
    ∧ (wb r4).atomCheck r4 (atWidth 8 0) = none ∧ (wb r4).detOf (wb r4).curG = false
    ∧ (let r := recOf spcLocal 3 131072 8
       LocalNow r (wb r) ∧ (wb r).atomCheck r (atWidth opAddq 0) = none ∧ Ready h0 [] [.b 0, .v 1, .v 2, .v 4] (wb r)) := by
  refine ⟨localNow_wb (by decide +kernel) (by decide +kernel), by decide +kernel, by decide +kernel, settled_wb _ _,
    ?_, ready_of (by decide +kernel), ready_of (by decide +kernel), ready_of (by decide +kernel),
    by decide +kernel, by decide +kernel, localNow_wb (by decide +kernel) (by decide +kernel), by decide +kernel,
    ready_of (by decide +kernel)⟩
  intro _ _ l _ j _
  rfl

/-- The sub-core's tiles owned by a group, as `ACC_FIRST` leaves them (R336). -/
def owned (s : State) : State := s.modSub 0 0 fun c =>
  { c with accown := 16, acclive := 15, acctag := [(0, 2 ^ 63), (1, 2 ^ 63 + 1), (2, 2 ^ 63 + 2), (3, 2 ^ 63 + 3)] }

/-- The tiles found, as a Boolean. -/
def tilesAre (x : Tiles) (l : List Nat) : Bool :=
  match x with
  | .ok ps => ps == l
  | _ => false

theorem tiles_of {x : Tiles} {l : List Nat} (h : tilesAre x l = true) : x = .ok l := by
  cases x with
  | ok ps => rw [beq_iff_eq.mp h]
  | trap _ _ => cases h
  | wait => cases h

theorem localNow_owned {r : BitVec 256} (hv : recordFault false r = none) (hs : recSpc r = spcLocal) :
    LocalNow r (owned (wb r)) := localNow_of hv hs rfl rfl rfl rfl rfl rfl rfl rfl

theorem witness_TileTransfers :
    let s := owned (wb r4)
    s.curG.level ≠ .m ∧ s.curTile < 192 ∧ s.uniform h0 = true ∧ s.curG.wholeMx s.cur.slices = true
    ∧ s.tilesOf 1 [.a 3] = .ok [3] ∧ s.tileBusy 1 3 = false ∧ LocalNow r4 s ∧ recEsz r4 = 2
    ∧ Ready h0 [] [.a 3, .b 0, .g 1, .g 2] s ∧ recR r4 = true ∧ Ready h0 [] [.b 0, .g 1, .a 3, .g 2] s ∧ recW r4 = true
    ∧ s.accBad 1 [3] = none :=
  ⟨by decide +kernel, by decide +kernel, by decide +kernel, by decide +kernel, tiles_of (by decide +kernel), by decide +kernel,
    localNow_owned (by decide +kernel) (by decide +kernel), by decide +kernel, ready_of (by decide +kernel), by decide +kernel,
    ready_of (by decide +kernel), by decide +kernel, by decide +kernel⟩

/-- One access of the placed group with one element on one line that is next. -/
def oneLine (k : AccKind) : Access :=
  { quantAcc with
    kind := k, record := recOf spcGlobal 2 1024 4, info := AccInfo.dst (.v 3), rtype := .owned
    elems := [⟨0, 0, 0, 4, 4, 7, 0, none⟩], lines := [⟨0x280, 5, false, .todo⟩] }
def wAcc (k : AccKind) (l1 : Table L1Line) : State :=
  { (w0.modTile 0 fun t => { t with l1 := l1 }) with accs := [(7, oneLine k)] }
/-- A line current and owned by its tile. -/
def freshLine : L1Line := { L1Line.fresh with v := true, wok := true }

theorem witness_LinesOfAccesses :
    (∀ k, (wAcc k []).accs.get? 7 = some (oneLine k)) ∧ (∀ k, (oneLine k).lines[0]? = some ⟨0x280, 5, false, .todo⟩)
    ∧ (∀ k, recSpc (oneLine k).record = spcGlobal) ∧ (∀ k, (wAcc k []).accTile (oneLine k) = 0)
    ∧ (∀ k, (oneLine k).rtype = .owned)
    ∧ (let s := wAcc .load [(5, freshLine)]
       s.l1 0 5 = some freshLine ∧ freshLine.current (s.tile 0) = true
       ∧ s.writing 0 5 ((oneLine .load).maskOn 0) = false ∧ s.hitBad 0 5 ((oneLine .load).maskOn 0) = false)
    ∧ (∀ x, (wAcc .load []).l1 0 5 = some x → x.hits ((wAcc .load []).tile 0) false ((oneLine .load).maskOn 0) = false)
    ∧ ((oneLine .store).writeOn 0).2.2.2 = 0 ∧ (wAcc .store [(5, freshLine)]).l1 0 5 = some freshLine
    ∧ freshLine.wok = true ∧ (wAcc .store []).l1 0 5 = none ∧ (wAcc .red []).l1 0 5 = none :=
  ⟨fun _ => rfl, fun _ => rfl, fun _ => (by decide +kernel : recSpc (recOf spcGlobal 2 1024 4) = spcGlobal), fun _ => rfl, fun _ => rfl,
    ⟨rfl, by decide +kernel, by decide +kernel, by decide +kernel⟩, fun _ h => (nomatch h), by decide +kernel, rfl, rfl, rfl,
    rfl⟩

/-- A line with dirty bytes beside the access; a store of the same bytes on its way. -/
def dirtyLine : L1Line := { freshLine with dmask := 3 }
def wFlying : State :=
  { wAcc .load [(5, freshLine)] with net := [(9, { w0.newReq evWrite 5 0 (.acc 3 0) with mask := 0xF0, id := 9 })] }

theorem badMask_of {s : State} (h : s.bad = []) (t l : Nat) : s.badMask t l = 0 := by
  simp [State.badMask, State.isBad, h]

theorem witness_linesPresent :
    (∀ k, (wAcc k [(5, dirtyLine)]).l1 0 5 = some dirtyLine ∧ (wAcc k [(5, dirtyLine)]).badMask 0 5 = 0) ∧ dirtyLine.dmask ≠ 0
    ∧ (∀ x, (wAcc .load []).l1 0 5 = some x → x.dmask = 0)
    ∧ ({ oneLine .load with rtype := .uncached } : Access).rtype = .uncached
    ∧ ({ oneLine .store with rtype := .through } : Access).rtype ≠ .owned
    ∧ (wFlying.l1 0 5 = some freshLine ∧ freshLine.hits (wFlying.tile 0) false ((oneLine .load).maskOn 0) = true
      ∧ wFlying.writing 0 5 ((oneLine .load).maskOn 0) = true) :=
  ⟨fun k => ⟨rfl, badMask_of (s := wAcc k [(5, dirtyLine)]) rfl 0 5⟩, by decide, fun _ h => (nomatch h), rfl, nofun,
    rfl, by decide +kernel, by decide +kernel⟩

/-- A zero record, a record without rights, and one with every right. -/
def r0 : BitVec 256 := 0
def rNone : BitVec 256 := BitVec.ofNat 256 (2 ^ 64 + 2 * 2 ^ 104 + 4 * 2 ^ 128)

theorem witness_RecordChecks :
    MayTrap (wb r0) ∧ (wb r0).actLanes h0 ≠ [] ∧ recordFault false r0 = some 2
    ∧ Ready h0 [.v 3] [.b 0, .v 1] (wb r0) ∧ Ready h0 [] [.b 0, .v 1, .v 2] (wb r0)
    ∧ Ready h0 [.v 3] [.b 0, .v 1, .v 2, .v 4] (wb r0) ∧ Ready h0 [] [.b 0, .v 1, .v 2, .v 4] (wb r0)
    ∧ (wb r0).detOf (wb r0).curG = false
    ∧ MayTrap (wb rNone) ∧ (wb rNone).actLanes h0 ≠ [] ∧ recordFault false rNone = none ∧ recR rNone = false
    ∧ recW rNone = false ∧ recA rNone = false
    ∧ recSpc r4 < 4 ∧ recSwz r4 < 4 ∧ recExt r4 ≤ 262144 ∧ 262143 < recExt r4
    ∧ (let d := recOf spcDesc 1 9 2
       recSpc d = 2 ∧ recordFault false d = none ∧ 8 < recExt d) :=
  ⟨Or.inl (by decide +kernel), by decide +kernel, by decide +kernel, ready_of (by decide +kernel),
    ready_of (by decide +kernel), ready_of (by decide +kernel), ready_of (by decide +kernel), by decide +kernel,
    Or.inl (by decide +kernel), by decide +kernel⟩

/-- Each condition of R63 alone, at a boundary value. -/
theorem witness_recordConditions :
    recordFault false (BitVec.ofNat 256 (5 * 2 ^ 104 + 32 * 2 ^ 128)) = some 1
    ∧ recordFault false (BitVec.ofNat 256 (2 * 2 ^ 104 + 3 * 2 ^ 128)) = some 2
    ∧ recordFault false (BitVec.ofNat 256 (2 + 2 * 2 ^ 104 + 4 * 2 ^ 128)) = some 3
    ∧ recordFault false (BitVec.ofNat 256 (3 * 2 ^ 114 + 2 ^ 128)) = some 4
    ∧ recordFault false (BitVec.ofNat 256 (2 ^ 56 + 2 ^ 128)) = some 5
    ∧ recordFault false (BitVec.ofNat 256 (32 + 2 ^ 104 + 2 * 2 ^ 109 + 2 * 2 ^ 128)) = some 6
    ∧ recordFault false (BitVec.ofNat 256 (2 * 2 ^ 104 + 3 * 2 ^ 109 + 4 * 2 ^ 128)) = some 7
    ∧ recordFault false (BitVec.ofNat 256 (3 * 2 ^ 104 + 3 * 2 ^ 109 + 8 * 2 ^ 128)) = some 8
    ∧ recordFault true (BitVec.ofNat 256 (3 * 2 ^ 104 + 3 * 2 ^ 109 + 8 * 2 ^ 128)) = none := by
  decide +kernel

theorem witness_RecordsMaskPrefetch :
    (let s := wb r4
     s.uniform h0 = true ∧ s.curG.whole s.cur.slices = true ∧ s.curG.slicesOn s.cur.slices = s.curG.liveSlices
     ∧ Ready h0 [.b 1] [.g 1, .g 2, .g 3, .g 4] s ∧ Ready h0 [.b 1] [.b 0, .zero, .zero, .zero] s
     ∧ recordFault (s.curG.level == .m) r4 = none
     ∧ (∀ l ∈ (s.curG.slicesOn s.cur.slices).map s.curG.firstLane, (s.src h0 .zx64 .zero l).toNat = 0))
    ∧ (let s := (wb r4).modGroup 1 fun g => { g with g := [(2, 7), (4, 4), (3, BitVec.ofNat 64 ((r4.toNat / 2 ^ 104) % 2 ^ 16))] }
       ∀ l ∈ (s.curG.slicesOn s.cur.slices).map s.curG.firstLane,
        (BitVec.ofNat 256 (7 * 2 ^ 64 + (r4.toNat / 2 ^ 104) % 2 ^ 16 * 2 ^ 104 + 4 * 2 ^ 128)).toNat
          = (s.src h0 .zx64 (.g 1) l).toNat + (s.src h0 .zx64 (.g 2) l).toNat * 2 ^ 64
            + (s.src h0 .zx64 (.g 3) l).toNat * 2 ^ 104 + (s.src h0 .zx64 (.g 4) l).toNat * 2 ^ 128)
    ∧ Ready h0 [.v 3] [.b 0] (wb r4) ∧ Room h0 (.v 3) (wb r4) ∧ Ready h0 [.g 5] [] w0 ∧ Room h0 (.g 5) w0
    ∧ Ready h0 [] [.b 0, .v 1] (wb r4) ∧ ((wb r4).tile (wb r4).curTile).l1 = [] :=
  ⟨⟨by decide +kernel, by decide +kernel, by decide +kernel, ready_of (by decide +kernel), ready_of (by decide +kernel),
    by decide +kernel, by decide +kernel⟩, by decide +kernel, ready_of (by decide +kernel), trivial,
    ready_of (by decide +kernel), Or.inr (by decide +kernel), ready_of (by decide +kernel), by decide +kernel⟩

/-! ### Tokens and fences -/

/-- The placed group with token 0 counting two. -/
def wTok : State := w0.modTeam 1 fun t => { t with tokens := [(0, { Token.reset with count := 2 })] }
def hWt : Hdr := { h0 with wt := 1 }

theorem witness_Tokens :
    w0.uniform h0 = true ∧ w0.teams.get? w0.curG.team ≠ none ∧ Ready h0 [.k 7] [.g 1] w0
    ∧ Ready h0 [.v 3] [.k 0] wTok ∧ Room h0 (.v 3) wTok ∧ wTok.resultLanes h0 (.v 3) ≠ []
    ∧ (wTok.curT.token 0).count < 65536 ∧ (wTok.curT.token 0).eidx < 2 ^ 20
    ∧ Ready (hI 0) [] [.imm] w0 ∧ w0.curG.level ≠ .m ∧ w0.curG.whole w0.cur.slices = true
    ∧ w0.curG.slicesOn w0.cur.slices = w0.curG.liveSlices
    ∧ (∀ j < 8, (255 : BitVec 8).getLsbD j = true → (w0.curT.token j).count = 0)
    ∧ Ready (hI 0) [] [.imm] wTok ∧ (∃ j < 8, (1 : BitVec 8).getLsbD j = true ∧ (wTok.curT.token j).count ≠ 0)
    ∧ Ready hWt [] [] w0 ∧ wTok.groups.get? 1 ≠ none
    ∧ (∃ j < 8, hWt.wt.getLsbD j = true ∧ (wTok.curT.token j).count ≠ 0) :=
  ⟨by decide +kernel, by decide +kernel, ready_of (by decide +kernel), ready_of (by decide +kernel), trivial,
    by decide +kernel, by decide +kernel, by decide +kernel, ready_of (by decide +kernel), by decide +kernel,
    by decide +kernel, by decide +kernel, by decide +kernel, ready_of (by decide +kernel),
    by decide +kernel, ready_of (by decide +kernel), by decide +kernel, by decide +kernel⟩

/-- A gang that waits for a token, at a WT field or in the block of a YIELD; the token reads zero or does not. -/
def wWait (w : Wait) (n : Nat) : State := (w0.modGroup 1 fun g => { g with gangs := [⟨255, w, 0⟩] }).modTeam 1 fun t =>
  { t with tokens := [(0, { Token.reset with count := n })] }

theorem witness_waits :
    (∀ w ∈ [Wait.tokens 1, .yield 1 0x40], ∀ n ∈ [0, 1],
      ((wWait w n).group 1).gangAt 0 = some ⟨255, w, 0⟩ ∧ (wWait w n).groups.get? 1 ≠ none
      ∧ (wWait w n).teams.get? ((wWait w n).group 1).team ≠ none)
    ∧ (∀ j < 8, (1 : BitVec 8).getLsbD j = true → ((wWait (.tokens 1) 0).curT.token j).count = 0)
    ∧ ∃ j < 8, (1 : BitVec 8).getLsbD j = true ∧ ((wWait (.yield 1 0x40) 1).curT.token j).count ≠ 0 :=
  ⟨by decide +kernel, by decide +kernel, by decide +kernel⟩

def doneFence : Fence := ⟨1, 0, 0, 4, true, [], [], [], true, true, []⟩

theorem witness_Fences :
    Ready h0 [.k 0] [] wTok ∧ wTok.uniform h0 = true ∧ wTok.teams.get? wTok.curG.team ≠ none
    ∧ (wTok.curT.token 0).count < 65535
    ∧ (let s := { wTok with fences := [(9, doneFence)] }
       s.fences.get? 9 = some doneFence ∧ s.teams.get? doneFence.team ≠ none
       ∧ (∀ i ∈ doneFence.accs, s.accs.get? i = none) ∧ (∀ i ∈ doneFence.copies, s.copies.get? i = none)
       ∧ (∀ i ∈ doneFence.loops, s.loopPending i = false) ∧ (doneFence.st = true → doneFence.flushed = true)
       ∧ ∀ i ∈ doneFence.wbs, s.inFlight i = false) :=
  ⟨ready_of (by decide +kernel), by decide +kernel, by decide +kernel, by decide +kernel, rfl, by decide +kernel,
    fun _ h => (nomatch h), fun _ h => (nomatch h), fun _ h => (nomatch h), fun _ => rfl, fun _ h => (nomatch h)⟩

/-- A fence `.st` at cluster scope with a dirty line still in its tile's L1. -/
theorem witness_fenceFlush :
    let f : Fence := { doneFence with scope := 2, flushed := false }
    let s := { (wTok.modTile 0 fun t => { t with l1 := [(5, dirtyLine)] }) with fences := [(9, f)] }
    s.fences.get? 9 = some f ∧ f.st = true ∧ f.flushed = false ∧ f.tile = 0 ∧ (∀ l, s.badMask 0 l = 0)
    ∧ s.l1 0 5 = some dirtyLine ∧ dirtyLine.dmask ≠ 0 :=
  ⟨rfl, rfl, rfl, rfl, fun l => badMask_of rfl 0 l, rfl, by decide⟩

/-- A scope counter at its last value. -/
theorem witness_acquire : (2 : Nat) ≤ 4 ∧ (4 : Nat) ≤ 4 ∧ ({ Tile.reset with tgs := 15 } : Tile).tgs = 15 := ⟨by decide, by decide, rfl⟩

/-! ### Matrix unit -/

/-- A block of BF16 zeros with scale 2^0, and its element type. -/
def blk0 : Blk := ⟨0, 0x107F⟩

theorem witness_BlockPairsAreExact :
    eltOf blk0.d = some .bf16 ∧ Elt.bf16.count = Elt.bf16.count
    ∧ (∀ i < Elt.bf16.count, (Elt.bf16.value (Elt.bf16.get blk0.data i)).isFin)
    ∧ (∃ j, scaleOf blk0.d = some j) ∧ (fp32.decode (0 : W32).toNat).isFin
    ∧ (∃ a : Desc, (∃ e, eltOf a = some e) ∧ scaleOf a = none) ∧ pairOf true .sp2 .int8 = true
    ∧ Elt.sp2.count = Elt.int8.count := by
  refine ⟨by decide +kernel, rfl, fun i hi => ?_, ⟨_, rfl⟩, ?_, ⟨0x10FF, ⟨.bf16, by decide +kernel⟩, by decide +kernel⟩,
    by decide +kernel, by decide +kernel⟩
  · have h : ∀ i < Elt.bf16.count, ∃ e : Int, Elt.bf16.value (Elt.bf16.get blk0.data i) = .fin false 0 e :=
      fun i _ => ⟨_, by
        rw [show Elt.bf16.get blk0.data i = 0 by simp [Elt.get, blk0]]
        rfl⟩
    obtain ⟨e, he⟩ := h i hi
    rw [he]
    trivial
  · rw [show fp32.decode (0 : W32).toNat = .fin false 0 (-149) by decide +kernel]
    trivial

/-- Registers 50 and 51 hold BF16 descriptors, for A and for B; 52 holds none of that width class, 53 E4M3 and 54 INT8
ones. -/
def mxV : Table (List W64) :=
  [(50, List.replicate 32 0x107F107F), (51, List.replicate 32 0x107F107F), (52, List.replicate 32 0),
    (53, List.replicate 32 0x207F207F), (54, List.replicate 32 0x237F237F)]
def wm : State := owned (wg fun g => { g with v := mxV })
def mBf : MmaM := ⟨1, 1, false, false, false⟩

theorem onTile_of {s : State} {xs : List Spec} {ps : List Nat} (hw : s.curG.wholeMx s.cur.slices = true)
    (hu : s.uniform h0 = true) (ht : tilesAre (s.tilesOf s.cur.gid xs) ps = true)
    (hb : (ps.all fun p => !s.tileBusy s.cur.gid p) = true) : OnTile h0 xs ps s :=
  ⟨hw, hu, tiles_of ht, fun p hp => by
    have := List.all_eq_true.mp hb p hp
    simpa using this⟩

theorem blocksFit_wm : BlocksFit mBf (wm.blkA 0 50) (wm.blkB 16 51) := by
  have ha : ∀ i < 32, ∀ p ∈ [0, 1], (wm.blkA 0 50 i p).d = 0x107F := by decide +kernel
  have hb : ∀ i < 32, ∀ p ∈ [0, 1], (wm.blkB 16 51 i p).d = 0x107F := by decide +kernel
  have hw : widthClass 0x107F = 1 := by decide +kernel
  have he : eltOf 0x107F = some .bf16 := by decide +kernel
  constructor
  · intro i hi p hp
    rw [ha i hi p hp, hb i hi p hp]
    exact ⟨hw, hw⟩
  · intro i hi n hn p hp
    rw [ha i hi p hp, hb n hn p hp]
    exact ⟨.bf16, .bf16, he, he, rfl⟩

/-- Four groups of one team at a meeting, one on each sub-core. -/
def mateGroup (i : Nat) : Group :=
  { placeGroup with
    idx := i, v := mxV
    gangs := [⟨255, .meeting (.mma h0 { mBf with quad := true } (.a 0) (.v 0) (.v 16) (.v 50) (.v 51)), 0⟩] }
def wQuad : State :=
  { w0 with
    groups := [(0, w0.group 0), (1, mateGroup 0), (2, mateGroup 1), (3, mateGroup 2), (4, mateGroup 3)]
    teams := w0.teams.set 1 { placeTeam with groups := [1, 2, 3, 4] }
    subs := (List.range 4).map fun q => (q, { SubCore.reset with
      accown := 16, acclive := 1, acctag := [(0, BitVec.ofNat 64 (2 ^ 63 + q * 2 ^ 8))] }) }

theorem witness_MatrixMultiply :
    mBf.quad = false ∧ Ready h0 [] ([.a 3] ++ mmaRegs mBf (.v 0) (.v 16) (.v 50) (.v 51)) wm
    ∧ mmaCheck mBf (.v 0) (.v 16) wm = none ∧ OnTile h0 [.a 3] [3] wm ∧ wm.accBad 1 [3] = none ∧ classesOk mBf = true
    ∧ (wm.subOf 1).mma = none ∧ BlocksFit mBf (wm.blkA 0 50) (wm.blkB 16 51) ∧ MayTrap wm
    ∧ classesOk ⟨1, 2, false, false, false⟩ = false ∧ widthClass (wm.blkA 0 52 0 0).d ≠ 1
    ∧ Ready h0 [] ([.a 3] ++ mmaRegs mBf (.v 0) (.v 16) (.v 52) (.v 51)) wm := by
  refine ⟨rfl, ready_of (by decide +kernel), by decide +kernel,
    onTile_of (by decide +kernel) (by decide +kernel) (by decide +kernel) (by decide +kernel), by decide +kernel,
    by decide +kernel, by decide +kernel, blocksFit_wm, Or.inl (by decide +kernel), by decide +kernel, by decide +kernel,
    ready_of (by decide +kernel)⟩

/-- Operand B of another width; INT8 with E4M3, which no row of R228 has. -/
theorem witness_matrixTraps :
    let m8 : MmaM := ⟨2, 2, false, false, false⟩
    (∀ i < 32, ∀ k < 2, widthClass (wm.blkA 0 50 i k).d = 1) ∧ widthClass (wm.blkB 16 52 0 0).d ≠ 1
    ∧ readyB h0 [] ([.a 3] ++ mmaRegs mBf (.v 0) (.v 16) (.v 50) (.v 52)) wm = true
    ∧ classesOk m8 = true ∧ mmaCheck m8 (.v 0) (.v 16) wm = none
    ∧ readyB h0 [] ([.a 3] ++ mmaRegs m8 (.v 0) (.v 16) (.v 54) (.v 53)) wm = true
    ∧ (∀ i < 32, ∀ k < 2, widthClass (wm.blkA 0 54 i k).d = 2 ∧ widthClass (wm.blkB 16 53 i k).d = 2)
    ∧ ∀ x y, eltOf (wm.blkA 0 54 0 0).d = some x → eltOf (wm.blkB 16 53 0 0).d = some y → pairOf false x y = false := by
  refine ⟨by decide +kernel, by decide +kernel, by decide +kernel, by decide +kernel, by decide +kernel, by decide +kernel,
    by decide +kernel, ?_⟩
  rw [show eltOf (wm.blkA 0 54 0 0).d = some .int8 by decide +kernel,
    show eltOf (wm.blkB 16 53 0 0).d = some .e4m3 by decide +kernel]
  rintro _ _ ⟨⟩ ⟨⟩
  rfl

/-- The meeting's tile issues; it is in a changeover; its throttle denies the cycle. -/
theorem witness_meetingCycle :
    (wQuad.tile (wQuad.team 1).tile).change = none ∧ wQuad.mayIssue (wQuad.team 1).tile = true
    ∧ (let s := wQuad.modTile 0 fun t => { t with change := some true }
       (s.tile (s.team 1).tile).change ≠ none)
    ∧ (wQuad.modTile 0 fun t => { t with throt := 4, clock := 4 }).mayIssue 0 = false := by
  decide +kernel

theorem witness_quadMeeting :
    let gids := (wQuad.team 1).groups.filter fun i => (wQuad.group i).idx / 4 == 0
    let ms := (gids.filterMap wQuad.mateOf).filterMap (·.2)
    gids.Nodup ∧ gids.length = 4 ∧ ms.map (·.gid) = gids
    ∧ (∀ i ∈ gids, (wQuad.group i).ended = false ∧ (wQuad.group i).stopped = false ∧ wQuad.groups.get? i ≠ none
        ∧ (wQuad.group i).team = 1 ∧ (wQuad.group i).qseq = (wQuad.group (gids.headD 0)).qseq)
    ∧ (gids.map fun i => (wQuad.group i).q).Nodup
    ∧ (∀ k ∈ ms, (wQuad.subOf k.gid).mma = none ∧ k.silent = false) ∧ meetingTrap ms (ms.flatMap (·.b)) = none :=
  ⟨by decide +kernel, by decide +kernel, by decide +kernel, by decide +kernel, by decide +kernel, by decide +kernel,
    by decide +kernel⟩

theorem witness_mmaComplete : ((w0.modSub 0 3 fun c => { c with mma := some (1, 0) }).sub 0 3).mma ≠ none := by
  decide +kernel

/-- Two whole-tile records, and an MLOOP's parameters: one step from offset zero. -/
def rMx : BitVec 256 := recOf spcLocal 4 256 16
def wl : State := owned (wg fun g => { g with b := [(0, rMx), (1, rMx)], g := [(127, 0), (126, 0), (12, 1)] })
def ml : MLoop := ⟨1, 1, 255, 0, 0, mBf, rMx, rMx, 0, 0, 0, 0, 1, 0, false, 0, none⟩
/-- A sub-core that runs it, its team's local store full of BF16 blocks. -/
def wRun (l : MLoop) : State := (wl.modSub 0 0 fun c => { c with mloops := [l] }).modTile 0 fun t =>
  { t with storeDesc := (List.range 64).map fun i => (i, (0x107F : Desc)) }

theorem blocksFit_wRun : BlocksFit mBf (fun i p => (wRun ml).localBlk 1 rMx (0 + 128 * i + 64 * p))
    (fun i p => (wRun ml).localBlk 1 rMx (0 + 128 * i + 64 * p)) := by
  have ha : ∀ i < 32, ∀ p ∈ [0, 1], ((wRun ml).localBlk 1 rMx (0 + 128 * i + 64 * p)).d = 0x107F := by decide +kernel
  have hw : widthClass 0x107F = 1 := by decide +kernel
  have he : eltOf 0x107F = some .bf16 := by decide +kernel
  constructor
  · intro i hi p hp
    rw [ha i hi p hp]
    exact ⟨hw, hw⟩
  · intro i hi n hn p hp
    rw [ha i hi p hp, ha n hn p hp]
    exact ⟨.bf16, .bf16, he, he, rfl⟩

theorem witness_MatrixLoops :
    Ready h0 [] [.a 3, .b 0, .b 1, .k 7, .g 10, .g 11, .g 12] wl ∧ wl.curG.level ≠ .m ∧ (10 : BitVec 7).toNat < 126
    ∧ OnTile h0 [.a 3] [3] wl ∧ classesOk mBf = true ∧ recordFault false rMx = none ∧ recR rMx = true
    ∧ recSpc rMx = spcLocal
    ∧ (let g (i : Nat) : W64 := wl.curG.viewG (10 + i) (wl.leader.getD 0 / 4)
       field (g 2) 16 48 = 0 ∧ field (g 2) 0 16 = 1 ∧ field (g 0) 0 32 = 0 ∧ field (g 1) 0 32 = 0
       ∧ (4096 : Int) ≤ recExt rMx * recStr rMx ∧ recBase rMx + (4096 : Int) ≤ wl.grantOf wl.curG)
    ∧ ((wRun ml).sub 0 0).mloops = [ml] ∧ ml.next < ml.count ∧ ml.failed = none
    ∧ ((wRun ml).team ((wRun ml).group ml.gid).team).tile = 0 ∧ ((wRun ml).group ml.gid).q = 0
    ∧ ((wRun ml).tile 0).change = none ∧ (wRun ml).mayIssue 0 = true ∧ (wRun ml).localPending 1 255 ml.id = false
    ∧ (wRun ml).accBad 1 [0] = none
    ∧ (∀ k, (wRun ml).blockBusy 0 k = false ∧ (wRun ml).isBad (.store 0 k) = false)
    ∧ ((wRun { ml with running := true, next := 1 }).sub 0 0).mloops = [{ ml with running := true, next := 1 }]
    ∧ ((∃ i ∈ ((wRun ml).team 1).groups, ((wRun ml).group i).ended = false) ∧ ((wRun ml).group 1).ended = false
      ∧ (wRun { ml with running := true, next := 1 }).teams.get? 1 ≠ none) := by
  refine ⟨ready_of (by decide +kernel), by decide +kernel, by decide,
    onTile_of (by decide +kernel) (by decide +kernel) (by decide +kernel) (by decide +kernel), by decide +kernel,
    by decide +kernel, by decide +kernel, by decide +kernel, by decide +kernel, rfl, by decide +kernel, rfl,
    by decide +kernel, by decide +kernel, by decide +kernel, by decide +kernel, by decide +kernel, by decide +kernel, ?_, rfl,
    by decide +kernel⟩
  intro k
  constructor
  · rw [State.blockBusy, show ((wRun ml).tile 0).busy = [] from rfl]
    rfl
  · rw [State.isBad, show (wRun ml).bad = [] from rfl]
    rfl

theorem witness_SoftmaxStep :
    wm.curG.level ≠ .m ∧ wm.rangeOut (.v 248) 8 = false ∧ (248 : BitVec 8).toNat + 8 ≤ 256
    ∧ Ready h0 (vRange (.v 248) 8) [.a 0, .a 3, .g 1] wm ∧ OnTile h0 [.a 0, .a 3] [0, 3] wm ∧ wm.accBad 1 [0, 3] = none :=
  ⟨by decide +kernel, by decide +kernel, by decide, ready_of (by decide +kernel),
    onTile_of (by decide +kernel) (by decide +kernel) (by decide +kernel) (by decide +kernel), by decide +kernel⟩

theorem witness_TilesClearedAndMoved :
    wm.curG.level ≠ .m ∧ Ready h0 [] [.a 3] wm ∧ OnTile h0 [.a 3] [3] wm ∧ wm.rangeOut (.v 240) 16 = false
    ∧ (240 : BitVec 8).toNat + 16 ≤ 256 ∧ Ready h0 (vRange (.v 240) 16) [.a 3] wm ∧ wm.accBad 1 [3] = none
    ∧ Ready h0 [.a 3] (vRange (.v 240) 16) wm ∧ wm.rangeOut (.v 255) 1 = false ∧ Ready h0 [.a 3] [.a 0] wm
    ∧ OnTile h0 [.a 3, .a 0] [3, 0] wm ∧ wm.accBad 1 [0] = none ∧ Ready h0 [.v 3] [.a 3] wm ∧ Room h0 (.v 3) wm
    ∧ wm.resultLanes h0 (.v 3) ≠ [] ∧ wm.tilesOf 1 [.a 3] = .ok [3] ∧ wm.tileBusy 1 3 = false
    ∧ ((wRun ml).tilesOf 1 [.a 0] = .ok [0] ∧ ∃ l ∈ ((wRun ml).subOf 1).mloops, l.phys = 0) :=
  ⟨by decide +kernel, ready_of (by decide +kernel),
    onTile_of (by decide +kernel) (by decide +kernel) (by decide +kernel) (by decide +kernel), by decide +kernel, by decide,
    ready_of (by decide +kernel), by decide +kernel, ready_of (by decide +kernel), by decide +kernel,
    ready_of (by decide +kernel), onTile_of (by decide +kernel) (by decide +kernel) (by decide +kernel) (by decide +kernel),
    by decide +kernel, ready_of (by decide +kernel), trivial, by decide +kernel, tiles_of (by decide +kernel),
    by decide +kernel, tiles_of (by decide +kernel), by decide +kernel⟩

/-! ### Rendezvous, gears, naps -/

/-- Team point 23 with a round open: two arrivals expected, `n` counted; the group not armed, or armed in round `r`. -/
def wRv (n : Nat) (merge : Bool) (arm : Option RvArm) : State :=
  (w0.modTeam 1 fun t => { t with points := [(23, ⟨merge, 7, n, 2⟩)] }).modGroup 1 fun g =>
    { g with rv := match arm with
      | some a => [(23, a)]
      | none => [] }

theorem witness_Rendezvous :
    (23 : BitVec 5).toNat < 24 ∧ w0.curG.level ≠ .m ∧ w0.teams.get? w0.curG.team ≠ none ∧ w0.uniform h0 = true
    ∧ Ready h0 [] [.g 1] w0 ∧ (w0.curT.points.getD 23 RvPoint.reset).exp = 0
    ∧ (let s := wg fun g => { g with g := [(1, 5)] }
       (s.curT.points.getD 23 RvPoint.reset).arr < min (s.leaderSrc h0 .zx64 (.g 1)).toNat 32)
    ∧ min (w0.leaderSrc h0 .zx64 (.g 1)).toNat 32 = 0
    ∧ Ready h0 [] [] w0 ∧ w0.curG.whole w0.cur.slices = true ∧ w0.myAccesses = []
    ∧ (let s := wRv 0 false none
       (s.curT.points.getD 23 RvPoint.reset).merge = false
       ∧ (s.curT.points.getD 23 RvPoint.reset).arr + 1 < (s.curT.points.getD 23 RvPoint.reset).exp)
    ∧ (((wRv 0 true none).curT.points.getD 23 RvPoint.reset).merge = true ∧ MayTrap (wRv 0 true none))
    ∧ ((wRv 0 false (some ⟨true, 7, 0⟩)).curG.rv.getD 23 ⟨false, 0, 0⟩ = ⟨true, 7, 0⟩
      ∧ ((wRv 0 false (some ⟨true, 7, 0⟩)).curT.points.getD 23 RvPoint.reset).round = 7)
    ∧ ((wRv 0 false (some ⟨true, 6, 1⟩)).curG.rv.getD 23 ⟨false, 0, 0⟩ = ⟨true, 6, 1⟩ ∧ 1 ≠ 0)
    ∧ ((wRv 0 false (some ⟨true, 6, 0⟩)).curG.rv.getD 23 ⟨false, 0, 0⟩ = ⟨true, 6, 0⟩ ∧ (6 : BitVec 16) ≠ 7)
    ∧ Ready h0 [.v 3] [] w0 ∧ Room h0 (.v 3) w0 ∧ w0.resultLanes h0 (.v 3) ≠ [] :=
  ⟨by decide, by decide +kernel, by decide +kernel, by decide +kernel, ready_of (by decide +kernel), by decide +kernel,
    by decide +kernel, by decide +kernel, ready_of (by decide +kernel), by decide +kernel, by decide +kernel,
    by decide +kernel, ⟨by decide +kernel, Or.inl (by decide +kernel)⟩, by decide +kernel, by decide +kernel,
    by decide +kernel, ready_of (by decide +kernel), trivial, by decide +kernel⟩

/-- The arrival that is the last; a message to point 24; a release of it; a wave of a tile. -/
def msg24 : RvMsg := ⟨1, 24, 0, 1, 1, [], [], none⟩
/-- A tile is in no changeover and needs none, and no sub-gang waits idle on a point. -/
def steadyB (s : State) (tile rp : Nat) : Bool :=
  (s.tile tile).change.isNone && s.wantGear tile == (s.tile tile).gear
    && s.groups.all fun p => p.2.gangs.all fun x => x.wait != .rv rp true
/-- A wave of two groups that waits on a tile in Sprint gear. -/
def wWave (n : Nat) (begun : Bool) (ch : Option Bool) : State := w0.modTile 0 fun t =>
  { t with gear := true, change := ch, waves := [⟨[1, 2], n, 256, begun⟩] }
theorem witness_rounds :
    (let s := wRv 1 false none
     let pt := s.curT.points.getD 23 RvPoint.reset
     Ready h0 [] [] s ∧ s.uniform h0 = true ∧ s.curG.whole s.cur.slices = true ∧ s.myAccesses = [] ∧ pt.merge = false
     ∧ pt.exp ≠ 0 ∧ pt.exp ≤ pt.arr + 1 ∧ s.curT.groups.length ≤ field (s.tile s.curTile).cslew 0 8 ∧ s.curT.groups.Nodup
     ∧ steadyB s s.curTile 23 = true)
    ∧ (let s := { w0 with arrivals := [(5, msg24)] }
       s.arrivals.get? 5 = some msg24 ∧ (∀ i ∈ msg24.wbs, s.inFlight i = false) ∧ 24 ≤ msg24.rp
       ∧ s.groups.get? 1 ≠ none ∧ s.teams.get? 1 ≠ none ∧ s.clusters.get? 1 ≠ none
       ∧ ((s.cluster 1).points.getD 24 RvPoint.reset).exp = 0)
    ∧ (let s := { w0 with releases := [(5, msg24)] }
       s.releases.get? 5 = some msg24 ∧ steadyB s msg24.tile 24 = true ∧ msg24.tile = (s.team msg24.gid).tile
       ∧ (∀ q ∈ s.releases, q.1 < 5 → q.2.cluster = msg24.cluster → q.2.rp = msg24.rp → q.2.tile ≠ msg24.tile)
       ∧ (msg24.round - (s.team msg24.gid).seen.getD msg24.rp 0).toNat ∈ Set.Ioo 0 32768
       ∧ (s.team msg24.gid).groups.length ≤ field (s.tile msg24.tile).cslew 0 8)
    ∧ (∀ n b ch, ((wWave n b ch).tile 0).waves = [⟨[1, 2], n, 256, b⟩] ∧ ((wWave n b ch).tile 0).change = ch
      ∧ ((wWave n b ch).tile 0).gear = true) ∧ 1 < [1, 2].length
    ∧ (let s := { (wWave 1 false (some true)) with releases := [(5, msg24)] }
       s.releases.get? 5 = some msg24 ∧ (s.tile msg24.tile).change ≠ none) :=
  ⟨⟨ready_of (by decide +kernel), by decide +kernel⟩,
    ⟨by decide +kernel, fun _ h => (nomatch h), by decide, by decide +kernel⟩,
    ⟨by decide +kernel, by decide +kernel, by decide +kernel, by decide +kernel,
      Set.mem_Ioo.mpr ⟨by decide +kernel, by decide +kernel⟩, by decide +kernel⟩,
    fun _ _ _ => ⟨rfl, rfl, rfl⟩, by decide, by decide +kernel⟩

theorem witness_GearsAndFrequencies :
    w0.curG.level ≠ .m ∧ w0.teams.get? w0.curG.team ≠ none ∧ Ready h0 [] [] w0 ∧ w0.uniform h0 = true
    ∧ Ready h0 [.v 3] [] w0 ∧ Room h0 (.v 3) w0
    ∧ (let s := w0.modTile 191 fun t => { t with change := some true }
       (s.tile 191).change = some true ∧ (s.tile 191).freqPend = none ∧ 191 < 192
       ∧ ∀ x ∈ s.teams, x.2.tile = 191 → x.2.ended = false → (s.cluster x.2.cluster).state ≠ .stopping)
    ∧ (w0.tile 191).change = none
    ∧ (let s := w0.modTile 191 fun t => { t with ramp := true, ffTarget := 40 }
       (s.tile 191).ramp = true ∧ (s.tile 191).fll ≠ (s.tile 191).ffTarget) :=
  ⟨by decide +kernel, by decide +kernel, ready_of (by decide +kernel), by decide +kernel, ready_of (by decide +kernel),
    trivial, by decide +kernel, by decide +kernel, by decide +kernel⟩

/-- The group at NAP with its whole gang; one sub-gang of it that naps, and one that does not. -/
def wNap (gs : List SubGang) (m : BitVec 8) : State :=
  { (wg fun g => { g with g := [(1, 2 ^ 20 + 1)], gangs := gs, place := .slot 7 }) with cur := ⟨1, m, 0⟩ }

theorem witness_Naps :
    (let s := wNap [⟨255, .none, 0⟩] 255
     Ready h0 [] [.g 1] s ∧ s.uniform h0 = true ∧ s.leaderSrc h0 .zx64 (.g 1) ≠ 0 ∧ s.curG.level ≠ .m
     ∧ s.curG.place = .slot 7 ∧ ∀ x ∈ s.curG.gangs, x.slices &&& ~~~ s.cur.slices = 0)
    ∧ (let s := wNap [⟨1, .none, 0⟩, ⟨254, .none, 0⟩] 1
       Ready h0 [] [.g 1] s ∧ ∃ x ∈ s.curG.gangs, x.slices &&& ~~~ s.cur.slices ≠ 0 ∧ x.wait = .none)
    ∧ Ready h0 [] [.g 1] w0 ∧ w0.leaderSrc h0 .zx64 (.g 1) = 0 ∧ w0.uniform { h0 with grd := ⟨7, 0, 0, true⟩ } = false
    ∧ (let s := wNap [⟨1, .none, 0⟩, ⟨254, .nap 9 8, 0⟩] 1
       s.groups.get? 1 ≠ none ∧ (s.group 1).gangAt 1 = some ⟨254, .nap 9 8, 0⟩
       ∧ (s.group 1).gangAt 0 = some ⟨1, .none, 0⟩) :=
  ⟨⟨ready_of (by decide +kernel), by decide +kernel, by decide +kernel, by decide +kernel, by decide +kernel,
      by decide +kernel⟩, ⟨ready_of (by decide +kernel), by decide +kernel⟩, ready_of (by decide +kernel), by decide +kernel,
    by decide +kernel, by decide +kernel⟩

/-! ### System -/

/-- A guard true in no lane. -/
def hF : Hdr := { h0 with grd := ⟨7, 0, 0, true⟩ }
/-- The group in S mode, its context with every grant; the stage manager, and the same inside a handler. -/
def wS : State := { (wg fun g => { g with level := .s, tstate := 255 * 2 ^ 32 }) with
  mem := w0.mem.writeN 0 8 (2 ^ 63 + 56) }
def wM : State := { w0 with cur := ⟨0, 1, 0⟩, sm := { w0.sm with halted := false } }
def wMT : State := wM.modGroup 0 fun g => { g with tstate := 2 ^ 45 }

theorem witness_TrapEntry :
    Ready h0 [] [.g 1] w0 ∧ w0.uniform h0 = true ∧ MayTrap w0 ∧ Ready h0 [] [] w0 ∧ MayTrap wM
    ∧ Ready hF [] [.g 1] w0 ∧ Ready hF [] [] w0 ∧ w0.uniform hF = false
    ∧ Ready h0 [] [] wS ∧ wS.uniform h0 = true ∧ wS.curG.level = .s ∧ wS.curG.ended = false ∧ wS.fq.enabled = false
    ∧ Ready h0 [] [] wMT ∧ wMT.uniform h0 = true ∧ wMT.cur.gid = 0 ∧ wMT.curG.level = .m
    ∧ wMT.curG.tstate.getLsbD 45 = true ∧ wMT.sm.sram.wf = true :=
  ⟨ready_of (by decide +kernel), by decide +kernel, Or.inl (by decide +kernel), ready_of (by decide +kernel),
    Or.inr (by decide +kernel), ready_of (by decide +kernel), ready_of (by decide +kernel), by decide +kernel,
    ready_of (by decide +kernel), by decide +kernel, by decide +kernel, by decide +kernel, by decide +kernel,
    ready_of (by decide +kernel), by decide +kernel, by decide +kernel, by decide +kernel, by decide +kernel,
    by decide +kernel⟩

theorem witness_ReturnFromTrap :
    Ready h0 [] [] wS ∧ wS.uniform h0 = true ∧ wS.curG.level ≠ .u ∧ wS.cur.slices = wS.curG.tstate.extractLsb' 32 8
    ∧ Ready h0 [] [] wM ∧ wM.uniform h0 = true ∧ wM.cur.slices ≠ wM.curG.tstate.extractLsb' 32 8 ∧ wM.curG.level = .m
    ∧ MayTrap wM ∧ wS.curG.preempting = false
    ∧ (let s := { wS with groups := wS.groups.set 1 { wS.curG with preempting := true } }
       Ready h0 [] [] s ∧ s.curG.level = .s ∧ s.curG.place ≠ .loft) :=
  ⟨ready_of (by decide +kernel), by decide +kernel, by decide +kernel, by decide +kernel, ready_of (by decide +kernel),
    by decide +kernel, by decide +kernel, by decide +kernel, Or.inr (by decide +kernel), by decide +kernel,
    ready_of (by decide +kernel), by decide +kernel, by decide +kernel⟩

/-- Every CSR that is read or written in S mode, and those that the stage manager writes. -/
theorem witness_ControlRegisters :
    Ready h0 [.v 3] [] wS ∧ Room h0 (.v 3) wS
    ∧ (∀ n ∈ [0, 1, 2, 3, 4, 5, 6, 8, 9, 10, 11, 12, 13, 14, 15, 16, 17, 18, 19], csrCheck n false wS = none)
    ∧ Ready h0 [] [.g 1] wS ∧ wS.uniform h0 = true
    ∧ (∀ n ∈ [1, 2, 3, 4, 5, 6, 8, 9, 10, 11, 13, 14, 16, 17, 18, 19], csrCheck n true wS = none)
    ∧ Ready h0 [] [.g 1] wM ∧ wM.uniform h0 = true ∧ wM.curG.level = .m ∧ wS.curG.level = .s
    ∧ (∀ n ∈ [0, 1, 2, 3, 4, 5, 6, 12, 19], csrCheck n true wM = none) ∧ wS.teams.get? wS.curG.team ≠ none :=
  ⟨ready_of (by decide +kernel), trivial, by decide +kernel, ready_of (by decide +kernel), by decide +kernel,
    by decide +kernel, ready_of (by decide +kernel), by decide +kernel, by decide +kernel, by decide +kernel,
    by decide +kernel, by decide +kernel⟩

theorem witness_Privilege :
    w0.groups.get? 1 ≠ none ∧ w0.curG.level = .u ∧ (∀ r ∈ [Spec.k 7, .g 1], w0.curG.refuses r = false)
    ∧ w0.curG.refuses (.v 255) = false ∧ MayTrap w0 ∧ wM.groups.get? 0 ≠ none ∧ wM.curG.level = .m
    ∧ wM.curG.tstate.getLsbD 45 = false ∧ wM.curG.refuses (.v 31) = false :=
  ⟨by decide +kernel, by decide +kernel, by decide +kernel, by decide +kernel, Or.inl (by decide +kernel), by decide +kernel,
    by decide +kernel, by decide +kernel, by decide +kernel⟩

/-- COHADDR at each kind of place: a range's two words, SLDPA, SLDCMD, an offset between registers, one that names none. -/
theorem witness_cohData :
    (∀ off ∈ [0x10, 0x18, 0x800, 0x808, 0x804, 0x400], let s := wS.modGroup 1 fun g => { g with cohaddr := BitVec.ofNat 64 off }
      readyB h0 [] [.g 1] s = true ∧ s.uniform h0 = true ∧ csrCheck 0x12 true s = none ∧ s.curG.cohaddr.toNat % 2 ^ 16 = off)
    ∧ (wS.cohOf 0).rtBusy = false ∧ (wS.cohOf 0).rangeCheck 0 0 = 0
    ∧ (wS.cohOf 0).rangeCheck (BitVec.ofNat 64 (2 ^ 63 + 15)) 0 ≠ 0 ∧ ({ Coh.reset with rtBusy := true } : Coh).rtBusy = true := by
  decide +kernel

/-- Unassigned CSR numbers; the group in S mode with no grant. -/
theorem witness_privilegeEdges :
    (∀ n ∈ [7, 20, 63], (n : BitVec 6) = 7 ∨ 19 < (n : BitVec 6).toNat) ∧ w0.curG.refuses (.g 1) = false
    ∧ (let s := { wS with mem := w0.mem.writeN 0 8 (2 ^ 63) }
       s.groups.get? 1 ≠ none ∧ s.curG.level = .s ∧ s.curG.ended = false ∧ s.fq.enabled = false
       ∧ (∀ r ∈ [Spec.k 7, .g 1], s.curG.refuses r = false) ∧ (s.ctxWord (s.ctxOf s.curG) 0).getLsbD 3 = false
       ∧ (s.ctxWord (s.ctxOf s.curG) 0).getLsbD 4 = false) := by
  decide +kernel

/-- A TLBI that covered access 7 and waits for write-back 9. -/
def doneTlbi : Tlbi := ⟨1, 7, 2, 0, 0, [7], [], true, [9]⟩

theorem witness_HaltWaitInvalidate :
    Ready h0 [] [] wM ∧ wM.uniform h0 = true ∧ wM.curG.level = .m ∧ wM.sm.evseq = [] ∧ wM.sm.timerPend = 0
    ∧ (let s := { wM with sm := { wM.sm with timerPend := 255 } }
       Ready h0 [] [] s ∧ s.uniform h0 = true ∧ s.sm.timerPend ≠ 0)
    ∧ Ready h0 [] [] wS ∧ wS.curG.level = .s ∧ wS.curG.ended = false ∧ wS.fq.enabled = false
    ∧ Ready h0 [.k 7] [.g 1] wS ∧ wS.uniform h0 = true ∧ (∀ k : BitVec 2, tlbiCheck k wS = none)
    ∧ wS.teams.get? wS.curG.team ≠ none ∧ (wS.curT.token 7).count < 65535 ∧ (∀ p ∈ wS.accs, wS.unbegun p.2 = false)
    ∧ (let s := { w0 with tlbis := [(5, doneTlbi)] }
       s.tlbis.get? 5 = some doneTlbi ∧ s.accs = [] ∧ s.copies = [] ∧ s.teams.get? 1 ≠ none ∧ doneTlbi.accs = [7]
       ∧ doneTlbi.flushed = true ∧ ∀ i ∈ doneTlbi.wbs, s.inFlight i = false)
    ∧ (let s := { w0 with tlbis := [(5, doneTlbi)], accs := [(7, quantAcc)] }
       ∀ i ∈ doneTlbi.accs, s.accs.get? i ≠ none)
    ∧ (let s := { w0 with tlbis := [(5, doneTlbi)], net := [(3, { w0.newReq 2 5 0 (.wb 0) with id := 9 })] }
       ∃ i ∈ doneTlbi.wbs, s.inFlight i = true)
    ∧ (let x := { doneTlbi with accs := [], flushed := false, wbs := [] }
       let s := { (w0.modTile 0 fun t => { t with l1 := [(5, dirtyLine)] }) with tlbis := [(5, x)] }
       s.tlbis.get? 5 = some x ∧ s.l1 0 5 = some dirtyLine ∧ dirtyLine.dmask ≠ 0 ∧ s.badMask 0 5 = 0)
    ∧ (let x := { doneTlbi with accs := [], flushed := false }
       let s := { w0 with tlbis := [(5, x)], net := [(3, { w0.newReq 2 5 0 (.wb 0) with id := 9 })] }
       s.tlbis.get? 5 = some x ∧ ∃ i ∈ x.wbs, s.inFlight i = true)
    ∧ State.reset.sm.halted = true :=
  ⟨ready_of (by decide +kernel), by decide +kernel, by decide +kernel, by decide +kernel, by decide +kernel,
    ⟨ready_of (by decide +kernel), by decide +kernel, by decide +kernel⟩, ready_of (by decide +kernel), by decide +kernel,
    by decide +kernel, by decide +kernel, ready_of (by decide +kernel), by decide +kernel⟩

/-- The stage manager with interrupts enabled, an event queued or an elapse pending. -/
def wIe (ev : List W64) (p : Nat) : State :=
  { (wM.modGroup 0 fun g => { g with tstate := 2 ^ 46 }) with
    sm := { wM.sm with evseq := ev, timerPend := p, timerEn := true, timer := 5 } }

theorem witness_TimerAndThermal :
    (∃ x, ((wIe [1] 0).group 0).gangs.find? (fun x => x.slices.getLsbD (((wIe [1] 0).group 0).liveSlices.headD 8)) = some x)
    ∧ ((wIe [1] 0).group 0).level = .m ∧ (wIe [1] 0).sm.halted = false ∧ ((wIe [1] 0).group 0).tstate.getLsbD 46 = true
    ∧ (wIe [1] 0).groups.get? 0 ≠ none ∧ (wIe [1] 0).sm.evseq ≠ []
    ∧ (wIe [] 255).sm.evseq = [] ∧ (wIe [] 255).sm.timerPend ≠ 0 ∧ (wIe [] 255).sm.timerEn = true
    ∧ (wIe [] 255).sm.timer ≠ 0 ∧ 255 ≤ (wIe [] 255).sm.timerPend ∧ (wIe [] 254).sm.timerPend < 255
    ∧ ((wIe [1] 0).group 0).tstate.getLsbD 45 = false ∧ (wM.group 0).tstate.getLsbD 46 = false
    ∧ (((wIe [1] 1).modGroup 0 fun g => { g with tstate := 3 * 2 ^ 45 }).group 0).tstate.getLsbD 45 = true :=
  ⟨⟨⟨1, .none, 0⟩, by decide +kernel⟩, by decide +kernel⟩

/-! ### Homes -/

/-- A request of event `ev` to line 5, whose home is die 0, and the state in which it is on its way. -/
def req (ev die : Nat) (holder : Option (BitVec 16)) : Req :=
  { w0.newReq ev 5 0 (.acc 7 0) with die := die, holder := holder }
def wNet (r : Req) : State := { w0 with net := [(9, r)] }

theorem atHome_of {r : Req} (hl : r.line = 5) (hd : r.die < 2) (ht : r.tag = .acc 7 0) {s : State}
    (hn : s.net.get? 9 = some r) (he : s.earlierReq 9 r = false) (hr : s.homeFull 5 r = false)
    (hb : s.rangeBusy 5 = false) (hs : s.dir.length < 16) : AtHome s 9 r where
  asked := hn
  first := he
  dram := by rw [hl]; decide +kernel
  die := hd
  inside := by rw [ht]; nofun
  room := by rw [hl]; exact hr
  settled := by rw [hl]; exact hb
  set := by
    have := List.length_filter_le (fun p : Nat × DirEntry => p.1 != r.line && isDramLine p.1 && sameDirSet p.1 r.line) s.dir
    omega

/-- An atomic on the last four bytes of line 5, the home copy of which holds an error. -/
def reqAt : Req := { req 7 0 none with elems := [⟨0, 0, 0, 124, 4, 1, 0, none⟩] }

/-- Each event, from the home's die and from the other. -/
theorem witness_RequestsAtTheirHome :
    (∀ ev ∈ [0, 1, 2, 7, 8, 10], AtHome (wNet (req ev 0 none)) 9 (req ev 0 none)
      ∧ (wNet (req ev 0 none)).dir.get? 5 = none ∧ (wNet (req ev 0 none)).slotOf 5 = 0)
    ∧ (AtHome (wNet reqAt) 9 reqAt ∧ (wNet reqAt).elemsErr 5 reqAt.elems = 0 ∧ ∀ e ∈ reqAt.elems, e.second = none)
    ∧ (let s := { (wNet reqAt) with bad := [.block 11] }
       AtHome s 9 reqAt ∧ s.elemsErr 5 reqAt.elems ≠ 0)
    ∧ (wNet (req 10 0 none)).replicaOf (req 10 0 none) = none ∧ homeDie 5 = 0 ∧ w0.mem.wf = true
    ∧ (∀ ev ∈ [0, 1], AtHome (wNet (req ev 1 none)) 9 (req ev 1 none) ∧ (wNet (req ev 1 none)).l2Line 1 5 = none
      ∧ (wNet (req ev 1 none)).WayFree 1 5) := by
  refine ⟨fun ev he => ?_, ⟨atHome_of rfl (by decide +kernel) rfl rfl (by decide +kernel) (by decide +kernel)
      (by decide +kernel) (by decide +kernel), by decide +kernel, by decide +kernel⟩,
    ⟨atHome_of rfl (by decide +kernel) rfl rfl (by decide +kernel) (by decide +kernel) (by decide +kernel)
      (by decide +kernel), by decide +kernel⟩, by decide +kernel, by decide +kernel, by decide +kernel, fun ev he => ?_⟩
  · simp only [List.mem_cons, List.not_mem_nil, or_false] at he
    obtain rfl | rfl | rfl | rfl | rfl | rfl := he <;>
      exact ⟨atHome_of rfl (by decide +kernel) rfl rfl (by decide +kernel) (by decide +kernel) (by decide +kernel)
        (by decide +kernel), by decide +kernel, by decide +kernel⟩
  · simp only [List.mem_cons, List.not_mem_nil, or_false] at he
    obtain rfl | rfl := he <;>
      exact ⟨atHome_of rfl (by decide +kernel) rfl rfl (by decide +kernel) (by decide +kernel) (by decide +kernel)
        (by decide +kernel), by decide +kernel, Or.inl (by decide +kernel)⟩

/-- An engine that takes line 5 or gives it back. -/
def engine : BitVec 16 := stagehandId 0
def held2 (a : BitVec 16) : DirEntry := { DirEntry.empty with state := 2, ptrs := [a], used := 3 }
/-- Line 5 in a range of slot 1 (UPD), held by die 1's L2 with a read right. -/
def wUpd : State :=
  { (wNet (req 3 1 (some (l2Id 1)))) with
    coh := [(0, { Coh.reset with force0 := [(0, BitVec.ofNat 64 (2 ^ 63 + 16))], force1 := [(0, 1)] })]
    dir := [(5, { DirEntry.empty with state := 1, ptrs := [l2Id 1], used := 3 })]
    l2 := [(l2Key 1 5, ⟨1, 0, 0, false, none, true⟩)] }

theorem witness_engines :
    isEngineId engine = true
    ∧ AtHome (wNet (req 9 0 (some engine))) 9 (req 9 0 (some engine)) ∧ (wNet (req 9 0 (some engine))).dir.get? 5 = none
    ∧ (wNet (req 9 0 (some engine))).l2Line 0 5 = none ∧ (wNet (req 9 0 (some engine))).evicting 5 (l2Id 0) = false
    ∧ (∀ ev ∈ [4, 5], AtHome { (wNet (req ev 0 (some engine))) with dir := [(5, held2 engine)] } 9 (req ev 0 (some engine)))
    ∧ AtHome wUpd 9 (req 3 1 (some (l2Id 1))) ∧ wUpd.slotOf 5 = 1 ∧ wUpd.l2Line 1 5 = some ⟨1, 0, 0, false, none, true⟩
    ∧ wUpd.mem.wf = true
    ∧ wUpd.dir.get? 5 = some { DirEntry.empty with state := 1, ptrs := l2Id 1 :: [], used := 3 } := by
  refine ⟨by decide +kernel, atHome_of rfl (by decide +kernel) rfl rfl (by decide +kernel) (by decide +kernel)
    (by decide +kernel) (by decide +kernel), by decide +kernel, by decide +kernel, by decide +kernel, fun ev he => ?_,
    atHome_of rfl (by decide +kernel) rfl rfl (by decide +kernel) (by decide +kernel) (by decide +kernel)
      (by decide +kernel), by decide +kernel, by decide +kernel, by decide +kernel, by decide +kernel⟩
  simp only [List.mem_cons, List.not_mem_nil, or_false] at he
  obtain rfl | rfl := he <;>
    exact atHome_of rfl (by decide +kernel) rfl rfl (by decide +kernel) (by decide +kernel) (by decide +kernel)
      (by decide +kernel)

/-- Line 5 in a round for a read that waits. -/
def inRound : DirEntry :=
  { DirEntry.empty with
    state := 3, ptrs := [l2Id 1], pend := some (req 0 0 none), timer := true, tmo := 7, round := some ⟨[l2Id 1], 0x11, none, 7⟩ }

theorem witness_RecallRounds :
    AtHome { (wNet (req 0 0 none)) with dir := [(5, held2 (l2Id 1))] } 9 (req 0 0 none) ∧ isEngineId (l2Id 1) = false
    ∧ w0.silentAgent (l2Id 1) = false
    ∧ (let s := { w0 with recs := [(9, ⟨5, l2Id 1, 0x11, none, true, 7⟩)] }
       s.recs.get? 9 = some ⟨5, l2Id 1, 0x11, none, true, 7⟩ ∧ s.earlierRecall 9 5 (l2Id 1) = false ∧ s.l2Line 1 5 = none)
    ∧ (let s := { w0 with recs := [(9, ⟨5, 0x4000, 0x11, none, true, 7⟩)] }
       s.recs.get? 9 = some ⟨5, 0x4000, 0x11, none, true, 7⟩ ∧ isL2Id 0x4000 = false ∧ isEngineId 0x4000 = false
       ∧ s.earlierRecall 9 5 0x4000 = false ∧ s.failedAgent 0x4000 = false
       ∧ ({ s with ports := { s.ports with failed := [0x1FFF] } } : State).failedAgent 0x4000 = true)
    ∧ (let s := { w0 with answers := [(9, ⟨5, l2Id 1, none, true, 7⟩)], dir := [(5, inRound)] }
       s.answers.get? 9 = some ⟨5, l2Id 1, none, true, 7⟩
       ∧ s.answers.any (fun p => p.1 < 9 && p.2.line == 5 && p.2.agent == l2Id 1) = false ∧ s.net = [] ∧ isDramLine 5 = true
       ∧ s.slotOf 5 = 0 ∧ s.mem.wf = true ∧ (req 0 0 none).ev = 0 ∧ (req 0 0 none).tag ≠ .ext ∧ s.dir.get? 5 = some inRound)
    ∧ inRound.timer = true ∧ inRound.state = 3 ∧ inRound.tmo + 1 = 8 ∧ w0.sm.stallq.length < 16
    ∧ (let s := { w0 with pushes := [(9, ⟨5, l2Id 1, 0, 0, 0, 0⟩)] }
       s.pushes.get? 9 = some ⟨5, l2Id 1, 0, 0, 0, 0⟩ ∧ s.earlierRecall 9 5 (l2Id 1) = false) :=
  ⟨atHome_of rfl (by decide +kernel) rfl rfl (by decide +kernel) (by decide +kernel) (by decide +kernel) (by decide +kernel),
    by decide +kernel⟩

/-- An owner that no route reaches; an answer to an earlier round. -/
theorem witness_silentOwner :
    AtHome { (wNet (req 0 0 none)) with dir := [(5, held2 (deviceId 6))] } 9 (req 0 0 none) ∧ isEngineId (deviceId 6) = false
    ∧ w0.silentAgent (deviceId 6) = true
    ∧ (let s := { w0 with answers := [(9, ⟨5, l2Id 1, none, true, 6⟩)], dir := [(5, inRound)] }
       s.answers.get? 9 = some ⟨5, l2Id 1, none, true, 6⟩ ∧ s.net = [] ∧ inRound.round = some ⟨[l2Id 1], 0x11, none, 7⟩)
    ∧ inRound.ptrs = [l2Id 1] :=
  ⟨atHome_of rfl (by decide +kernel) rfl rfl (by decide +kernel) (by decide +kernel) (by decide +kernel) (by decide +kernel),
    by decide +kernel⟩

/-! ### Replies -/

/-- An access whose one line is on its way, and a state with a reply for it. -/
def onWay (k : AccKind) : Access := { oneLine k with lines := [⟨0x280, 5, false, .sent⟩] }
def rqA : Req := { req 0 0 none with alloc := true }
def wRep (k : AccKind) (l1 : Table L1Line) (x : Answer) : State :=
  { (wAcc k l1) with accs := [(7, onWay k)], reps := [(9, ⟨rqA, x⟩)] }

/-- The reply 9 is for the one line of the access 7. -/
def pendingB (s : State) (a : Access) : Bool :=
  !s.earlierReply 9 rqA && rqA.tag == .acc 7 0 && rqA.tile < 192 && s.accs == [(7, a)] && a.lines == [⟨0x280, 5, false, .sent⟩]
    && !(s.group a.gid).ended && a.log.isNone && a.acq.isNone && a.failed.isNone && recSpc a.record == spcGlobal && rqA.carry == 0
    && (s.tile rqA.tile).change.isNone

theorem witness_RepliesAndFills :
    ((let s := wRep .load [] (.data 1 77 0 true (0, 0))
      pendingB s (onWay .load) = true ∧ rqA.ev = 0 ∧ rqA.alloc = true ∧ s.l1 0 5 = none ∧ s.reservedLine 0 5 = false
      ∧ ((s.tile 0).l1.filter fun p => p.1 % 256 == 5 % 256).length < 8)
     ∧ (∀ e ∈ (onWay .load).elems, e.ln = 0)
     ∧ pendingB (wRep .store [(5, freshLine)] .ack) (onWay .store) = true ∧ (onWay .store).rtype = .owned
     ∧ (wRep .store [(5, freshLine)] .ack).l1 0 5 ≠ none
     ∧ pendingB (wRep .store [(5, freshLine)] (.nack 3 1)) (onWay .store) = true
     ∧ (wRep .store [] (.nack 3 1)).groups.get? (onWay .store).gid ≠ none)
    ∧ (let s := (wRep .store [] .ack).modTile 0 fun t => { t with change := some true }
       (s.tile rqA.tile).change ≠ none ∧ s.reps.get? 9 = some ⟨rqA, .ack⟩ ∧ (s.tile (s.accTile (oneLine .load))).change ≠ none)
    ∧ (∀ l ∈ ({ oneLine .load with lines := [⟨0x280, 5, false, .done⟩] } : Access).lines, l.status = .done)
    ∧ (oneLine .load).info.dest = .v 3 ∧ (oneLine .load).info.esz ≠ 4 ∧ (w0.tile (w0.accTile (oneLine .load))).change = none
    ∧ (let r : Req := { req 2 0 none with tag := .wb 0 }
       let s : State := { w0 with reps := [(9, ⟨r, .nack 2 1⟩)] }
       s.earlierReply 9 r = false ∧ s.accs = [] ∧ s.fq.enabled = false ∧ (s.tile r.tile).change = none)
    ∧ (let x := { freshLine with dmask := 1 }
       let s := wAcc .load [(5, x)]
       s.l1 0 5 = some x ∧ x.dmask ≠ 0 ∧ s.isBad (.l1 0 5 0) = false ∧ s.isBad (.l1 0 5 1) = false) := by
  decide +kernel

/-! ### Copies -/

/-- A tensor map of 16 elements of four bytes at 0x8000, with a multicast mask and a reduction operation. -/
def mapOf (mc rop : Nat) : Nat :=
  0x8000 + 2 ^ 64 + 2 * 2 ^ 72 + 2 ^ 88 + mc * 2 ^ 96 + rop * 2 ^ 120 + (16 + 16 * 2 ^ 32 + 4 * 2 ^ 64) * 2 ^ 512
/-- The record of the map at 0x5000, the producer's group with it in `b0` and a local record in `b1`. -/
def rMap : BitVec 256 := BitVec.ofNat 256 (0x5000 + recOf spcGlobal 2 1024 4 |>.toNat)
def wCpOf (m : Nat) : State :=
  { ((wg fun g => { g with b := [(0, rMap), (1, r4)] }).modTeam 1 fun t => { t with prod := some 0 }) with
    mem := w0.mem.writeN 0x5000 256 m }

/-- The same with the map's two lines current in the tile's L1. -/
def mapLo (m : Nat) : L1Line := { freshLine with data := m % 256 ^ 128 }
def mapHi (m : Nat) : L1Line := { freshLine with data := m / 256 ^ 128 }
def wMapOf (m : Nat) : State := (wCpOf m).modTile 0 fun t => { t with l1 := [(160, mapLo m), (161, mapHi m)] }
abbrev wMap (mc rop : Nat) : State := wMapOf (mapOf mc rop)

/-- The placed context maps its first gigabyte onto itself. -/
theorem maps_of {s : State} {l r : Nat} {um : Bool} (hr : r < 4) (h2 : 2 ≤ r) (hl : l < 2 ^ 23)
    (ht : s.tableAt 0 (l * 128) 3 = some 0x3000) (he : s.entryAt 0x3000 3 (l * 128) = 0x3F) : s.Maps 0 l l false um r := by
  have hb : ∀ r, r < 4 → 2 ≤ r → (0x3F : W64).getLsbD r = true := by decide
  have hf : field (0x3F : W64) 12 40 = 0 := by decide
  refine ⟨3, 0x3000, by decide, by decide, by omega, ht, ?_⟩
  simp only [he, hf]
  refine ⟨by decide, by decide, hb r hr h2, fun _ => by decide, by decide, by decide, by decide, by decide, by decide,
    by decide, ?_, ?_⟩
  · omega
  · have : 2 ^ 30 ≤ dramEnd := by decide
    omega

theorem cacheAgrees_of {s : State} {tile ctx : Nat} (h : (s.tile tile).tlb ++ s.dev.tcache.getD (dieOf tile) [] = []) :
    s.CacheAgrees tile ctx := by
  intro t ht
  rw [h] at ht
  cases ht

/-- What `MapAtHand` asks of one of the map's lines. -/
def lineHere (s : State) (l : Nat) (x : L1Line) : Bool :=
  s.l1 0 l == some x && x.current (s.tile 0) && s.badMask 0 l == 0 && !s.mapBehind 0 (l * 128) l
    && s.tableAt 0 (l * 128) 3 == some 0x3000 && s.entryAt 0x3000 3 (l * 128) == 0x3F

theorem mapAtHand_of {m : Nat} (hv : (wMapOf m).recordCheck rMap (recR rMap) = none)
    (ha : lineHere (wMapOf m) 160 (mapLo m) = true) (hb : lineHere (wMapOf m) 161 (mapHi m) = true) :
    MapAtHand (wMapOf m) rMap m := by
  simp only [lineHere, Bool.and_eq_true, beq_iff_eq, Bool.not_eq_true'] at ha hb
  obtain ⟨⟨⟨⟨⟨a1, a2⟩, a3⟩, a4⟩, a5⟩, a6⟩ := ha
  obtain ⟨⟨⟨⟨⟨b1, b2⟩, b3⟩, b4⟩, b5⟩, b6⟩ := hb
  have hr : recBase rMap = 0x5000 := by decide +kernel
  have hc : (wMapOf m).ctxOf (wMapOf m).curG = 0 := rfl
  have ht : (wMapOf m).curTile = 0 := rfl
  refine ⟨hv, by decide +kernel, by decide +kernel, cacheAgrees_of rfl, 160, 161, mapLo m, mapHi m, ?_⟩
  simp only [hr, hc, ht]
  exact ⟨maps_of (by decide) (by decide) (by decide) a5 a6, maps_of (by decide) (by decide) (by decide) b5 b6,
    ⟨a1, a2, a3⟩, ⟨b1, b2, b3⟩, a4, b4, (Nat.mod_add_div' _ _).symm⟩

/-- The prefetch of an element on a line that is current. -/
theorem witness_prefetchCurrent :
    let s := wMap 0 0
    Ready h0 [] [.b 0, .v 1] s ∧ (∀ p ∈ (s.tile s.curTile).l1, p.2.dmask &&& s.badMask s.curTile p.1 = 0) ∧ s.curTile < 192
    ∧ (s.curG.b.getD 0 0 = rMap ∧ (⟨0, 0⟩ : Hint).l1 ≠ 1 ∧ reqType rMap 0 ≠ .uncached) ∧ s.CacheAgrees s.curTile (s.ctxOf s.curG)
    ∧ ∀ l ∈ s.actLanes h0, ∀ ea, s.elemAt rMap 4 (s.src h0 .zx64 (.v 1) l).toNat = some ea →
      ∀ y, ea / 128 ≤ y → y ≤ (ea + 4 - 1) / 128 → ∃ p x,
        s.Maps (s.ctxOf s.curG) y p false (s.curG.level == .u) 2 ∧ s.l1 s.curTile p = some x ∧ x.current (s.tile s.curTile) = true := by
  refine ⟨ready_of (by decide +kernel), by decide +kernel, by decide +kernel, by decide +kernel, cacheAgrees_of rfl, ?_⟩
  intro l hl ea he y h1 h2
  have h : ∀ l ∈ (wMap 0 0).actLanes h0, (wMap 0 0).elemAt rMap 4 ((wMap 0 0).src h0 .zx64 (.v 1) l).toNat = some 0x5000 := by
    decide +kernel
  rw [h l hl] at he
  injection he with he
  obtain rfl : y = 160 := by omega
  exact ⟨160, mapLo (mapOf 0 0), maps_of (by decide) (by decide) (by decide) (by decide +kernel) (by decide +kernel),
    by decide +kernel, by decide +kernel⟩

/-- A copy within the tile, a multicast copy and a reduction. -/
theorem witness_CopiesIssue :
    (∀ p ∈ [(0, 0), (1, 0), (0, 2)], (wMap p.1 p.2).uniform h0 = true ∧ (wMap p.1 p.2).curG.level ≠ .m
      ∧ (wMap p.1 p.2).curT.prod = some (wMap p.1 p.2).curG.idx ∧ (wMap p.1 p.2).curT.ended = false
      ∧ (wMap p.1 p.2).curTile = 0 ∧ (wMap p.1 p.2).record (.b 0) = rMap ∧ (wMap p.1 p.2).record (.b 1) = r4
      ∧ (wMap p.1 p.2).badReg (coordRegs (.g 8) (mapOf p.1 p.2)) = none)
    ∧ Ready h0 (coordRange (.g 8)) [.b 0, .b 1, .k 0] (wMap 0 0) ∧ Ready h0 (coordRange (.g 8)) [.b 0, .b 1, .k 0] (wMap 1 0)
    ∧ MapAtHand (wMap 0 0) rMap (mapOf 0 0) ∧ MapAtHand (wMap 1 0) rMap (mapOf 1 0) ∧ MapAtHand (wMap 0 2) rMap (mapOf 0 2)
    ∧ mapMcast (mapOf 0 0) = 0 ∧ mapMcast (mapOf 1 0) ≠ 0
    ∧ (∀ p ∈ [(0, 0), (1, 0)], ((wMap p.1 p.2).copyCheck .load (mapOf p.1 p.2) r4).isNone = true)
    ∧ ((wMap 0 2).copyCheck .store (mapOf 0 2) r4).isNone = true ∧ ((wMap 0 2).copyCheck .red (mapOf 0 2) r4).isNone = true
    ∧ (wMap 0 0).uniform hF = false ∧ Ready hF (coordRange (.g 8)) [.b 0, .b 1, .k 0] (wMap 0 0) :=
  ⟨by decide +kernel, ready_of (by decide +kernel), ready_of (by decide +kernel),
    mapAtHand_of (by decide +kernel) (by decide +kernel) (by decide +kernel),
    mapAtHand_of (by decide +kernel) (by decide +kernel) (by decide +kernel),
    mapAtHand_of (by decide +kernel) (by decide +kernel) (by decide +kernel), by decide +kernel, by decide +kernel,
    by decide +kernel, by decide +kernel, by decide +kernel, by decide +kernel, ready_of (by decide +kernel)⟩

/-- The map with its one dimension through a block table at 0x9000. -/
def mapT : Nat := mapOf 0 0 + 0x9000 * 2 ^ 192 + 16 * 2 ^ 256 + 2 ^ 288 + 2 ^ 320

/-- A store whose destination is mapped; one whose block table is. -/
theorem witness_storesIssue :
    (let s := wMap 0 2
     let x := s.newCopy .store (mapOf 0 2) r4 (.g 8) (.k 0)
     mapBten (mapOf 0 2) = false ∧ (∀ l, s.badMask 0 l = 0)
     ∧ ∀ e < mapTotal (mapOf 0 2), ∀ g, x.locate e = .at g → ∀ l ∈ x.linesAt g,
      ∃ p unc, s.Maps 0 l p unc (s.curG.level == .u) 3)
    ∧ (let s := wMapOf mapT
       let x := s.newCopy .store mapT r4 (.g 8) (.k 0)
       MapAtHand s rMap mapT ∧ (s.copyCheck .store mapT r4).isNone = true ∧ x.tableLines = [288] ∧ s.cur.slices ≠ 0
       ∧ s.badReg (coordRegs (.g 8) mapT) = none ∧ readyB h0 (coordRange (.g 8)) [.b 0, .b 1, .k 0] s = true
       ∧ ∃ p unc, s.Maps 0 288 p unc (s.curG.level == .u) 2) := by
  refine ⟨⟨by decide +kernel, badMask_of rfl 0, fun e he g hg l hl => ?_⟩,
    mapAtHand_of (by decide +kernel) (by decide +kernel) (by decide +kernel), by decide +kernel, by decide +kernel,
    by decide +kernel, by decide +kernel, by decide +kernel,
    288, false, maps_of (by decide) (by decide) (by decide) (by decide +kernel) (by decide +kernel)⟩
  have h : ∀ e < mapTotal (mapOf 0 2), (((wMap 0 2).newCopy .store (mapOf 0 2) r4 (.g 8) (.k 0)).locate e = .at (0x8000 + 4 * e))
      ∧ ((wMap 0 2).newCopy .store (mapOf 0 2) r4 (.g 8) (.k 0)).linesAt (0x8000 + 4 * e) = [256] := by decide +kernel
  rw [(h e he).1] at hg
  injection hg with hg
  rw [← hg, (h e he).2, List.mem_singleton] at hl
  exact ⟨256, false, by
    rw [hl]
    exact maps_of (by decide) (by decide) (by decide) (by decide +kernel) (by decide +kernel)⟩

/-- Each check of a copy's issue alone: the producer, the map record, the map's own record form, the map, the local record,
its fit, the teams, the fill format, a reduction of floats in a deterministic launch. -/
theorem witness_copyTraps :
    let mBad := mapOf 0 0 + 2 ^ 89
    let mFar := mapOf 2 0
    let mFmt := mapOf 0 0 + 2 ^ 80 + 0x22 * 2 ^ 128
    (let s := (wMap 0 0).modTeam 1 fun t => { t with prod := some 1 }
     s.curT.prod ≠ some s.curG.idx ∧ readyB h0 (coordRange (.g 8)) [.b 0, .b 1, .k 0] s = true ∧ MayTrap s)
    ∧ (wMap 0 0).recordCheck r0 (recR r0) = some 2
    ∧ ((wMap 0 0).recordCheck r4 (recR r4) = none ∧ recSpc r4 ≠ 0)
    ∧ (MapAtHand (wMapOf mBad) rMap mBad ∧ mapOk mBad false = false)
    ∧ (wMap 0 0).recordCheck r0 (recW r0) = some 2 ∧ (wMap 0 0).recordCheck r16 (recW r16) = none ∧ recEsz r16 ≠ mapEsz (mapOf 0 0)
    ∧ (MapAtHand (wMapOf mFar) rMap mFar ∧ mapOk mFar false = true
      ∧ 2 ^ ((wMapOf mFar).cluster (wMapOf mFar).curT.cluster).teams.length ≤ mapMcast mFar)
    ∧ (MapAtHand (wMapOf mFmt) rMap mFmt ∧ mapOk mFmt false = true ∧ mapFill mFmt = 1
      ∧ mapFillFmt mFmt ∉ [0x10, 0x11, 0x20, 0x21] ∧ mapMcast mFmt < 2)
    ∧ (recSpc r4 = 1 ∧ recEsz r4 = 2 ∧ recStr r4 = 4 ∧ recSwz r4 = 0 ∧ 64 ≤ recExt r4 * recStr r4 ∧ recBase r4 % 64 = 0
      ∧ recBase r4 + 64 ≤ (wMap 0 0).grantOf (wMap 0 0).curG ∧ mapTotal (mapOf 0 0) * 4 = 64 ∧ mapSwz (mapOf 0 0) = 0)
    ∧ (let s : State := { (wMap 0 0) with
         launches := (wMap 0 0).launches.map fun p => (p.1, { p.2 with pkt := { p.2.pkt with det := true } }) }
       s.detOf s.curG = true ∧ mapRop (mapOf 0 0) ≤ 1 ∧ mapOk (mapOf 0 0) true = true) :=
  ⟨⟨by decide +kernel, by decide +kernel, Or.inl (by decide +kernel)⟩, by decide +kernel, by decide +kernel,
    ⟨mapAtHand_of (by decide +kernel) (by decide +kernel) (by decide +kernel), by decide +kernel⟩, by decide +kernel,
    by decide +kernel, by decide +kernel,
    ⟨mapAtHand_of (by decide +kernel) (by decide +kernel) (by decide +kernel), by decide +kernel⟩,
    ⟨mapAtHand_of (by decide +kernel) (by decide +kernel) (by decide +kernel), by decide +kernel⟩, by decide +kernel,
    by decide +kernel⟩

/-- A multicast copy's reservation on its way to a team. -/
theorem witness_mcastReservation :
    let s := { (wMap 1 0) with
      mcasts := [(4, (9, 1))], copies := [(9, (wMap 1 0).newCopy .load (mapOf 1 0) r4 (.g 8) (.k 0))] }
    s.mcasts.get? 4 = some (9, 1) ∧ (s.copies.get? 9).isSome = true ∧ (s.team 1).ended = false
      ∧ (({ s with teams := s.teams.set 1 { s.team 1 with ended := true } } : State).team 1).ended = true := by
  decide +kernel

/-- A copy of one beat whose source or destination line is there. -/
def wCopy (k : CopyKind) (f : Copy → Copy) : State :=
  let x := (wCpOf (mapOf 0 0)).newCopy k (mapOf 0 0) r4 (.g 8) (.k 0)
  { (wCpOf (mapOf 0 0)) with copies := [(9, f { x with
      coords := [0, 0, 0, 0, 0], reserved := [1], srcs := [(256, (5, 0))], phys := [(256, 256)], owned := [256]
      reserving := false })] }
def theCopy (s : State) : Copy := ((s.copies.get? 9).map id).getD (s.newCopy .load 0 0 .zero .zero)

theorem witness_CopiesRun :
    (∀ k ∈ [CopyKind.load, .store, .red], let s := wCopy k id
      let c := theCopy s
      s.copies.get? 9 = some c ∧ c.paused = none ∧ c.stopped = false ∧ c.reserving = false ∧ c.stale = []
      ∧ c.next < mapTotal c.map
      ∧ (s.tile (s.copyTile c)).change = none ∧ s.mayIssue (s.copyTile c) = true ∧ c.next % (64 / c.sz) = 0 ∧ mapEsz c.map ≤ 4
      ∧ (∀ e ∈ c.beat c.next, c.fate e = .at (0x8000 + 4 * e)) ∧ c.kind = k ∧ c.tiles = [1] ∧ 1 ∈ c.reserved
      ∧ (s.team 1).ended = false ∧ (s.team 1).tile < 192 ∧ s.accs = [] ∧ (∀ p ∈ c.srcs, p.2.1 < 256 ^ 128)
      ∧ s.heldBefore 0 (s.beatBlock c 1 c.next) 9 = false
      ∧ recBase c.record % 128 = 0 ∧ (s.tile 0).store.wf = true ∧ s.localPending c.gid c.slices 9 = false
      ∧ (s.localBeat c c.next).2.2 = false)
    ∧ (let s := (wCopy .load id).modTile 0 fun t => { t with change := some true }
       (s.tile (s.copyTile (theCopy s))).change ≠ none)
    ∧ (let s := (wCopy .load id).modTile 0 fun t => { t with throt := 4, clock := 4 }
       s.mayIssue (s.copyTile (theCopy s)) = false)
    ∧ (let s := wCopy .load fun c => { c with next := 16, left := [1], owned := [] }
       let c := theCopy s
       c.left.find? (fun i => (s.team i).tile == 0) = some 1 ∧ s.copyDone c = true ∧ c.stopped = false
       ∧ s.teams.get? 1 ≠ none ∧ ∃ i ∈ (s.team c.team).groups, (s.group i).ended = false)
    ∧ (let s := (wCopy .load id).modCluster 1 fun c => { c with state := .draining }
       (s.cluster (s.team (theCopy s).team).cluster).state = .draining ∧ (theCopy s).stopped = false)
    ∧ (let c := theCopy (wCopy .load id)
       mapBten c.map = false ∧ mapNdim c.map ≤ 5 ∧ (∀ i < 5, 0 < mapBox c.map i) ∧ c.coords.length = 5
       ∧ mapBox c.map 0 = 16 ∧ ∀ i < mapNdim c.map, 1 ≤ mapExt c.map i) := by
  decide +kernel

/-- A TLBI of every entry finds a copy that owns a line, and one whose walk is paused. -/
theorem witness_tlbiCopies :
    let x : Tlbi := { doneTlbi with accs := [], copies := [9], wbs := [] }
    (let s := { (wCopy .store id) with tlbis := [(5, x)] }
     let c := theCopy s
     s.tlbis.get? 5 = some x ∧ s.copies.get? 9 = some c ∧ c.paused = none ∧ 256 ∈ c.owned ∧ x.reaches c.ctx 256 = true
     ∧ 256 ∉ c.stale)
    ∧ (let s := { (wCopy .store fun c => { c with paused := some 0 }) with tlbis := [(5, x)] }
     let c := theCopy s
     s.copies.get? 9 = some c ∧ c.paused ≠ none ∧ c.asked = [] ∧ c.outs = [] ∧ x.flushed = true) := by
  decide +kernel

/-- A store whose block table has come. -/
theorem witness_reservingStore :
    let s := wCopy .store fun c => { c with map := mapT, reserving := true, owned := [], phys := [], srcs := [(288, (0x8000, 0))] }
    let c := theCopy s
    s.copies.get? 9 = some c ∧ c.stopped = false ∧ c.reserving = true ∧ (s.tile (s.copyTile c)).change = none
    ∧ s.mayIssue (s.copyTile c) = true ∧ ∀ l ∈ c.tableLines, c.srcs.get? l ≠ none ∧ l ∉ c.asked := by
  decide +kernel

/-- The beat of a store: sixteen words of the local store go to their line, which goes home. -/
theorem test_storeBeat :
    let s := (wCopy .store id).modTile 0 fun t => { t with store := Memory.writeN [] 0 8 0xAABBCCDD11223344 }
    (match exec (.stagehandWalk 9) s with
      | .next t => t.net.map fun p => (p.2.ev, p.2.line, p.2.data % 2 ^ 64, p.2.mask.toNat)
      | _ => []) = [(5, 256, 0xAABBCCDD11223344, 2 ^ 64 - 1)] := by
  decide +kernel

/-! ### Coherence registers and the fault queue -/

/-- The image of CUE at 0x10000, a load of it into a slot under way. -/
def wLoad (slot : Nat) : State :=
  { w0 with
    mem := Memory.writeN [] 0x10000 1088 (leNat cueScript.image)
    coh := [(0, { Coh.reset with sldpa := 0x10000, sldBusy := true, sldCmd := BitVec.ofNat 64 (256 + slot) })] }

/-- A range of 64 KiB at 0x10000 under slot 1 (UPD), staged in entry 63; and one that is malformed. -/
def rng0 : W64 := BitVec.ofNat 64 (2 ^ 63 + 2 ^ 16 + 16)
def wRange (w0' : W64) (f : Coh → Coh) : State := { w0 with coh := [(0, f { Coh.reset with staged := [(63, w0')] })] }

theorem witness_ScriptsAndRanges :
    (256 : W64).getLsbD 8 = true ∧ (w0.cohOf 0).sldBusy = false ∧ (0 : W64).getLsbD 8 = false
    ∧ ((wLoad 6).cohOf 0).sldBusy = true
    ∧ (wLoad 5).loadCheck 0 5 0x10000 cueScript.image = (7, 0xFF, 0xFF)
    ∧ (wLoad 6).loadCheck 0 6 0x10000 cueScript.image = (0, 0xFF, 0xFF)
    ∧ ((wRange rng0 id).cohOf 0).rtBusy = false ∧ ((wRange rng0 id).cohOf 0).rangeCheck rng0 1 = 0x04
    ∧ ((wRange rng0 id).cohOf 0).rangeCheck 0 0x22 = 0 ∧ ((wRange rng0 id).cohOf 0).rangeCheck rng0 0x61 = 0
    ∧ (wRange rng0 id).dir = [] ∧ (wRange rng0 id).replicas = []
    ∧ ((wRange rng0 fun c => { c with rtPend := some (63, rng0, 0x61) }).cohOf 0).rtPend = some (63, rng0, 0x61)
    ∧ (let covers (w : W64) (l : Nat) : Prop := w.getLsbD 63 = true
         ∧ l * 128 / 2 ^ (w.toNat % 64) = w.toNat / 2 ^ 16 % 2 ^ 36 * 2 ^ 16 / 2 ^ (w.toNat % 64)
       covers rng0 512 ∧ covers rng0 1023 ∧ ¬covers rng0 1024 ∧ ¬covers rng0 511)
    ∧ (let d : DirEntry := { DirEntry.empty with ptrs := [0x4000] }
       let s : State := { (wRange rng0 fun c => { c with rtPend := some (63, rng0, 0x61) }) with dir := [(512, d)] }
       (s.cohOf 0).rtPend = some (63, rng0, 0x61) ∧ isDramLine 512 = true ∧ homeDie 512 = 0 ∧ s.dir.get? 512 = some d
       ∧ d.ptrs ≠ []) := by
  decide +kernel

/-- The codes of R123 that come before the entries: a slot in use, an image past the end of DRAM, reserved FLAGS. Then the entries
that codes 1 to 5 refuse, each well formed: one of events 12 to 15 that does something, DN with TIMER, an exclusive grant beside
holders, a transient state that neither stalls nor denies, NT without FLAGS[0]. -/
theorem witness_imageCodes :
    (let s : State := { (wLoad 6) with coh := [(0, { Coh.reset with force0 := [(0, rng0)], force1 := [(0, 6)] })] }
     (s.loadCheck 0 6 0x10000 cueScript.image).1 = 8)
    ∧ ((wLoad 6).loadCheck 0 6 (dramEnd - 1024) cueScript.image).1 = 0x0A ∧ isDram (dramEnd - 1024 + 1087) = false
    ∧ ((wLoad 6).loadCheck 0 6 0x10000 ({ cueScript with flags := 16 } : Script).image).1 = 9
    ∧ (let x : Ent := .go [actPF] 1 0
       x.wellFormed = true ∧ x.deniesOnly = false)
    ∧ (let x := (Ent.dn 0).timed
       x.wellFormed = true ∧ x.has actDN = true ∧ x.deniesOnly = false)
    ∧ (let x : Ent := .go [actGE, actSU] 3 1
       x.wellFormed = true ∧ cueScript.cls 1 = 1 ∧ x.has actGE = true ∧ x.has actIX = false ∧ x.has actRC = false)
    ∧ (let x : Ent := .go [actPF] 1 3
       x.wellFormed = true ∧ cueScript.cls 3 = 3 ∧ x.stall = false ∧ x.has actDN = false)
    ∧ (let x : Ent := .go [actPF, actNT] 1 0
       x.wellFormed = true ∧ x.has actNT = true ∧ invScript.flags.testBit 0 = false) := by
  decide +kernel

/-- The codes of R121: reserved bits, a size out of range, a base off its alignment; a slot not loaded; effects the range does
not allow; a range that asks for a verified script. -/
theorem witness_rangeCodes :
    let c := (wRange rng0 id).cohOf 0
    c.rangeCheck (rng0 ||| BitVec.ofNat 64 (2 ^ 52)) 0x61 = 9 ∧ c.rangeCheck (rng0 ||| 0x40) 0x61 = 9
    ∧ c.rangeCheck (BitVec.ofNat 64 (2 ^ 63 + 15)) 0x61 = 9 ∧ c.rangeCheck (BitVec.ofNat 64 (2 ^ 63 + 52)) 0x61 = 9
    ∧ c.rangeCheck (BitVec.ofNat 64 (2 ^ 63 + 2 ^ 16 + 17)) 0x61 = 9 ∧ c.rangeCheck rng0 0x100 = 9 ∧ c.rangeCheck rng0 0x08 = 9
    ∧ c.rangeCheck rng0 6 = 0x0B ∧ c.rangeCheck rng0 1 = 4
    ∧ ({ c with srep := 0x3F } : Coh).rangeCheck rng0 0xE1 = 6 := by
  decide +kernel

/-- Entry counters at the last value before they wrap, memory for one entry. -/
def wFq (f : Fq → Fq) : State :=
  { w0 with fq := f { w0.fq with base := 0x20000, size := 64, head := 0xFFFFFFFF, tail := 0xFFFFFFFF, waiting := [7] } }

/-- `Quiet` as one Boolean. -/
def quietLine (s : State) (l : Nat) : Bool :=
  (s.dir.get? l).isNone && s.answers.all (fun p => p.2.line != l) && s.net.all fun p => p.2.line != l

theorem witness_Quiet : ∀ s l, quietLine s l = true → s.Quiet l := by
  intro s l h
  simpa [quietLine, State.Quiet, Option.isNone_iff_eq_none, and_assoc] using h

theorem witness_FaultQueue :
    (wFq fun q => { q with waiting := [] }).fq.waiting = [] ∧ (wFq id).fq.waiting = [7]
    ∧ (let q := { (wFq id).fq with base := 0x21000 }
       q.enabled = true ∧ (q.tail.toNat + 2 ^ 32 - q.head.toNat % 2 ^ 32) % 2 ^ 32 + 1 ≤ q.size.toNat
       ∧ q.tail.toNat % 2 ^ 32 = q.head.toNat % 2 ^ 32)
    ∧ (let s := wFq fun q => { q with waiting := [7, 8], head := BitVec.ofNat 64 (0xFFFFFFFF - 62) }
       let q := s.fq
       q.enabled = true ∧ (q.tail.toNat + 2 ^ 32 - q.head.toNat % 2 ^ 32) % 2 ^ 32 + 2 ≤ q.size.toNat
       ∧ q.tail.toNat % 2 ^ 32 ≠ q.head.toNat % 2 ^ 32
       ∧ ∀ i < 2, quietLine s ((q.base.toNat + 32 * ((q.tail.toNat + i) % q.size.toNat)) / 128) = true)
    ∧ (wFq fun q => { q with base := 0, size := 0 }).fq.enabled = false ∧ (wFq id).mem.wf = true
    ∧ quietLine (wFq id) ((0x21000 + 32 * (0xFFFFFFFF % 64)) / 128) = true ∧ w0.accs = [] ∧ w0.launches ≠ []
    ∧ (let s : State := { (wg fun g => { g with gangs := [⟨255, .retry 0x5000 false, 0⟩] }) with launches := [] }
       s.accs = [] ∧ s.launches = [] ∧ s.groups.get? 1 = some (s.group 1) ∧ (s.group 1).ended = false
       ∧ (s.group 1).level ≠ .m ∧ s.ctxOf (s.group 1) = 0)
    ∧ (let a : Access := { oneLine .store with log := some 0, lines := [⟨0x280, 5, false, .missing⟩] }
       let s : State := { w0 with accs := [(7, a)], launches := [] }
       s.accs = [(7, a)] ∧ s.launches = [] ∧ s.copies = [] ∧ a.log ≠ none ∧ a.lines = [⟨0x280, 5, false, .missing⟩]
       ∧ a.kind = .store ∧ a.acq = none ∧ s.ctxOf (s.group a.gid) = 0 ∧ s.accTile a ≠ 192
       ∧ s.groups.get? a.gid ≠ none ∧ (s.group a.gid).ended = false ∧ ∀ x ∈ (s.group a.gid).gangs, x.wait = .none) := by
  decide +kernel

/-- A logged store of line 5, which is present now. -/
theorem witness_retriedStore :
    let a : Access := { oneLine .store with log := some 0, lines := [⟨0x280, 5, false, .missing⟩] }
    let s : State := { w0 with accs := [(7, a)], launches := [] }
    (a.kind = .store ∧ a.space = spcGlobal ∧ a.level ≠ .m ∧ (s.group a.gid).level ≠ .m ∧ a.gate = [] ∧ a.flushes = false
      ∧ a.wbs = [] ∧ s.ctxOf (s.group a.gid) = 0 ∧ s.accTile a < 192 ∧ s.l1 (s.accTile a) 5 = none)
    ∧ s.CacheAgrees (s.accTile a) 0 ∧ s.Maps 0 (0x280 / 128) 5 false (a.level == .u) 3 :=
  ⟨by decide +kernel, cacheAgrees_of (by decide +kernel),
    maps_of (by decide) (by decide) (by decide) (by decide +kernel) (by decide +kernel)⟩

/-! ### The distributor -/

/-- Queue 63 on, its block at 0x40000 + 256 * 63 with a ring of eight packets at 0x50000, HEAD at `hd`, TAIL one past it;
the packet there asks for one cluster of two teams with 33 threads' worth of nothing but one group each. -/
def ring : Nat := 0x50000
def pktOf (wait0 wait1 doneva : Nat) : Nat :=
  0x4000 + 0x6000 * 2 ^ 64 + doneva * 2 ^ 128 + wait0 * 2 ^ 192 + 5 * 2 ^ 256 + wait1 * 2 ^ 320
    + (1 + 2 ^ 16 + 2 ^ 32) * 2 ^ 448 + (0x12 + 2 ^ 8 + 32 * 2 ^ 16 + 4 * 2 ^ 24 + 4 * 2 ^ 32 + 0x80 * 2 ^ 40 + 2 * 2 ^ 48) * 2 ^ 496
def wQueue (hd tail pkt : Nat) : State :=
  let b := 0x40000 + 256 * 63
  { w0 with
    mem := (((((w0.mem.writeN b 9 (ring + 3 * 2 ^ 64)).writeN (b + 16) 4 hd).writeN (b + 128) 4 tail).writeN
      (ring + 128 * (hd % 8)) 128 pkt).writeN 0x7000 8 4).writeN 0x3008 16 (2 ^ 30 + 0x3B)
    dist := { w0.dist with lqtab := 0x40000, lqctl := [(63, 8)] }
    launches := [] }
/-- The launch at the head of queue 63, of a packet. -/
def wHead (pkt : Nat) : State :=
  let s := wQueue 0xFFFFFFFF 0 0
  { s with
    dist := { s.dist with head := [(63, 7)] }
    launches := [(7, { Launch.blank with queue := 63, pkt := parsePacket pkt })] }
def lHead (pkt : Nat) : Launch := (wHead pkt).launch 7

/-- A packet at the last position of HEAD, a refused one, a malformed block; counters met, missing and refused. -/
theorem witness_LaunchQueues :
    (let s := wQueue 0xFFFFFFFF 0 (pktOf 0 0 0)
     (s.dist.lqctl.getD 63 0).getLsbD 3 = true ∧ s.headOf 63 = none ∧ s.mem.wf = true
     ∧ s.readBlock 63 = some (ring, 3, 0xFFFFFFFF, 0)
     ∧ s.packetFault (s.cohLine ((ring + 128 * (0xFFFFFFFF % 2 ^ 3)) / 128)).1 0 = none
     ∧ quietLine s ((s.dist.lqtab.toNat / 2 ^ 14 * 2 ^ 14 + 256 * 63 + 16) / 128) = true)
    ∧ (let s := wQueue 0 1 0
       s.readBlock 63 = some (ring, 3, 0, 1) ∧ s.packetFault (s.cohLine (ring / 128)).1 0 = some 2)
    ∧ ({ w0 with dist := { w0.dist with lqctl := [(63, 8)] } } : State).readBlock 63 = none
    ∧ (let s := wHead (pktOf 0x7000 0 0)
       s.headOf 63 = some (7, lHead (pktOf 0x7000 0 0)) ∧ (lHead (pktOf 0x7000 0 0)).pkt.wait1.1 = 0
       ∧ (lHead (pktOf 0x7000 0 0)).pkt.wait0.1 = 0x7000 ∧ (lHead (pktOf 0x7000 0 0)).met0 = false
       ∧ (lHead (pktOf 0x7000 0 0)).posted0 = false
       ∧ (s.translate 256 0 0x7000 false .r).1 = .ok (0x7000 / 128) false ∧ isPeerLine (0x7000 / 128) = false
       ∧ (s.translate 256 0 (2 ^ 31) false .r).1 = .missing ∧ s.fq.enabled = false
       ∧ (s.translate 256 0 (2 ^ 30) false .r).1 = .access 0x20)
    ∧ (let l := lHead (pktOf 0 0x7000 0)
       (wHead (pktOf 0 0x7000 0)).headOf 63 = some (7, l) ∧ l.pkt.wait0.1 = 0 ∧ l.pkt.wait1.1 = 0x7000 ∧ l.met1 = false
       ∧ l.posted1 = false)
    ∧ (let s := { (wQueue 0 1 0) with dist := { (wQueue 0 1 0).dist with notifs := [(0x40000 + 256 * 63 + 128, 1)] } }
       s.dist.rescan = false ∧ (∀ j < 64, s.headOf j = none) ∧ s.queueBlock 63 + 128 = 0x40000 + 256 * 63 + 128)
    ∧ (let s := { w0 with dist := { w0.dist with rescan := true } }
       s.dist.rescan = true ∧ (∀ j < 64, s.headOf j = none) ∧ ∀ j < 64, s.queueOn j = false) := by
  decide +kernel

/-- A launch that has one cluster of two teams to place; the device empty. -/
def wPlace (pkt : Nat) : State :=
  let s := wHead pkt
  { s with clusters := [], teams := [], groups := s.groups.filter fun p => p.1 == 0, subs := [] }

/-- A cluster with one team and group, in a state; its launch waits for a rectangle and no other tile is there. -/
def wOut (st : Residence) (f : Group → Group) : State :=
  { ((wg f).modCluster 1 fun c => { c with state := st }) with
    launches := [(1, { Launch.blank with
      next := 1, queue := 63, pkt := { Packet.blank with regs := 16, acc := 4, live := 32, lgran := 256, gridx := 2 } })]
    dist := { w0.dist with
      head := [(63, 1)], lqctl := [(63, 8)], lcmap := (List.range 191).map fun n => (n + 1, 0) }
    mem := w0.mem.writeN 0 32 (2 ^ 63 + 0x1000 * 2 ^ 64 + 5 * 2 ^ 192) }

theorem witness_ClusterPlacement :
    (let s := wPlace (pktOf 0 0 0)
     (List.range 64).filterMap s.candOf = [⟨63, 7, none, 0⟩] ∧ (s.rectFor ⟨63, 7, none, 0⟩).isSome = true
     ∧ s.launches.get? 7 ≠ none ∧ (s.launch 7).waiting = 0 ∧ (s.launch 7).pkt.recva = 0x6000 ∧ (s.launch 7).ctx = 0)
    ∧ (let s := wOut .resident id
       s.candOf 63 = some ⟨63, 1, none, 0⟩ ∧ (s.launch 1).pkt.det = false ∧ s.switching = false ∧ (s.launch 1).waiting = 0
       ∧ s.launches.get? 1 ≠ none ∧ (s.launch 1).queue = 63 ∧ s.rectFor ⟨63, 1, none, 0⟩ = none
       ∧ (s.victims fun v => v.2.launch == 1) ≠ [] ∧ s.ctxPnote (s.launch (s.cluster 1).launch).ctx = false
       ∧ (∀ j ∈ (s.cluster 1).teams, (s.team j).cluster = 1 ∧ (s.team j).tile < 192
         ∧ (s.tile (s.team j).tile).change = none)
       ∧ ∀ i ∈ s.clusterGroups 1, s.groups.get? i ≠ none ∧ (s.group i).ended = false ∧ (s.group i).stopped = false
         ∧ (s.group i).preempting = false)
    ∧ (let s := wOut .draining fun g => { g with stopped := true }
       (s.cluster 1).ended = false ∧ (s.cluster 1).state = .draining ∧ s.drained 1 = true
       ∧ s.changing 1 = false
       ∧ (∀ i ∈ (s.cluster 1).teams, (s.team i).ended = false → s.tileClean (s.team i).tile = true)
       ∧ s.clusters.get? 1 ≠ none)
    ∧ (wOut .stopping id).clusters.get? 1 ≠ none ∧ ((wOut .stopping id).cluster 1).state = .stopping
    ∧ (wOut .stopping id).changing 1 = false
    ∧ ((wOut .stopping id).modTile 0 fun t => { t with change := some true }).changing 1 = true := by
  decide +kernel

/-- A launch like the placed one's, its records at `recva`. -/
def pktRec (recva : Nat) : Nat := pktOf 0 0 0 + recva * 2 ^ 64 - 0x6000 * 2 ^ 64

theorem agrees_wPlace (pkt : Nat) (h : ∀ t < 192, ((wPlace pkt).tile t).tlb ++ (wPlace pkt).dev.tcache.getD (dieOf t) [] = []) :
    ∀ t < 192, (wPlace pkt).CacheAgrees t 0 := fun t ht => cacheAgrees_of (h t ht)

/-- The records of the launch are mapped. -/
theorem witness_records : let s := wPlace (pktOf 0 0 0)
    (s.rectFor ⟨63, 7, none, 0⟩ ≠ some []) ∧ (∀ t < 192, s.CacheAgrees t 0)
    ∧ ∀ i < 512, ∃ p unc, s.Maps 0 ((0x6000 + i) / 128) p unc false 2 := by
  refine ⟨by decide +kernel, agrees_wPlace _ (by decide +kernel), fun i hi => ?_⟩
  have h : ∀ l, l < 4 → ((wPlace (pktOf 0 0 0)).tableAt 0 ((192 + l) * 128) 3 = some 0x3000
      ∧ (wPlace (pktOf 0 0 0)).entryAt 0x3000 3 ((192 + l) * 128) = 0x3F) := by decide +kernel
  have hl : (0x6000 + i) / 128 = 192 + i / 128 := by omega
  rw [hl]
  exact ⟨_, false, maps_of (by decide) (by decide) (by omega) (h _ (by omega)).1 (h _ (by omega)).2⟩

/-- Records in a page that is not present, and in one that may not be read. -/
theorem witness_recordsApart :
    (let s := wPlace (pktRec (2 ^ 31))
     (List.range 64).filterMap s.candOf = [⟨63, 7, none, 0⟩] ∧ (s.rectFor ⟨63, 7, none, 0⟩).isSome = true
     ∧ (s.rectFor ⟨63, 7, none, 0⟩ ≠ some []) ∧ (s.launch 7).pkt.recva = 2 ^ 31 ∧ s.fq.enabled = false
     ∧ ∀ j < 512, s.NotPresent 0 ((2 ^ 31 + j) / 128))
    ∧ (let s := wPlace (pktRec (2 ^ 30))
     (List.range 64).filterMap s.candOf = [⟨63, 7, none, 0⟩] ∧ (s.rectFor ⟨63, 7, none, 0⟩).isSome = true
     ∧ (s.launch 7).pkt.recva = 2 ^ 30 ∧ ∀ j < 512, ∃ p unc, s.Leads 0 ((2 ^ 30 + j) / 128) p unc false 2 false) := by
  refine ⟨⟨by decide +kernel, by decide +kernel, by decide +kernel, by decide +kernel, by decide +kernel, fun j hj => ?_⟩,
    by decide +kernel, by decide +kernel, by decide +kernel, fun j hj => ?_⟩
  · have h : ∀ l, l < 4 → ((wPlace (pktRec (2 ^ 31))).tableAt 0 ((2 ^ 24 + l) * 128) 3 = some 0x3000
        ∧ (wPlace (pktRec (2 ^ 31))).entryAt 0x3000 3 ((2 ^ 24 + l) * 128) = 0) := by decide +kernel
    rw [show (2 ^ 31 + j) / 128 = 2 ^ 24 + j / 128 by omega]
    exact ⟨3, 0x3000, by decide, by decide, by omega, (h _ (by omega)).1, by rw [(h _ (by omega)).2]; decide⟩
  · have h : ∀ l, l < 4 → ((wPlace (pktRec (2 ^ 30))).tableAt 0 ((2 ^ 23 + l) * 128) 3 = some 0x3000
        ∧ (wPlace (pktRec (2 ^ 30))).entryAt 0x3000 3 ((2 ^ 23 + l) * 128) = BitVec.ofNat 64 (2 ^ 30 + 0x3B)) := by decide +kernel
    rw [show (2 ^ 30 + j) / 128 = 2 ^ 23 + j / 128 by omega]
    refine ⟨2 ^ 23 + j / 128, false, 3, 0x3000, by decide, by decide, by omega, (h _ (by omega)).1, ?_⟩
    rw [(h _ (by omega)).2]
    have hf : field (BitVec.ofNat 64 (2 ^ 30 + 0x3B)) 12 40 = 2 ^ 18 := by decide
    have hd : 2 ^ 31 ≤ dramEnd := by decide
    simp only [hf]
    exact ⟨by decide, by decide, by decide, nofun, by decide, by decide, by decide, by decide, by decide, by decide, by omega,
      by omega⟩

/-! ### Save records -/

/-- A cluster to be switched out: stopped, drained, its record at 0x400000; the same switched out, its tile free. -/
def wSave : State :=
  let s := wOut .draining fun g => { g with stopped := true }
  { s with mem := s.mem.writeN 16 8 0x400000, launches := s.launches.map fun p => (p.1, { p.2 with next := 2 }) }
def wBack : State :=
  let s := wOut .out fun g => { g with place := .loft, phys := [], v := [] }
  { (s.modTeam 1 fun t => { t with tile := 192, gmap := [] }) with
    mem := s.mem.writeN 16 8 0x400000
    subs := []
    launches := s.launches.map fun p => (p.1, { p.2 with pkt := { p.2.pkt with lgran := 2 } }) }

/-- The context's tables map the addresses below one gigabyte through one entry of each level. -/
structure LowTables (s : State) : Prop where
  root : s.tableDown 0 0 0 = some 0x1000
  two : s.tableDown 0 0 1 = some 0x2000
  three : s.tableDown 0 0 2 = some 0x3000
  none' : s.tableDown 0 0 3 = none
  leaf : s.entryAt 0x3000 3 0 = 0x3F
  ctx : s.dev.ctxtab = 0

theorem entryAt_low {s : State} {t lvl va : Nat} (hl : 3 ≤ lvl) (h : va < 2 ^ 30) : s.entryAt t lvl va = s.entryAt t lvl 0 := by
  have : va / 2 ^ (12 + 9 * (lvl - 1)) = 0 :=
    Nat.div_eq_of_lt (lt_of_lt_of_le h (Nat.pow_le_pow_right (by decide) (by omega)))
  simp [State.entryAt, this]

theorem tableDown_low {s : State} {va : Nat} (h : va < 2 ^ 30) : ∀ k ≤ 3, s.tableDown 0 va k = s.tableDown 0 0 k := by
  intro k
  induction k with
  | zero => intro _; rfl
  | succ n ih =>
    intro hk
    simp only [State.tableDown, ih (by omega), entryAt_low (show 3 ≤ 5 - n by omega) h]

theorem tableAt_low {s : State} (hs : LowTables s) {va lvl t : Nat} (h : va < 2 ^ 30) (h1 : 1 ≤ lvl) (h5 : lvl ≤ 5)
    (ht : s.tableAt 0 va lvl = some t) :
    lvl = 5 ∧ t = 0x1000 ∨ lvl = 4 ∧ t = 0x2000 ∨ lvl = 3 ∧ t = 0x3000 := by
  have none3 : s.tableDown 0 va 3 = none := by rw [tableDown_low h 3 (by decide), hs.none']
  have cases : lvl = 1 ∨ lvl = 2 ∨ lvl = 3 ∨ lvl = 4 ∨ lvl = 5 := by omega
  rw [State.tableAt] at ht
  rcases cases with rfl | rfl | rfl | rfl | rfl
  · rw [show 5 - 1 = 3 + 1 from rfl, State.tableDown, none3] at ht
    cases ht
  · rw [show 5 - 2 = 3 from rfl, none3] at ht
    cases ht
  · rw [show 5 - 3 = 2 from rfl, tableDown_low h 2 (by decide), hs.three] at ht
    injection ht with ht
    exact Or.inr (Or.inr ⟨rfl, ht.symm⟩)
  · rw [show 5 - 4 = 1 from rfl, tableDown_low h 1 (by decide), hs.two] at ht
    injection ht with ht
    exact Or.inr (Or.inl ⟨rfl, ht.symm⟩)
  · rw [show 5 - 5 = 0 from rfl, tableDown_low h 0 (by decide), hs.root] at ht
    injection ht with ht
    exact Or.inl ⟨rfl, ht.symm⟩

theorem maps_low {s : State} (hs : LowTables s) {l r : Nat} (hr : r < 4) (h2 : 2 ≤ r) (hl : l < 2 ^ 23) : s.Maps 0 l l false false r :=
  maps_of hr h2 hl (by rw [State.tableAt, tableDown_low (by omega) 2 (by decide), hs.three])
    (by rw [entryAt_low (by decide) (by omega), hs.leaf])

theorem maps_only {s : State} (hs : LowTables s) {l p r : Nat} {u : Bool} (hl : l < 2 ^ 23) (h : s.Maps 0 l p u false r) : p = l := by
  obtain ⟨lvl, table, h1, h3, _, ht, he⟩ := h
  rcases tableAt_low hs (by omega) h1 (by omega) ht with ⟨rfl, rfl⟩ | ⟨rfl, rfl⟩ | ⟨rfl, rfl⟩
  · omega
  · omega
  · rw [entryAt_low (by decide) (by omega), hs.leaf] at he
    have hf : field (0x3F : W64) 12 40 = 0 := by decide
    obtain ⟨-, -, -, -, -, -, -, -, -, -, hp, -⟩ := he
    rw [hf] at hp
    omega

theorem walks_low {s : State} (hs : LowTables s) {l q : Nat} (hl : l < 2 ^ 23) (h : s.WalkReads 0 l q) : q < 0x80 := by
  rcases h with ⟨w, hw, hq⟩ | ⟨lvl, table, h1, h5, ht, hq⟩
  · rw [hs.ctx, show (0 : W64).toNat = 0 from rfl] at hq
    omega
  · have hi : l * 128 / 2 ^ (12 + 9 * (lvl - 1)) % (if lvl = 5 then 256 else 512) < 512 := by
      split
      · exact lt_of_lt_of_le (Nat.mod_lt _ (by decide)) (by decide)
      · exact Nat.mod_lt _ (by decide)
    rcases tableAt_low hs (by omega) h1 h5 ht with ⟨rfl, rfl⟩ | ⟨rfl, rfl⟩ | ⟨rfl, rfl⟩ <;> omega

theorem recordAt_low {s : State} (hs : LowTables s) {tile r : Nat} (hr : r < 4) (h2 : 2 ≤ r) (hc : s.CacheAgrees tile 0) :
    s.RecordAt tile 0 0x400000 r := ⟨hc, fun i hi => ⟨_, false, maps_low hs hr h2 (by omega)⟩⟩

theorem recordApart_low {s : State} (hs : LowTables s) (hd : s.dir = []) (ha : s.answers = []) (hn : s.net = []) :
    s.RecordApart 0 0x400000 where
  apart i hi j hj p q u v hp hq hij hpq := by
    rw [maps_only hs (by omega) hp, maps_only hs (by omega) hq] at hpq
    omega
  walks i hi j hj p q u hp hq hpq := by
    have := walks_low hs (by omega) hq
    rw [← hpq, maps_only hs (by omega) hp] at this
    omega
  quiet i hi p u hp := by simp [State.Quiet, hd, ha, hn]
  steady i hi q hq := by simp [State.away, State.dirOf, hd, Table.getD, DirEntry.empty]

theorem lowTables_of {s : State} (h : (s.tableDown 0 0 0 == some 0x1000 && s.tableDown 0 0 1 == some 0x2000
    && s.tableDown 0 0 2 == some 0x3000 && s.tableDown 0 0 3 == none && s.entryAt 0x3000 3 0 == 0x3F && s.dev.ctxtab == 0) = true) :
    LowTables s := by
  simp only [Bool.and_eq_true, beq_iff_eq] at h
  obtain ⟨⟨⟨⟨⟨a, b⟩, c⟩, d⟩, e⟩, f⟩ := h
  exact ⟨a, b, c, d, e, f⟩

/-- What a switch-out saves: one team of one group, every granule of its tile. -/
theorem witness_save :
    let s := wSave
    ((s.cluster 1).ended = false ∧ (s.cluster 1).state = .draining ∧ s.drained 1 = true ∧ s.changing 1 = false
      ∧ (s.cluster 1).teams = [1] ∧ s.teams.get? 1 ≠ none ∧ (s.team 1).ended = false ∧ (s.team 1).tile = 0
      ∧ s.tileClean 0 = true ∧ (s.team 1).gmap.length = 256 ∧ (s.tile 0).store.wf = true
      ∧ (s.team 1).groups = [1] ∧ s.groups.get? 1 ≠ none ∧ (s.group 1).idx < 32 ∧ (s.group 1).regs = 256
      ∧ (s.launch (s.cluster 1).launch).ctx = 0 ∧ s.saveBase 0 (s.cluster 1).idx (s.team 1).idx = 0x400000)
    ∧ s.RecordAt 0 0 0x400000 3 ∧ s.RecordApart 0 0x400000 :=
  have hs : LowTables wSave := lowTables_of (by decide +kernel)
  ⟨by decide +kernel, recordAt_low hs (by decide) (by decide) (cacheAgrees_of rfl), recordApart_low hs rfl rfl rfl⟩

/-- What a restore gives back: the cluster's launch is the one candidate, tile 0 the one place for it. -/
theorem witness_restore :
    let s := wBack
    ((List.range 64).filterMap s.candOf = [⟨63, 1, some 1, 0⟩] ∧ s.rectFor ⟨63, 1, some 1, 0⟩ = some [0] ∧ (s.launch 1).waiting = 0
      ∧ (s.cluster 1).teams = [1] ∧ s.clusters.get? 1 ≠ none ∧ s.teams.get? 1 ≠ none ∧ (s.team 1).ended = false
      ∧ (s.team 1).saveLost = false ∧ (s.team 1).merges = [] ∧ s.accs = [] ∧ s.copies = [] ∧ (s.tile 0).store.wf = true
      ∧ (s.launch 1).pkt.lgran ≤ 256 ∧ (s.cluster 1).launch = 1
      ∧ (∀ j ∈ (s.team 1).groups, s.groups.get? j ≠ none ∧ (s.group j).team = 1 ∧ (s.group j).idx < 32 ∧ (s.group j).regs ≤ 256
        ∧ (s.group j).saveLost = false ∧ (s.group j).ended = false ∧ ∀ x ∈ (s.group j).gangs, x.wait = .none)
      ∧ (s.team 1).groups = [1] ∧ (s.launch (s.cluster 1).launch).ctx = 0
      ∧ s.saveBase 0 (s.cluster 1).idx (s.team 1).idx = 0x400000)
    ∧ s.RecordAt 0 0 0x400000 2 :=
  have hs : LowTables wBack := lowTables_of (by decide +kernel)
  ⟨by decide +kernel, recordAt_low hs (by decide) (by decide) (cacheAgrees_of rfl)⟩

/-! ### Launches -/

/-- The placed launch with its one cluster ended; `det` makes it a deterministic one of two phases. -/
def wDone (det : Bool) (done : Nat) (f : Launch → Launch) : State :=
  { (wg fun g => { g with ended := true }) with
    launches := [(1, f { Launch.blank with
      next := 1, done := done, pkt := { Packet.blank with regs := 16, acc := 4, live := 32, det := det, phases := 2 } })] }

/-- Two groups on sub-core 0 of tile 0: the second is ready in the fly loft. -/
def wTwo (regs : Nat) (gs : List SubGang) (pl : Place) : State :=
  let s := wg fun g => { g with regs := regs, gangs := gs, place := pl }
  { (s.modTeam 1 fun t => { t with groups := [1, 2], tokens := [(0, { Token.reset with count := 1, byTokset := true })] }) with
    groups := s.groups.set 2 { (s.group 1) with idx := 4, regs := 256, place := .loft, gangs := [⟨255, .none, 0⟩] } }

theorem witness_LaunchesAndResidence :
    (let s := wDone false 1 id
     (s.launch 1).done = (s.launch 1).next ∧ (s.launch 1).waiting = 0 ∧ (s.launch 1).pkt.total ≤ (s.launch 1).next
     ∧ s.released 1 = true ∧ (s.launch 1).lastPhase = true ∧ (s.launch 1).incPosted = false ∧ (s.launch 1).pkt.doneva = 0)
    ∧ (let s := wDone false 1 fun l => { l with pkt := { l.pkt with doneva := 0x7000 } }
       (s.launch 1).refused = false ∧ (s.launch 1).pkt.doneva ≠ 0
       ∧ ({ s with replicas := s.replicas.filter fun r => r.launch != 1 } : State).translate 256 0 0x7000 false .a
          = (.ok (0x7000 / 128) false,
            (({ s with replicas := s.replicas.filter fun r => r.launch != 1 } : State).translate 256 0 0x7000 false .a).2))
    ∧ (∀ p ∈ [(2 ^ 31, WalkRes.missing), (2 ^ 30, .access 0x20)],
       let s := { (wDone false 1 fun l => { l with pkt := { l.pkt with doneva := p.1 } }) with
         mem := w0.mem.writeN 0x3008 8 (2 ^ 30 + 0x2F) }
       (s.launch 1).refused = false ∧ (s.launch 1).pkt.doneva ≠ 0 ∧ s.fq.enabled = false
       ∧ (({ s with replicas := s.replicas.filter fun r => r.launch != 1 } : State).translate 256 0 p.1 false .a).1 = p.2)
    ∧ (let s := wDone true 1 id
       (s.launch 1).refused = false ∧ (s.launch 1).pkt.det = true ∧ (s.launch 1).phase + 1 < (s.launch 1).pkt.phases
       ∧ s.released 1 = true)
    ∧ (let s := wDone true 0 id
       (s.launch 1).pkt.det = true ∧ (s.launch 1).watchdog = false
       ∧ s.clusters.get? 1 = some (s.cluster 1) ∧ (s.cluster 1).launch = 1 ∧ (s.cluster 1).ended = false
       ∧ (s.cluster 1).state ≠ .out)
    ∧ (let s := wTwo 1024 [⟨255, .tokens 1, 0⟩] .pool
       s.groups.get? 1 ≠ none ∧ s.nextParked 0 0 = some 1 ∧ s.crowded 0 0 = true)
    ∧ (let s := wTwo 768 [⟨255, .none, 0⟩] .pool
       s.groups.get? 2 ≠ none ∧ s.nextResident 0 0 = some 2 ∧ (s.resident 0 0).length < 16
       ∧ ((s.resident 0 0).map fun i => (s.group i).regs).sum + (s.group 2).regs ≤ 1024)
    ∧ (let s := wTwo 1024 [⟨255, .none, 0⟩] .pool
       s.crowded 0 0 = true ∧ s.nextParked 0 0 = none ∧ s.resident 0 0 ≠ []
       ∧ ∀ i ∈ s.resident 0 0, (s.group i).slicing = .no) := by
  decide +kernel

/-! ### Device registers -/

def wMon (n k : Nat) : State :=
  { w0 with mons := [(n, { Monitor.reset with ctl := BitVec.ofNat 64 (1 + k * 2 ^ 8) })] }

theorem witness_SensorsAndRegisters :
    w0.sm.evlog.length < 256 ∧ w0.sm.evseq.length + 3 ≤ 64
    ∧ (∀ k ∈ [3, 4], let m := (wMon 0 k).mons.getD 0 Monitor.reset
       m.ctl.getLsbD 0 = true ∧ m.ctl.toNat / 2 ^ 8 % 16 = k)
    ∧ (∀ k ∈ [9, 10], let m := (wMon 256 k).mons.getD 256 Monitor.reset
       m.ctl.getLsbD 0 = true ∧ m.ctl.toNat / 2 ^ 8 % 16 = k)
    ∧ (0xF01 : W64).getLsbD 1 = false ∧ (0xF01 : W64).getLsbD 2 = false ∧ 0x101001 % 8 ≠ 0 := by
  decide +kernel

/-- The queues with an entry and without; thresholds that are reached, left and inside the hysteresis after the dwell
time. -/
theorem witness_thresholds :
    (let s := { w0 with sm := { w0.sm with evseq := [1], evlog := [2], stallq := [(3, 4, 5)] } }
     s.sm.evseq = 1 :: [] ∧ s.sm.evlog = 2 :: [] ∧ s.sm.stallq = (3, 4, 5) :: []) ∧ w0.sm.evseq = [] ∧ w0.sm.evlog = []
    ∧ w0.sm.stallq = []
    ∧ (let limit : Int := asSigned 16 (w0.sm.tthr.toNat % 65536)
       let hyst : Int := w0.sm.tthr.toNat / 2 ^ 48
       limit ≤ (0x550 : BitVec 16).toInt ∧ ¬limit ≤ (0x54F : BitVec 16).toInt
       ∧ (0x51F : BitVec 16).toInt < limit - hyst ∧ ¬(0x520 : BitVec 16).toInt < limit - hyst) := by
  decide +kernel

/-- Device 5 reached by port 3; a request to it on its way. -/
def wPort (down : List Nat) (net : Table Req) : State :=
  { w0 with
    ports := { w0.ports with route := [(5, 0x13)], down := down, pend := [(5, 0x14)], devid := 9 }
    net := net }

theorem witness_PortsAndPeers :
    (let s := wPort [] []
     s.fq.enabled = false ∧ 5 ∉ s.ports.failed ∧ s.dir = [] ∧ s.routeInUse 5 = false
     ∧ s.ports.pend.find? (fun p => p.1 == 5) = some (5, 0x14)
     ∧ (s.ports.route.getD 5 0).getLsbD 4 = true ∧ (s.ports.route.getD 6 0).getLsbD 4 = false ∧ 5 ≠ s.ports.devid.toNat % 8192)
    ∧ (3 ∈ (wPort [3] []).ports.down ∧ (wPort [3] []).fq.enabled = false)
    ∧ (let l := peerLine 5 0
       let r := { req 0 0 none with line := l }
       lineDevice l = some 5 ∧ (wPort [] [(9, r)]).routeInUse 5 = true ∧ r.tag ≠ .ext)
    ∧ (let s := { w0 with ports := { w0.ports with outbox := [(3, 1, 5, 7)] } }
       s.ports.outbox = (3, 1, 5, 7) :: []) := by
  decide +kernel

/-- A route that ends while a round waits on its device alone; messages for a device that no route reaches. -/
theorem witness_unreachable :
    (let d : DirEntry := { DirEntry.empty with ptrs := [deviceId 5], round := some ⟨[deviceId 5], retireKind, none, 1⟩ }
     let s := { (wPort [] []) with ports := { (wPort [] []).ports with pend := [(5, 0)] }, dir := [(5, d)] }
     s.ports.pend.find? (fun p => p.1 == 5) = some (5, 0) ∧ s.routeInUse 5 = false ∧ (0 : W64).getLsbD 4 = false
     ∧ d.queue = [] ∧ d.pend = none ∧ d.timer = false ∧ d.tmo = 0)
    ∧ (let s := wPort [] []
       5 ∉ s.ports.failed ∧ 7 ∉ s.ports.failed ∧ 6 ≠ s.ports.devid.toNat % 8192 ∧ 5 ≠ s.ports.devid.toNat % 8192
       ∧ (s.ports.route.getD 6 0).getLsbD 4 = false ∧ (s.ports.route.getD 7 0).getLsbD 4 = false
       ∧ (s.ports.route.getD 5 0).getLsbD 4 = true) := by
  decide +kernel

theorem witness_ReportsResetsErrors :
    w0.att.busy = false
    ∧ (let s := { w0 with att := { w0.att with busy := true, job := some (List.replicate 304 0), attpa := 64 } }
      s.att.busy = true ∧ s.att.job = some (List.replicate 304 0) ∧ (List.replicate 304 (0 : Byte)).length = 304
      ∧ s.mem.wf = true ∧ s.att.attpa.toNat % 64 = 0 ∧ (∀ k < 128, paOk (s.att.attpa.toNat + 64 * k) = true)
      ∧ ∀ l < 65, quietLine s l = true)
    ∧ (64 + 8159) / 128 < 65 ∧ ({ w0 with att := { w0.att with attpa := 1 } } : State).att.attpa.toNat % 64 ≠ 0
    ∧ paOk (dramEnd - 8128 + 64 * 127) = false
    ∧ ({ w0 with att := { w0.att with recovery := true } } : State).att.recovery = true ∧ w0.att.recovery = false
    ∧ imageOk [] = false
    ∧ w0.hasPlace (.block 0) = true ∧ w0.hasPlace (.store 191 16383) = true ∧ (w0.tile 191).store.wf = true
    ∧ w0.hasPlace (.acc 191 3 7) = true ∧ (w0.modTile 0 fun t => { t with l1 := [(5, freshLine)] }).hasPlace (.l1 0 5 1) = true
    ∧ w0.hasPlace (.reg 1 (.v 255)) = true ∧ w0.hasPlace (.reg 1 (.t 63)) = true ∧ w0.mem.wf = true
    ∧ (let l := 2 ^ 48 / 128
       ({ w0 with l2 := [(l2Key 0 l, ⟨1, 0, 0, false, none, true⟩)] } : State).hasPlace (.l2 0 l 1) = true ∧ isDramLine l = false)
    ∧ (let s := { w0 with bad := [.reg 1 (.v 3)] }
       s.groups.get? s.cur.gid ≠ none ∧ (∀ r ∈ [Spec.v 2, .v 3, .v 4], s.curG.refuses r = false)
       ∧ s.curT.tokensZero h0.wt = true ∧ s.busyOn [.v 2, .v 3, .v 4] = []
       ∧ s.badSource h0 [.v 3, .v 4] (hasEffect h0 [.v 2] s) = some (.v 3) ∧ s.groups.get? 1 ≠ none) := by
  decide +kernel

/-! ### The machine as a whole -/

/-- The word of `nop`. -/
def nopW : Nat := 0xFF7FBFC0001C0000
def regangW : Nat := 0xFF7FBFC0001C0A2C

theorem witness_EncodeDecode :
    (Instr.nop h0).encodable = true ∧ decode (natToBytes 8 nopW ++ natToBytes 8 nopW) = .ok (.nop h0) := by
  decide +kernel

/-- Nothing comes before a sub-gang's next instruction, as one Boolean. -/
def quietB (s : State) (gid : Nat) (x : SubGang) : Bool :=
  (s.group gid).nextPend.isNone && (s.group gid).slicing == .no && (x.wait == .none || x.wait == .freed) && s.accs.isEmpty
    && (s.savedLoops gid).isEmpty

theorem undisturbed_of {s : State} {gid : Nat} {x : SubGang} (h : quietB s gid x = true) : Undisturbed s gid x := by
  simp only [quietB, Bool.and_eq_true, Bool.or_eq_true, Option.isNone_iff_eq_none, List.isEmpty_iff, beq_iff_eq] at h
  obtain ⟨⟨⟨⟨h1, h2⟩, h3⟩, h4⟩, h5⟩ := h
  exact ⟨h1, by rw [h2]; decide, by rcases h3 with h3 | h3 <;> rw [h3] <;> exact nofun,
    by rw [h4]; exact fun p hp => (nomatch hp), h5⟩

/-- The stage manager's turn with `nop` in its SRAM; an issue cycle of the placed group. -/
def wTurn : State :=
  { w0 with agenda := [.manager], sm := { w0.sm with halted := false, sram := Memory.writeN [] 0 8 nopW } }
def wCycle : State := State.reset.placed regangW
/-- The cycle's state once its turn has begun. -/
def wBegun (s : State) : State := ({ s with agenda := s.agenda.drop 1, free := s.free + 1 } : State).tick 0 0
  (if (s.tile 0).subNow < 0 then Config.freeNat s.free else Config.freeNat s.free + 1)
/-- The same with the group freed at its RVWAIT; in the cycle that decided a change of gear, the turn of
sub-core 0 over. -/
def wFreed : State := wCycle.modGroup 1 fun g => { g with gangs := [⟨255, .freed, 0⟩] }
def wDecided : State := wCycle.modTile 0 fun t => { t with change := some false, lastCycle := true, subNow := 0 }

/-- What the cycle picks. -/
def thePick : Pick := ⟨0, 0, 0, 1, ⟨255, .none, 0⟩, true⟩
def pickIs (p : Option Pick) : Bool :=
  match p with
  | some p => p.tile == 0 && p.q == 0 && p.slot == 0 && p.gid == 1 && p.gang == ⟨255, .none, 0⟩ && p.keep
  | none => false

theorem pick_of {p : Option Pick} (h : pickIs p = true) : p = some thePick := by
  cases p with
  | none => cases h
  | some p =>
    obtain ⟨a, b, c, d, e, k⟩ := p
    simp only [pickIs, Bool.and_eq_true, beq_iff_eq] at h
    obtain ⟨⟨⟨⟨⟨rfl, rfl⟩, rfl⟩, rfl⟩, rfl⟩, rfl⟩ := h
    rfl

theorem witness_StepRunsDecoded :
    (let s := { w0 with agenda := [.event .alwaysOnReset] }
     s.agenda = .event .alwaysOnReset :: [] ∧ Instr.alwaysOnReset.hdr = none)
    ∧ (wTurn.agenda = .manager :: [] ∧ wTurn.sm.halted = false ∧ (wTurn.group 0).tstate.getLsbD tsIe = false
      ∧ (let s1 := { (wTurn.modTeam 0 Team.sample) with
          agenda := [], free := wTurn.free + 1, held := []
          sm := { wTurn.sm with clock := wTurn.sm.clock + BitVec.ofNat 64 (Config.freeNat wTurn.free) } }
        s1.pickGang 0 = some ⟨1, .none, 0⟩ ∧ (wTurn.group 0).level = .m ∧ Undisturbed s1 0 ⟨1, .none, 0⟩)
      ∧ ((wTurn.group 0).pcOf 1).toNat % 4 = 0
      ∧ fetchDecode ((wTurn.group 0).pcOf 1).toNat
          (wTurn.sm.sram.readN ((wTurn.group 0).pcOf 1).toNat (max (32 - ((wTurn.group 0).pcOf 1).toNat % 32) 8))
          = .instr (.nop h0))
    ∧ (wCycle.agenda = .cycle 0 0 :: State.reset.agenda ∧ (wCycle.tile 0).change = none
      ∧ wCycle.wantGear 0 = (wCycle.tile 0).gear ∧ (wBegun wCycle).mayIssue 0 = true
      ∧ (let s2 := (wBegun wCycle).fillSlots 0 0
        s2.pick 0 0 = some thePick ∧ Undisturbed s2 1 thePick.gang
        ∧ (({ s2 with cur := ⟨1, 255, 0⟩ } : State).fetch 1 255).1 = .instr (.regang h0)))
    ∧ ((wCycle.group 1).level ≠ .m ∧ ((wCycle.group 1).pcOf 255).toNat % 4 = 0
      ∧ (∀ y ∈ (wCycle.group 1).gangs, y.wait = .none) ∧ ((wCycle.group 1).pcOf 255).toNat % 32 ≤ 24
      ∧ (let p := wCycle.translate 0 (wCycle.ctxOf (wCycle.group 1)) 0x4000 true .r
        p.1 = .ok (0x4000 / 128) false ∧ isPeerLine (0x4000 / 128) = false ∧ p.2.fetchBad (0x4000 / 128) 0x4000 = false
        ∧ p.2.oldLines (wCycle.launchIdOf (wCycle.group 1)) (0x4000 / 128) = []
        ∧ fetchDecode 0x4000 (bytesOf (p.2.cohLine (0x4000 / 128)).1 0 32) = .instr (.regang h0)))
    ∧ lenOfBytes (natToBytes 1 nopW) = some .b64
    ∧ decode (natToBytes 16 (nopW % 256 ^ 8)) = .ok (.nop h0) :=
  ⟨by decide +kernel, ⟨by decide +kernel, by decide +kernel, by decide +kernel, ⟨by decide +kernel, by decide +kernel,
      undisturbed_of (by decide +kernel)⟩, by decide +kernel, by decide +kernel⟩,
    ⟨by decide +kernel, by decide +kernel, by decide +kernel, by decide +kernel, pick_of (by decide +kernel),
      undisturbed_of (by decide +kernel), by decide +kernel⟩,
    by decide +kernel, by decide +kernel, by decide +kernel⟩

theorem witness_freedAndDecided :
    (let s2 := (wBegun wFreed).fillSlots 0 0
     (∃ p, s2.pick 0 0 = some p ∧ p.gid = 1 ∧ p.gang = ⟨255, .freed, 0⟩) ∧ Undisturbed s2 1 ⟨255, .freed, 0⟩
     ∧ (({ s2 with cur := ⟨1, 255, 0⟩ } : State).fetch 1 255).1 = .instr (.regang h0))
    ∧ ((wDecided.tile 0).change ≠ none ∧ (wDecided.tile 0).lastCycle = true
      ∧ (Config.freeNat wDecided.free = 0 →
        (if (wDecided.tile 0).subNow < 1 then Config.freeNat wDecided.free else Config.freeNat wDecided.free + 1) = 0)) := by
  refine ⟨⟨?_, undisturbed_of (by decide +kernel), by decide +kernel⟩, by decide +kernel, by decide +kernel, fun h => ?_⟩
  · have h : (match ((wBegun wFreed).fillSlots 0 0).pick 0 0 with
        | some p => p.gid == 1 && p.gang == ⟨255, .freed, 0⟩
        | none => false) = true := by decide +kernel
    split at h
    · next p hp =>
      simp only [Bool.and_eq_true, beq_iff_eq] at h
      exact ⟨p, hp, h⟩
    · cases h
  · rw [if_pos (show (wDecided.tile 0).subNow < 1 by decide +kernel), h]

theorem witness_MemoryStaysCanonical :
    Canonical State.reset ∧ ∃ t, step State.reset = .next t :=
  ⟨⟨rfl, rfl, fun i => by simp [State.tile, State.reset, Table.getD, Tile.reset, Memory.wf, Memory.wfFrom]⟩, _, rfl⟩

/-- Page walks in context 0: a table of each level; an entry not present, malformed, a page, a page without a right. -/
theorem witness_PageWalks :
    let s (e : Nat) : State := { w0 with mem := w0.mem.writeN 0x3000 8 e }
    (∀ p ∈ ((s 0x3F).tile 0).tlb ++ (s 0x3F).dev.tcache.getD (dieOf 0) [], p.ctx ≠ 0)
    ∧ (∀ l ∈ [3, 4, 5], (s 0x3F).tableAt 0 0x4000 l = some (0x1000 * (6 - l)))
    ∧ (s 0x3001).tableAt 0 0x4000 2 = some 0x3000
    ∧ (s 0x3E).entryAt 0x3000 3 0x4000 = 0x3E ∧ (s 0x7F).entryAt 0x3000 3 0x4000 = 0x7F
    ∧ (s 0x3F).entryAt 0x3000 3 0x4000 = 0x3F ∧ 0x4000 % 128 = 0 := by
  decide +kernel

/-- Tables down to level 1 at 0x7000; its entry for VA 0x4000 is given, or it has one 64 KiB page from 0. -/
def wLeaf (m : Memory → Memory) : State :=
  { w0 with mem := m ((w0.mem.writeN 0x3000 8 0x6001).writeN 0x6000 8 0x7001) }

/-- A stripe-set leaf there, and entry 1 of the table with `n` devices. -/
def wStripe (n : Nat) : State := wLeaf fun m => (m.writeN 0x7020 8 0x133F).writeN (256 + 144) 1 n

theorem witness_leaves :
    (let s := wLeaf fun m => (List.range 16).foldl (fun m i => m.writeN (0x7000 + 8 * i) 8 (4096 * i + 0xBF)) m
     s.tableAt 0 0x4000 1 = some 0x7000 ∧ (s.entryAt 0x7000 1 0x4000).getLsbD 7 = true
     ∧ ∀ i < 16, let x := s.entryAt 0x7000 1 (0x4000 / 65536 * 65536 + 4096 * i)
       field x 12 4 = i ∧ ∀ b < 64, b < 12 ∨ 16 ≤ b → x.getLsbD b = (s.entryAt 0x7000 1 0x4000).getLsbD b)
    ∧ (let s := wLeaf fun m => m.writeN 0x7020 8 (2 ^ 39 * 5 + 0x23F)
       let e := s.entryAt 0x7000 1 0x4000
       s.tableAt 0 0x4000 1 = some 0x7000 ∧ field e 8 2 = 2 ∧ field e 39 13 = 5 ∧ e.getLsbD 7 = false)
    ∧ (let s := wStripe 65
       let e := s.entryAt 0x7000 1 0x4000
       field e 8 2 = 3 ∧ field e 20 32 = 0 ∧ field e 12 8 = 1 ∧ (s.tile 0).stripe = []
       ∧ s.cohRead (s.dev.sstab.toNat + 256 * field e 12 8 + 144) 1 = 65) := by
  decide +kernel

/-- Entry 1 of the stripe-set table, of one device and nothing else set, is valid. -/
theorem witness_stripeSet :
    let f (off n : Nat) : Nat := (wStripe 64).cohRead ((wStripe 64).dev.sstab.toNat + 256 * 1 + off) n
    ¬(f 144 1 = 0 ∨ 64 < f 144 1 ∨ (∃ i < 111, f (145 + i) 1 ≠ 0) ∨ (∃ i < 64, 8192 ≤ f (2 * i) 2) ∨ 0x4000 < f 128 8) := by
  intro f
  have h0 : (wStripe 64).dev.sstab.toNat = 0 := by decide +kernel
  have h2 : ((wStripe 64).cohLine 2).1 = 0 := by decide +kernel
  have h3 : ((wStripe 64).cohLine 3).1 = 64 * 256 ^ 16 := by decide +kernel
  have lo (off n : Nat) (h : off < 128) : f off n = bytesOf 0 off n := by
    simp only [f, State.cohRead, h0, show (0 + 256 * 1 + off) / 128 = 2 by omega, h2,
      show (0 + 256 * 1 + off) % 128 = off by omega]
  have hi (off n : Nat) (h : off < 128) : f (128 + off) n = bytesOf (64 * 256 ^ 16) off n := by
    simp only [f, State.cohRead, h0, show (0 + 256 * 1 + (128 + off)) / 128 = 3 by omega, h3,
      show (0 + 256 * 1 + (128 + off)) % 128 = off by omega]
  have rest : ∀ i < 111, bytesOf (64 * 256 ^ 16) (17 + i) 1 = 0 := by decide +kernel
  have ids : ∀ i < 64, bytesOf 0 (2 * i) 2 < 8192 := by decide +kernel
  rintro (h | h | ⟨i, hi', h⟩ | ⟨i, hi', h⟩ | h)
  · exact absurd ((hi 16 1 (by omega)).symm.trans h) (by decide +kernel)
  · exact absurd (hi 16 1 (by omega) ▸ h) (by decide +kernel)
  · exact h ((show 145 + i = 128 + (17 + i) by omega) ▸ (hi (17 + i) 1 (by omega)).trans (rest i hi'))
  · have := ids i hi'
    rw [lo _ _ (by omega)] at h
    omega
  · exact absurd (hi 0 8 (by omega) ▸ h) (by decide +kernel)

/-! ### Words written out from the encodings (R36-R38, R46, R56 and the table of each family) -/

/-- A 96-bit header. -/
def h96 : Hdr := { h0 with len := .b96 }

theorem test_decode_integer_1 :
    decodeTableWord 64 0xFF7FBFC0001C0000 = some (.nop h0)
    ∧ decodeTableWord 64 0xFF790040001D0004 = some (.mov h0 ⟨1, false, false, 0⟩ (.v 2) (.sp 0))
    ∧ decodeTableWord 64 0xFF75FA6004080004 = some (.mov { h0 with grd := ⟨2, 0, 0, true⟩ } ⟨0, false, false, 0⟩ (.p 3) (.p 7))
    ∧ decodeTableWord 128 0x000000030003FDFEFF7FE0A0001C100A = some (.movi (hI 3) ⟨0, false, false, 1⟩ (.g 5) .imm)
    ∧ decodeTableWord 64 0xFF5FC120001C000C = some (.movp h0 (.v 9) (.g 127))
    ∧ decodeTableWord 96 0x0003FDD681005FE0001F4011 = some (.sel h96 ⟨3, false, true, 0⟩ (.v 255) (.v 1) (.g 2) (.p 6))
    ∧ decodeTableWord 64 0xDF808020001EC020 = some (.iadd h0 ⟨2, true, true, 0⟩ (.v 1) (.v 2) (.t 63))
    ∧ decodeTableWord 64 0x0180802C081D0024 = some (.isub { h0 with wt := 0x81, sch := .pass } ⟨1, false, false, 0⟩ (.v 1) (.v 2) (.v 3))
    ∧ decodeTableWord 64 0x01808020001F8028 = some (.imul h0 ⟨3, true, false, 0⟩ (.v 1) (.v 2) (.v 3))
    ∧ decodeTableWord 64 0x01808030001C402C = some (.imulh { h0 with sch := .stay } ⟨0, false, true, 0⟩ (.v 1) (.v 2) (.v 3))
    ∧ decodeTableWord 96 0x0003FC0401808020001DC031 = some (.imad h96 ⟨1, true, true, 0⟩ (.v 1) (.v 2) (.v 3) (.v 4))
    ∧ decodeTableWord 64 0x01808020001C0034 = some (.imin h0 ⟨0, false, false, 0⟩ (.v 1) (.v 2) (.v 3))
    ∧ decodeTableWord 64 0x01808020001C4038 = some (.imax h0 ⟨0, false, true, 0⟩ (.v 1) (.v 2) (.v 3))
    ∧ decodeTableWord 64 0xFF008020001FC03C = some (.iabs h0 ⟨3, true, true, 0⟩ (.v 1) (.v 2))
    ∧ decodeTableWord 64 0x01808020001C1040 = some (.land h0 ⟨0, false, false, 1⟩ (.v 1) (.v 2) (.v 3)) := by
  decide +kernel

theorem test_decode_integer_2 :
    decodeTableWord 64 0x01808020001C0044 = some (.lor h0 ⟨0, false, false, 0⟩ (.v 1) (.v 2) (.v 3))
    ∧ decodeTableWord 64 0x0180B020001C1048 = some (.lxor h0 ⟨0, false, false, 1⟩ (.t 1) (.v 2) (.v 3))
    ∧ decodeTableWord 64 0xFF008020001E004C = some (.lnot h0 ⟨2, false, false, 0⟩ (.v 1) (.v 2))
    ∧ decodeTableWord 64 0x01808020001C8050 = some (.shl h0 ⟨0, true, false, 0⟩ (.v 1) (.v 2) (.v 3))
    ∧ decodeTableWord 128 0x0000001F0003FDFEFF808020001D0056 = some (.shr (hI 31) ⟨1, false, false, 0⟩ (.v 1) (.v 2) .imm)
    ∧ decodeTableWord 64 0x01808020001D4058 = some (.sar h0 ⟨1, false, true, 0⟩ (.v 1) (.v 2) (.v 3))
    ∧ decodeTableWord 64 0x01808020001D105C = some (.rot h0 ⟨1, false, false, 1⟩ (.v 1) (.v 2) (.v 3))
    ∧ decodeTableWord 96 0x0003FC0401808020001C4061 = some (.bfe h96 ⟨0, false, true, 0⟩ (.v 1) (.v 2) (.v 3) (.v 4))
    ∧ decodeTableWord 96 0x00000A0401808020001C0065 = some (.bfi h96 ⟨0, false, false, 0⟩ (.v 1) (.v 2) (.v 3) (.v 4) (.v 5))
    ∧ decodeTableWord 64 0xFF008020001C0068 = some (.popc h0 ⟨0, false, false, 0⟩ (.v 1) (.v 2))
    ∧ decodeTableWord 64 0xFF008020001D006C = some (.clz h0 ⟨1, false, false, 0⟩ (.v 1) (.v 2))
    ∧ decodeTableWord 64 0xFF008020001E0070 = some (.ctz h0 ⟨2, false, false, 0⟩ (.v 1) (.v 2))
    ∧ decodeTableWord 64 0xFF008020001F0074 = some (.brev h0 ⟨3, false, false, 0⟩ (.v 1) (.v 2))
    ∧ decodeTableWord 64 0xFF797A00001D0078 = some (.icmp h0 ⟨1, false, false, 0⟩ (.p 0) (.sp 1) .zero) := by
  decide +kernel

theorem test_decode_float :
    decodeTableWord 64 0x01808020001C8200 = some (.fadd h0 ⟨0, true, 0⟩ (.v 1) (.v 2) (.v 3))
    ∧ decodeTableWord 64 0x01808020001D3204 = some (.fsub h0 ⟨1, false, 3⟩ (.v 1) (.v 2) (.v 3))
    ∧ decodeTableWord 64 0x01808020001E2208 = some (.fmul h0 ⟨2, false, 2⟩ (.v 1) (.v 2) (.v 3))
    ∧ decodeTableWord 96 0x0003FC0301004100001D120D = some (.ffma h96 ⟨1, false, 1⟩ (.v 8) (.v 1) (.v 2) (.v 3))
    ∧ decodeTableWord 64 0x01808020001F1210 = some (.fmin h0 ⟨3, false, 1⟩ (.v 1) (.v 2) (.v 3))
    ∧ decodeTableWord 64 0x01808020001C0214 = some (.fmax h0 ⟨0, false, 0⟩ (.v 1) (.v 2) (.v 3))
    ∧ decodeTableWord 64 0xFF008020001D0218 = some (.fneg h0 ⟨1, false, 0⟩ (.v 1) (.v 2))
    ∧ decodeTableWord 64 0xFF008020001F021C = some (.fabs h0 ⟨3, false, 0⟩ (.v 1) (.v 2))
    ∧ decodeTableWord 64 0x0180BA20001C5220 = some (.fcmp h0 ⟨0, false, 5⟩ (.p 1) (.v 2) (.v 3))
    ∧ decodeTableWord 128 0x000003FF0003FDFEFF80BA20001C0226 = some (.fclass (hI 0x3FF) ⟨0, false, 0⟩ (.p 1) (.v 2) .imm)
    ∧ decodeTableWord 64 0xFF008020001C1228 = some (.frnd h0 ⟨0, false, 1⟩ (.v 1) (.v 2))
    ∧ decodeTableWord 64 0x01808020001E822C = some (.fscl h0 ⟨2, true, 0⟩ (.v 1) (.v 2) (.v 3))
    ∧ decodeTableWord 96 0x0003FC0401808020001DB231 = some (.fdot h96 ⟨1, true, 3⟩ (.v 1) (.v 2) (.v 3) (.v 4)) := by
  decide +kernel

theorem test_decode_special :
    decodeTableWord 96 0x3403FDFEFF008020001D3401 = some (.cvt h96 ⟨3, true, 0, 1, 3⟩ (.v 1) (.v 2) .zero)
    ∧ decodeTableWord 128 0x000000080003FDFEFF804060001CA406 = some (.cvti (hI 8) ⟨0xA, false, 0, 0, 0⟩ (.v 3) (.v 1) .imm)
    ∧ decodeTableWord 96 0x0043FD0908007840001D2409 = some (.quant h96 ⟨1, 2, true⟩ (.b 2) (.v 1) (.v 16) (.g 9))
    ∧ decodeTableWord 96 0x0083FDFE00F08100001D940D = some (.deq h96 ⟨⟨1, true, 1⟩, 2⟩ (.v 8) (.b 2) (.v 1))
    ∧ decodeTableWord 64 0xFF006080001F1410 = some (.amax h0 3 true (.g 4) (.v 1))
    ∧ decodeTableWord 64 0xFF008020001C0420 = some (.rcp h0 ⟨0, false, 0⟩ (.v 1) (.v 2))
    ∧ decodeTableWord 64 0xFF008020001C0424 = some (.rsq h0 ⟨0, false, 0⟩ (.v 1) (.v 2))
    ∧ decodeTableWord 64 0xFF008020001C0428 = some (.sqrt h0 ⟨0, false, 0⟩ (.v 1) (.v 2))
    ∧ decodeTableWord 64 0xFF008020001C042C = some (.ex2 h0 ⟨0, false, 0⟩ (.v 1) (.v 2))
    ∧ decodeTableWord 64 0xFF008020001C0430 = some (.lg2 h0 ⟨0, false, 0⟩ (.v 1) (.v 2))
    ∧ decodeTableWord 64 0xFF008020001C0434 = some (.sinr h0 ⟨0, false, 0⟩ (.v 1) (.v 2))
    ∧ decodeTableWord 64 0xFF008020001C0438 = some (.cosr h0 ⟨0, false, 0⟩ (.v 1) (.v 2))
    ∧ decodeTableWord 64 0xFF00B0C0001C0440 = some (.welf h0 (.t 6) (.v 2))
    ∧ decodeTableWord 64 0xFF6230C0001C0444 = some (.wmerge h0 (.t 6) (.t 8)) := by
  decide +kernel

theorem test_decode_lanes :
    decodeTableWord 64 0x01808020001DB500 = some (.shfl h0 1 true 3 (.v 1) (.v 2) (.v 3))
    ∧ decodeTableWord 96 0x0003FDD601808020001F0505 = some (.push h96 3 (.v 1) (.v 2) (.v 3) (.p 6))
    ∧ decodeTableWord 64 0x0180A020001E4508 = some (.readl h0 2 true (.g 1) (.v 2) (.v 3))
    ∧ decodeTableWord 64 0x01808020001D050C = some (.writel h0 1 (.v 1) (.v 2) (.v 3))
    ∧ decodeTableWord 64 0xFF74A020001C3510 = some (.vote h0 3 (.g 1) (.p 2))
    ∧ decodeTableWord 64 0xFF00A0E0001D0514 = some (.redl h0 ⟨1, 0, 0, false⟩ (.g 7) (.v 2))
    ∧ decodeTableWord 96 0x0183FDFEFF008020001D8519 = some (.scanl h96 ⟨1, 8, 2, true⟩ (.v 1) (.v 2))
    ∧ decodeTableWord 96 0x0003FC040180B020001E051D = some (.perm h96 2 (.t 1) (.v 2) (.v 3) (.v 4)) := by
  decide +kernel

theorem test_decode_memory_1 :
    decodeTableWord 64 0x00F00040001C5600 = some (.ld h0 ⟨false, 0, 5, 0⟩ ⟨0, 0⟩ (.v 2) (.b 0) (.v 1))
    ∧ decodeTableWord 96 0x0103FDFEFF700040001E5601 = some (.ld h96 ⟨true, 0, 5, 4⟩ ⟨0, 0⟩ (.v 2) (.b 0) .zero)
    ∧ decodeTableWord 128 0x00000001010FFDFEFFFFF800001E5606 = some (.st (hI 1) ⟨true, 0, 5, 4⟩ ⟨0, 3⟩ (.b 0) .imm .imm)
    ∧ decodeTableWord 96 0x06E0080200F3C060001D7609 = some (.atom h96 ⟨1, 7, 3, 3⟩ ⟨2, 0⟩ (.v 3) (.b 15) (.v 1) (.v 2) (.v 4))
    ∧ decodeTableWord 64 0x01007820001F260C = some (.red h0 ⟨3, 2, 0, 0⟩ ⟨0, 0⟩ (.b 1) (.v 1) (.v 2))
    ∧ decodeTableWord 96 0x0483FC0301007820001C0611 = some (.redq h96 ⟨0, 0, 2, 2⟩ ⟨0, 0⟩ (.b 1) (.v 1) (.v 2) (.v 3))
    ∧ decodeTableWord 64 0xFF7FBB20001D3614 = some (.fence h0 ⟨false, true, false, false, 3⟩ (.k 1))
    ∧ decodeTableWord 96 0x0043FDFEFF7FBBE0001FA615 = some (.fence h96 ⟨true, true, true, true, 2⟩ (.k 7))
    ∧ decodeTableWord 64 0xFF7FBFC0101C0618 = some (.waitt { h0 with wt := 2 })
    ∧ decodeTableWord 96 0x0002090381407820001C061D = some (.bufset h96 0 (.b 1) (.g 1) (.g 2) (.g 3) (.g 4))
    ∧ decodeTableWord 64 0xFF70B820001C161C = some (.bufset h0 1 (.b 1) (.b 2) .zero .zero .zero)
    ∧ decodeTableWord 96 0x0003FD038170B820001C261D = some (.bufset h96 2 (.b 1) (.b 2) (.g 2) (.g 3) .zero)
    ∧ decodeTableWord 64 0xFF738020001C3620 = some (.bufq h0 3 (.v 1) (.b 14))
    ∧ decodeTableWord 96 0x0013FDFEFF007860001C1625 = some (.pref h96 true ⟨1, 0⟩ (.b 3) (.v 1))
    ∧ decodeTableWord 64 0xFF7FA000001C0628 = some (.lfmr h0 false (.g 0)) := by
  decide +kernel

theorem test_decode_memory_2 :
    decodeTableWord 64 0xFF7FBFC0001C1628 = some (.lfmr h0 true .zero) := by
  decide +kernel

theorem test_decode_copies :
    decodeTableWord 96 0x0003FDD88570F840001C0801 = some (.tcopy h96 (.b 2) (.b 3) (.g 10) (.k 0))
    ∧ decodeTableWord 96 0x0003FDD985F0F840001C0805 = some (.tstore h96 (.b 2) (.b 3) (.g 11) (.k 1))
    ∧ decodeTableWord 96 0x0003FDDA8670F840001C0809 = some (.tred h96 (.b 2) (.b 3) (.g 12) (.k 2))
    ∧ decodeTableWord 128 0x0000FFFF0003FDFEFF7FFB60001C080E = some (.tokset (hI 65535) (.k 3) .imm)
    ∧ decodeTableWord 128 0x000000400243FDFEFF7FFFC0001C0812 = some (.yield (hI 0x40) 9 .imm)
    ∧ decodeTableWord 64 0xFF777FC0001C1814 = some (.tokq h0 true .zero (.k 5)) := by
  decide +kernel

theorem test_decode_matrix :
    decodeTableWord 96 0x0000422008003C00001D4901 = some (.mma h96 ⟨1, 1, false, false, false⟩ (.a 0) (.v 0) (.v 16) (.v 32) (.v 33))
    ∧ decodeTableWord 96 0x00403A1C0A083C20001D5901 = some (.mma h96 ⟨1, 1, false, true, true⟩ (.a 1) (.v 32) (.v 20) (.v 28) (.v 29))
    ∧ decodeTableWord 96 0x0003B97DE1707C60001EE905 = some (.mloop h96 ⟨2, 3, true, false, false⟩ (.a 3) (.b 1) (.b 2) (.g 125) (.k 4))
    ∧ decodeTableWord 64 0xFF7FBC20001C2908 = some (.accz h0 2 (.a 1))
    ∧ decodeTableWord 64 0x01F0BC20001D090C = some (.accld h0 ⟨false, true, false, 0⟩ ⟨0, 0⟩ (.a 1) (.b 2) (.v 3) .zero)
    ∧ decodeTableWord 96 0x0007FD03F10079E0001EB911 = some (.accst h96 ⟨true, false, true, 3⟩ ⟨0, 1⟩ (.b 15) (.v 1) (.a 2) (.g 3))
    ∧ decodeTableWord 64 0xFF788100001C1914 = some (.accmv h0 true (.v 8) (.a 2))
    ∧ decodeTableWord 128 0x3F8000000003FDFFF0F80400001C091A = some (.smx (hI 0x3F800000) (.v 32) (.a 0) (.a 1) .imm)
    ∧ decodeTableWord 64 0xFF78C020001C091C = some (.accq h0 (.v 1) (.a 3)) := by
  decide +kernel

theorem test_decode_control_1 :
    decodeTableWord 128 0x000000300003FDFEFFF43FC0001C1A02 = some (.ifOp (hI 0x30) false true (.p 0) .imm)
    ∧ decodeTableWord 128 0x000000200003FDFEFFFFBFC0001C0A06 = some (.elseOp (hI 0x20) .imm)
    ∧ decodeTableWord 64 0xFF7FBFC0001C0A08 = some (.endif h0)
    ∧ decodeTableWord 128 0x000001000003FDFEFFFFBFC0001C0A0E = some (.loop (hI 0x100) .imm)
    ∧ decodeTableWord 128 0xFFFFFFF00003FDFEFFFFBFC0001C0A12 = some (.endloop (hI 0xFFFFFFF0) .imm)
    ∧ decodeTableWord 128 0x000000100003FDFEFFF5FFC0001C2A16 = some (.brk (hI 0x10) true (.p 7) .imm)
    ∧ decodeTableWord 128 0x000000100003FDFEFFF4FFC0001C0A1A = some (.cont (hI 0x10) false (.p 3) .imm)
    ∧ decodeTableWord 128 0x000000040003FDFEFFFFBFC0001C0A1E = some (.jmp (hI 4) .imm)
    ∧ decodeTableWord 128 0x000000080003FDFEFFFFBFC003440A22 = some (.call { hI 8 with grd := ⟨1, 2, 3, false⟩ } .imm)
    ∧ decodeTableWord 64 0xFF7FBFC0001C0A24 = some (.ret h0)
    ∧ decodeTableWord 64 0xFF7FBFC0001C0A28 = some (.exit h0)
    ∧ decodeTableWord 64 0xFF7FBFC0001C0A2C = some (.regang h0)
    ∧ decodeTableWord 64 0xFF7FA0A0001C2A30 = some (.mergeS h0 ⟨1, 0, 0⟩ (.g 5) .zero)
    ∧ decodeTableWord 64 0xFF7460A0001C0A30 = some (.mergeS h0 ⟨0, 0, 0⟩ (.g 5) (.p 1))
    ∧ decodeTableWord 96 0x2EC3FDFEFF7FB0A0001C5A31 = some (.mergeG h96 ⟨2, 3, 23⟩ (.t 5) .zero) := by
  decide +kernel

theorem test_decode_control_2 :
    decodeTableWord 64 0xFF7FB0A0001C0A34 = some (.drop h0 (.t 5))
    ∧ decodeTableWord 64 0xFF40BA20001C0A38 = some (.rankq h0 (.p 1) (.g 2)) := by
  decide +kernel

theorem test_decode_sync :
    decodeTableWord 128 0x0000000C0003FDFEFF7FFFC0001DFB02 = some (.rvinit (hI 12) 31 .imm)
    ∧ decodeTableWord 64 0xFF7FBFC0001C0B04 = some (.rvarr h0 0)
    ∧ decodeTableWord 64 0xFF7FBFC0001F9B08 = some (.rvwait h0 25 true)
    ∧ decodeTableWord 64 0xFF7FBA40001D7B0C = some (.rvtest h0 23 (.p 2))
    ∧ decodeTableWord 64 0xFF7FBFC0001C1B10 = some (.gearSet h0 true)
    ∧ decodeTableWord 64 0xFF7F8020001C2B10 = some (.gearQ h0 (.v 1))
    ∧ decodeTableWord 64 0xFF407FC0001C0B14 = some (.nap h0 (.g 1)) := by
  decide +kernel

theorem test_decode_system :
    decodeTableWord 128 0x000000070003FDFEFF7FFFC0001C0C02 = some (.trap (hI 7) .imm)
    ∧ decodeTableWord 64 0xFF7FBFC0001C0C04 = some (.eret h0)
    ∧ decodeTableWord 64 0xFF7F80A0001C4C08 = some (.csrr h0 4 (.v 5))
    ∧ decodeTableWord 64 0xFF5EBFC0001CAC0C = some (.csrw h0 10 (.g 122))
    ∧ decodeTableWord 64 0xFF7FBFC0001C0C10 = some (.bkpt h0)
    ∧ decodeTableWord 64 0xFF7FBFC0001C0C14 = some (.halt h0)
    ∧ decodeTableWord 64 0xFF7FBFC0001C0C18 = some (.wfi h0)
    ∧ decodeTableWord 64 0xFF407B20001C0C1C = some (.tlbi h0 0 (.k 1) (.g 1))
    ∧ decodeTableWord 64 0xFF7FBB20001C2C1C = some (.tlbi h0 2 (.k 1) .zero) := by
  decide +kernel

/-- Refused words: not assigned opcode, SCH 11, reserved specifier, immediate outside 128 bits, CH.L2 11, undefined MOD bit,
undefined MOD2 bit, unused field, GOP 00 with G1, guard on REGANG, IABS unsigned, FDOT f32, RM 100, WAITT with no token,
YIELD with no mask, target not a multiple of 4, BUFSET form 3, MMA class 00, TCOPY coordinates at g124, signed TY in ST, cas
in RED, FENCE of nothing, GEAR 11, MERGE.G at a cluster point, MERGE mode 101, TLBI form 11, CSR without a name, ballot into
a predicate, REDL operation 0xD, SAT of CVT to an integer, CVT with an exponent but no q64, CVT part 4 of 4, 64-bit MMA,
WELF pair past t63, ACCST .norm of si32, all zeros, LEN 11. -/
theorem test_decode_refuses :
    decodeTableWord 64 0xFF7FBFC0001C0014 = none
    ∧ decodeTableWord 64 0xFF7FBFD8001C0000 = none
    ∧ decodeTableWord 64 0x017C0020001C0020 = none
    ∧ decodeTableWord 64 0x017FC020001C0020 = none
    ∧ decodeTableWord 96 0x0033FDFE00F00040001C5601 = none
    ∧ decodeTableWord 64 0xFF404020001C100C = none
    ∧ decodeTableWord 96 0x0043FDFE01808020001C0021 = none
    ∧ decodeTableWord 64 0x01808020001C0068 = none
    ∧ decodeTableWord 64 0xFF7FBFC0003C0000 = none
    ∧ decodeTableWord 64 0xFF7FBFC000000A2C = none
    ∧ decodeTableWord 64 0xFF008020001C003C = none
    ∧ decodeTableWord 64 0x01808020001C0230 = none
    ∧ decodeTableWord 64 0x01808020001C4200 = none
    ∧ decodeTableWord 64 0xFF7FBFC0001C0618 = none
    ∧ decodeTableWord 128 0x000000080003FDFEFF7FFFC0001C0812 = none
    ∧ decodeTableWord 128 0x000000020003FDFEFFFFBFC0001C0A1E = none
    ∧ decodeTableWord 64 0xFF70B820001C361C = none
    ∧ decodeTableWord 96 0x0000422008003C00001C4901 = none
    ∧ decodeTableWord 96 0x0003FDD8BE70F840001C0801 = none
    ∧ decodeTableWord 64 0x01007800001C6604 = none
    ∧ decodeTableWord 64 0x01007800001C760C = none
    ∧ decodeTableWord 64 0xFF7FBB00001C3614 = none
    ∧ decodeTableWord 64 0xFF7FBFC0001C3B10 = none
    ∧ decodeTableWord 96 0x3003FDFEFF7FB0A0001C3A31 = none
    ∧ decodeTableWord 64 0xFF7FA0A0001CAA30 = none
    ∧ decodeTableWord 64 0xFF7FBB20001C3C1C = none
    ∧ decodeTableWord 64 0xFF7F8020001FFC08 = none
    ∧ decodeTableWord 64 0xFF007A20001C3510 = none
    ∧ decodeTableWord 64 0xFF006020001CD514 = none
    ∧ decodeTableWord 64 0xFF008020001D7400 = none
    ∧ decodeTableWord 96 0x0003FDFE01808020001C3401 = none
    ∧ decodeTableWord 96 0x4003FDFEFF008020001C3401 = none
    ∧ decodeTableWord 64 0x08003C00001D4900 = none
    ∧ decodeTableWord 64 0xFF00B7E0001C0440 = none
    ∧ decodeTableWord 64 0xF0007820001C9910 = none
    ∧ decodeTableWord 64 0x0000000000000000 = none
    ∧ decodeTableWord 64 0x0000000000000003 = none := by
  decide +kernel

/-! ### Ill-formed terms, one for each check -/

theorem test_wellFormed_refuses :
    (Instr.nop { h0 with imm := 1 }).wf = false
    ∧ (Instr.nop { h0 with grd := ⟨7, 1, 0, false⟩ }).wf = false
    ∧ (Instr.iadd h0 ⟨0, false, false, 0⟩ (.v 1) .imm (.v 2)).wf = false
    ∧ (Instr.regang { h0 with grd := ⟨0, 0, 0, false⟩ }).wf = false
    ∧ (Instr.nop h0).wf = true ∧ (Instr.nop (hI 1)).wf = true ∧ (Instr.nop { h0 with grd := ⟨7, 1, 1, false⟩ }).wf = true
    ∧ (Instr.iadd (hI 1) ⟨0, false, false, 0⟩ (.v 1) .imm (.v 2)).wf = true ∧ (Instr.regang h0).wf = true := by
  decide +kernel

/-! ### One step, on the spec's own worked cases -/

/-- The placed group with values in vector registers, alike in every lane. -/
def wv (l : List (Nat × W64)) : State := wg fun g => { g with v := l.map fun p => (p.1, List.replicate 32 p.2) }

/-- Register `v3` in lane 0 after an instruction. -/
def v3 (i : Instr) (s : State) : Option W64 :=
  match exec i s with
  | .next t => some ((t.group 1).laneV 3 0)
  | _ => none

/-- A part of the state after an instruction. -/
def after {α : Type} (f : State → α) (i : Instr) (s : State) : Option α :=
  match exec i s with
  | .next t => some (f t)
  | _ => none

/-- The worked case after R186: four signed 16-bit elements, wrapping and saturating. -/
theorem test_iadd_si16 :
    let s := wv [(1, 0x7FF0800000011234), (2, 0x0020FFFFFFFF0001)]
    v3 (.iadd h0 ⟨2, false, true, 0⟩ (.v 3) (.v 1) (.v 2)) s = some 0x80107FFF00001235
    ∧ v3 (.iadd h0 ⟨2, true, true, 0⟩ (.v 3) (.v 1) (.v 2)) s = some 0x7FFF800000001235 := by
  decide +kernel

/-- R181's numbers: shifts that saturate, and counts past the width. -/
theorem test_shifts :
    (let s := wv [(1, 0x3030303030303030), (2, 0x0202020202020202)]
     v3 (.shl h0 ⟨3, true, true, 0⟩ (.v 3) (.v 1) (.v 2)) s = some 0x7F7F7F7F7F7F7F7F
     ∧ v3 (.shl h0 ⟨3, false, false, 0⟩ (.v 3) (.v 1) (.v 2)) s = some 0xC0C0C0C0C0C0C0C0)
    ∧ v3 (.sar (hI 20) ⟨2, false, true, 0⟩ (.v 3) (.v 1) .imm) (wv [(1, 0x8000800080008000)]) = some 0xFFFFFFFFFFFFFFFF := by
  decide +kernel

/-- The worked case of `BFE`. -/
theorem test_bfe :
    v3 (.bfe h96 ⟨1, false, true, 0⟩ (.v 3) (.v 1) (.v 4) (.v 5))
      (wv [(1, 0xF80), (4, 0x400000004), (5, 0x800000008)]) = some 0x00000000FFFFFFF8 := by
  decide +kernel

/-- The worked cases of R187: one rounding of a fused product; ties to even in BF16. -/
theorem test_float :
    v3 (.ffma h96 ⟨0, false, 0⟩ (.v 3) (.v 1) (.v 2) (.v 4)) (wv [(1, 0x3F800001), (2, 0x3F7FFFFE), (4, 0xBF800000)])
      = some 0xA8800000
    ∧ v3 (.fmul h0 ⟨0, false, 0⟩ (.v 3) (.v 1) (.v 2)) (wv [(1, 0x3F800001), (2, 0x3F7FFFFE)]) = some 0x3F800000
    ∧ v3 (.fadd h0 ⟨3, false, 0⟩ (.v 3) (.v 1) (.v 2)) (wv [(1, 0x3F803F803F803F80), (2, 0x3B803B803B803B80)])
      = some 0x3F803F803F803F80 := by
  decide +kernel

/-- The worked cases of R215 and R216. -/
theorem test_cvt :
    v3 (.cvt h96 ⟨3, false, 0, 0, 0⟩ (.v 3) (.v 1) .zero) (wv [(1, 0x447A0000C0533333)]) = some 0x7FC5
    ∧ v3 (.cvt h96 ⟨3, true, 0, 0, 0⟩ (.v 3) (.v 1) .zero) (wv [(1, 0x447A0000C0533333)]) = some 0x7EC5
    ∧ v3 (.cvt (hI 1) ⟨0, false, 0xF, 0, 0⟩ (.v 3) (.v 1) .imm) (wv [(1, 0x0000048000000800)]) = some 0x40100000
    ∧ v3 (.cvti (hI 8) ⟨0xA, false, 0, 0, 0⟩ (.v 3) (.v 1) .imm) (wv [(1, 0x3FB00000)]) = some 352 := by
  decide +kernel

/-- R209: a reciprocal that overflows, and a sine that is exact. -/
theorem test_special :
    v3 (.rcp h0 ⟨0, false, 0⟩ (.v 3) (.v 1)) (wv [(1, 1)]) = some 0x7F800000
    ∧ v3 (.rcp h0 ⟨0, true, 0⟩ (.v 3) (.v 1)) (wv [(1, 1)]) = some 0x7F7FFFFF
    ∧ v3 (.sinr h0 ⟨0, false, 0⟩ (.v 3) (.v 1)) (wv [(1, 0x3E800000)]) = some 0x3F800000 := by
  decide +kernel

/-- The worked case of `PERM`: the halves of a register change places. -/
theorem test_perm :
    v3 (.perm (hI 1) 1 (.v 3) (.v 1) .zero .imm) (wv [(1, 0x1111111122222222)])
      = some 0x2222222211111111 := by
  decide +kernel

/-- A guard true in no lane, and one lane's own value shifted in by `SHFL.UP`. -/
theorem test_guard_and_lanes :
    v3 (.iadd { h0 with grd := ⟨7, 0, 0, true⟩ } ⟨0, false, false, 0⟩ (.v 3) (.v 1) (.v 1)) (wv [(1, 5)]) = some 0
    ∧ after (fun t => (t.group 1).laneV 3 31) (.mov h0 ⟨0, false, false, 0⟩ (.v 3) (.sp 0)) w0 = some 31
    ∧ after (fun t => (t.group 1).laneP 2 7) (.icmp h0 ⟨1, false, false, 0⟩ (.p 2) (.sp 1) .zero) w0 = some false
    ∧ after (fun t => (t.group 1).laneP 2 3) (.icmp h0 ⟨1, false, false, 0⟩ (.p 2) (.sp 1) .zero) w0 = some true := by
  decide +kernel

/-- The `IF` of the second fragment: `p0` true in slice 0 only parts the group; the others go to the target. -/
theorem test_if_parts :
    let s := wg fun g => { g with p := [(0, List.replicate 4 true)] }
    after (fun t => ((t.group 1).gangs.map (·.slices), ((t.group 1).slice 0).pc, ((t.group 1).slice 1).pc))
      (.ifOp (hI 0x30) false true (.p 0) .imm) s = some ([1, 254], 0x4010, 0x4030) := by
  decide +kernel

/-- R317, R323: `TRAP 7` in U mode: level S, the cause and the next PC saved, the PC at TVEC of the context. -/
theorem test_trap :
    let s := { w0 with mem := w0.mem.writeN 32 8 0x6000 }
    after (fun t => ((t.group 1).level, (t.group 1).tcause.toNat % 256, (t.group 1).tpc, (t.group 1).tinfo,
      ((t.group 1).slice 7).pc)) (.trap (hI 7) .imm) s = some (.s, 0x15, 0x4010, 7, 0x6000) := by
  decide +kernel

/-- `TOKSET` holds at 65,535. -/
theorem test_tokset :
    after (fun t => ((t.team 1).token 3).count) (.tokset (hI 65536) (.k 3) .imm) w0 = some 65535 := by
  decide +kernel

/-- A store into the local store and what a load finds there, little-endian. -/
theorem test_store_load :
    let s := (wb r4).modGroup 1 fun g => { g with v := [(2, List.replicate 32 0xAABBCCDD)] }
    after (fun t => (t.tile 0).store.read 0) (.st (hI 0) ⟨false, 0, 5, 0⟩ ⟨0, 0⟩ (.b 0) .imm (.v 2)) s = some 0xDD
    ∧ after (fun t => (t.tile 0).store.read 3) (.st (hI 0) ⟨false, 0, 5, 0⟩ ⟨0, 0⟩ (.b 0) .imm (.v 2)) s = some 0xAA := by
  decide +kernel

end Sys2Proof.Tests
end

section
/-! PROOFS. O24 fails. `PREF` of a group in M mode takes its line untranslated and uncached, so it asks for the line without
a look at the L1 (`State.lineTarget`, `State.prefLine`). The statement excludes the stage manager by its tile number alone
(`curTile < 192`), and a state may hold a group in M mode on a tile below 192. With `curG.level ≠ .m` this state is
excluded. -/

namespace Sys2Proof.Machine

/-! ### A prefetch in M mode on a tile with an L1 -/

/-- The line prefetched, past the tables and the code of the placed program. -/
def heldLine : Nat := 512

/-- A GLOBAL record that may be read: one element of four bytes at the start of the line. -/
def heldRecord : BitVec 256 :=
  BitVec.ofNat 256 (heldLine * 128 + 2 ^ 64 + 2 * 2 ^ 104 + spcGlobal * 2 ^ 109 + 2 ^ 111 + 4 * 2 ^ 128)

/-- The placed group, in M mode with the record in `b0`; the L1 of its tile holds the line, current and clean. -/
def managerOnTile : State :=
  let s := { State.reset.placed 0 with cur := ⟨1, 255, 0⟩ }
  (s.modGroup 1 fun g => { g with level := .m, b := [(0, heldRecord)] }).modTile 0 fun t =>
    { t with l1 := [(heldLine, { L1Line.fresh with v := true })] }

/-- A header without guard or wait. -/
def plainHdr : Hdr := ⟨.b64, .always, 0, .none, 0⟩

/-- `PREF b0[zero]`. -/
def prefetchHeld : Instr := .pref plainHdr false ⟨0, 0⟩ (.b 0) .zero

/-- What request `k` of the next state is for. -/
def askedTag (k : Nat) : Host.Outcome State Fault Refusal → Option Tag
  | .next t => (t.net.get? k).map (·.tag)
  | _ => none

theorem managerOnTile_ready : Ready plainHdr [] [.b 0, .zero] managerOnTile where
  listed := by decide +kernel
  granted := by decide +kernel
  tokens := by decide +kernel
  board := by decide +kernel
  sound := by decide +kernel

theorem managerOnTile_clean : ∀ p ∈ (managerOnTile.tile managerOnTile.curTile).l1,
    p.2.dmask &&& managerOnTile.badMask managerOnTile.curTile p.1 = 0 := by
  decide +kernel

/-- No translation is cached, so none differs from the tables. -/
theorem managerOnTile_cacheAgrees :
    managerOnTile.CacheAgrees managerOnTile.curTile (managerOnTile.ctxOf managerOnTile.curG) := by
  have hnone : (managerOnTile.tile managerOnTile.curTile).tlb
      ++ managerOnTile.dev.tcache.getD (dieOf managerOnTile.curTile) [] = [] := by decide +kernel
  intro t ht
  rw [hnone] at ht
  exact absurd ht List.not_mem_nil

/-- The placed program's leaf of 1 GiB leads the line to itself. -/
theorem managerOnTile_maps : managerOnTile.Maps (managerOnTile.ctxOf managerOnTile.curG) heldLine heldLine false
    (managerOnTile.curG.level == .u) 2 :=
  ⟨3, 0x3000, by decide, by decide, by decide, by decide +kernel, by decide +kernel⟩

theorem managerOnTile_holds :
    managerOnTile.l1 managerOnTile.curTile heldLine = some { L1Line.fresh with v := true }
    ∧ L1Line.current { L1Line.fresh with v := true } (managerOnTile.tile managerOnTile.curTile) = true := by
  decide +kernel

theorem managerOnTile_elemAt :
    managerOnTile.elemAt heldRecord (2 ^ recEsz heldRecord) 0 = some (heldLine * 128) := by
  decide +kernel

theorem managerOnTile_record : managerOnTile.curG.b.getD (0 : BitVec 4).toNat 0 = heldRecord := by
  decide +kernel

/-- Every line the prefetch touches is mapped and stands current in the L1. -/
theorem managerOnTile_lines_held {ea y : Nat}
    (hea : managerOnTile.elemAt heldRecord (2 ^ recEsz heldRecord) 0 = some ea) (hlo : ea / 128 ≤ y)
    (hhi : y ≤ (ea + 2 ^ recEsz heldRecord - 1) / 128) :
    ∃ p x, managerOnTile.Maps (managerOnTile.ctxOf managerOnTile.curG) y p false (managerOnTile.curG.level == .u) 2
      ∧ managerOnTile.l1 managerOnTile.curTile p = some x
      ∧ x.current (managerOnTile.tile managerOnTile.curTile) = true := by
  have hsize : 2 ^ recEsz heldRecord = 4 := by decide +kernel
  obtain rfl : heldLine * 128 = ea := Option.some.inj (managerOnTile_elemAt.symm.trans hea)
  have hy : y = heldLine := by
    rw [hsize] at hhi
    simp only [heldLine] at hlo hhi ⊢
    omega
  exact hy ▸ ⟨heldLine, _, managerOnTile_maps, managerOnTile_holds⟩

/-- The prefetch asks for the line all the same. -/
theorem prefetchHeld_asks :
    askedTag managerOnTile.nextId (exec prefetchHeld managerOnTile) = some (.pref 0 false) := by
  decide +kernel

theorem managerOnTile_net : managerOnTile.net = [] := by decide +kernel

end Sys2Proof.Machine

open Sys2Proof.Machine in
/-- Refutes O24: a group in M mode on tile 0 prefetches a line that its tile's L1 holds current, and a request for that line
itself goes out, which is no read of a page table. -/
theorem not_recordsMaskPrefetch : ¬ Obligations.RecordsMaskPrefetch := by
  unfold Obligations.RecordsMaskPrefetch
  intro h
  obtain ⟨t, hexec, -, -, -, -, -, -, -, -, -, -, -, hasks⟩ :=
    h.2 managerOnTile plainHdr false ⟨0, 0⟩ 0 .zero managerOnTile_ready managerOnTile_clean
  rw [managerOnTile_record] at hasks
  have honly := hasks (by decide +kernel) rfl (by decide) (by decide +kernel) managerOnTile_cacheAgrees
    fun _ _ _ hea _ hlo hhi => managerOnTile_lines_held hea hlo hhi
  have hask := prefetchHeld_asks
  rw [prefetchHeld, hexec] at hask
  obtain ⟨z, hz, htag⟩ := Option.map_eq_some_iff.mp hask
  rcases honly _ z le_rfl hz with hold | htable
  · rw [managerOnTile_net] at hold
    exact absurd hold (by simp)
  · have htile : managerOnTile.curTile = 0 := by decide +kernel
    rw [htag, htile] at htable
    exact absurd htable (by decide)
end

section
/-! PROOFS. Arithmetic instructions whose result in a lane depends only on how their sources read there (R170, R171), and O1:
the exact results of R179, packed sub-element by sub-element. -/

namespace Sys2Proof.Machine

/-! ### Results that depend on the sources alone -/

/-- A source of SEL reads alike as a predicate where it reads alike as an operand. -/
theorem State.srcP_of_src {s t : State} {h : Hdr} {e : Expand} {x : Spec} {l k : Nat}
    (hx : s.src h e x l = t.src h e x k) : s.srcP x l = t.srcP x k := by
  cases x with
  | p n =>
    have hbit : ∀ p q : Bool, (if p then (1 : W64) else 0) = (if q then 1 else 0) → p = q := by decide
    exact hbit _ _ hx
  | _ => rfl

/-- An instruction whose result in a lane depends only on how its sources read there (R170, R171): its whole effect. -/
theorem Gives.of_sources {i : Instr} {h : Hdr} {d : Spec} {e : Expand} {src : List Spec} {s : State}
    {val : Nat → W64 → Prop} (F : State → Nat → W64) (hf : Fit h d e src s)
    (hi : exec i s = issue h [d] src s fun s => s.arith h d (F s))
    (hF : ∀ s t l k, (∀ x ∈ src, s.src h e x l = t.src h e x k) → F s l = F t k)
    (hv : ∀ l, val l (F s l)) : Gives i h d s val := by
  have hwoken : F s.woken = F s :=
    funext fun l => hF _ _ _ _ fun x _ => State.src_woken hf.ready.listed h e x l
  have halike : ∀ n, d = .t n → ∀ l ∈ s.resultLanes h d, ∀ k ∈ s.resultLanes h d, F s l = F s k := by
    rintro n rfl l hl k hk
    exact hF _ _ _ _ fun x hx => hf.alike x hx l hl k hk
  exact issue_gives F hf hi hwoken halike fun l _ => hv l

section
variable {i : Instr} {h : Hdr} {d a b c g : Spec} {e : Expand} {s : State} {val : Nat → W64 → Prop}

theorem Gives.of_one (f : W64 → W64) (hf : Fit h d e [a] s)
    (hi : exec i s = issue h [d] [a] s fun s => s.arith h d fun l => f (s.src h e a l))
    (hv : ∀ l, val l (f (s.src h e a l))) : Gives i h d s val :=
  .of_sources (fun s l => f (s.src h e a l)) hf hi (fun _ _ _ _ hx => by rw [hx a (by simp)]) hv

theorem Gives.of_two (f : W64 → W64 → W64) (hf : Fit h d e [a, b] s)
    (hi : exec i s = issue h [d] [a, b] s fun s => s.arith h d fun l => f (s.src h e a l) (s.src h e b l))
    (hv : ∀ l, val l (f (s.src h e a l) (s.src h e b l))) : Gives i h d s val :=
  .of_sources (fun s l => f (s.src h e a l) (s.src h e b l)) hf hi
    (fun _ _ _ _ hx => by rw [hx a (by simp), hx b (by simp)]) hv

theorem Gives.of_three (f : W64 → W64 → W64 → W64) (hf : Fit h d e [a, b, c] s)
    (hi : exec i s = issue h [d] [a, b, c] s fun s =>
      s.arith h d fun l => f (s.src h e a l) (s.src h e b l) (s.src h e c l))
    (hv : ∀ l, val l (f (s.src h e a l) (s.src h e b l) (s.src h e c l))) : Gives i h d s val :=
  .of_sources (fun s l => f (s.src h e a l) (s.src h e b l) (s.src h e c l)) hf hi
    (fun _ _ _ _ hx => by rw [hx a (by simp), hx b (by simp), hx c (by simp)]) hv

theorem Gives.of_four (f : W64 → W64 → W64 → W64 → W64) (hf : Fit h d e [a, b, c, g] s)
    (hi : exec i s = issue h [d] [a, b, c, g] s fun s =>
      s.arith h d fun l => f (s.src h e a l) (s.src h e b l) (s.src h e c l) (s.src h e g l))
    (hv : ∀ l, val l (f (s.src h e a l) (s.src h e b l) (s.src h e c l) (s.src h e g l))) : Gives i h d s val :=
  .of_sources (fun s l => f (s.src h e a l) (s.src h e b l) (s.src h e c l) (s.src h e g l)) hf hi
    (fun _ _ _ _ hx => by rw [hx a (by simp), hx b (by simp), hx c (by simp), hx g (by simp)]) hv

end

end Sys2Proof.Machine

namespace Sys2Proof
open Sys2Proof.Machine

/-- Sub-element `j` of a register under an integer type, as bits (R22). -/
abbrev IntM.el (m : IntM) (x : W64) (j : Nat) : Nat := sub (widthOf m.w) x j

/-- The same under the type's signedness (R179). -/
abbrev IntM.val (m : IntM) (x : W64) (j : Nat) : Int := readInt m.sgn (widthOf m.w) (m.el x j)

end Sys2Proof

namespace Sys2Proof.Machine

/-! ### Sub-elements of packed integer results -/

theorem intEl_eq (m : IntM) (s : State) (h : Hdr) (x : Spec) (l j : Nat) :
    intEl m s h x l j = m.el (s.src h m.expand x l) j := rfl

theorem intVal_eq (m : IntM) (s : State) (h : Hdr) (x : Spec) (l j : Nat) :
    intVal m s h x l j = m.val (s.src h m.expand x l) j := rfl

/-- The value packed into a sub-element comes back where it fits the width (R22). -/
theorem sub_packInt (w : BitVec 2) {f : Nat → Nat} {j : Nat} (hj : j < perReg (widthOf w)) (hf : f j < 2 ^ widthOf w) :
    sub (widthOf w) (pack (widthOf w) (perReg (widthOf w)) f) j = f j := by
  rw [sub_pack f hj (width_fills w).le, Nat.mod_eq_of_lt hf]

theorem intElems_map2 (m : IntM) (f : Int → Int → Int) (x y : W64) :
    IntElems m (m.map2 f x y) fun j => intFit m (f (m.val x j) (m.val y j)) :=
  fun _ hj => sub_packInt m.w hj (wrapInt_lt _ _)

theorem intElems_map3 (m : IntM) (f : Int → Int → Int → Int) (x y z : W64) :
    IntElems m (m.map3 f x y z) fun j => intFit m (f (m.val x j) (m.val y j) (m.val z j)) :=
  fun _ hj => sub_packInt m.w hj (wrapInt_lt _ _)

theorem intElems_mulh (m : IntM) (x y : W64) :
    IntElems m (m.mulh x y) fun j => wrapInt (widthOf m.w) (m.val x j * m.val y j / 2 ^ widthOf m.w) :=
  fun _ hj => sub_packInt m.w hj (wrapInt_lt _ _)

/-- IABS computes the absolute value (R179). -/
theorem ite_neg_eq_abs (y : Int) : (if y < 0 then -y else y) = |y| := by
  split
  · exact (abs_of_neg ‹_›).symm
  · exact (abs_of_nonneg (not_lt.mp ‹_›)).symm

end Sys2Proof.Machine

open Sys2Proof Sys2Proof.Machine in
/-- Settles O1: every result is packed sub-element by sub-element from the exact one, clamped or wrapped. -/
theorem integerArithmetic : Obligations.IntegerArithmetic := by
  unfold Obligations.IntegerArithmetic
  intro s h m d a b c
  simp only [intVal_eq]
  refine ⟨fun hf => ?iabs, fun hf => ⟨?iadd, ?isub, ?imul, ?imulh, ?imin, ?imax⟩, fun hf => ?imad⟩
  case iabs =>
    refine .of_one (fun x => m.map2 (fun y _ => |y|) x x) hf ?_ fun l => intElems_map2 m (fun y _ => |y|) _ _
    simp only [← ite_neg_eq_abs]
    rfl
  case iadd => exact .of_two (m.map2 (· + ·)) hf rfl fun l => intElems_map2 m _ _ _
  case isub => exact .of_two (m.map2 (· - ·)) hf rfl fun l => intElems_map2 m _ _ _
  case imul => exact .of_two (m.map2 (· * ·)) hf rfl fun l => intElems_map2 m _ _ _
  case imulh => exact .of_two m.mulh hf rfl fun l => intElems_mulh m _ _
  case imin => exact .of_two (m.map2 min) hf rfl fun l => intElems_map2 m _ _ _
  case imax => exact .of_two (m.map2 max) hf rfl fun l => intElems_map2 m _ _ _
  case imad => exact .of_three (m.map3 fun x y z => x * y + z) hf rfl fun l => intElems_map3 m _ _ _ _
end

section
/-! PROOFS. O2: moves, selection and bitwise logic on whole registers (R174-R178, R180), and integer comparison (R185). -/

namespace Sys2Proof.Machine
/-! ### Moves and comparison -/

theorem busyOn_zero (s : State) : s.busyOn [.zero] = s.busyOn [] := by
  have hz (r : Spec) : (r != .zero && [Spec.zero].contains r) = (r != .zero && [].contains r) := by
    by_cases hr : r = .zero <;> simp [hr]
  simp only [State.busyOn, hz]

/-- An instruction that names no register is ready where one is that discards its result. -/
theorem Ready.to_zero {h : Hdr} {s : State} (hr : Ready h [] [] s) : Ready h [.zero] [] s where
  listed := hr.listed
  granted := by
    intro r hm
    obtain rfl : r = .zero := by simpa using hm
    rfl
  tokens := hr.tokens
  board := (busyOn_zero s).trans hr.board
  sound := hr.sound

/-- NOP does what a discarded write of zero does (R174). -/
theorem exec_nop_eq {h : Hdr} {s : State} (hr : Ready h [] [] s) :
    exec (.nop h) s = issue h [.zero] [] s fun s => s.arith h .zero fun _ => 0 :=
  (issue_ready hr _ _).trans (issue_ready hr.to_zero _ _).symm

theorem toNat_append32 (x y : BitVec 32) : (x ++ y).toNat = x.toNat * 2 ^ 32 + y.toNat := by
  rw [BitVec.toNat_append, ← Nat.shiftLeft_add_eq_or_of_lt y.isLt, Nat.shiftLeft_eq]

theorem sub_append_one (x y : BitVec 32) : sub 32 (x ++ y) 1 = x.toNat := by
  have hx := x.isLt
  have hy := y.isLt
  simp only [sub, toNat_append32]
  omega

theorem sub_append_zero (x y : BitVec 32) : sub 32 (x ++ y) 0 = y.toNat := by
  have hx := x.isLt
  have hy := y.isLt
  simp only [sub, toNat_append32]
  omega

theorem toNat_truncate_eq_sub (x : W64) : (x.truncate 32 : BitVec 32).toNat = sub 32 x 0 := by
  simp [sub]

theorem icmpHolds_iff (cc : Nat) (x y : Int) : icmpHolds cc x y = true ↔
    match cc with
    | 0 => x = y | 1 => x ≠ y | 2 => x < y | 3 => x ≤ y | 4 => x > y | _ => x ≥ y := by
  rcases cc with _ | _ | _ | _ | _ | n <;> simp [icmpHolds]

theorem cmp_pred_ne_zero (m : IntM) (n : BitVec 3) (x y : W64) : m.cmp (.p n) x y ≠ 0 ↔ m.holds x y 0 = true := by
  simp [IntM.cmp]

/-- Every sub-element of an integer comparison is a mask of ones or zeros (R185). -/
theorem sub_cmp (m : IntM) {d : Spec} (hd : ∀ n, d ≠ .p n) (x y : W64) {j : Nat} (hj : j < perReg (widthOf m.w)) :
    sub (widthOf m.w) (m.cmp d x y) j = if m.holds x y j then 2 ^ widthOf m.w - 1 else 0 := by
  have hcmp : m.cmp d x y = pack (widthOf m.w) (perReg (widthOf m.w)) fun i =>
      if m.holds x y i then 2 ^ widthOf m.w - 1 else 0 := by
    cases d with
    | p n => exact absurd rfl (hd n)
    | _ => rfl
  rw [hcmp, sub_packInt m.w hj]
  have := Nat.two_pow_pos (widthOf m.w)
  split <;> omega

end Sys2Proof.Machine

open Sys2Proof Sys2Proof.Machine in
/-- Settles O2: each result is a function of the sources as they read in the lane, bit by bit or masked by the condition;
NOP is a write that is discarded. -/
theorem movesLogicAndCompare : Obligations.MovesLogicAndCompare := by
  unfold Obligations.MovesLogicAndCompare
  refine ⟨fun s h m d a b c => ⟨fun hr => ?nop, fun hf => ⟨?mov, ?not, fun hv => ?movi, fun hv halike hr => ?moviHigh⟩,
    fun n hf => ?movpG, fun n hf => ?movpT, fun n hc hf => ?sel, fun hf => ⟨?and, ?or, ?xor⟩⟩,
    fun s h m d a b _ hf => ?icmp⟩
  case nop =>
    exact issue_gives (e := .zx64) (fun _ _ => 0) ⟨hr.to_zero, trivial, trivial⟩ (exec_nop_eq hr) rfl (by simp)
      fun _ _ => trivial
  case mov => exact .of_one id hf rfl fun _ => rfl
  case not => exact .of_one (~~~ ·) hf rfl fun l i hi => by simp [hi]
  case movi =>
    refine .of_one id hf ?_ fun _ => rfl
    show execMovi h m d a s = _
    simp only [execMovi, if_neg hv]
    rfl
  case moviHigh =>
    refine .of_two (e := .zx64) (fun x y => x.truncate 32 ++ y.truncate 32) ⟨hr, hf.room, halike⟩ ?_ fun l => ?_
    · show execMovi h m d a s = _
      simp only [execMovi, if_pos hv]
    · exact ⟨(sub_append_one _ _).trans (toNat_truncate_eq_sub _), (sub_append_zero _ _).trans (toNat_truncate_eq_sub _)⟩
  case movpG =>
    refine issue_gives (fun s _ => s.curG.parentG n.toNat) hf rfl ?_ (fun _ _ _ _ _ _ => rfl) fun _ _ => rfl
    rw [State.curG_woken hf.ready.listed]
    rfl
  case movpT =>
    refine issue_gives (fun s _ => s.curT.t.getD n.toNat 0) hf rfl ?_ (fun _ _ _ _ _ _ => rfl) fun _ _ => rfl
    rw [State.curT_woken hf.ready.listed]
  case sel =>
    refine .of_sources (fun s l => if s.srcP c l then s.src h m.expand a l else s.src h m.expand b l) hf rfl
      (fun s t l k hx => ?_) fun l => ?_
    · rw [State.srcP_of_src (hx c (by simp)), hx a (by simp), hx b (by simp)]
    · rcases hc with rfl | rfl
      · by_cases hp : s.curG.laneP n.toNat l = true <;> simp [State.srcP, hp]
      · simp [State.srcP]
  case and => exact .of_two (fun x y => x &&& m.opnd y) hf rfl fun l i _ => BitVec.getLsbD_and
  case or => exact .of_two (fun x y => x ||| m.opnd y) hf rfl fun l i _ => BitVec.getLsbD_or
  case xor => exact .of_two (fun x y => x ^^^ m.opnd y) hf rfl fun l i _ => BitVec.getLsbD_xor
  case icmp =>
    intro holds
    have hholds (l j : Nat) : m.holds (s.src h m.expand a l) (s.src h m.expand b l) j = true ↔ holds l j :=
      icmpHolds_iff _ _ _
    have hmask (hd : ∀ n, d ≠ .p n) (l j : Nat) (hj : j < perReg (widthOf m.w)) :
        (holds l j → sub (widthOf m.w) (m.cmp d (s.src h m.expand a l) (s.src h m.expand b l)) j = 2 ^ widthOf m.w - 1)
        ∧ (¬holds l j → sub (widthOf m.w) (m.cmp d (s.src h m.expand a l) (s.src h m.expand b l)) j = 0) := by
      rw [sub_cmp m hd _ _ hj, ← hholds]
      exact ⟨fun hh => if_pos hh, fun hh => if_neg hh⟩
    refine .of_two (m.cmp d) hf rfl fun l => ?_
    cases d with
    | p n => exact (cmp_pred_ne_zero m n _ _).trans (hholds l 0)
    | _ => exact hmask nofun l
end

section
/-! PROOFS. O3: shifts and rotations (R181), bit fields (R182, R183) and bit counts (R184), each by the bits of a sub-element. -/

namespace Sys2Proof.Machine

/-! ### Bits of packed sub-elements -/

/-- A bit of a value packed into a sub-element comes back (R22). -/
theorem testBit_sub_packInt (w : BitVec 2) (f : Nat → Nat) {j i : Nat} (hj : j < perReg (widthOf w))
    (hi : i < widthOf w) :
    (sub (widthOf w) (pack (widthOf w) (perReg (widthOf w)) f) j).testBit i = (f j).testBit i := by
  rw [sub_pack f hj (width_fills w).le, Nat.testBit_mod_two_pow, decide_eq_true hi, Bool.true_and]

theorem widthOf_pos (w : BitVec 2) : 0 < widthOf w := by
  revert w
  decide

/-! ### Two's complement through bit vectors -/

theorem getLsbD_ofNat_of_lt (x : Nat) {w k : Nat} (hk : k < w) : (BitVec.ofNat w x).getLsbD k = x.testBit k := by
  rw [BitVec.getLsbD_ofNat, decide_eq_true hk, Bool.true_and]

theorem asSigned_eq_toInt {w x : Nat} (hw : 0 < w) (hx : x < 2 ^ w) : asSigned w x = (BitVec.ofNat w x).toInt := by
  have hpow : 2 ^ w = 2 * 2 ^ (w - 1) := by rw [← pow_succ', Nat.sub_add_cancel hw]
  rw [BitVec.toInt_eq_toNat_cond, BitVec.toNat_ofNat, Nat.mod_eq_of_lt hx, asSigned]
  split <;> split
  · omega
  · simp
  · rfl
  · omega

theorem wrapInt_eq_toNat (w : Nat) (v : Int) : wrapInt w v = (BitVec.ofInt w v).toNat := by
  simp [wrapInt, BitVec.toNat_ofInt]

/-- A signed number shifted down and wrapped repeats its sign bit at the top. -/
theorem testBit_wrapInt_asSigned_div {w x : Nat} (hw : 0 < w) (hx : x < 2 ^ w) (p : Nat) {i : Nat} (hi : i < w) :
    (wrapInt w (asSigned w x / 2 ^ p)).testBit i = x.testBit (min (p + i) (w - 1)) := by
  have hshift : asSigned w x / 2 ^ p = (BitVec.ofNat w x).toInt >>> p := by
    rw [asSigned_eq_toInt hw hx, Int.shiftRight_eq_div_pow]
    norm_cast
  rw [hshift, wrapInt_eq_toNat, BitVec.testBit_toNat]
  change ((BitVec.ofNat w x).sshiftRight p).getLsbD i = _
  rw [BitVec.getLsbD_sshiftRight, decide_eq_false (by omega), Bool.not_false, Bool.true_and]
  split
  · rw [getLsbD_ofNat_of_lt x ‹_›, min_eq_left (by omega)]
  · rw [BitVec.msb_eq_getLsbD_last, getLsbD_ofNat_of_lt x (by omega), min_eq_right (by omega)]

/-- A number of `n` bits, sign-extended to `w`. -/
theorem testBit_wrapInt_asSigned {n w x : Nat} (hn : 0 < n) (hx : x < 2 ^ n) {i : Nat} (hi : i < w) :
    (wrapInt w (asSigned n x)).testBit i = x.testBit (min i (n - 1)) := by
  rw [asSigned_eq_toInt hn hx, wrapInt_eq_toNat, BitVec.testBit_toNat]
  change ((BitVec.ofNat n x).signExtend w).getLsbD i = _
  rw [BitVec.getLsbD_signExtend, decide_eq_true hi, Bool.true_and]
  split
  · rw [getLsbD_ofNat_of_lt x ‹_›, min_eq_left (by omega)]
  · rw [BitVec.msb_eq_getLsbD_last, getLsbD_ofNat_of_lt x (by omega), min_eq_right (by omega)]

/-! ### Shifts (R181) -/

theorem asSigned_bounds {w x : Nat} (hx : x < 2 ^ w) : -2 ^ w ≤ asSigned w x ∧ asSigned w x < 2 ^ w := by
  have hx' : (x : Int) < 2 ^ w := by exact_mod_cast hx
  unfold asSigned
  split <;> omega

/-- Past the width a clamped left shift gives the bound of its sign whatever the count. -/
theorem clampInt_shift_min {w : Nat} {lo hi : Int} (hlo : -2 ^ w ≤ lo) (hhi : hi ≤ 2 ^ w) (hle : lo ≤ hi) (v : Int)
    (c : Nat) : clampInt lo hi (v * 2 ^ min c w) = clampInt lo hi (v * 2 ^ c) := by
  rcases le_total c w with hc | hc
  · rw [min_eq_left hc]
  · rw [min_eq_right hc]
    have hpow : (2 : Int) ^ w ≤ 2 ^ c := pow_le_pow_right₀ (by norm_num) hc
    have hw : (0 : Int) < 2 ^ w := by positivity
    rcases lt_trichotomy v 0 with hv | rfl | hv
    · have h1 : v * 2 ^ w ≤ lo := by nlinarith
      have h2 : v * 2 ^ c ≤ lo := by nlinarith
      simp only [clampInt]
      omega
    · simp
    · have h1 : hi ≤ v * 2 ^ w := by nlinarith
      have h2 : hi ≤ v * 2 ^ c := by nlinarith
      simp only [clampInt]
      omega

theorem intMin_intMax_bounds (sgn : Bool) {w : Nat} (hw : 0 < w) :
    -2 ^ w ≤ intMin sgn w ∧ intMax sgn w ≤ 2 ^ w ∧ intMin sgn w ≤ intMax sgn w := by
  have hpow : (2 : Int) ^ w = 2 * 2 ^ (w - 1) := by rw [← pow_succ', Nat.sub_add_cancel hw]
  have hpos : (0 : Int) < 2 ^ (w - 1) := by positivity
  cases sgn <;> simp only [intMin, intMax, Bool.false_eq_true, if_true, if_false] <;> omega

theorem wrapInt_mul_pow {w c : Nat} (hc : w ≤ c) (v : Int) : wrapInt w (v * 2 ^ c) = 0 := by
  rw [wrapInt, Int.emod_eq_zero_of_dvd ((pow_dvd_pow 2 hc).mul_left v)]
  rfl

theorem intElems_shl (m : IntM) (x y : W64) :
    IntElems m (m.shl x y) fun j => intFit m (m.val x j * 2 ^ m.el y j) := by
  obtain ⟨hlo, hhi, hle⟩ := intMin_intMax_bounds m.sgn (widthOf_pos m.w)
  have hval (v : Int) (c : Nat) :
      (if m.sat then wrapInt (widthOf m.w)
          (clampInt (intMin m.sgn (widthOf m.w)) (intMax m.sgn (widthOf m.w)) (v * 2 ^ min c (widthOf m.w)))
        else if widthOf m.w ≤ c then 0 else wrapInt (widthOf m.w) (v * 2 ^ c)) = intFit m (v * 2 ^ c) := by
    cases hsat : m.sat with
    | true => simp only [intFit, hsat, if_true, clampInt_shift_min hlo hhi hle]
    | false =>
      simp only [intFit, hsat, Bool.false_eq_true, if_false, ite_eq_right_iff]
      exact fun hc => (wrapInt_mul_pow hc v).symm
  intro j hj
  rw [IntM.shl, sub_packInt m.w hj]
  · exact hval _ _
  · rw [hval]
    exact wrapInt_lt _ _

theorem intElems_shr (m : IntM) (x y : W64) : IntElems m (m.shr x y) fun j => m.el x j / 2 ^ m.el y j := by
  have hval (j : Nat) : (if widthOf m.w ≤ m.el y j then 0 else m.el x j / 2 ^ m.el y j) = m.el x j / 2 ^ m.el y j := by
    split
    · exact (Nat.div_eq_of_lt ((sub_lt _ x j).trans_le (Nat.pow_le_pow_right two_pos ‹_›))).symm
    · rfl
  intro j hj
  rw [IntM.shr, sub_packInt m.w hj]
  · exact hval j
  · rw [hval]
    exact (Nat.div_le_self _ _).trans_lt (sub_lt _ _ _)

/-- An arithmetic right shift past the width leaves the sign in every bit. -/
theorem wrapInt_div_pow {w c : Nat} {v : Int} (hlo : -2 ^ w ≤ v) (hhi : v < 2 ^ w) (hc : w ≤ c) :
    wrapInt w (v / 2 ^ c) = if v < 0 then 2 ^ w - 1 else 0 := by
  have hpow : (2 : Int) ^ w ≤ 2 ^ c := pow_le_pow_right₀ (by norm_num) hc
  have hw : (0 : Int) < 2 ^ w := by positivity
  split
  · have hdiv : v / 2 ^ c = -1 := by
      rw [Int.ediv_eq_iff_of_pos (by omega)]
      omega
    have hmod : (-1 : Int) % 2 ^ w = 2 ^ w - 1 := by
      rw [← Int.add_emod_right, Int.emod_eq_of_lt] <;> omega
    have hcast : (2 : Int) ^ w - 1 = ((2 ^ w - 1 : Nat) : Int) := by
      rw [Nat.cast_sub Nat.one_le_two_pow]
      push_cast
      rfl
    rw [hdiv, wrapInt, hmod, hcast, Int.toNat_natCast]
  · rw [Int.ediv_eq_zero_of_lt (by omega) (by omega)]
    simp [wrapInt]

theorem intElems_sar (m : IntM) (x y : W64) :
    IntElems m (m.sar x y) fun j => wrapInt (widthOf m.w) (asSigned (widthOf m.w) (m.el x j) / 2 ^ m.el y j) := by
  have hval (j : Nat) : (if widthOf m.w ≤ m.el y j then
        (if asSigned (widthOf m.w) (m.el x j) < 0 then 2 ^ widthOf m.w - 1 else 0)
      else wrapInt (widthOf m.w) (asSigned (widthOf m.w) (m.el x j) / 2 ^ m.el y j))
      = wrapInt (widthOf m.w) (asSigned (widthOf m.w) (m.el x j) / 2 ^ m.el y j) := by
    obtain ⟨hlo, hhi⟩ := asSigned_bounds (sub_lt (widthOf m.w) x j)
    split
    · exact (wrapInt_div_pow hlo hhi ‹_›).symm
    · rfl
  intro j hj
  rw [IntM.sar, sub_packInt m.w hj]
  · exact hval j
  · rw [hval]
    exact wrapInt_lt _ _

/-! ### Rotations (R181) -/

/-- A word of `w` bits, rotated left by `l`. -/
theorem testBit_rotate {w l x : Nat} (hl : l < w) (hx : x < 2 ^ w) {i : Nat} (hi : i < w) :
    (x * 2 ^ l ||| x / 2 ^ (w - l)).testBit i = x.testBit ((i + (w - l)) % w) := by
  rw [Nat.testBit_or, Nat.testBit_mul_two_pow, Nat.testBit_div_two_pow]
  rcases lt_or_ge i l with h | h
  · rw [decide_eq_false (by omega), Bool.false_and, Bool.false_or, Nat.mod_eq_of_lt (by omega)]
  · have hout : x.testBit (i + (w - l)) = false :=
      Nat.testBit_lt_two_pow (hx.trans_le (Nat.pow_le_pow_right two_pos (by omega)))
    have hmod : (i + (w - l)) % w = i - l := by
      rw [show i + (w - l) = i - l + w by omega, Nat.add_mod_right, Nat.mod_eq_of_lt (by omega)]
    rw [hout, hmod, decide_eq_true h, Bool.true_and, Bool.or_false]

/-- Rotating left by the complement of a count rotates right by the count. -/
theorem rotate_right_index {w k c i : Nat} (hw : 0 < w) (hk : k = c % w) :
    (i + (w - (w - k) % w)) % w = (i + c) % w := by
  have hlt : k < w := hk ▸ Nat.mod_lt c hw
  have hc : (i + c) % w = (i + k) % w := by rw [hk, Nat.add_mod_mod]
  rw [hc]
  rcases Nat.eq_zero_or_pos k with rfl | hpos
  · simp
  · rw [Nat.mod_eq_of_lt (show w - k < w by omega), show w - (w - k) = k by omega]

theorem intBits_rot (m : IntM) (x y : W64) :
    IntBits m (m.rot x y) fun j i => (m.el x j).testBit
      (if m.var = 0 then (i + (widthOf m.w - m.el y j % widthOf m.w)) % widthOf m.w else (i + m.el y j) % widthOf m.w) := by
  intro j hj i hi
  have hw := widthOf_pos m.w
  rw [IntM.rot, testBit_sub_packInt m.w _ hj hi]
  split
  · exact testBit_rotate (Nat.mod_lt _ hw) (sub_lt _ _ _) hi
  · rw [testBit_rotate (Nat.mod_lt _ hw) (sub_lt _ _ _) hi, rotate_right_index hw rfl]

/-! ### Bit fields (R182, R183) -/

/-- Bit `k` of a number of `w` bits as its type extends it: the sign bit again, or zero. -/
def extBit (sgn : Bool) (w x k : Nat) : Bool := if sgn then x.testBit (min k (w - 1)) else x.testBit k

/-- The reading of an element, shifted down and wrapped. -/
theorem testBit_wrapInt_readInt_div (sgn : Bool) {w x : Nat} (hw : 0 < w) (hx : x < 2 ^ w) (p : Nat) {i : Nat}
    (hi : i < w) : (wrapInt w (readInt sgn w x / 2 ^ p)).testBit i = extBit sgn w x (p + i) := by
  cases sgn with
  | true => exact testBit_wrapInt_asSigned_div hw hx p hi
  | false =>
    have hdiv : wrapInt w ((x : Int) / 2 ^ p) = x / 2 ^ p % 2 ^ w := by
      simp only [wrapInt]
      norm_cast
    simp only [readInt, extBit, Bool.false_eq_true, if_false, hdiv]
    rw [Nat.testBit_mod_two_pow, Nat.testBit_div_two_pow, decide_eq_true hi, Bool.true_and, Nat.add_comm]

/-- The low `n` bits of a number, extended to `w` by their sign or by zeros. -/
theorem testBit_extend (sgn : Bool) {w n x : Nat} (hn : 0 < n) {i : Nat} (hi : i < w) :
    (if sgn then wrapInt w (asSigned n (x % 2 ^ n)) else x % 2 ^ n).testBit i
      = if i < n then x.testBit i else sgn && x.testBit (n - 1) := by
  cases sgn with
  | true =>
    rw [if_pos rfl, testBit_wrapInt_asSigned hn (Nat.mod_lt _ (Nat.two_pow_pos n)) hi, Nat.testBit_mod_two_pow,
      decide_eq_true (by omega), Bool.true_and, Bool.true_and]
    split
    · rw [min_eq_left (by omega)]
    · rw [min_eq_right (by omega)]
  | false =>
    rw [if_neg Bool.false_ne_true, Nat.testBit_mod_two_pow, Bool.false_and]
    split <;> simp [*]

theorem intBits_bfe (m : IntM) (x y z : W64) :
    IntBits m (m.bfe x y z) fun j i =>
      let p := min (m.el y j) (widthOf m.w)
      let n := min (m.el z j) (widthOf m.w)
      let bit := extBit m.sgn (widthOf m.w) (m.el x j)
      if n = 0 then false else if i < n then bit (p + i) else m.sgn && bit (p + n - 1) := by
  intro j hj i hi
  have hw := widthOf_pos m.w
  have hbit (p k : Nat) (hk : k < widthOf m.w) := testBit_wrapInt_readInt_div m.sgn hw (sub_lt (widthOf m.w) x j) p hk
  rw [IntM.bfe, testBit_sub_packInt m.w _ hj hi]
  dsimp only [IntM.el]
  split
  · exact Nat.zero_testBit i
  · rw [testBit_extend m.sgn (by omega) hi, hbit _ _ hi, hbit _ _ (by omega), Nat.add_sub_assoc (by omega)]

/-- A field of `n` bits at `p` replaced in a number: above it, in it and below it. -/
theorem insert_eq (base ins p n : Nat) :
    base - base / 2 ^ p % 2 ^ n * 2 ^ p + ins % 2 ^ n * 2 ^ p
      = 2 ^ p * (2 ^ n * (base / 2 ^ p / 2 ^ n) + ins % 2 ^ n) + base % 2 ^ p := by
  have h1 := Nat.div_add_mod base (2 ^ p)
  have h2 := Nat.div_add_mod (base / 2 ^ p) (2 ^ n)
  have hbase : base = 2 ^ p * (2 ^ n * (base / 2 ^ p / 2 ^ n)) + base / 2 ^ p % 2 ^ n * 2 ^ p + base % 2 ^ p := by
    rw [Nat.mul_comm _ (2 ^ p), ← Nat.mul_add, h2, h1]
  have hcut : base - base / 2 ^ p % 2 ^ n * 2 ^ p = 2 ^ p * (2 ^ n * (base / 2 ^ p / 2 ^ n)) + base % 2 ^ p := by omega
  rw [hcut]
  ring

theorem testBit_insert (base ins p n i : Nat) :
    (base - base / 2 ^ p % 2 ^ n * 2 ^ p + ins % 2 ^ n * 2 ^ p).testBit i
      = if p ≤ i ∧ i < p + n then ins.testBit (i - p) else base.testBit i := by
  rw [insert_eq, Nat.testBit_two_pow_mul_add _ (Nat.mod_lt _ (Nat.two_pow_pos p)),
    Nat.testBit_two_pow_mul_add _ (Nat.mod_lt _ (Nat.two_pow_pos n))]
  rcases lt_or_ge i p with h | h
  · rw [if_pos h, if_neg (by omega), Nat.testBit_mod_two_pow, decide_eq_true h, Bool.true_and]
  rw [if_neg (by omega)]
  rcases lt_or_ge (i - p) n with h' | h'
  · rw [if_pos h', if_pos (by omega), Nat.testBit_mod_two_pow, decide_eq_true h', Bool.true_and]
  · rw [if_neg (by omega), if_neg (by omega), Nat.testBit_div_two_pow, Nat.testBit_div_two_pow,
      show i - p - n + n + p = i by omega]

/-! ### Counts (R184) -/

theorem popcOf_eq_card (w x : Nat) : popcOf w x = ((Finset.range w).filter fun i => x.testBit i = true).card := by
  rw [popcOf, bitsOf, List.countP_map, List.countP_eq_length_filter]
  change _ = (List.filter (fun i => decide (x.testBit i = true)) (List.range w)).length
  simp [Function.comp_def]

theorem popcOf_le (w x : Nat) : popcOf w x ≤ w :=
  (popcOf_eq_card w x).trans_le ((Finset.card_filter_le _ _).trans_eq (Finset.card_range w))

/-- The count of leading zeros: zeros above a one, or no one at all. -/
theorem clzOf_spec {w x : Nat} (hx : x < 2 ^ w) :
    clzOf w x ≤ w ∧ (∀ i, w - clzOf w x ≤ i → i < w → x.testBit i = false)
      ∧ (clzOf w x < w → x.testBit (w - 1 - clzOf w x) = true) := by
  unfold clzOf
  rcases Nat.eq_zero_or_pos x with rfl | hpos
  · simp
  · have hlog : x.log2 < w := (Nat.log2_lt hpos.ne').mpr hx
    rw [if_neg hpos.ne']
    refine ⟨by omega, fun i hi _ => Nat.testBit_lt_two_pow ((Nat.log2_lt hpos.ne').mp (by omega)), fun _ => ?_⟩
    rw [show w - 1 - (w - 1 - x.log2) = x.log2 by omega]
    exact Nat.testBit_log2 hpos.ne'

/-- The count of trailing zeros: zeros below a one, or no one at all. -/
theorem ctzOf_spec (w x : Nat) :
    ctzOf w x ≤ w ∧ (∀ i, i < ctzOf w x → x.testBit i = false) ∧ (ctzOf w x < w → x.testBit (ctzOf w x) = true) := by
  unfold ctzOf
  cases h : (List.range w).find? fun i => x.testBit i with
  | none =>
    rw [List.find?_range_eq_none] at h
    exact ⟨le_rfl, by simpa using h, fun hlt => absurd hlt (lt_irrefl w)⟩
  | some k =>
    obtain ⟨hk, hmem, hbelow⟩ := List.find?_range_eq_some.mp h
    exact ⟨(List.mem_range.mp hmem).le, by simpa using hbelow, fun _ => hk⟩

/-- After `k` steps the reversal holds the low `k` bits, reversed, at the top. -/
theorem brevOf_steps {w x k : Nat} (hk : k ≤ w) :
    ∃ t, (List.range k).foldl (fun a i => if x.testBit i then a + 2 ^ (w - 1 - i) else a) 0 = 2 ^ (w - k) * t
      ∧ ∀ i, t.testBit i = (decide (i < k) && x.testBit (k - 1 - i)) := by
  induction k with
  | zero => exact ⟨0, by simp, by simp⟩
  | succ k ih =>
    obtain ⟨t, ht, hbits⟩ := ih (by omega)
    have hpow : 2 ^ (w - k) = 2 ^ (w - (k + 1)) * 2 := by rw [← pow_succ, show w - (k + 1) + 1 = w - k by omega]
    refine ⟨2 * t + (x.testBit k).toNat, ?_, fun i => ?_⟩
    · rw [List.range_succ, List.foldl_append, ht, List.foldl_cons, List.foldl_nil, hpow,
        show w - 1 - k = w - (k + 1) by omega]
      cases x.testBit k <;> simp <;> ring
    · have hlow : (x.testBit k).toNat < 2 ^ 1 := by cases x.testBit k <;> decide
      rw [show 2 * t = 2 ^ 1 * t by ring, Nat.testBit_two_pow_mul_add _ hlow]
      cases i with
      | zero => cases hbit : x.testBit k <;> simp [hbit]
      | succ i => simp [hbits, show k - 1 - i = k - (i + 1) by omega]

theorem testBit_brevOf {w x i : Nat} (hi : i < w) : (brevOf w x).testBit i = x.testBit (w - 1 - i) := by
  obtain ⟨t, ht, hbits⟩ := brevOf_steps (x := x) (le_refl w)
  rw [brevOf, ht, Nat.sub_self, pow_zero, Nat.one_mul, hbits, decide_eq_true hi, Bool.true_and]

/-- A count up to the width fits a sub-element. -/
theorem sub_map1 (m : IntM) {f : Nat → Nat → Nat} {x : W64} {j : Nat} (hj : j < perReg (widthOf m.w))
    (hf : f (widthOf m.w) (m.el x j) ≤ widthOf m.w) :
    sub (widthOf m.w) (m.map1 f x) j = f (widthOf m.w) (m.el x j) :=
  sub_packInt m.w hj (hf.trans_lt Nat.lt_two_pow_self)

end Sys2Proof.Machine

open Sys2Proof Sys2Proof.Machine in
/-- Settles O3: every clause is a fact about one sub-element, an exact quotient or multiple for shifts and a fact about each
bit for the others. -/
theorem shiftsAndBits : Obligations.ShiftsAndBits := by
  unfold Obligations.ShiftsAndBits
  simp only [intVal_eq, intEl_eq]
  refine ⟨fun s h m d a b hf => ⟨?shl, ?shr, ?sar, ?rot⟩, fun s h m d a b c e => ⟨fun hf => ?bfe, fun hf => ?bfi⟩,
    fun s h m d a hf => ⟨?popc, ?clz, ?ctz, ?brev⟩⟩
  case shl => exact .of_two m.shl hf rfl fun l => intElems_shl m _ _
  case shr => exact .of_two m.shr hf rfl fun l => intElems_shr m _ _
  case sar => exact .of_two m.sar hf rfl fun l => intElems_sar m _ _
  case rot => exact .of_two m.rot hf rfl fun l => intBits_rot m _ _
  case bfe => exact .of_three m.bfe hf rfl fun l => intBits_bfe m _ _ _
  case bfi =>
    exact .of_four m.bfi hf rfl fun l j hj i hi => (testBit_sub_packInt m.w _ hj hi).trans (testBit_insert _ _ _ _ i)
  case popc =>
    refine .of_one (m.map1 popcOf) hf rfl fun l j hj => ?_
    rw [sub_map1 m hj (popcOf_le _ _)]
    exact popcOf_eq_card _ _
  case clz =>
    refine .of_one (m.map1 clzOf) hf rfl fun l j hj => ?_
    have hspec := clzOf_spec (sub_lt (widthOf m.w) (s.src h m.expand a l) j)
    rw [sub_map1 m hj hspec.1]
    exact hspec
  case ctz =>
    refine .of_one (m.map1 ctzOf) hf rfl fun l j hj => ?_
    have hspec := ctzOf_spec (widthOf m.w) (m.el (s.src h m.expand a l) j)
    rw [sub_map1 m hj hspec.1]
    exact hspec
  case brev =>
    exact .of_one (m.map1 brevOf) hf rfl fun l j hj i hi => (testBit_sub_packInt m.w _ hj hi).trans (testBit_brevOf hi)
end

section
/-! PROOFS. O6: minimum and maximum (R188), sign operations (R189), comparison (R190), classes (R191) and rounding to an
integral value (R192). -/

namespace Sys2Proof.Machine

/-! ### Codes of a format lie below two to its width (R84) -/

theorem Fmt.two_pow_width (f : Fmt) : 2 ^ f.width = 2 * f.signBit := by
  simp only [Fmt.width, Fmt.signBit, Nat.add_assoc, pow_add, pow_one]

theorem Fmt.infMagnitude_lt (f : Fmt) : (2 ^ f.eb - 1) * 2 ^ f.mb < f.signBit := by
  rw [Fmt.signBit, pow_add]
  have := Nat.two_pow_pos f.eb
  exact Nat.mul_lt_mul_of_pos_right (by omega) (Nat.two_pow_pos f.mb)

theorem Fmt.maxBits_lt (f : Fmt) : f.maxBits < f.signBit := by
  have hpos : 0 < f.signBit := Nat.two_pow_pos _
  have hinf := f.infMagnitude_lt
  unfold Fmt.maxBits
  split
  · omega
  · exact Nat.sub_lt hpos two_pos
  · exact Nat.sub_lt hpos one_pos

theorem Fmt.nan_lt (f : Fmt) : f.nan < 2 ^ f.width := by
  have hpos : 0 < f.signBit := Nat.two_pow_pos _
  have hinf := f.infMagnitude_lt
  have hquiet : 2 ^ (f.mb - 1) ≤ f.signBit := Nat.pow_le_pow_right two_pos (by omega)
  rw [f.two_pow_width]
  unfold Fmt.nan
  split
  · omega
  · change f.signBit - 1 < _
    omega
  · omega

theorem Fmt.sgn_add_lt (f : Fmt) (neg : Bool) {x : Nat} (hx : x < f.signBit) : f.sgn neg + x < 2 ^ f.width := by
  rw [f.two_pow_width]
  unfold Fmt.sgn
  split <;> omega

theorem Fmt.sgn_lt (f : Fmt) (neg : Bool) : f.sgn neg < 2 ^ f.width := f.sgn_add_lt neg (x := 0) (Nat.two_pow_pos _)

theorem Fmt.infBits_lt (f : Fmt) (neg sat : Bool) : f.infBits neg sat < 2 ^ f.width := by
  unfold Fmt.infBits
  split
  · exact f.sgn_add_lt neg f.infMagnitude_lt
  · split
    · exact f.sgn_add_lt neg f.maxBits_lt
    · exact f.nan_lt
  · exact f.sgn_add_lt neg f.maxBits_lt

/-- A rounded overflow is the largest finite value or an infinity (R90). -/
theorem Fmt.overflow_lt (f : Fmt) (rm : Rm) (sat neg : Bool) : f.overflow rm sat neg < 2 ^ f.width := by
  have hcases : f.overflow rm sat neg = f.sgn neg + f.maxBits ∨ f.overflow rm sat neg = f.infBits neg false :=
    ite_eq_or_eq _ _ _
  rcases hcases with h | h <;> rw [h]
  · exact f.sgn_add_lt neg f.maxBits_lt
  · exact f.infBits_lt neg false

theorem Fmt.round_lt (f : Fmt) (rm : Rm) (sat neg : Bool) (m : Nat) (e : Int) (sticky : Bool) :
    f.round rm sat neg m e sticky < 2 ^ f.width := by
  unfold Fmt.round
  dsimp only
  generalize ((max _ f.lsb - f.lsb).toNat * 2 ^ f.mb + _ : Nat) = bits
  split
  · exact f.overflow_lt rm sat neg
  · exact f.sgn_add_lt neg (lt_of_le_of_lt (not_lt.mp ‹_›) f.maxBits_lt)

theorem Fmt.encode_lt (f : Fmt) (rm : Rm) (sat : Bool) (v : Num) : f.encode rm sat v < 2 ^ f.width := by
  cases v with
  | nan => exact f.nan_lt
  | inf neg => exact f.infBits_lt neg sat
  | fin neg m e =>
    unfold Fmt.encode
    dsimp only
    split
    · exact f.sgn_lt neg
    · exact f.round_lt ..

theorem Fmt.rint_lt (f : Fmt) (rm : Rm) (v : Num) : f.rint rm v < 2 ^ f.width := by
  cases v with
  | nan => exact f.nan_lt
  | inf neg => exact f.infBits_lt neg false
  | fin neg m e =>
    unfold Fmt.rint
    dsimp only
    split
    · exact f.encode_lt ..
    · generalize (if roundUp rm neg _ _ _ false then _ else _ : Nat) = n
      split
      · exact f.sgn_lt neg
      · exact f.encode_lt ..

/-! ### The formats of float types and their sub-elements (R51, R52) -/

theorem ftFmt_width (ft : BitVec 2) : (ftFmt ft).width = ftWidth ft := by
  revert ft
  decide

theorem ftFmt_signBit (ft : BitVec 2) : (ftFmt ft).signBit = 2 ^ (ftWidth ft - 1) := by
  rw [← ftFmt_width, Fmt.signBit, Fmt.width, Nat.add_assoc, Nat.add_sub_cancel_left]

theorem ftFmt_kind (ft : BitVec 2) : (ftFmt ft).kind = .ieee := by
  revert ft
  decide

theorem ftWidth_ge (ft : BitVec 2) : 16 ≤ ftWidth ft := by
  revert ft
  decide

section
variable (m : FltM) {f : Nat → Nat} {j : Nat}

theorem sub_packed (hj : j < ftCount m.ft) (hf : f j < 2 ^ ftWidth m.ft) : sub (ftWidth m.ft) (m.packed f) j = f j := by
  rw [FltM.packed, sub_pack f hj (ft_fits m.ft), Nat.mod_eq_of_lt hf]

theorem testBit_sub_packed (f : Nat → Nat) (hj : j < ftCount m.ft) {i : Nat} (hi : i < ftWidth m.ft) :
    (sub (ftWidth m.ft) (m.packed f) j).testBit i = (f j).testBit i := by
  rw [FltM.packed, sub_pack f hj (ft_fits m.ft), Nat.testBit_mod_two_pow, decide_eq_true hi, Bool.true_and]

/-- A single `.f32` fills the low half. -/
theorem packed_lt (f : Nat → Nat) (hft : m.ft = 0) : (m.packed f).toNat < 2 ^ 32 := by
  have hlt : (m.packed f).toNat < 2 ^ (ftWidth m.ft * ftCount m.ft) := pack_lt f
  rwa [hft] at hlt

theorem sub_packed_high (f : Nat → Nat) (hft : m.ft = 0) : sub 32 (m.packed f) 1 = 0 := by
  rw [sub, Nat.div_eq_of_lt (packed_lt m f hft), Nat.zero_mod]

theorem fltElems_packed (hf : ∀ j, f j < 2 ^ m.fmt.width) : FltElems m (m.packed f) f :=
  ⟨fun j hj => sub_packed m hj ((hf j).trans_eq (congrArg (2 ^ ·) (ftFmt_width m.ft))), packed_lt m f⟩

theorem el_lt (x : W64) (j : Nat) : m.el x j < 2 ^ m.fmt.width :=
  (sub_lt _ x j).trans_eq (congrArg (2 ^ ·) (ftFmt_width m.ft).symm)

end

/-! ### Minimum and maximum (R188) -/

theorem Num.isNan_iff (v : Num) : v.isNan = true ↔ v = .nan := by
  cases v <;> simp [Num.isNan]

/-- FMIN and FMAX, by the variant's rule for NaN. -/
theorem fminmax_eq (f : Fmt) (bigger : Bool) (rm : BitVec 3) (a b : Nat) :
    fminmax f bigger (rm == 1) a b =
      if f.decode a = .nan ∧ f.decode b = .nan ∨ rm = 1 ∧ (f.decode a = .nan ∨ f.decode b = .nan) then f.nan
      else if f.decode a = .nan then b
      else if f.decode b = .nan then a
      else if (if bigger then (f.decode a).below (f.decode b) else (f.decode b).below (f.decode a)) then b
      else a := by
  unfold fminmax
  simp only [Bool.and_eq_true, Num.isNan_iff, beq_iff_eq]
  by_cases ha : f.decode a = .nan
  · by_cases hb : f.decode b = .nan
    · simp [ha, hb]
    · simp [ha, hb]
  · by_cases hb : f.decode b = .nan
    · simp [ha, hb]
    · cases bigger <;> simp [ha, hb]

theorem fminmax_lt {f : Fmt} {a b : Nat} (ha : a < 2 ^ f.width) (hb : b < 2 ^ f.width) (bigger nanRule : Bool) :
    fminmax f bigger nanRule a b < 2 ^ f.width := by
  have hn := f.nan_lt
  unfold fminmax
  dsimp only
  split_ifs <;> assumption

/-! ### Comparison (R190) -/

/-- No comparison by value holds of a NaN. -/
theorem Num.unordered {p q : Num} (h : p = .nan ∨ q = .nan) :
    (p.isNan || q.isNan) = true ∧ p.lt q = false ∧ q.lt p = false ∧ p.eq q = false := by
  rcases h with rfl | rfl
  · cases q <;> exact ⟨rfl, rfl, rfl, rfl⟩
  · cases p <;> exact ⟨rfl, rfl, rfl, rfl⟩

/-- NaN satisfies no condition but "not equal" and "unordered"; numbers compare by value. -/
theorem fcmpHolds_iff {rm : BitVec 3} (hr : rm.toNat < 7) (p q : Num) : fcmpHolds rm.toNat p q = true ↔
    if p = .nan ∨ q = .nan then rm = 1 ∨ rm = 6
    else match rm.toNat with
      | 0 => p.eq q = true | 1 => p.eq q = false | 2 => p.lt q = true | 3 => p.lt q = true ∨ p.eq q = true
      | 4 => q.lt p = true | 5 => q.lt p = true ∨ p.eq q = true | _ => False := by
  have hvalues : ∀ r : BitVec 3, r.toNat < 7 → r = 0 ∨ r = 1 ∨ r = 2 ∨ r = 3 ∨ r = 4 ∨ r = 5 ∨ r = 6 := by decide
  by_cases hun : p = .nan ∨ q = .nan
  · obtain ⟨hnan, hlt, hgt, heq⟩ := Num.unordered hun
    rw [if_pos hun]
    rcases hvalues rm hr with rfl | rfl | rfl | rfl | rfl | rfl | rfl <;> simp [fcmpHolds, hnan, hlt, hgt, heq]
  · have hnan : (p.isNan || q.isNan) = false := by
      rw [Bool.eq_false_iff]
      simpa only [ne_eq, Bool.or_eq_true, Num.isNan_iff] using hun
    rw [if_neg hun]
    rcases hvalues rm hr with rfl | rfl | rfl | rfl | rfl | rfl | rfl <;> simp [fcmpHolds, hnan]

theorem fltCmp_pred_ne_zero (m : FltM) (n : BitVec 3) (x y : W64) :
    m.cmp (.p n) x y ≠ 0 ↔ fcmpHolds m.rm.toNat (m.num x 0) (m.num y 0) = true := by
  simp [FltM.cmp]

theorem fltMask_cmp (m : FltM) {d : Spec} (hd : ∀ n, d ≠ .p n) (x y : W64) :
    FltMask m (m.cmp d x y) fun j => fcmpHolds m.rm.toNat (m.num x j) (m.num y j) = true := by
  have hcmp : m.cmp d x y = m.packed fun i =>
      if fcmpHolds m.rm.toNat (m.num x i) (m.num y i) then 2 ^ ftWidth m.ft - 1 else 0 := by
    cases d with
    | p n => exact absurd rfl (hd n)
    | _ => rfl
  rw [hcmp]
  refine ⟨fun j hj => ?_, packed_lt m _⟩
  have := Nat.two_pow_pos (ftWidth m.ft)
  rw [sub_packed m hj (by split <;> omega)]
  exact ⟨fun hh => if_pos hh, fun hh => if_neg hh⟩

/-! ### Classes (R191) -/

/-- A finite element is subnormal or zero at the least exponent, or has its leading bit. -/
theorem Fmt.decode_fin {f : Fmt} (hk : f.kind = .ieee) {x m : Nat} {neg : Bool} {e : Int}
    (h : f.decode x = .fin neg m e) : m < 2 ^ f.mb ∧ e = f.lsb ∨ 2 ^ f.mb ≤ m ∧ f.lsb ≤ e := by
  have hfr := Nat.mod_lt (x % 2 ^ f.width % f.signBit) (Nat.two_pow_pos f.mb)
  simp only [Fmt.decode, hk] at h
  generalize x % 2 ^ f.width % f.signBit % 2 ^ f.mb = fr at h hfr
  generalize x % 2 ^ f.width % f.signBit / 2 ^ f.mb = ex at h
  split at h
  · split at h <;> cases h
  · cases ‹FmtKind.ieee = FmtKind.e4m3›
  · split at h
    · cases h
      exact .inl ⟨hfr, rfl⟩
    · cases h
      exact .inr ⟨by omega, by omega⟩

theorem abs_toRat_fin (neg : Bool) (m : Nat) (e : Int) : |(Num.fin neg m e).toRat| = m * (2 : ℚ) ^ e := by
  have hpow : (0 : ℚ) < 2 ^ e := by positivity
  rw [Num.toRat, abs_mul, abs_of_pos hpow]
  cases neg <;> simp [signed]

theorem toRat_fin_eq_zero (neg : Bool) (m : Nat) (e : Int) : (Num.fin neg m e).toRat = 0 ↔ m = 0 := by
  rw [← abs_eq_zero, abs_toRat_fin, mul_eq_zero, Nat.cast_eq_zero]
  exact or_iff_left (zpow_ne_zero e two_ne_zero)

/-- The least normal magnitude is the leading bit at the least exponent (R84). -/
theorem Fmt.two_zpow_lsb (f : Fmt) : (2 : ℚ) ^ (1 - (f.bias : Int)) = 2 ^ f.mb * (2 : ℚ) ^ f.lsb := by
  rw [← zpow_natCast, ← zpow_add₀ two_ne_zero, Fmt.lsb]
  congr 1
  omega

/-- A finite element lies below the least normal magnitude where it lacks its leading bit. -/
theorem Fmt.decode_abs_lt_iff {f : Fmt} (hk : f.kind = .ieee) {x m : Nat} {neg : Bool} {e : Int}
    (h : f.decode x = .fin neg m e) : |(Num.fin neg m e).toRat| < (2 : ℚ) ^ (1 - (f.bias : Int)) ↔ m < 2 ^ f.mb := by
  rw [abs_toRat_fin, f.two_zpow_lsb]
  have hpow : (0 : ℚ) < 2 ^ f.lsb := by positivity
  rcases Fmt.decode_fin hk h with ⟨hm, rfl⟩ | ⟨hm, he⟩
  · rw [mul_lt_mul_iff_left₀ hpow]
    exact_mod_cast Iff.rfl
  · have hm' : (2 : ℚ) ^ f.mb ≤ m := by exact_mod_cast hm
    have hle : (2 : ℚ) ^ f.mb * 2 ^ f.lsb ≤ m * 2 ^ e :=
      mul_le_mul hm' (zpow_le_zpow_right₀ one_le_two he) hpow.le (by positivity)
    exact ⟨fun hlt => absurd hlt (not_lt.mpr hle), fun hlt => absurd hlt (not_lt.mpr hm)⟩

/-- The class of an element is the bit that FCLASS finds, and no other. -/
theorem isClass_iff {f : Fmt} (hk : f.kind = .ieee) (x k : Nat) : IsClass (f.decode x) f k ↔ k = fclassBit f x := by
  unfold fclassBit
  cases h : f.decode x with
  | nan => exact Iff.rfl
  | inf neg => exact Iff.rfl
  | fin neg m e =>
    simp only [IsClass, toRat_fin_eq_zero, Fmt.decode_abs_lt_iff hk h]
    split_ifs <;> exact Iff.rfl

theorem fclassBit_lt (f : Fmt) (x : Nat) : fclassBit f x < 9 := by
  unfold fclassBit
  split
  · decide
  · split <;> decide
  · split_ifs <;> decide

theorem exists_class_iff {f : Fmt} (hk : f.kind = .ieee) (x : Nat) (p : Nat → Prop) :
    (∃ k < 9, IsClass (f.decode x) f k ∧ p k) ↔ p (fclassBit f x) := by
  simp only [isClass_iff hk]
  exact ⟨fun ⟨k, _, hc, hp⟩ => hc ▸ hp, fun hp => ⟨_, fclassBit_lt f x, rfl, hp⟩⟩

end Sys2Proof.Machine

open Sys2Proof Sys2Proof.Machine in
/-- Settles O6: signs bit by bit, minimum and maximum by the cases of NaN, conditions and classes by the value of the
element, and every result a code of the format. -/
theorem floatSelectAndSign : Obligations.FloatSelectAndSign := by
  unfold Obligations.FloatSelectAndSign
  intro s h m d a b w
  refine ⟨fun hf => ⟨?fneg, ?fabs, ?frnd⟩, fun hf => ?two⟩
  case fneg =>
    refine .of_one (fun x => m.packed fun i => m.el x i ^^^ m.fmt.signBit) hf rfl fun l =>
      ⟨fun j hj i hi => ?_, sub_packed_high m _⟩
    rw [testBit_sub_packed m _ hj hi, Nat.testBit_xor, FltM.fmt, ftFmt_signBit, Nat.testBit_two_pow,
      decide_eq_decide.mpr eq_comm]
    rfl
  case fabs =>
    refine .of_one (fun x => m.packed fun i => m.el x i % m.fmt.signBit) hf rfl fun l =>
      ⟨fun j hj i hi => ?_, sub_packed_high m _⟩
    have hsign : i < ftWidth m.ft - 1 ↔ i ≠ ftWidth m.ft - 1 := by omega
    rw [testBit_sub_packed m _ hj hi, FltM.fmt, ftFmt_signBit, Nat.testBit_mod_two_pow, Bool.and_comm,
      decide_eq_decide.mpr hsign]
    rfl
  case frnd =>
    exact .of_one (fun x => m.packed fun i => m.fmt.rint m.rnd (m.fmt.decode (m.el x i))) hf rfl fun l =>
      fltElems_packed m fun j => Fmt.rint_lt ..
  case two =>
    intro pick
    have hpick (bigger : Bool) (l : Nat) : FltElems m (m.packed fun i =>
        fminmax m.fmt bigger (m.rm == 1) (m.el (s.src h m.expand a l) i) (m.el (s.src h m.expand b l) i))
        fun j => pick bigger l j := by
      have heq : pick bigger l = fun j => fminmax m.fmt bigger (m.rm == 1) (m.el (s.src h m.expand a l) j)
          (m.el (s.src h m.expand b l) j) := funext fun j => (fminmax_eq ..).symm
      rw [show (fun j => pick bigger l j) = pick bigger l from rfl, heq]
      exact fltElems_packed m fun j => fminmax_lt (el_lt m _ j) (el_lt m _ j) ..
    refine ⟨?fmin, ?fmax, fun hr => ?fcmp, ?fclass⟩
    case fmin =>
      exact .of_two (fun x y => m.packed fun i => fminmax m.fmt false (m.rm == 1) (m.el x i) (m.el y i)) hf rfl
        fun l => hpick false l
    case fmax =>
      exact .of_two (fun x y => m.packed fun i => fminmax m.fmt true (m.rm == 1) (m.el x i) (m.el y i)) hf rfl
        fun l => hpick true l
    case fcmp =>
      intro holds
      have hholds (l j : Nat) : fcmpHolds m.rm.toNat (m.num (s.src h m.expand a l) j)
          (m.num (s.src h m.expand b l) j) = true ↔ holds l j := fcmpHolds_iff hr _ _
      have hmask (hd : ∀ n, d ≠ .p n) (l : Nat) :
          FltMask m (m.cmp d (s.src h m.expand a l) (s.src h m.expand b l)) (holds l) := by
        have heq : holds l = fun j => fcmpHolds m.rm.toNat (m.num (s.src h m.expand a l) j)
            (m.num (s.src h m.expand b l) j) = true := funext fun j => (propext (hholds l j)).symm
        rw [heq]
        exact fltMask_cmp m hd _ _
      refine .of_two (m.cmp d) hf rfl fun l => ?_
      cases d with
      | p n => exact (fltCmp_pred_ne_zero m n _ _).trans (hholds l 0)
      | _ => exact hmask nofun l
    case fclass =>
      have hkind : m.fmt.kind = .ieee := ftFmt_kind m.ft
      have hclass (l j : Nat) (hj : j < ftCount m.ft) : ∃ k < 9, IsClass (fltVal m s h a l j) m.fmt k
          ∧ sub (ftWidth m.ft) (m.packed fun i => 2 ^ fclassBit m.fmt (m.el (s.src h m.expand a l) i)) j = 2 ^ k := by
        refine (exists_class_iff hkind _ _).mpr (sub_packed m hj (Nat.pow_lt_pow_right one_lt_two ?_))
        exact (fclassBit_lt ..).trans_le ((by decide : 9 ≤ 16).trans (ftWidth_ge m.ft))
      cases d with
      | p n =>
        refine .of_two (fun x y => if (m.el y 0).testBit (fclassBit m.fmt (m.el x 0)) then 1 else 0) hf rfl fun l => ?_
        refine Iff.trans ?_ (exists_class_iff hkind _ _).symm
        simp
      | _ => exact .of_two (fun x _ => m.packed fun i => 2 ^ fclassBit m.fmt (m.el x i)) hf rfl hclass
end

section
/-! PROOFS. O9: a Welford triple, one write of a pair of registers (R210-R212). -/

namespace Sys2Proof.Machine

/-! ### What writes of result sets keep -/

/-- Nothing changed but registers that a `v`, `g` or `t` result goes to, and the uncorrectable errors. -/
structure RegsOnly (s t : State) : Prop where
  rest : t = { s with groups := t.groups, teams := t.teams, bad := t.bad }
  listed : t.groups.get? t.cur.gid ≠ none
  groups : ∀ i, i ≠ s.cur.gid → t.groups.get? i = s.groups.get? i
  group : ∃ v g gc sh, t.curG = { s.curG with v := v, g := g, gc := gc, shadow := sh }
  teams : ∀ i, i ≠ s.curG.team → t.teams.get? i = s.teams.get? i
  team : ∃ x y, t.curT = { s.curT with t := x, tc := y }
  ended : ∀ p ∈ t.bad, p ∈ s.bad

namespace RegsOnly
variable {s t u : State}

theorem refl (hl : s.groups.get? s.cur.gid ≠ none) : RegsOnly s s :=
  ⟨rfl, hl, fun _ _ => rfl, ⟨_, _, _, _, rfl⟩, fun _ _ => rfl, ⟨_, _, rfl⟩, fun _ hp => hp⟩

theorem cur_eq (hk : RegsOnly s t) : t.cur = s.cur := by rw [hk.rest]

theorem level_eq (hk : RegsOnly s t) : t.curG.level = s.curG.level := by
  obtain ⟨_, _, _, _, hg⟩ := hk.group
  rw [hg]

theorem idx_eq (hk : RegsOnly s t) : t.curG.idx = s.curG.idx := by
  obtain ⟨_, _, _, _, hg⟩ := hk.group
  rw [hg]

theorem team_eq (hk : RegsOnly s t) : t.curG.team = s.curG.team := by
  obtain ⟨_, _, _, _, hg⟩ := hk.group
  rw [hg]

theorem slices_eq (hk : RegsOnly s t) : t.curG.slices = s.curG.slices := by
  obtain ⟨_, _, _, _, hg⟩ := hk.group
  rw [hg]

theorem gangs_eq (hk : RegsOnly s t) : t.curG.gangs = s.curG.gangs := by
  obtain ⟨_, _, _, _, hg⟩ := hk.group
  rw [hg]

theorem members_eq (hk : RegsOnly s t) : t.curT.groups = s.curT.groups := by
  obtain ⟨_, _, ht⟩ := hk.team
  rw [ht]

theorem shadowed_eq (hk : RegsOnly s t) (n : Nat) : t.curG.shadowed n = s.curG.shadowed n := by
  unfold Group.shadowed
  rw [hk.level_eq]

theorem liveSlices_eq (hk : RegsOnly s t) : t.curG.liveSlices = s.curG.liveSlices := by
  obtain ⟨_, _, _, _, hg⟩ := hk.group
  rw [hg]
  rfl

theorem slicesOn_eq (hk : RegsOnly s t) : t.curG.slicesOn t.cur.slices = s.curG.slicesOn s.cur.slices := by
  obtain ⟨_, _, _, _, hg⟩ := hk.group
  rw [hg, hk.cur_eq]
  rfl

theorem whole_eq (hk : RegsOnly s t) : t.curG.whole t.cur.slices = s.curG.whole s.cur.slices := by
  obtain ⟨_, _, _, _, hg⟩ := hk.group
  rw [hg, hk.cur_eq]
  rfl

theorem uniform_eq (hk : RegsOnly s t) (h : Hdr) : t.uniform h = s.uniform h := by
  obtain ⟨_, _, _, _, hg⟩ := hk.group
  unfold State.uniform State.leader
  rw [hg, hk.cur_eq]
  rfl

theorem resultLanes_eq (hk : RegsOnly s t) (h : Hdr) (d : Spec) : t.resultLanes h d = s.resultLanes h d := by
  have hu := hk.uniform_eq h
  obtain ⟨_, _, _, _, hg⟩ := hk.group
  unfold State.resultLanes State.actLanes
  rw [hu, hg, hk.cur_eq]
  cases d <;> rfl

theorem regPlace_eq (hk : RegsOnly s t) (r : Spec) : t.regPlace t.cur.gid r = s.regPlace s.cur.gid r := by
  rw [hk.cur_eq]
  cases r with
  | t n =>
    have hm : (t.team (t.group t.cur.gid).team).groups = s.curT.groups := hk.members_eq
    rw [hk.cur_eq] at hm
    show ErrPlace.reg ((t.team (t.group s.cur.gid).team).groups.headD s.cur.gid) (.t n) = _
    rw [hm]
    rfl
  | _ => rfl

theorem trans (hk : RegsOnly s t) (hk' : RegsOnly t u) : RegsOnly s u where
  rest := by
    rw [hk'.rest, hk.rest]
  listed := hk'.listed
  groups i hi := (hk'.groups i (by rwa [hk.cur_eq])).trans (hk.groups i hi)
  group := by
    obtain ⟨_, _, _, _, hg⟩ := hk.group
    obtain ⟨_, _, _, _, hg'⟩ := hk'.group
    rw [hg', hg]
    exact ⟨_, _, _, _, rfl⟩
  teams i hi := (hk'.teams i (by rwa [hk.team_eq])).trans (hk.teams i hi)
  team := by
    obtain ⟨_, _, ht⟩ := hk.team
    obtain ⟨_, _, ht'⟩ := hk'.team
    rw [ht', ht]
    exact ⟨_, _, rfl⟩
  ended p hp := hk.ended p (hk'.ended p hp)

end RegsOnly

/-- A write at the rank of a pair keeps all that is no register of a pair. -/
theorem WriteKeeps.regsOnly {d : Spec} {s t : State} (hp : ∀ n, d ≠ .p n) (hk : WriteKeeps d s t) : RegsOnly s t := by
  obtain ⟨hcur, hlisted, hslices, hgangs, ⟨hrest, hgroups, hended, -⟩, hdest⟩ := hk
  rw [hslices, hgangs] at hdest
  have hsame (ht : t.teams = s.teams) (hg : t.curG.team = s.curG.team) : t.curT = s.curT := by
    unfold State.curT State.team
    rw [ht, hg]
  have hkept (ht : t.teams = s.teams) (hg : ∃ v g gc sh, t.curG = { s.curG with v := v, g := g, gc := gc, shadow := sh }) :
      RegsOnly s t := by
    refine ⟨hrest, hlisted, hgroups, hg, fun i _ => by rw [ht], ⟨s.curT.t, s.curT.tc, hsame ht ?_⟩, hended⟩
    obtain ⟨_, _, _, _, hg⟩ := hg
    rw [hg]
  cases d with
  | p n => exact absurd rfl (hp n)
  | t n =>
    obtain ⟨hg, hteams, hteam⟩ := hdest
    exact ⟨hrest, hlisted, hgroups, ⟨_, _, _, _, hg⟩, hteams, ⟨_, _, hteam⟩, hended⟩
  | _ => exact hkept hdest.1 ⟨_, _, _, _, hdest.2⟩

/-! ### Room for a pair (R210) -/

theorem RoomPair.ne_p {h : Hdr} {d : Spec} {s : State} (hr : RoomPair h d s) : ∀ n, d ≠ .p n := by
  rintro n rfl
  exact hr

theorem RoomPair.first {h : Hdr} {d : Spec} {s : State} (hr : RoomPair h d s) : Room h d s := by
  cases d with
  | v n => trivial
  | g n =>
    obtain ⟨-, hroom⟩ := hr
    exact Or.inr (by omega)
  | t n =>
    obtain ⟨-, hu | ⟨hw, hon, -, hroom⟩⟩ := hr
    · exact Or.inl hu
    · refine Or.inr ⟨hw, hon, ?_⟩
      split at hroom
      · rw [if_pos ‹_›, hroom]
        rfl
      · rw [if_neg ‹_›]
        exact Or.inr (by omega)
  | _ => exact hr.elim

theorem Table.length_set_le {α : Type} (t : Table α) (k : Nat) (x : α) : (t.set k x).length ≤ t.length + 1 := by
  induction t with
  | nil => rfl
  | cons p r ih =>
    simp only [Table.set]
    split_ifs <;> simp only [List.length_cons] at * <;> omega

theorem length_foldl_set_le {α : Type} (lanes : List Nat) (key : Nat → Nat) (f : Nat → α) (t : Table α) :
    List.length (lanes.foldl (fun c l => Table.set c (key l) (f l)) t) ≤ t.length + lanes.length := by
  induction lanes generalizing t with
  | nil => rfl
  | cons a r ih =>
    have := ih (t.set (key a) (f a))
    have := t.length_set_le (key a) (f a)
    simp only [List.foldl_cons, List.length_cons]
    omega

/-- An uncorrectable error that ends leaves the issuing group and its team. -/
theorem State.freshReg_parts (s : State) (gid : Nat) (r : Spec) (lanes : List Nat) :
    (s.freshReg gid r lanes).curG = s.curG ∧ (s.freshReg gid r lanes).curT = s.curT := by
  obtain ⟨b, hb, -⟩ := s.freshReg_eq gid r lanes
  rw [hb]
  exact ⟨rfl, rfl⟩

/-- A write to a `g` name makes at most one copy for each contributing slice. -/
theorem State.writeTo_g_length {s t : State} {n : BitVec 7} {lanes : List Nat} {f : Nat → W64}
    (hw : s.writeTo (.g n) lanes f = .ok t) : t.curG.gc.length ≤ s.curG.gc.length + lanes.length := by
  simp only [State.writeTo] at hw
  cases hG : s.writeG n.toNat lanes f with
  | error e => simp [hG, Except.map] at hw
  | ok t' =>
    obtain rfl : t'.freshReg t'.cur.gid (.g n) lanes = t := by simpa [hG, Except.map] using hw
    rw [(State.freshReg_parts ..).1]
    unfold State.writeG at hG
    dsimp only at hG
    split at hG
    · cases hG
      simp
    · split_ifs at hG <;> cases hG <;> rw [State.curG_setGroup]
      · exact Nat.le_add_right _ _
      · exact (List.length_filter_le _ _).trans (Nat.le_add_right _ _)
      · exact length_foldl_set_le ..

/-- A write to a `t` name makes at most one copy. -/
theorem State.writeTo_t_length {s t : State} {n : BitVec 6} {lanes : List Nat} {f : Nat → W64}
    (hw : s.writeTo (.t n) lanes f = .ok t) : t.curT.tc.length ≤ s.curT.tc.length + 1 := by
  simp only [State.writeTo] at hw
  cases hT : s.writeT n.toNat lanes f with
  | error e => simp [hT, Except.map] at hw
  | ok t' =>
    obtain rfl : t'.freshReg t'.cur.gid (.t n) lanes = t := by simpa [hT, Except.map] using hw
    rw [(State.freshReg_parts ..).2]
    have hset (x : Team) : (s.setTeam s.curG.team x).curT = x := State.team_setTeam s _ x
    unfold State.writeT at hT
    dsimp only at hT
    split at hT
    · cases hT
      exact Nat.le_succ _
    · split_ifs at hT <;> cases hT <;> rw [hset]
      · exact Nat.le_succ _
      · exact Table.length_set_le ..

/-- Between the two writes the second has the room that the first left. -/
theorem RoomPair.second {h : Hdr} {d : Spec} {s t : State} {f : Nat → W64} (hr : RoomPair h d s) (hk : RegsOnly s t)
    (hw : s.writeTo d (s.resultLanes h d) f = .ok t) (hafter : Wrote d (s.resultLanes h d) f s t) : Room h (Spec.second d) t := by
  cases d with
  | v n => trivial
  | g n =>
    have hlen := State.writeTo_g_length hw
    have hlanes : (s.resultLanes h (.g n)).length ≤ (s.curG.slicesOn s.cur.slices).length := by
      simp only [State.resultLanes]
      split <;> simp
    have hroom := hr.2
    refine Or.inr ?_
    rw [hk.slicesOn_eq]
    omega
  | t n =>
    have hlen := State.writeTo_t_length hw
    obtain ⟨-, hu | ⟨hwhole, hon, -, hroom⟩⟩ := hr
    · exact Or.inl ((hk.uniform_eq h).trans hu)
    · refine Or.inr ⟨hk.whole_eq.trans hwhole, ?_, ?_⟩
      · rw [hk.slicesOn_eq, hk.liveSlices_eq, hon]
      · obtain ⟨-, -, -, -, hcopies⟩ := hafter
        rw [hk.members_eq]
        split at hroom
        · rw [if_pos ‹_›] at hcopies ⊢
          rw [hcopies, hroom]
          rfl
        · rw [if_neg ‹_›]
          exact Or.inr (by omega)
  | _ => exact hr.elim

/-! ### The two registers after the writes -/

/-- What the contributing slices see of a `g` name after a write of it. -/
theorem WroteG.view {n : Nat} {lanes : List Nat} {f : Nat → W64} {g g' : Group} (hw : WroteG n lanes f g g')
    (hs : g'.shadowed n = g.shadowed n) {l : Nat} (hl : l ∈ lanes) :
    g'.viewG n (l / 4) = if g.shadowed n then f (lanes.headD 0) else f l := by
  have hafter := hw.2
  rw [if_neg (List.ne_nil_of_mem hl)] at hafter
  cases h0 : g.shadowed n with
  | true =>
    rw [if_pos h0] at hafter
    rw [if_pos rfl, ← hafter.1]
    simp [Group.viewG, Group.parentG, hs, h0]
  | false =>
    rw [h0, if_neg Bool.false_ne_true] at hafter
    exact hafter.2.1 l hl

/-- A team's other `t` names read as before a write. -/
theorem WroteT.view_ne {n r gi : Nat} {lanes : List Nat} {f : Nat → W64} {t t' : Team} (hw : WroteT n gi lanes f t t')
    (hr : r ≠ n) : t'.viewT r gi = t.viewT r gi := by
  obtain ⟨hcopies, hparents, -⟩ := hw
  have hkey : tKey r gi ≠ tKey n gi := by
    unfold tKey
    omega
  simp only [Team.viewT, Table.getD, hcopies _ hkey, hparents _ hr]

/-- Two writes of consecutive names leave both. -/
theorem WrotePair.of_writes {h : Hdr} {d : Spec} {lanes : List Nat} {f g : Nat → W64} {s t u : State}
    (hr : RoomPair h d s) (hlt : ∀ l ∈ lanes, l < 32) (hk : RegsOnly s t) (hk' : RegsOnly t u) (hw : Wrote d lanes f s t)
    (hw' : Wrote (Spec.second d) lanes g t u) : WrotePair d (Spec.second d) lanes f g s u := by
  cases d with
  | v n =>
    have hne : n.toNat ≠ (n + 1).toNat := by bv_omega
    obtain ⟨hin, hout⟩ := hw
    obtain ⟨hin', hout'⟩ := hw'
    refine ⟨fun l hl => ⟨(hout' _ l hne).trans (hin l hl), ?_⟩, fun r l h1 h2 => (hout' r l h2).trans (hout r l h1)⟩
    rw [hin' l hl, hout _ l hne.symm]
  | g n =>
    have hne : n.toNat ≠ (n + 1).toNat := by bv_omega
    refine ⟨fun l hl => ⟨?_, ?_⟩, fun r i hi h1 h2 => ?_⟩
    · rw [(hw'.1 _ (l / 4) hne (by have := hlt l hl; omega)).1]
      exact WroteG.view hw (hk.shadowed_eq _) hl
    · rw [← hk.shadowed_eq]
      exact WroteG.view hw' (hk'.shadowed_eq _) hl
    · obtain ⟨hv, hp⟩ := hw.1 r i h1 hi
      obtain ⟨hv', hp'⟩ := hw'.1 r i h2 hi
      exact ⟨hv'.trans hv, hp'.trans hp⟩
  | t n =>
    have hne : n.toNat ≠ (n + 1).toNat := by bv_omega
    change WroteT (n + 1).toNat t.curG.idx lanes g t.curT u.curT at hw'
    rw [hk.idx_eq] at hw'
    have hother := WroteT.view_ne hw' hne
    obtain ⟨hcopies, hparents, hin, -⟩ := hw
    obtain ⟨hcopies', hparents', hin', -⟩ := hw'
    exact ⟨fun l hl => ⟨hother.trans (hin l hl), hin' l hl⟩, fun k h1 h2 => (hcopies' k h2).trans (hcopies k h1),
      fun r h1 h2 => (hparents' r h2).trans (hparents r h1)⟩
  | _ => exact hr.elim

/-! ### One write of two registers (R210) -/

theorem State.entriesNeeded_g_le (s : State) (n : BitVec 7) (lanes : List Nat) (f : Nat → W64) :
    s.entriesNeeded (.g n) lanes f ≤ lanes.length := by
  simp only [State.entriesNeeded]
  split
  · exact Nat.zero_le _
  · exact List.length_filter_le ..

theorem State.entriesNeeded_t_le (s : State) (n : BitVec 6) (lanes : List Nat) (f : Nat → W64) :
    s.entriesNeeded (.t n) lanes f ≤ if s.curT.groups.length = 1 then 0 else 1 := by
  simp only [State.entriesNeeded, Bool.or_eq_true, decide_eq_true_eq]
  split_ifs with hnone hone <;> simp_all

/-- The gang writes a `t` name where it has room and its results agree. -/
theorem State.teamWrite_of_room {s : State} {h : Hdr} {n : BitVec 6} {f : Nat → W64} (hr : Room h (.t n) s)
    (hne : s.resultLanes h (.t n) ≠ [])
    (ha : ∀ l ∈ s.resultLanes h (.t n), ∀ k ∈ s.resultLanes h (.t n), f l = f k) :
    s.teamWrite (s.resultLanes h (.t n)) f = true := by
  have hu : s.uniform h = true := by
    by_contra hu
    simp [State.resultLanes, hu] at hne
  have hlanes : s.resultLanes h (.t n) = (s.curG.slicesOn s.cur.slices).map s.curG.firstLane := if_pos hu
  obtain hu' | ⟨hwhole, hon, -⟩ := hr
  · rw [hu] at hu'
    cases hu'
  · have hsame : allEqual (s.resultLanes h (.t n)) f = true := by
      obtain ⟨l0, r, hr⟩ := List.exists_cons_of_ne_nil hne
      rw [hr] at ha ⊢
      exact (allEqual_cons l0 r f).mpr fun l hl => ha l hl l0 List.mem_cons_self
    rw [State.teamWrite, hwhole, hsame, hlanes, Group.map_firstLane_div, hon]
    simp

/-- A pair with room takes its two writes one after the other; a `t` pair that no lane writes stays. -/
theorem State.writePair_eq {s : State} {h : Hdr} {d : Spec} {f g : Nat → W64} (hr : RoomPair h d s)
    (ha : ∀ n, d = .t n → ∀ l ∈ s.resultLanes h d, ∀ k ∈ s.resultLanes h d, f l = f k ∧ g l = g k) :
    s.writePair h d f g = if (∃ n, d = .t n) ∧ s.resultLanes h d = [] then .done s
      else Res.ofTry s ((s.writeTo d (s.resultLanes h d) f).bind fun s' =>
        s'.writeTo (Spec.second d) (s.resultLanes h d) g) := by
  cases d with
  | v n => simp [State.writePair]
  | g n =>
    have hlanes : (s.resultLanes h (.g n)).length ≤ (s.curG.slicesOn s.cur.slices).length := by
      simp only [State.resultLanes]
      split <;> simp
    have hneed := s.entriesNeeded_g_le n (s.resultLanes h (.g n)) f
    have hneed' : s.entriesNeeded (Spec.second (.g n)) _ g ≤ _ := s.entriesNeeded_g_le (n + 1) (s.resultLanes h (.g n)) g
    have hroom := hr.2
    have hfull : ¬ 16 - s.curG.gc.length < s.entriesNeeded (.g n) (s.resultLanes h (.g n)) f
        + s.entriesNeeded (Spec.second (.g n)) (s.resultLanes h (.g n)) g := by omega
    simp [State.writePair, hfull]
  | t n =>
    by_cases hne : s.resultLanes h (.t n) = []
    · simp [State.writePair, hne]
    · have hf := State.teamWrite_of_room hr.first hne fun l hl k hk => (ha n rfl l hl k hk).1
      have hg := State.teamWrite_of_room hr.first hne fun l hl k hk => (ha n rfl l hl k hk).2
      have hneed := s.entriesNeeded_t_le n (s.resultLanes h (.t n)) f
      have hneed' : s.entriesNeeded (Spec.second (.t n)) _ g ≤ _ := s.entriesNeeded_t_le (n + 1) (s.resultLanes h (.t n)) g
      have hfull : ¬ 32 - s.curT.tc.length < s.entriesNeeded (.t n) (s.resultLanes h (.t n)) f
          + s.entriesNeeded (Spec.second (.t n)) (s.resultLanes h (.t n)) g := by
        obtain ⟨-, hu | ⟨-, -, -, hroom⟩⟩ := hr
        · simp [State.resultLanes, hu] at hne
        · split_ifs at * <;> omega
      simp [State.writePair, hfull, hne, hf, hg]
  | _ => exact hr.elim

theorem State.resultLanes_lt {s : State} {h : Hdr} {d : Spec} {l : Nat} (hl : l ∈ s.resultLanes h d) : l < 32 := by
  have hact : l ∈ s.actLanes h → l < 32 := fun hl =>
    List.mem_range.mp (List.mem_filter.mp (List.mem_filter.mp hl).1).1
  have hfirst : l ∈ (if s.uniform h then (s.curG.slicesOn s.cur.slices).map s.curG.firstLane else []) → l < 32 := by
    intro hl
    split at hl
    · obtain ⟨i, hi, rfl⟩ := List.mem_map.mp hl
      exact s.curG.firstLane_lt (s.curG.slicesOn_lt _ i hi)
    · cases hl
  cases d with
  | v n => exact hact hl
  | p n => exact hact hl
  | _ => exact hfirst hl

theorem State.resultLanes_second (s : State) (h : Hdr) (d : Spec) :
    s.resultLanes h (Spec.second d) = s.resultLanes h d := by
  cases d <;> rfl

theorem Spec.second_eq_t {d : Spec} {n : BitVec 6} (hd : Spec.second d = .t n) : ∃ m, d = .t m := by
  cases d <;> simp_all [Spec.second]

theorem Spec.second_eq_p {d : Spec} {n : BitVec 3} (hd : Spec.second d = .p n) : d = .p n := by
  cases d <;> simp_all [Spec.second]

/-- What the write of a pair leaves: its two registers, and nothing else. -/
theorem State.writePair_room {s : State} {h : Hdr} {d : Spec} {f g : Nat → W64} (hl : s.groups.get? s.cur.gid ≠ none)
    (hr : RoomPair h d s)
    (ha : ∀ n, d = .t n → ∀ l ∈ s.resultLanes h d, ∀ k ∈ s.resultLanes h d, f l = f k ∧ g l = g k) :
    ∃ t, s.writePair h d f g = .done t ∧ RegsOnly s t ∧ WrotePair d (Spec.second d) (s.resultLanes h d) f g s t
      ∧ ∀ p ∈ s.bad, p ≠ s.regPlace s.cur.gid d → p ≠ s.regPlace s.cur.gid (Spec.second d) → p ∈ t.bad := by
  rw [State.writePair_eq hr ha]
  split
  case isTrue hnone =>
    obtain ⟨⟨n, rfl⟩, hlanes⟩ := hnone
    rw [hlanes]
    exact ⟨s, rfl, .refl hl, ⟨nofun, fun _ _ _ => rfl, fun _ _ _ => rfl⟩, fun _ hp _ _ => hp⟩
  case isFalse =>
    obtain ⟨t, ht, hk, hw⟩ := State.writeTo_room hl hr.first f fun n hn l hl k hk => (ha n hn l hl k hk).1
    have hregs := hk.regsOnly hr.ne_p
    have hlanes : t.resultLanes h (Spec.second d) = s.resultLanes h d := by
      rw [State.resultLanes_second, hregs.resultLanes_eq]
    obtain ⟨u, hu, hk', hw'⟩ := State.writeTo_room hk.listed (hr.second hregs ht hw) g fun n hn => by
      obtain ⟨m, hm⟩ := Spec.second_eq_t hn
      rw [hlanes]
      exact fun l hl k hk => (ha m hm l hl k hk).2
    rw [hlanes] at hu hw'
    have hregs' := hk'.regsOnly fun n hn => hr.ne_p n (Spec.second_eq_p hn)
    refine ⟨u, ?_, hregs.trans hregs', .of_writes hr (fun _ => State.resultLanes_lt) hregs hregs' hw hw', ?_⟩
    · rw [ht]
      show Res.ofTry s (t.writeTo _ _ _) = _
      rw [hu]
      rfl
    · intro p hp h1 h2
      refine hk'.only.1.2.2.2 p (hk.only.1.2.2.2 p hp h1) ?_
      rw [hregs.regPlace_eq]
      exact h2

/-! ### The whole effect of an instruction that writes a pair -/

theorem State.listed_woken {s : State} (hl : s.groups.get? s.cur.gid ≠ none) :
    s.woken.groups.get? s.woken.cur.gid ≠ none := by
  obtain ⟨g, hg⟩ := Option.ne_none_iff_exists'.mp hl
  show Table.get? (s.groups.alter s.cur.gid _) s.cur.gid ≠ none
  rw [Table.get?_alter_self, hg]
  exact Option.some_ne_none _

theorem RoomPair.woken {h : Hdr} {d : Spec} {s : State} (hl : s.groups.get? s.cur.gid ≠ none) (hr : RoomPair h d s) :
    RoomPair h d s.woken := by
  cases d with
  | v n | g n | t n =>
    simp only [RoomPair, State.curG_woken hl, State.curT_woken hl, State.uniform_woken hl] at hr ⊢
    exact hr
  | _ => exact hr.elim

/-- Registers that the issuing group and its team hold alike at both ends are written alike. -/
theorem WrotePair.congr {d d2 : Spec} {lanes : List Nat} {f g : Nat → W64} {s s' t t' : State}
    (hw : WrotePair d d2 lanes f g s t) (hs : ∃ sl ga, s.curG = { s'.curG with slices := sl, gangs := ga })
    (ht : ∃ sl ga, t'.curG = { t.curG with slices := sl, gangs := ga }) (hsT : s.curT = s'.curT) (htT : t'.curT = t.curT) :
    WrotePair d d2 lanes f g s' t' := by
  obtain ⟨sl, ga, hs⟩ := hs
  obtain ⟨sl', ga', ht⟩ := ht
  unfold WrotePair at hw ⊢
  rw [hs, hsT] at hw
  rw [ht, htT]
  cases d <;> cases d2 <;> exact hw

/-- A ready instruction that writes a pair: `F s` and `G s` give its results in each lane. -/
theorem GivesPair.of_issue {pre : State → Option (Cause × W64)} {i : Instr} {h : Hdr} {d : Spec} {src : List Spec}
    {s : State} {val : Nat → W64 → W64 → Prop} (F G : State → Nat → W64) (hr : Ready h [d, Spec.second d] src s)
    (hp : pre s = none) (hroom : RoomPair h d s)
    (hi : exec i s = issueWith pre h [d, Spec.second d] src s fun s => s.writePair h d (F s) (G s))
    (hF : F s.woken = F s) (hG : G s.woken = G s)
    (ha : ∀ n, d = .t n → ∀ l ∈ s.resultLanes h d, ∀ k ∈ s.resultLanes h d, F s l = F s k ∧ G s l = G s k)
    (hv : ∀ l, val l (F s l) (G s l)) : GivesPair i h d (Spec.second d) s val := by
  have hl := hr.listed
  have hlanes := State.resultLanes_woken hl h d
  obtain ⟨t, ht, hk, hw, hbad⟩ := State.writePair_room (State.listed_woken hl) (hroom.woken hl)
    (by rw [hlanes]; exact ha)
  rw [hlanes] at hw
  have hgw : s.woken.curG = s.curG.setWait s.cur.slices .none := State.curG_woken hl
  have hcur : t.cur = s.cur := hk.cur_eq
  have hfin : ((Res.done t).finish h s.curPc).curG = (t.curG.advance t.cur.slices h.len.bytes).part t.cur.slices :=
    State.curG_modCur t _ hk.listed
  have hteam : ((Res.done t).finish h s.curPc).curT = t.curT := by
    show ((Res.done t).finish h s.curPc).team ((Res.done t).finish h s.curPc).curG.team = t.team t.curG.team
    rw [hfin]
    rfl
  refine ⟨(Res.done t).finish h s.curPc, F s, G s, ?exec, ?wrote, fun l _ => hv l, ?wentOn, ?rest, fun i hi => ?groups,
    ?group, ?bad, hk.ended, fun i hi => ?teams, ?team⟩
  case exec => rw [hi, issueWith_ready hr hp, hF, hG, ht]
  case wrote => exact hw.congr ⟨_, _, hgw⟩ ⟨_, _, hfin⟩ (State.curT_woken hl) hteam
  case wentOn => exact done_wentOn hk.listed hcur (by rw [hk.slices_eq, hgw]; rfl) (by rw [hk.gangs_eq, hgw])
  case rest =>
    have hrest := hk.rest
    rw [hrest]
    rfl
  case groups =>
    show Table.get? (Table.alter t.groups t.cur.gid _) i = _
    rw [hcur, Table.get?_alter_ne _ _ hi, hk.groups i hi]
    exact Table.get?_alter_ne _ _ hi
  case group =>
    obtain ⟨_, _, _, _, hg⟩ := hk.group
    rw [hfin, hg, hgw]
    rfl
  case bad =>
    have hplace (r : Spec) : s.woken.regPlace s.woken.cur.gid r = s.regPlace s.cur.gid r := State.regPlace_woken hl r
    simp only [hplace] at hbad
    exact hbad
  case teams => exact hk.teams i (by rwa [hgw])
  case team =>
    obtain ⟨_, _, hT⟩ := hk.team
    rw [hteam, hT, State.curT_woken hl]

/-! ### Welford triples -/

theorem fp32_encode_lt (v : Num) : fp32.encode .near false v < 2 ^ 32 := fp32.encode_lt .near false v

namespace Welford

/-- A triple whose parts are 32 bits wide, as a pair of registers holds it (R210). -/
structure Fits (w : Welford) : Prop where
  n : w.n < 2 ^ 32
  mean : w.mean < 2 ^ 32
  m2 : w.m2 < 2 ^ 32

theorem ofPair_fits (x y : W64) : (ofPair x y).Fits := ⟨sub_lt _ _ _, sub_lt _ _ _, sub_lt _ _ _⟩

/-- A pair of registers gives the parts of the triple back, and zero above M2. -/
theorem Fits.reads {w : Welford} (hw : w.Fits) : sub 32 w.first 0 = w.n ∧ sub 32 w.first 1 = w.mean
    ∧ sub 32 w.last 0 = w.m2 ∧ sub 32 w.last 1 = 0 := by
  obtain ⟨hn, hmean, hm2⟩ := hw
  simp only [sub, first, last, BitVec.toNat_ofNat]
  omega

theorem add_fits (w : Welford) {x : Nat} (hx : x < 2 ^ 32) : (w.add x).Fits := by
  unfold Welford.add
  dsimp only
  split_ifs
  · exact ⟨by decide, by decide, by decide⟩
  · exact ⟨Nat.one_lt_two_pow (by decide), hx, Nat.two_pow_pos 32⟩
  · exact ⟨by simp only; omega, fp32_encode_lt _, fp32_encode_lt _⟩

theorem Fits.merge {a b : Welford} (ha : a.Fits) (hb : b.Fits) : (a.merge b).Fits := by
  unfold Welford.merge
  dsimp only
  split_ifs
  · exact ha
  · exact hb
  · exact ⟨by simp only; omega, fp32_encode_lt _, fp32_encode_lt _⟩

end Welford

theorem State.welford_fits (s : State) (h : Hdr) (d : Spec) (l : Nat) : (s.welford h d l).Fits :=
  Welford.ofPair_fits _ _

theorem State.pairRefused_eq {s : State} {h : Hdr} {d : Spec} (hr : ∀ n, d = .v n → RoomPair h d s)
    (hg : s.curG.refuses d = false) : s.pairRefused d = false := by
  cases d with
  | v n =>
    have hlast : ¬ (if s.curG.level = .m then 32 else s.curG.regs) ≤ n.toNat + 1 := not_le.mpr (hr n rfl)
    simp [State.pairRefused, hg, hlast]
  | _ => exact hg

section
variable {s : State} {h : Hdr} {d a : Spec} {val : Nat → W64 → W64 → Prop}

theorem State.welford_woken (hl : s.groups.get? s.cur.gid ≠ none) (l : Nat) :
    s.woken.welford h d l = s.welford h d l := by
  simp only [State.welford, State.src_woken hl]

/-- The triple WELF computes in a lane (R211). -/
def State.sampled (s : State) (h : Hdr) (d a : Spec) (l : Nat) : Welford :=
  (s.welford h d l).add (Machine.sub 32 (s.src h .rep32 a l) 0)

/-- WELF writes the triple it computes as one pair. -/
theorem welf_gives (hr : Ready h [d, Spec.second d] [d, Spec.second d, a] s) (hroom : RoomPair h d s)
    (ha : Alike h d .rep32 [a] s) (hv : ∀ l, val l (s.sampled h d a l).first (s.sampled h d a l).last) :
    GivesPair (.welf h d a) h d (Spec.second d) s val := by
  have hrefused := State.pairRefused_eq (fun _ _ => hroom) (hr.granted d (by simp))
  have hwoken : s.woken.sampled h d a = s.sampled h d a := by
    funext l
    simp only [State.sampled, State.welford_woken hr.listed, State.src_woken hr.listed]
  refine .of_issue (pre := fun s => if s.pairRefused d then some (.ill, s.cur.word) else none)
    (fun s l => (s.sampled h d a l).first) (fun s l => (s.sampled h d a l).last) hr
    (if_neg (by simp [hrefused])) hroom rfl (by rw [hwoken]) (by rw [hwoken]) ?alike hv
  rintro n rfl l hl k hk
  have hsame : s.sampled h (.t n) a l = s.sampled h (.t n) a k := by
    simp only [State.sampled, ha a (by simp) l hl k hk]
    rfl
  rw [hsame]
  exact ⟨rfl, rfl⟩

/-- The first register of the pair after WMERGE, of the combined triple or of `D` as it was (R212). -/
def State.combinedFirst (s : State) (h : Hdr) (d a : Spec) (l : Nat) : W64 :=
  if (s.welford h a l).n == 0 then s.src h .zx64 d l else ((s.welford h d l).merge (s.welford h a l)).first

/-- The second register. -/
def State.combinedLast (s : State) (h : Hdr) (d a : Spec) (l : Nat) : W64 :=
  if (s.welford h a l).n == 0 then s.src h .zx64 (Spec.second d) l
  else ((s.welford h d l).merge (s.welford h a l)).last

/-- WMERGE writes the pair it computes. -/
theorem wmerge_gives (hr : Ready h [d, Spec.second d] [d, Spec.second d, a, Spec.second a] s) (hroom : RoomPair h d s)
    (hrooma : ∀ k, a = .v k → RoomPair h a s) (ha : Alike h d .zx64 [a, Spec.second a] s)
    (hv : ∀ l, val l (s.combinedFirst h d a l) (s.combinedLast h d a l)) :
    GivesPair (.wmerge h d a) h d (Spec.second d) s val := by
  have hrefused := State.pairRefused_eq (fun _ _ => hroom) (hr.granted d (by simp))
  have hrefuseda := State.pairRefused_eq hrooma (hr.granted a (by simp))
  have hfirst : s.woken.combinedFirst h d a = s.combinedFirst h d a := by
    funext l
    simp only [State.combinedFirst, State.welford_woken hr.listed, State.src_woken hr.listed]
  have hlast : s.woken.combinedLast h d a = s.combinedLast h d a := by
    funext l
    simp only [State.combinedLast, State.welford_woken hr.listed, State.src_woken hr.listed]
  refine .of_issue
    (pre := fun s => if s.pairRefused d || s.pairRefused a then some (.ill, s.cur.word) else none)
    (fun s l => s.combinedFirst h d a l) (fun s l => s.combinedLast h d a l) hr
    (if_neg (by simp [hrefused, hrefuseda])) hroom rfl hfirst hlast ?alike hv
  rintro n rfl l hl k hk
  have hsame : s.welford h a l = s.welford h a k := by
    simp only [State.welford, ha a (by simp) l hl k hk, ha (Spec.second a) (by simp) l hl k hk]
  unfold State.combinedFirst State.combinedLast
  rw [hsame]
  exact ⟨rfl, rfl⟩

end

end Sys2Proof.Machine

open Sys2Proof.Machine in
/-- Settles O9: both instructions make one write of a pair of registers, which holds the triple they compute. -/
theorem welfordTriples : Obligations.WelfordTriples := by
  unfold Obligations.WelfordTriples
  intro s h d a d2 n mean m2 triple
  refine ⟨fun hr hroom ha => welf_gives hr hroom ha fun l => ?welf,
    fun hr hroom hrooma ha => wmerge_gives hr hroom hrooma ha fun l => ?wmerge⟩
  case welf =>
    have hreads := (Welford.add_fits (s.welford h d l) (sub_lt 32 (s.src h .rep32 a l) 0)).reads
    change triple (s.sampled h d a l).first (s.sampled h d a l).last _ _ _ at hreads
    simp only [Welford.add, Num.isNan_iff] at hreads
    show if (s.welford h d l).n = 0 then _ else _
    split_ifs at hreads ⊢
    · exact hreads
    · exact hreads
    · exact hreads
  case wmerge =>
    have hreads := ((s.welford_fits h d l).merge (s.welford_fits h a l)).reads
    change triple ((s.welford h d l).merge (s.welford h a l)).first ((s.welford h d l).merge (s.welford h a l)).last
      _ _ _ at hreads
    show if (s.welford h a l).n = 0 then _ else if (s.welford h d l).n = 0 then _ else _
    simp only [State.combinedFirst, State.combinedLast, Welford.merge, beq_iff_eq] at hreads ⊢
    split_ifs at hreads ⊢
    · exact ⟨rfl, rfl⟩
    · exact hreads
    · exact hreads
end

section
/-! PROOFS. O12: votes (R202), reductions (R203, R204) and scans (R205) over the active lanes. -/

namespace Sys2Proof.Machine

/-! ### Results of ready instructions -/

/-- The whole effect of an arithmetic instruction whose results in a `t` name agree of themselves (R170). -/
theorem Gives.of_ready {i : Instr} {h : Hdr} {d : Spec} {src : List Spec} {s : State} {val : Nat → W64 → Prop}
    (F : State → Nat → W64) (hr : Ready h [d] src s) (hroom : Room h d s)
    (hi : exec i s = issue h [d] src s fun s => s.arith h d (F s)) (hF : F s.woken = F s)
    (ha : ∀ n, d = .t n → ∀ l ∈ s.resultLanes h d, ∀ k ∈ s.resultLanes h d, F s l = F s k)
    (hv : ∀ l ∈ s.resultLanes h d, val l (F s l)) : Gives i h d s val := by
  obtain ⟨t, hexec, hwrote, hwent, honly⟩ := issueWith_gives (pre := fun _ => none) F hr rfl hroom hF ha
  exact ⟨t, F s, hi.trans hexec, hwrote, hv, hwent, honly⟩

/-! ### Lanes, ascending -/

theorem State.actLanes_eq_filter (s : State) (h : Hdr) : ∃ p, s.actLanes h = (List.range 32).filter p :=
  ⟨_, List.filter_filter ..⟩

theorem State.foldLanes_eq_filter (s : State) (h : Hdr) (d : Spec) :
    ∃ p, s.foldLanes h d = (List.range 32).filter p := by
  have huniform : ∃ p, (if s.uniform h then s.curG.lanesOn s.cur.slices else []) = (List.range 32).filter p := by
    split
    · exact ⟨fun l => s.cur.slices.getLsbD (l / 4) && s.curG.laneOn l, rfl⟩
    · exact ⟨fun _ => false, by simp⟩
  cases d with
  | v n | p n => exact s.actLanes_eq_filter h
  | _ => exact huniform

/-- Some lane is folded where a result is written. -/
theorem State.foldLanes_ne_nil {s : State} {h : Hdr} {d : Spec} {l : Nat} (hl : l ∈ s.resultLanes h d) :
    s.foldLanes h d ≠ [] := by
  have huniform : l ∈ (if s.uniform h then (s.curG.slicesOn s.cur.slices).map s.curG.firstLane else []) →
      (if s.uniform h then s.curG.lanesOn s.cur.slices else []) ≠ [] := by
    intro hl hnil
    split at hl
    · rw [if_pos ‹_›] at hnil
      simp_all [State.uniform, State.leader]
    · cases hl
  cases d with
  | v n | p n => exact List.ne_nil_of_mem hl
  | _ => exact huniform hl

/-! ### Votes (R202) -/

theorem allEqual_iff (lanes : List Nat) (f : Nat → W64) :
    allEqual lanes f = true ↔ ∀ l ∈ lanes, ∀ k ∈ lanes, f l = f k := by
  cases lanes with
  | nil => simp [allEqual]
  | cons a r =>
    rw [allEqual_cons]
    exact ⟨fun hall l hl k hk => (hall l hl).trans (hall k hk).symm, fun hall l hl => hall l hl a List.mem_cons_self⟩

/-- Ascending lanes each add their own bit to a ballot. -/
theorem testBit_ballot (t : Nat → Bool) (i : Nat) {lanes : List Nat} (hs : lanes.Pairwise (· < ·)) {m : Nat}
    (hm : ∀ l ∈ lanes, m < 2 ^ l) : (lanes.foldl (fun m l => if t l then m + 2 ^ l else m) m).testBit i =
      (m.testBit i || decide (i ∈ lanes ∧ t i = true)) := by
  induction lanes generalizing m with
  | nil => simp
  | cons a r ih =>
    obtain ⟨hfirst, hs⟩ := List.pairwise_cons.mp hs
    have hma : m < 2 ^ a := hm a List.mem_cons_self
    have hbelow : ∀ l ∈ r, (if t a then m + 2 ^ a else m) < 2 ^ l := by
      intro l hl
      have hpow : 2 ^ (a + 1) ≤ 2 ^ l := Nat.pow_le_pow_right two_pos (hfirst l hl)
      rw [pow_succ] at hpow
      split <;> omega
    have hbit : (m + 2 ^ a).testBit i = (m.testBit i || decide (i = a)) := by
      have hor := Nat.two_pow_add_eq_or_of_lt hma 1
      rw [mul_one] at hor
      rw [Nat.add_comm, hor, Nat.testBit_or, Nat.testBit_two_pow, Bool.or_comm,
        decide_eq_decide.mpr eq_comm]
    rw [List.foldl_cons, ih hs hbelow]
    cases hta : t a with
    | true =>
      simp only [if_true, hbit, List.mem_cons]
      by_cases hia : i = a <;> simp [hia, hta]
    | false =>
      simp only [Bool.false_eq_true, if_false, List.mem_cons]
      by_cases hia : i = a <;> simp [hia, hta]

/-- The answer of a vote. -/
def State.vote (s : State) (h : Hdr) (mode : BitVec 2) (d a : Spec) : W64 :=
  match mode.toNat with
  | 0 => if (s.foldLanes h d).all fun l => s.src h .zx64 a l != 0 then 1 else 0
  | 1 => if (s.foldLanes h d).any fun l => s.src h .zx64 a l != 0 then 1 else 0
  | 2 => if allEqual (s.foldLanes h d) (s.src h .zx64 a) then 1 else 0
  | _ => BitVec.ofNat 64 ((s.foldLanes h d).foldl (fun m l => if s.src h .zx64 a l != 0 then m + 2 ^ l else m) 0)

theorem vote_gives {s : State} {h : Hdr} {mode : BitVec 2} {d a : Spec} {val : W64 → Prop} (hr : Ready h [d] [a] s)
    (hroom : Room h d s) (hv : val (s.vote h mode d a)) : Gives (.vote h mode d a) h d s fun _ => val := by
  have hsrc : s.woken.src h .zx64 a = s.src h .zx64 a := funext fun l => State.src_woken hr.listed h .zx64 a l
  have hwoken : s.woken.vote h mode d a = s.vote h mode d a := by
    simp only [State.vote, State.foldLanes_woken hr.listed, hsrc]
  exact .of_ready (fun s _ => s.vote h mode d a) hr hroom rfl (by rw [hwoken]) (fun _ _ _ _ _ _ => rfl) fun _ _ => hv

theorem State.getLsbD_ballot (s : State) (h : Hdr) (d a : Spec) {i : Nat} (hi : i < 64) :
    (s.vote h 3 d a).getLsbD i = decide (i ∈ s.foldLanes h d ∧ s.src h .zx64 a i ≠ 0) := by
  obtain ⟨p, hp⟩ := s.foldLanes_eq_filter h d
  have hs : (s.foldLanes h d).Pairwise (· < ·) := hp ▸ List.pairwise_lt_range.filter _
  show (BitVec.ofNat 64 _).getLsbD i = _
  rw [getLsbD_ofNat_of_lt _ hi, testBit_ballot _ i hs fun _ _ => Nat.two_pow_pos _]
  simp

/-! ### The fixed tree (R204) -/

section
variable {f : Nat → Nat → Nat}

theorem treeAt_succ (f : Nat → Nat → Nat) (x : Nat → Option Nat) (k i : Nat) :
    treeAt f x (k + 1) i = (treeAt f x k (2 * i)).merge f (treeAt f x k (2 * i + 1)) := by
  rw [treeAt]
  cases treeAt f x k (2 * i) <;> cases treeAt f x k (2 * i + 1) <;> rfl

/-- A level over positions of one height gives those of the next. -/
theorem treeLevel_treeAt (f : Nat → Nat → Nat) (x : Nat → Option Nat) (k n i : Nat) :
    treeLevel f ((List.range' (2 * i) (2 * n)).map (treeAt f x k)) = (List.range' i n).map (treeAt f x (k + 1)) := by
  induction n generalizing i with
  | zero => rfl
  | succ n ih =>
    have hnext := ih (i + 1)
    rw [Nat.mul_add_one, List.range'_succ, List.range'_succ, List.range'_succ, List.map_cons, List.map_cons,
      List.map_cons, ← hnext]
    rfl

theorem treeFold_eq_treeAt (f : Nat → Nat → Nat) (x : Nat → Option Nat) :
    treeFold f ((List.range 32).map x) = treeAt f x 5 0 := by
  have hlevels : treeLevel f (treeLevel f (treeLevel f (treeLevel f (treeLevel f ((List.range 32).map x)))))
      = (List.range' 0 1).map (treeAt f x 5) := by
    rw [← treeLevel_treeAt f x 4 1 0, ← treeLevel_treeAt f x 3 2 0, ← treeLevel_treeAt f x 2 4 0,
      ← treeLevel_treeAt f x 1 8 0, ← treeLevel_treeAt f x 0 16 0, List.range_eq_range']
    rfl
  rw [treeFold, hlevels]
  rfl

/-- Where order does not matter, a tree is a fold over its positions. -/
theorem treeAt_eq_foldl [Std.Associative f] (x : Nat → Option Nat) (k i : Nat) :
    treeAt f x k i = ((List.range' (2 ^ k * i) (2 ^ k)).map x).foldl (Option.merge f) none := by
  induction k generalizing i with
  | zero => simp [treeAt]
  | succ k ih =>
    have hsplit : List.range' (2 ^ (k + 1) * i) (2 ^ (k + 1))
        = List.range' (2 ^ k * (2 * i)) (2 ^ k) ++ List.range' (2 ^ k * (2 * i + 1)) (2 ^ k) := by
      rw [show 2 ^ k * (2 * i + 1) = 2 ^ k * (2 * i) + 1 * 2 ^ k by ring, List.range'_append]
      congr 1 <;> ring
    rw [treeAt_succ, ih, ih, hsplit, List.map_append, List.foldl_append]
    generalize ((List.range' (2 ^ k * (2 * i)) (2 ^ k)).map x).foldl (Option.merge f) none = c
    rw [← List.foldl_assoc (op := Option.merge f), Option.merge_none_right]

/-- Positions that hold nothing do not count. -/
theorem foldl_merge_filter (f : Nat → Nat → Nat) (p : Nat → Bool) (y : Nat → Nat) (lanes : List Nat) (c : Option Nat) :
    (lanes.map fun l => if p l then some (y l) else none).foldl (Option.merge f) c
      = ((lanes.filter p).map fun l => some (y l)).foldl (Option.merge f) c := by
  induction lanes generalizing c with
  | nil => rfl
  | cons a r ih =>
    cases hp : p a <;> simp [hp, ih]

/-- Values folded from the first one. -/
theorem foldl_merge_some (f : Nat → Nat → Nat) (y : Nat → Nat) (lanes : List Nat) (c : Nat) :
    (lanes.map fun l => some (y l)).foldl (Option.merge f) (some c) = some ((lanes.map y).foldl f c) := by
  induction lanes generalizing c with
  | nil => rfl
  | cons a r ih => exact ih (f c (y a))

end

end Sys2Proof.Machine

namespace Sys2Proof.RedM
open Sys2Proof.Machine

/-! ### Combining (R203) -/

variable (m : RedM)

theorem fits : m.width * m.count ≤ 64 := by
  unfold width count
  split
  · exact ft_fits m.w
  · exact (width_fills m.w).le

theorem canon_int (hop : m.op.toNat < 8) (x : Nat) : m.canon x = x := if_pos hop

/-- Choosing the first of the least by value is associative. -/
theorem choose_assoc {α : Type} [LinearOrder α] (v : Nat → α) (a b c : Nat) :
    (if v c < v (if v b < v a then b else a) then c else if v b < v a then b else a)
      = if v (if v c < v b then c else b) < v a then if v c < v b then c else b else a := by
  by_cases hba : v b < v a
  · by_cases hcb : v c < v b
    · simp [hba, hcb, hcb.trans hba]
    · simp [hba, hcb]
  · by_cases hcb : v c < v b
    · simp [hba, hcb]
    · have hca : ¬ v c < v a := fun hca => hcb (hca.trans_le (not_lt.mp hba))
      simp [hba, hcb, hca]

/-- Integer reductions do not depend on order (R204). -/
theorem comb_assoc (hop : m.op.toNat < 8) : Std.Associative m.comb := by
  constructor
  intro a b c
  unfold comb
  dsimp only
  generalize m.op.toNat = k at hop
  interval_cases k
  · simp [Nat.add_assoc]
  · exact min_assoc a b c
  · exact max_assoc a b c
  · exact choose_assoc (asSigned m.width) a b c
  · exact choose_assoc (fun x => OrderDual.toDual (asSigned m.width x)) a b c
  · exact Nat.and_assoc a b c
  · exact Nat.or_assoc a b c
  · exact Nat.xor_assoc a b c

/-- The largest and the smallest two's-complement value, as the patterns they have. -/
theorem asSigned_bounds {w x : Nat} (hw : 0 < w) (hx : x < 2 ^ w) :
    (asSigned w x < asSigned w (2 ^ (w - 1) - 1) ∨ x = 2 ^ (w - 1) - 1)
    ∧ (asSigned w (2 ^ (w - 1)) < asSigned w x ∨ x = 2 ^ (w - 1)) := by
  have hpow : 2 ^ w = 2 * 2 ^ (w - 1) := by rw [← pow_succ', Nat.sub_add_cancel hw]
  have hcast : (2 : Int) ^ w = ((2 * 2 ^ (w - 1) : Nat) : Int) := by exact_mod_cast hpow
  have hpos : 0 < 2 ^ (w - 1) := Nat.two_pow_pos _
  unfold asSigned
  rw [hcast]
  generalize 2 ^ (w - 1) = half at *
  constructor <;> split_ifs <;> omega

/-- A reduction of integers starts from a value that changes none (R203). -/
theorem comb_ident (hop : m.op.toNat < 8) {x : Nat} (hx : x < 2 ^ m.width) : m.comb m.ident x = x := by
  have hw : 0 < m.width := by
    unfold width
    rw [if_neg (not_le.mpr hop)]
    exact widthOf_pos m.w
  obtain ⟨hmost, hleast⟩ := asSigned_bounds hw hx
  unfold comb ident
  dsimp only
  generalize m.op.toNat = k at hop
  interval_cases k
  · simpa using Nat.mod_eq_of_lt hx
  · exact min_eq_right (Nat.le_sub_one_of_lt hx)
  · exact max_eq_right (Nat.zero_le x)
  · exact ite_eq_left_iff.mpr fun hn => (hmost.resolve_left hn).symm
  · exact ite_eq_left_iff.mpr fun hn => (hleast.resolve_left hn).symm
  · show (2 ^ m.width - 1) &&& x = x
    rw [Nat.and_comm]
    exact Nat.and_two_pow_sub_one_of_lt_two_pow hx
  · exact Nat.zero_or x
  · exact Nat.zero_xor x

end Sys2Proof.RedM

namespace Sys2Proof.Machine

/-! ### Reductions (R203, R204) -/

/-- The result of a reduction. -/
def State.reduction (s : State) (h : Hdr) (m : RedM) (d a : Spec) : W64 :=
  pack m.width m.count fun i =>
    m.canon <| (treeFold m.comb ((List.range 32).map fun l =>
      if (s.foldLanes h d).contains l then some (Machine.sub m.width (s.src h m.expand a l) i) else none)).getD 0

theorem redl_gives {s : State} {h : Hdr} {m : RedM} {d a : Spec} {val : W64 → Prop} (hr : Ready h [d] [a] s)
    (hroom : Room h d s) (hv : s.foldLanes h d ≠ [] → val (s.reduction h m d a)) :
    Gives (.redl h m d a) h d s fun _ => val := by
  have hsrc : s.woken.src h m.expand a = s.src h m.expand a := funext fun l => State.src_woken hr.listed h m.expand a l
  have hwoken : s.woken.reduction h m d a = s.reduction h m d a := by
    simp only [State.reduction, State.foldLanes_woken hr.listed, hsrc]
  exact .of_ready (fun s _ => s.reduction h m d a) hr hroom rfl (by rw [hwoken]) (fun _ _ _ _ _ _ => rfl)
    fun l hl => hv (State.foldLanes_ne_nil hl)

theorem State.sub_reduction (s : State) (h : Hdr) (m : RedM) (d a : Spec) {i : Nat} (hi : i < m.count) :
    Machine.sub m.width (s.reduction h m d a) i = m.canon ((treeAt m.comb (fun l =>
      if l ∈ s.foldLanes h d then some (Machine.sub m.width (s.src h m.expand a l) i) else none) 5 0).getD 0)
      % 2 ^ m.width := by
  rw [State.reduction, sub_pack _ hi m.fits, treeFold_eq_treeAt]
  simp only [List.contains_iff_mem]

/-- The tree of an integer reduction is a fold over the lanes (R204). -/
theorem treeAt_comb_eq_foldl {m : RedM} (hop : m.op.toNat < 8) {p : Nat → Bool} {lanes : List Nat}
    (hl : lanes = (List.range 32).filter p) (hne : lanes ≠ []) {y : Nat → Nat} (hy : ∀ l, y l < 2 ^ m.width) :
    (treeAt m.comb (fun l => if l ∈ lanes then some (y l) else none) 5 0).getD 0
      = (lanes.map y).foldl m.comb m.ident := by
  have := m.comb_assoc hop
  have hfilter : (List.range 32).filter (fun l => decide (l ∈ lanes)) = lanes := by
    rw [hl]
    exact List.filter_congr fun l hl => by simp [List.mem_range.mp hl]
  have hpos : List.range' (2 ^ 5 * 0) (2 ^ 5) = List.range 32 := rfl
  have hskip := foldl_merge_filter m.comb (fun l => decide (l ∈ lanes)) y (List.range 32) none
  simp only [decide_eq_true_eq, hfilter] at hskip
  rw [treeAt_eq_foldl, hpos, hskip]
  cases lanes with
  | nil => exact absurd rfl hne
  | cons k r =>
    rw [List.map_cons, List.foldl_cons, Option.merge_none_left, foldl_merge_some, List.map_cons, List.foldl_cons,
      m.comb_ident hop (hy k)]
    rfl

/-! ### Scans (R205) -/

theorem scanGo_cons (f : Nat → Nat → Nat) (x : Nat → Nat) (ident : Nat) (c : Option Nat) (l : Nat) (r : List Nat) :
    scanGo f x ident c (l :: r) = (l, (c.merge f (some (x l))).getD 0, c.getD ident)
      :: scanGo f x ident (c.merge f (some (x l))) r := by
  cases c <;> rfl

/-- What a scan finds in a lane: the lanes before it and the lane itself, or only those before it. -/
theorem find?_scanGo (f : Nat → Nat → Nat) (x : Nat → Nat) (ident : Nat) (c : Option Nat) {pre : List Nat} {l : Nat}
    (hl : l ∉ pre) (post : List Nat) : (scanGo f x ident c (pre ++ l :: post)).find? (fun p => p.1 == l)
      = some (l, (((pre ++ [l]).map fun k => some (x k)).foldl (Option.merge f) c).getD 0,
          ((pre.map fun k => some (x k)).foldl (Option.merge f) c).getD ident) := by
  induction pre generalizing c with
  | nil => simp [scanGo_cons]
  | cons a r ih =>
    obtain ⟨hne, hr⟩ := not_or.mp (List.mem_cons.not.mp hl)
    rw [List.cons_append, scanGo_cons, List.find?_cons_of_neg (by simpa using Ne.symm hne), ih _ hr]
    rfl

/-- Of ascending lanes those below one of them, and those up to it. -/
theorem filter_of_sorted {pre post : List Nat} {l : Nat} (hs : (pre ++ l :: post).Pairwise (· < ·)) :
    ((pre ++ l :: post).filter fun k => decide (k < l)) = pre
    ∧ ((pre ++ l :: post).filter fun k => decide (k ≤ l)) = pre ++ [l] := by
  obtain ⟨-, hpost, hpre⟩ := List.pairwise_append.mp hs
  have hbelow : ∀ k ∈ pre, k < l := fun k hk => hpre k hk l List.mem_cons_self
  have habove : ∀ k ∈ post, l < k := (List.pairwise_cons.mp hpost).1
  have hlt : pre.filter (fun k => decide (k < l)) = pre :=
    List.filter_eq_self.mpr fun k hk => decide_eq_true (hbelow k hk)
  have hle : pre.filter (fun k => decide (k ≤ l)) = pre :=
    List.filter_eq_self.mpr fun k hk => decide_eq_true (hbelow k hk).le
  have hnlt : post.filter (fun k => decide (k < l)) = [] :=
    List.filter_eq_nil_iff.mpr fun k hk => by simpa using (habove k hk).le
  have hnle : post.filter (fun k => decide (k ≤ l)) = [] :=
    List.filter_eq_nil_iff.mpr fun k hk => by simpa using habove k hk
  simp [List.filter_append, hlt, hle, hnlt, hnle]

/-- The lanes whose elements a scan combines in lane `l`. -/
def State.scannedLanes (s : State) (h : Hdr) (m : RedM) (l : Nat) : List Nat :=
  (s.actLanes h).filter fun k => if m.excl then k < l else k ≤ l

/-- The result of a scan in a lane. -/
def State.scan (s : State) (h : Hdr) (m : RedM) (a : Spec) (l : Nat) : W64 :=
  pack m.width m.count fun i =>
    match (scanGo m.comb (fun l => Machine.sub m.width (s.src h m.expand a l) i) m.ident none (s.actLanes h)).find?
      fun p => p.1 == l with
    | some p => m.canon (if m.excl then p.2.2 else p.2.1)
    | none => 0

theorem scanl_gives {s : State} {h : Hdr} {m : RedM} {n : BitVec 8} {a : Spec} {val : Nat → W64 → Prop}
    (hf : Fit h (.v n) m.expand [a] s) (hv : ∀ l ∈ s.actLanes h, val l (s.scan h m a l)) :
    Gives (.scanl h m (.v n) a) h (.v n) s val := by
  have hsrc : s.woken.src h m.expand a = s.src h m.expand a :=
    funext fun l => State.src_woken hf.ready.listed h m.expand a l
  have hwoken : s.woken.scan h m a = s.scan h m a := by
    funext l
    simp only [State.scan, State.actLanes_woken hf.ready.listed, hsrc]
  exact .of_ready (fun s => s.scan h m a) hf.ready hf.room rfl hwoken (fun _ hd => by cases hd) hv

theorem State.sub_scan (s : State) (h : Hdr) (m : RedM) (a : Spec) {l i : Nat} (hl : l ∈ s.actLanes h)
    (hi : i < m.count) : Machine.sub m.width (s.scan h m a l) i =
      m.canon ((((s.scannedLanes h m l).map fun k => some (Machine.sub m.width (s.src h m.expand a k) i)).foldl
        (Option.merge m.comb) none).getD m.ident) % 2 ^ m.width := by
  obtain ⟨p, hp⟩ := s.actLanes_eq_filter h
  have hs : (s.actLanes h).Pairwise (· < ·) := hp ▸ List.pairwise_lt_range.filter _
  obtain ⟨pre, post, hsplit⟩ := List.append_of_mem hl
  rw [hsplit] at hs
  have hpre : l ∉ pre := fun hm => lt_irrefl l ((List.pairwise_append.mp hs).2.2 l hm l List.mem_cons_self)
  obtain ⟨hbelow, hupto⟩ := filter_of_sorted hs
  rw [State.scan, sub_pack _ hi m.fits, hsplit, find?_scanGo _ _ _ _ hpre, State.scannedLanes, hsplit]
  dsimp only
  cases m.excl with
  | true => simp only [if_true, hbelow]
  | false =>
    simp only [Bool.false_eq_true, if_false, hupto]
    rw [List.map_append, List.foldl_append]
    cases (pre.map fun k => some (Machine.sub m.width (s.src h m.expand a k) i)).foldl (Option.merge m.comb) none <;> rfl

end Sys2Proof.Machine

open Sys2Proof Sys2Proof.Machine in
/-- Settles O12: a vote and a reduction have one result for all lanes; associativity turns the tree of an integer reduction
into a fold; what a scan leaves in a lane is the fold over the lanes up to it. -/
theorem votesReductionsScans : Obligations.VotesReductionsScans := by
  unfold Obligations.VotesReductionsScans
  refine ⟨fun s h mode d a hr hroom _ => vote_gives hr hroom ?vote, fun s h m d a n =>
    ⟨fun hr hroom => redl_gives hr hroom fun hne i hi => ?redl, fun hf => scanl_gives hf fun l hl i hi => ?scanl⟩⟩
  case vote =>
    have hmodes : ∀ r : BitVec 2, r = 0 ∨ r = 1 ∨ r = 2 ∨ r = 3 := by decide
    rcases hmodes mode with rfl | rfl | rfl | rfl
    · simp [State.vote]
    · simp [State.vote]
    · simp [State.vote, allEqual_iff]
    · exact fun i hi => State.getLsbD_ballot s h d a hi
  case redl =>
    rw [State.sub_reduction s h m d a hi]
    split
    case isTrue hop =>
      obtain ⟨p, hp⟩ := s.foldLanes_eq_filter h d
      rw [m.canon_int hop, treeAt_comb_eq_foldl hop hp hne fun l => sub_lt _ _ _]
    case isFalse => rfl
  case scanl =>
    rw [State.sub_scan s h m a hl hi]
    show _ = m.canon (match s.scannedLanes h m l with
      | [] => m.ident
      | k :: r => _) % _
    cases s.scannedLanes h m l with
    | nil => rfl
    | cons k r =>
      rw [List.map_cons, List.foldl_cons, Option.merge_none_left, foldl_merge_some]
      rfl
end

section
/-! PROOFS. O11: elements moved across lanes by index, pushed to lanes, read from and written to one lane (R196-R201, R206). -/

namespace Sys2Proof.Machine

/-! ### Elements across the lanes (R196, R197) -/

theorem perReg_pos (w : BitVec 2) : 0 < perReg (widthOf w) := by
  revert w
  decide

theorem State.elemOk_iff (s : State) (w m : Nat) : s.elemOk w (m : Int) = true ↔ InReach s w m := by
  unfold State.elemOk State.reach InReach
  simp only [Int.toNat_natCast, Bool.and_eq_true, decide_eq_true_eq, Nat.cast_lt]
  constructor
  · rintro ⟨⟨-, hm⟩, -, hslice⟩
    exact ⟨hm, hslice⟩
  · rintro ⟨hm, hslice⟩
    exact ⟨⟨Int.natCast_nonneg m, hm⟩, Nat.div_lt_of_lt_mul (by rwa [Nat.mul_comm] at hm), hslice⟩

theorem State.mem_actLanes_lt {s : State} {h : Hdr} {l : Nat} (hl : l ∈ s.actLanes h) : l < 32 :=
  State.resultLanes_lt (d := .v 0) hl

theorem State.elemOk_neg (s : State) (w : Nat) {m : Int} (hm : m < 0) : s.elemOk w m = false := by
  simp [State.elemOk, not_le.mpr hm]

theorem State.elem_eq (s : State) (h : Hdr) (e : Expand) (x : Spec) (w m : Nat) : s.elem h e x w m = laneEl s h e x w m :=
  rfl

theorem laneEl_lt (s : State) (h : Hdr) (e : Expand) (x : Spec) (w m : Nat) : laneEl s h e x w m < 2 ^ w := sub_lt ..

theorem laneEl_woken {s : State} (hl : s.groups.get? s.cur.gid ≠ none) (h : Hdr) (e : Expand) (x : Spec) (w m : Nat) :
    laneEl s.woken h e x w m = laneEl s h e x w m := by
  simp only [laneEl, State.src_woken hl]

/-! ### Gathering (R199) -/

/-- The element SHFL takes for index `m`: element `j` of the lane itself, or zero, where the index names none in reach. -/
def State.gathered (s : State) (h : Hdr) (e : Expand) (a : Spec) (w : Nat) (z : Bool) (j : Nat) (m : Int) : Nat :=
  if s.elemOk w m then s.elem h e a w m.toNat else if z then 0 else s.elem h e a w j

theorem State.gathered_lt (s : State) (h : Hdr) (e : Expand) (a : Spec) (w : Nat) (z : Bool) (j : Nat) (m : Int) :
    s.gathered h e a w z j m < 2 ^ w := by
  unfold State.gathered
  split_ifs
  · exact laneEl_lt ..
  · exact Nat.two_pow_pos w
  · exact laneEl_lt ..

/-- An index below the first element names none. -/
theorem State.gathered_eq {s : State} {h : Hdr} {e : Expand} {a : Spec} {w : Nat} {z : Bool} {j m : Nat} (below : Prop)
    {_ : Decidable (¬below ∧ InReach s w m)} {index : Int} (hbelow : below → index < 0) (habove : ¬below → index = m) :
    s.gathered h e a w z j index = if ¬below ∧ InReach s w m then laneEl s h e a w m
      else if z then 0 else laneEl s h e a w j := by
  unfold State.gathered
  by_cases hb : below
  · rw [s.elemOk_neg w (hbelow hb), if_neg Bool.false_ne_true,
      if_neg (c := ¬below ∧ InReach s w m) fun hn => hn.1 hb]
    rfl
  · rw [habove hb]
    by_cases hr : InReach s w m
    · rw [if_pos ((s.elemOk_iff w m).mpr hr), if_pos ⟨hb, hr⟩]
      rfl
    · rw [if_neg fun hok => hr ((s.elemOk_iff w m).mp hok),
        if_neg (c := ¬below ∧ InReach s w m) fun hn => hr hn.2]
      rfl

/-- The index SHFL forms of its own element's place and the selector. -/
def shflIndex (mode : BitVec 2) (j sel : Nat) : Int :=
  match mode.toNat with
  | 0 => sel
  | 1 => (j : Int) - sel
  | 2 => (j : Int) + sel
  | _ => (j ^^^ sel : Nat)

/-- The result of SHFL in a lane. -/
def State.shuffled (s : State) (h : Hdr) (w : BitVec 2) (z : Bool) (mode : BitVec 2) (a b : Spec) (l : Nat) : W64 :=
  pack (widthOf w) (perReg (widthOf w)) fun i =>
    s.gathered h (wExpand w) a (widthOf w) z (perReg (widthOf w) * l + i)
      (shflIndex mode (perReg (widthOf w) * l + i) (Machine.sub (widthOf w) (s.src h (wExpand w) b l) i))

theorem shfl_gives {s : State} {h : Hdr} {w : BitVec 2} {z : Bool} {mode : BitVec 2} {n : BitVec 8} {a b : Spec}
    {val : Nat → W64 → Prop} (hf : Fit h (.v n) (wExpand w) [a, b] s) (hv : ∀ l, val l (s.shuffled h w z mode a b l)) :
    Gives (.shfl h w z mode (.v n) a b) h (.v n) s val := by
  have hl := hf.ready.listed
  have hwoken : s.woken.shuffled h w z mode a b = s.shuffled h w z mode a b := by
    funext l
    simp only [State.shuffled, State.gathered, State.elem_eq, laneEl_woken hl, State.src_woken hl]
    rfl
  exact .of_ready (fun s => s.shuffled h w z mode a b) hf.ready hf.room rfl hwoken (fun _ hd => by cases hd)
    fun l _ => hv l

/-! ### Rearranging within a lane (R206) -/

/-- The result of PERM in a lane. -/
def State.permuted (s : State) (h : Hdr) (w : BitVec 2) (a b c : Spec) (l : Nat) : W64 :=
  pack (widthOf w) (perReg (widthOf w)) fun i =>
    let q := field (s.src h .zx64 c l) (4 * i) 4
    if q < perReg (widthOf w) then Machine.sub (widthOf w) (s.src h (wExpand w) a l) q
    else if q < 2 * perReg (widthOf w) then
      Machine.sub (widthOf w) (s.src h (wExpand w) b l) (q - perReg (widthOf w))
    else 0

theorem perm_gives {s : State} {h : Hdr} {w : BitVec 2} {d a b c : Spec} {val : Nat → W64 → Prop}
    (hf : Fit h d (wExpand w) [a, b] s) (hc : Alike h d .zx64 [c] s) (hr : Ready h [d] [a, b, c] s)
    (hv : ∀ l, val l (s.permuted h w a b c l)) : Gives (.perm h w d a b c) h d s val := by
  have hwoken : s.woken.permuted h w a b c = s.permuted h w a b c := by
    funext l
    simp only [State.permuted, State.src_woken hr.listed]
  refine .of_ready (fun s => s.permuted h w a b c) hr hf.room rfl hwoken ?_ fun l _ => hv l
  rintro n rfl l hl k hk
  have hab := hf.alike
  simp only [State.permuted, hab a (by simp) l hl k hk, hab b (by simp) l hl k hk, hc c (by simp) l hl k hk]

/-! ### One element read (R201) -/

/-- The lane whose index READL reads: for a `v` name the lowest active one, else the lane of the result. -/
def State.leadOf (s : State) (h : Hdr) (d : Spec) (l : Nat) : Nat :=
  match d with
  | .v _ => (s.actLanes h).headD 0
  | _ => l

/-- The element that lane `lead` names, extended to a register; zero where none is in reach. -/
def State.readElem (s : State) (h : Hdr) (w : BitVec 2) (sgn : Bool) (a b : Spec) (lead : Nat) : W64 :=
  let m := Machine.sub (widthOf w) (s.src h (wExpand w) b lead) 0
  let x := if s.elemOk (widthOf w) (m : Int) then s.elem h (wExpand w) a (widthOf w) m else 0
  if sgn then signExt64 (widthOf w) x else BitVec.ofNat 64 x

theorem readl_gives {s : State} {h : Hdr} {w : BitVec 2} {sgn : Bool} {d b : Spec} {q : BitVec 8}
    {val : Nat → W64 → Prop} (hf : Fit h d (wExpand w) [b] s) (hr : Ready h [d] [.v q, b] s)
    (hv : ∀ l, val l (s.readElem h w sgn (.v q) b (s.leadOf h d l))) : Gives (.readl h w sgn d (.v q) b) h d s val := by
  have hwoken : (fun l => s.woken.readElem h w sgn (.v q) b (s.woken.leadOf h d l))
      = fun l => s.readElem h w sgn (.v q) b (s.leadOf h d l) := by
    funext l
    simp only [State.readElem, State.leadOf, State.elem_eq, laneEl_woken hr.listed, State.src_woken hr.listed,
      State.actLanes_woken hr.listed]
    rfl
  refine .of_ready (fun s l => s.readElem h w sgn (.v q) b (s.leadOf h d l)) hr hf.room (by cases d <;> rfl) hwoken ?_
    fun l _ => hv l
  rintro n rfl l hl k hk
  have hb := hf.alike b (by simp) l hl k hk
  show s.readElem h w sgn (.v q) b l = s.readElem h w sgn (.v q) b k
  unfold State.readElem
  rw [hb]

/-- The element read, or zero. -/
theorem State.readElem_eq (s : State) (h : Hdr) (w : BitVec 2) (sgn : Bool) (a b : Spec) (lead : Nat) :
    let m := Machine.sub (widthOf w) (s.src h (wExpand w) b lead) 0
    let x := laneEl s h (wExpand w) a (widthOf w) m
    (InReach s (widthOf w) m → s.readElem h w sgn a b lead =
      if sgn then BitVec.ofInt 64 (asSigned (widthOf w) x) else BitVec.ofNat 64 x)
    ∧ (¬InReach s (widthOf w) m → s.readElem h w sgn a b lead = 0) := by
  refine ⟨fun hin => ?_, fun hout => ?_⟩
  · unfold State.readElem
    dsimp only
    rw [if_pos ((s.elemOk_iff _ _).mpr hin), State.elem_eq, signExt64, Nat.mod_eq_of_lt (laneEl_lt ..)]
  · unfold State.readElem
    dsimp only
    rw [if_neg fun hok => hout ((s.elemOk_iff _ _).mp hok)]
    simp [signExt64, asSigned]

/-! ### Instructions that write lanes of the issuing group themselves -/

/-- Nothing changed but the registers of the issuing group and the uncorrectable errors, and its sub-gang waits for
nothing. -/
structure GroupOnly (s u : State) : Prop where
  rest : u = { s with groups := u.groups, bad := u.bad }
  listed : u.groups.get? u.cur.gid ≠ none
  groups : ∀ i, i ≠ s.cur.gid → u.groups.get? i = s.groups.get? i
  slices : u.curG.slices = s.curG.slices
  gangs : u.curG.gangs = (s.curG.setWait s.cur.slices .none).gangs

namespace GroupOnly
variable {s u : State}

theorem woken (hl : s.groups.get? s.cur.gid ≠ none) : GroupOnly s s.woken where
  rest := rfl
  listed := State.listed_woken hl
  groups _ hi := Table.get?_alter_ne _ _ hi
  slices := by
    rw [State.curG_woken hl]
    rfl
  gangs := by rw [State.curG_woken hl]

theorem cur_eq (hk : GroupOnly s u) : u.cur = s.cur := by rw [hk.rest]

theorem setGroup (hk : GroupOnly s u) {g : Group} (hg : ∃ v p, g = { u.curG with v := v, p := p }) :
    GroupOnly s (u.setGroup u.cur.gid g) where
  rest := by
    have hrest := hk.rest
    rw [hrest]
    rfl
  listed := by
    show Table.get? (u.groups.set u.cur.gid g) u.cur.gid ≠ none
    rw [Table.get?_set_self]
    exact Option.some_ne_none _
  groups i hi := (Table.get?_set_ne _ _ (by rwa [hk.cur_eq])).trans (hk.groups i hi)
  slices := by
    obtain ⟨_, _, rfl⟩ := hg
    exact (congrArg Group.slices (State.curG_setGroup u _)).trans hk.slices
  gangs := by
    obtain ⟨_, _, rfl⟩ := hg
    exact (congrArg Group.gangs (State.curG_setGroup u _)).trans hk.gangs

theorem freshReg (hk : GroupOnly s u) (gid : Nat) (r : Spec) (lanes : List Nat) :
    GroupOnly s (u.freshReg gid r lanes) := by
  obtain ⟨b, hb, -⟩ := u.freshReg_eq gid r lanes
  have hrest := hk.rest
  rw [hb]
  exact ⟨by rw [hrest], hk.listed, hk.groups, hk.slices, hk.gangs⟩

/-- An instruction that is done so goes on. -/
theorem done (hk : GroupOnly s u) (h : Hdr) (pc : PC) : WentOn h.len.bytes s ((Res.done u).finish h pc)
    ∧ ((Res.done u).finish h pc) = { s with groups := ((Res.done u).finish h pc).groups, bad := u.bad }
    ∧ (∀ i, i ≠ s.cur.gid → ((Res.done u).finish h pc).groups.get? i = s.groups.get? i)
    ∧ ∃ sl ga, ((Res.done u).finish h pc).curG = { u.curG with slices := sl, gangs := ga } := by
  have hfin : ((Res.done u).finish h pc).curG = (u.curG.advance u.cur.slices h.len.bytes).part u.cur.slices :=
    State.curG_modCur u _ hk.listed
  refine ⟨done_wentOn hk.listed hk.cur_eq hk.slices hk.gangs, ?_, fun i hi => ?_, ⟨_, _, hfin⟩⟩
  · have hrest := hk.rest
    rw [hrest]
    rfl
  · exact (Table.get?_alter_ne _ _ (by rwa [hk.cur_eq])).trans (hk.groups i hi)

theorem laneV_done (hk : GroupOnly s u) (h : Hdr) (pc : PC) (r l : Nat) :
    ((Res.done u).finish h pc).curG.laneV r l = u.curG.laneV r l := by
  obtain ⟨-, -, -, sl, ga, hg⟩ := hk.done h pc
  rw [hg]
  rfl

theorem laneP_done (hk : GroupOnly s u) (h : Hdr) (pc : PC) (r l : Nat) :
    ((Res.done u).finish h pc).curG.laneP r l = u.curG.laneP r l := by
  obtain ⟨-, -, -, sl, ga, hg⟩ := hk.done h pc
  rw [hg]
  rfl

end GroupOnly

theorem Group.writeV_eq (g : Group) (n : Nat) (lanes : List Nat) (f : Nat → W64) :
    ∃ v, g.writeV n lanes f = { g with v := v } := by
  unfold Group.writeV
  split
  · exact ⟨g.v, rfl⟩
  · exact ⟨_, rfl⟩

theorem Group.writeP_eq (g : Group) (n : Nat) (lanes : List Nat) (f : Nat → Bool) :
    ∃ p, g.writeP n lanes f = { g with p := p } := by
  unfold Group.writeP
  split
  · exact ⟨g.p, rfl⟩
  · exact ⟨_, rfl⟩

theorem State.laneV_woken {s : State} (hl : s.groups.get? s.cur.gid ≠ none) (n l : Nat) :
    s.woken.curG.laneV n l = s.curG.laneV n l := by
  rw [State.curG_woken hl]
  rfl

theorem State.laneP_woken {s : State} (hl : s.groups.get? s.cur.gid ≠ none) (n l : Nat) :
    s.woken.curG.laneP n l = s.curG.laneP n l := by
  rw [State.curG_woken hl]
  rfl

/-! ### Elements of a `v` register -/

section
variable (w : BitVec 2)

theorem elem_lane_lt {m : Nat} (hm : m < 32 * perReg (widthOf w)) : m / perReg (widthOf w) < 32 :=
  Nat.div_lt_of_lt_mul (by rwa [Nat.mul_comm] at hm)

theorem elem_eq_iff (j m : Nat) : j = m ↔ j / perReg (widthOf w) = m / perReg (widthOf w)
    ∧ j % perReg (widthOf w) = m % perReg (widthOf w) := by
  constructor
  · rintro rfl
    exact ⟨rfl, rfl⟩
  · rintro ⟨hd, hr⟩
    rw [← Nat.div_add_mod j (perReg (widthOf w)), ← Nat.div_add_mod m (perReg (widthOf w)), hd, hr]

end

/-! ### One element written (R201) -/

/-- The group after element `m` of a `v` register is replaced. -/
def Group.withElem (g : Group) (w n m x : Nat) : Group :=
  g.writeV n [m / perReg w] fun l =>
    pack w (perReg w) fun i => if i = m % perReg w then x else Machine.sub w (g.laneV n l) i

theorem Group.withElem_eq (g : Group) (w n m x : Nat) : ∃ v, g.withElem w n m x = { g with v := v } := g.writeV_eq ..

theorem Group.sub_withElem (g : Group) (w : BitVec 2) (n m x : Nat) (hx : x < 2 ^ widthOf w) {j : Nat}
    (hj : j < 32 * perReg (widthOf w)) : Machine.sub (widthOf w)
        ((g.withElem (widthOf w) n m x).laneV n (j / perReg (widthOf w))) (j % perReg (widthOf w))
      = if j = m then x else Machine.sub (widthOf w) (g.laneV n (j / perReg (widthOf w))) (j % perReg (widthOf w)) := by
  rw [Group.withElem, Group.laneV_writeV _ _ _ _ (elem_lane_lt w hj)]
  simp only [elem_eq_iff w j m, List.mem_singleton]
  by_cases hd : j / perReg (widthOf w) = m / perReg (widthOf w)
  · rw [if_pos hd, sub_packInt w (Nat.mod_lt _ (perReg_pos w))]
    · simp [hd]
    · split
      · exact hx
      · exact sub_lt ..
  · rw [if_neg hd, if_neg fun he => hd he.1]

/-- The group after WRITEL, from the lane that leads. -/
def State.writelGroup (s : State) (h : Hdr) (w : BitVec 2) (n : BitVec 8) (a b : Spec) : Option Nat → Group
  | some lead =>
    let m := Machine.sub (widthOf w) (s.src h (wExpand w) b lead) 0
    if s.elemOk (widthOf w) (m : Int) then
      s.curG.withElem (widthOf w) n.toNat m (Machine.sub (widthOf w) (s.src h (wExpand w) a lead) 0)
    else s.curG
  | none => s.curG

theorem State.writelGroup_eq (s : State) (h : Hdr) (w : BitVec 2) (n : BitVec 8) (a b : Spec) (lead : Option Nat) :
    ∃ v, s.writelGroup h w n a b lead = { s.curG with v := v } := by
  unfold State.writelGroup
  split
  · dsimp only
    split
    · exact Group.withElem_eq ..
    · exact ⟨_, rfl⟩
  · exact ⟨_, rfl⟩

theorem State.laneV_writelGroup_ne (s : State) (h : Hdr) (w : BitVec 2) {n : BitVec 8} (a b : Spec) (lead : Option Nat)
    {r : Nat} (hr : r ≠ n.toNat) (l : Nat) : (s.writelGroup h w n a b lead).laneV r l = s.curG.laneV r l := by
  unfold State.writelGroup
  split
  · dsimp only
    split
    · exact Group.laneV_writeV_ne _ _ _ _ hr
    · rfl
  · rfl

theorem State.sub_writelGroup (s : State) (h : Hdr) (w : BitVec 2) (n : BitVec 8) (a b : Spec) (lead : Nat) {m : Nat}
    (hm : m < 32 * perReg (widthOf w)) :
    let x := Machine.sub (widthOf w)
      ((s.writelGroup h w n a b (some lead)).laneV n.toNat (m / perReg (widthOf w))) (m % perReg (widthOf w))
    let named := m = Machine.sub (widthOf w) (s.src h (wExpand w) b lead) 0 ∧ InReach s (widthOf w) m
    (named → x = Machine.sub (widthOf w) (s.src h (wExpand w) a lead) 0)
    ∧ (¬named → x = Machine.sub (widthOf w) (s.curG.laneV n.toNat (m / perReg (widthOf w))) (m % perReg (widthOf w))) := by
  dsimp only [State.writelGroup]
  by_cases hr : InReach s (widthOf w) (Machine.sub (widthOf w) (s.src h (wExpand w) b lead) 0)
  · rw [if_pos ((s.elemOk_iff _ _).mpr hr), Group.sub_withElem _ _ _ _ _ (sub_lt ..) hm]
    exact ⟨fun hnamed => if_pos hnamed.1, fun hnot => if_neg fun he => hnot ⟨he, he ▸ hr⟩⟩
  · rw [if_neg fun hok => hr ((s.elemOk_iff _ _).mp hok)]
    exact ⟨fun hnamed => absurd (hnamed.1 ▸ hnamed.2) hr, fun _ => rfl⟩

theorem writel_exec {s : State} {h : Hdr} {w : BitVec 2} {n : BitVec 8} {a b : Spec} (hr : Ready h [.v n] [a, b] s) :
    ∃ u, exec (.writel h w (.v n) a b) s = .next ((Res.done u).finish h s.curPc) ∧ GroupOnly s u
      ∧ u.curG = s.woken.writelGroup h w n a b (s.actLanes h).head? ∧ u.bad = s.bad := by
  have hk := GroupOnly.woken hr.listed
  have hexec := issue_ready hr (fun s => match (s.actLanes h).head?, Spec.v n with
    | some lead, .v r =>
      if s.elemOk (widthOf w) (Machine.sub (widthOf w) (s.src h (wExpand w) b lead) 0 : Nat) then
        .done (s.setGroup s.cur.gid (s.curG.withElem (widthOf w) r.toNat
          (Machine.sub (widthOf w) (s.src h (wExpand w) b lead) 0)
          (Machine.sub (widthOf w) (s.src h (wExpand w) a lead) 0)))
      else .done s
    | _, _ => .done s) (hasEffect h [.v n])
  change exec (.writel h w (.v n) a b) s = _ at hexec
  rw [hexec, State.actLanes_woken hr.listed]
  cases (s.actLanes h).head? with
  | none => exact ⟨_, rfl, hk, rfl, rfl⟩
  | some lead =>
    dsimp only [State.writelGroup]
    split
    · obtain ⟨v, hv⟩ := s.woken.curG.withElem_eq (widthOf w) n.toNat
        (sub (widthOf w) (s.woken.src h (wExpand w) b lead) 0) (sub (widthOf w) (s.woken.src h (wExpand w) a lead) 0)
      exact ⟨_, rfl, hk.setGroup ⟨v, s.woken.curG.p, hv⟩, State.curG_setGroup .., rfl⟩
    · exact ⟨_, rfl, hk, rfl, rfl⟩

/-! ### Pushed elements (R200) -/

/-- Of pairs ascending in their second part the last has the highest. -/
theorem getLast?_eq_some_iff {L : List (Nat × Nat)} (hs : L.Pairwise fun p q => p.2 < q.2) {x : Nat × Nat} :
    L.getLast? = some x ↔ x ∈ L ∧ ∀ y ∈ L, y.2 ≤ x.2 := by
  rcases List.eq_nil_or_concat L with rfl | ⟨init, z, rfl⟩
  · simp
  · rw [List.concat_eq_append] at hs ⊢
    have hbelow : ∀ y ∈ init, y.2 < z.2 := fun y hy => (List.pairwise_append.mp hs).2.2 y hy z List.mem_cons_self
    rw [List.getLast?_concat, Option.some.injEq]
    constructor
    · rintro rfl
      refine ⟨by simp, fun y hy => ?_⟩
      rcases List.mem_append.mp hy with hy | hy
      · exact (hbelow y hy).le
      · rw [List.mem_singleton.mp hy]
    · rintro ⟨hx, hmax⟩
      rcases List.mem_append.mp hx with hx | hx
      · exact absurd (hmax z (by simp)) (not_le.mpr (hbelow x hx))
      · exact (List.mem_singleton.mp hx).symm

theorem winner_eq_some_iff {snd : List (Nat × Nat)} (hs : snd.Pairwise fun p q => p.2 < q.2) {m j : Nat} :
    winner snd m = some j ↔ (m, j) ∈ snd ∧ ∀ i, (m, i) ∈ snd → i ≤ j := by
  have hlast (x : Nat × Nat) := getLast?_eq_some_iff (hs.filter fun p => p.1 == m) (x := x)
  simp only [List.mem_filter, beq_iff_eq] at hlast
  rw [winner, Option.map_eq_some_iff]
  constructor
  · rintro ⟨⟨m', j'⟩, hx, rfl⟩
    obtain ⟨⟨hmem, rfl⟩, hmax⟩ := (hlast _).mp hx
    exact ⟨hmem, fun i hi => hmax (m', i) ⟨hi, rfl⟩⟩
  · rintro ⟨hmem, hmax⟩
    refine ⟨(m, j), (hlast _).mpr ⟨⟨hmem, rfl⟩, ?_⟩, rfl⟩
    rintro ⟨m', i⟩ ⟨hi, rfl⟩
    exact hmax i hi

theorem winner_eq_none_iff {snd : List (Nat × Nat)} {m : Nat} : winner snd m = none ↔ ∀ j, (m, j) ∉ snd := by
  rw [winner, Option.map_eq_none_iff, List.getLast?_eq_none_iff, List.filter_eq_nil_iff]
  exact ⟨fun hall j hj => hall (m, j) hj (beq_self_eq_true m), fun hall x hx he => hall x.2 (eq_of_beq he ▸ hx)⟩

/-- Element `j` of the issuing lanes is sent to element `m` (R200). -/
def Sends (s : State) (h : Hdr) (w : BitVec 2) (b : Spec) (j m : Nat) : Prop :=
  j / perReg (widthOf w) ∈ s.actLanes h
  ∧ Machine.sub (widthOf w) (s.src h (wExpand w) b (j / perReg (widthOf w))) (j % perReg (widthOf w)) = m
  ∧ InReach s (widthOf w) m

theorem State.mem_senders (s : State) (h : Hdr) (w : BitVec 2) (b : Spec) (m j : Nat) :
    (m, j) ∈ s.senders h w b ↔ Sends s h w b j m := by
  have hk := perReg_pos w
  simp only [State.senders, List.mem_filter, List.mem_flatMap, List.mem_map, List.mem_range, Prod.mk.injEq,
    s.elemOk_iff, Sends]
  constructor
  · rintro ⟨⟨l, hl, i, hi, rfl, rfl⟩, hin⟩
    rw [Nat.mul_add_div hk, Nat.div_eq_of_lt hi, Nat.mul_add_mod, Nat.mod_eq_of_lt hi]
    exact ⟨hl, rfl, hin⟩
  · rintro ⟨hl, hsub, hin⟩
    exact ⟨⟨_, hl, _, Nat.mod_lt _ hk, hsub, Nat.div_add_mod ..⟩, hin⟩

theorem State.senders_sorted (s : State) (h : Hdr) (w : BitVec 2) (b : Spec) :
    (s.senders h w b).Pairwise fun p q => p.2 < q.2 := by
  obtain ⟨p, hp⟩ := s.actLanes_eq_filter h
  have hs : (s.actLanes h).Pairwise (· < ·) := hp ▸ List.pairwise_lt_range.filter _
  refine List.Pairwise.filter _ (List.pairwise_flatMap.mpr ⟨fun l _ => ?_, hs.imp fun {l k} hlk => ?_⟩)
  · rw [List.pairwise_map]
    exact List.pairwise_lt_range.imp fun hij => Nat.add_lt_add_left hij _
  · simp only [List.mem_map, List.mem_range]
    rintro _ ⟨i, hi, rfl⟩ _ ⟨j, -, rfl⟩
    have hnext : perReg (widthOf w) * (l + 1) ≤ perReg (widthOf w) * k := Nat.mul_le_mul_left _ hlk
    rw [Nat.mul_add_one] at hnext
    show perReg (widthOf w) * l + i < perReg (widthOf w) * k + j
    omega

section
variable (s : State) (h : Hdr) (w : BitVec 2) (n : BitVec 8) (a b c : Spec)

/-- What lane `l` of `D` holds after PUSH. -/
def State.pushVal (l : Nat) : W64 :=
  pack (widthOf w) (perReg (widthOf w)) fun i =>
    match winner (s.senders h w b) (perReg (widthOf w) * l + i) with
    | some j => s.elem h (wExpand w) a (widthOf w) j
    | none => Machine.sub (widthOf w) (s.src h .zx64 (.v n) l) i

/-- An element of the lane is dropped, or a higher sender wins over it. -/
def State.pushLost (l : Nat) : Bool :=
  (List.range (perReg (widthOf w))).any fun i =>
    !((s.senders h w b).any fun p => p.2 == perReg (widthOf w) * l + i
      && winner (s.senders h w b) p.1 == some (perReg (widthOf w) * l + i))

/-- The lanes in which some element of `D` is pushed to. -/
def State.pushLanes : List Nat :=
  (List.range 32).filter fun l => (List.range (perReg (widthOf w))).any fun i =>
    (winner (s.senders h w b) (perReg (widthOf w) * l + i)).isSome

/-- The group after PUSH. -/
def State.pushGroup : Group :=
  let g := s.curG.writeV n.toNat (s.pushLanes h w b) (s.pushVal h w n a b)
  match c with
  | .p r => g.writeP r.toNat (s.actLanes h) (s.pushLost h w b)
  | _ => g

/-- The lanes whose whole register PUSH replaces. -/
def State.pushFull : List Nat :=
  (List.range 32).filter fun l => (List.range (perReg (widthOf w))).all fun i =>
    (winner (s.senders h w b) (perReg (widthOf w) * l + i)).isSome

/-- The machine after PUSH, before its slices go on. -/
def State.pushed : State :=
  ((s.setGroup s.cur.gid (s.pushGroup h w n a b c)).freshReg s.cur.gid (.v n) (s.pushFull h w b)).freshReg
    s.cur.gid c (s.actLanes h)

theorem push_exec (hr : Ready h [.v n] [a, b, c] s) : exec (.push h w (.v n) a b c) s
    = .next ((Res.done (s.woken.pushed h w n a b c)).finish h s.curPc) := by
  have hexec : exec (.push h w (.v n) a b c) s
      = issue h [.v n] [a, b, c] s fun s => .done (s.pushed h w n a b c) := by
    cases c <;> rfl
  rw [hexec, issue_ready hr]

theorem State.pushGroup_eq : ∃ v p, s.pushGroup h w n a b c = { s.curG with v := v, p := p } := by
  obtain ⟨v, hv⟩ := s.curG.writeV_eq n.toNat (s.pushLanes h w b) (s.pushVal h w n a b)
  unfold State.pushGroup
  rw [hv]
  cases c with
  | p r =>
    obtain ⟨p, hp⟩ := Group.writeP_eq { s.curG with v := v } r.toNat (s.actLanes h) (s.pushLost h w b)
    exact ⟨v, p, hp⟩
  | _ => exact ⟨v, s.curG.p, rfl⟩

/-- The lanes of `v` registers after PUSH are those of its first write. -/
theorem State.laneV_pushGroup (r l : Nat) : (s.pushGroup h w n a b c).laneV r l
    = (s.curG.writeV n.toNat (s.pushLanes h w b) (s.pushVal h w n a b)).laneV r l := by
  unfold State.pushGroup
  cases c with
  | p q =>
    obtain ⟨p, hp⟩ := Group.writeP_eq (s.curG.writeV n.toNat (s.pushLanes h w b) (s.pushVal h w n a b)) q.toNat
      (s.actLanes h) (s.pushLost h w b)
    dsimp only
    rw [hp]
    rfl
  | _ => rfl

/-- An element that a sender names takes the winner's value, the others stay. -/
theorem State.sub_pushVal (m : Nat) :
    Machine.sub (widthOf w) (s.pushVal h w n a b (m / perReg (widthOf w))) (m % perReg (widthOf w))
      = (winner (s.senders h w b) m).elim
          (Machine.sub (widthOf w) (s.curG.laneV n.toNat (m / perReg (widthOf w))) (m % perReg (widthOf w)))
          (laneEl s h (wExpand w) a (widthOf w)) := by
  rw [State.pushVal, sub_packInt w (Nat.mod_lt _ (perReg_pos w))]
  · rw [Nat.div_add_mod]
    cases winner (s.senders h w b) m <;> rfl
  · split <;> exact sub_lt ..

theorem State.sub_pushGroup {m : Nat} (hm : m < 32 * perReg (widthOf w)) :
    Machine.sub (widthOf w) ((s.pushGroup h w n a b c).laneV n.toNat (m / perReg (widthOf w)))
        (m % perReg (widthOf w))
      = (winner (s.senders h w b) m).elim
          (Machine.sub (widthOf w) (s.curG.laneV n.toNat (m / perReg (widthOf w))) (m % perReg (widthOf w)))
          (laneEl s h (wExpand w) a (widthOf w)) := by
  rw [State.laneV_pushGroup, Group.laneV_writeV _ _ _ _ (elem_lane_lt w hm)]
  split
  case isTrue => exact s.sub_pushVal h w n a b m
  case isFalse hout =>
    have hnone : winner (s.senders h w b) m = none := by
      by_contra hsome
      refine hout (List.mem_filter.mpr ⟨List.mem_range.mpr (elem_lane_lt w hm), List.any_eq_true.mpr
        ⟨m % perReg (widthOf w), List.mem_range.mpr (Nat.mod_lt _ (perReg_pos w)), ?_⟩⟩)
      rw [Nat.div_add_mod]
      exact Option.isSome_iff_ne_none.mpr hsome
    rw [hnone]
    rfl

theorem State.pushLost_iff (l : Nat) : s.pushLost h w b l = true ↔ ∃ i < perReg (widthOf w), ∀ m,
    Sends s h w b (perReg (widthOf w) * l + i) m →
      ∃ j, perReg (widthOf w) * l + i < j ∧ Sends s h w b j m := by
  simp only [State.pushLost, List.any_eq_true, List.mem_range, Bool.not_eq_true', ← Bool.not_eq_true, not_exists, not_and,
    Bool.and_eq_true, beq_iff_eq]
  refine exists_congr fun i => and_congr_right fun _ => ?_
  generalize perReg (widthOf w) * l + i = j
  constructor
  · intro hlost m hsend
    have hnot := hlost (m, j) ((s.mem_senders h w b m j).mpr hsend) rfl
    rw [winner_eq_some_iff (s.senders_sorted h w b)] at hnot
    by_contra hno
    refine hnot ⟨(s.mem_senders h w b m j).mpr hsend, fun i hi => ?_⟩
    by_contra hij
    exact hno ⟨i, not_le.mp hij, (s.mem_senders h w b m i).mp hi⟩
  · rintro hlost ⟨m, j'⟩ hmem rfl hwin
    obtain ⟨i, hij, hsend⟩ := hlost m ((s.mem_senders h w b m _).mp hmem)
    exact absurd (((winner_eq_some_iff (s.senders_sorted h w b)).mp hwin).2 i ((s.mem_senders h w b m i).mpr hsend))
      (not_le.mpr hij)

theorem State.laneP_pushGroup (q : BitVec 3) {l : Nat} (hl : l < 32) :
    (s.pushGroup h w n a b (.p q)).laneP q.toNat l
      = if q.toNat ≠ 7 ∧ l ∈ s.actLanes h then s.pushLost h w b l else s.curG.laneP q.toNat l := by
  obtain ⟨v, hv⟩ := s.curG.writeV_eq n.toNat (s.pushLanes h w b) (s.pushVal h w n a b)
  show (Group.writeP (s.curG.writeV _ _ _) _ _ _).laneP _ _ = _
  rw [Group.laneP_writeP _ _ _ _ hl, hv]
  rfl

theorem State.laneP_pushGroup_other {r : Nat} (hr : ∀ q : BitVec 3, c = .p q → r ≠ q.toNat) (l : Nat) :
    (s.pushGroup h w n a b c).laneP r l = s.curG.laneP r l := by
  obtain ⟨v, hv⟩ := s.curG.writeV_eq n.toNat (s.pushLanes h w b) (s.pushVal h w n a b)
  unfold State.pushGroup
  rw [hv]
  cases c with
  | p q => exact Group.laneP_writeP_ne _ _ _ _ (hr q rfl)
  | _ => rfl

theorem State.pushed_keeps (hl : s.groups.get? s.cur.gid ≠ none) (hc : ∀ r, c ≠ .t r) :
    GroupOnly s (s.woken.pushed h w n a b c) ∧ (s.woken.pushed h w n a b c).curG = s.woken.pushGroup h w n a b c
    ∧ (∀ x ∈ (s.woken.pushed h w n a b c).bad, x ∈ s.bad)
    ∧ ∀ x ∈ s.bad, x ≠ .reg s.cur.gid (.v n) → x ≠ .reg s.cur.gid c → x ∈ (s.woken.pushed h w n a b c).bad := by
  have hk := (GroupOnly.woken hl).setGroup (s.woken.pushGroup_eq h w n a b c)
  refine ⟨(hk.freshReg _ (.v n) (s.woken.pushFull h w b)).freshReg _ c (s.woken.actLanes h), ?_, ?_⟩
  · unfold State.pushed
    rw [(State.freshReg_parts ..).1, (State.freshReg_parts ..).1, State.curG_setGroup]
  · obtain ⟨bad, hbad, hsub, hkeep⟩ := (s.woken.setGroup s.woken.cur.gid (s.woken.pushGroup h w n a b c)).freshReg_eq
      s.woken.cur.gid (.v n) (s.woken.pushFull h w b)
    obtain ⟨bad', hbad', hsub', hkeep'⟩ := State.freshReg_eq
      { s.woken.setGroup s.woken.cur.gid (s.woken.pushGroup h w n a b c) with bad := bad } s.woken.cur.gid c
      (s.woken.actLanes h)
    rw [State.regPlace_own _ _ hc] at hkeep'
    unfold State.pushed
    rw [hbad, hbad']
    exact ⟨fun x hx => hsub x (hsub' x hx), fun x hx h1 h2 => hkeep' x (hkeep x hx h1) h2⟩

end

theorem State.senders_woken {s : State} (hl : s.groups.get? s.cur.gid ≠ none) (h : Hdr) (w : BitVec 2) (b : Spec) :
    s.woken.senders h w b = s.senders h w b := by
  simp only [State.senders, State.actLanes_woken hl, State.src_woken hl]
  rfl

theorem State.pushLost_woken {s : State} (hl : s.groups.get? s.cur.gid ≠ none) (h : Hdr) (w : BitVec 2) (b : Spec) (l : Nat) :
    s.woken.pushLost h w b l = s.pushLost h w b l := by
  simp only [State.pushLost, State.senders_woken hl]

section
variable {s : State} (hl : s.groups.get? s.cur.gid ≠ none) {h : Hdr} {w : BitVec 2} {n : BitVec 8} {a b c : Spec}
include hl

/-- An element takes the value of the highest sender that names it. -/
theorem sub_pushGroup_of_sends {m j : Nat} (hm : m < 32 * perReg (widthOf w)) (hj : Sends s h w b j m)
    (hmax : ∀ i, Sends s h w b i m → i ≤ j) : sub (widthOf w)
        ((s.woken.pushGroup h w n a b c).laneV n.toNat (m / perReg (widthOf w))) (m % perReg (widthOf w))
      = laneEl s h (wExpand w) a (widthOf w) j := by
  have hwins : winner (s.senders h w b) m = some j := (winner_eq_some_iff (s.senders_sorted h w b)).mpr
    ⟨(s.mem_senders h w b m j).mpr hj, fun i hi => hmax i ((s.mem_senders h w b m i).mp hi)⟩
  rw [State.sub_pushGroup _ _ _ _ _ _ _ hm, State.senders_woken hl, hwins]
  exact laneEl_woken hl h (wExpand w) a (widthOf w) j

theorem sub_pushGroup_of_not_sends {m : Nat} (hm : m < 32 * perReg (widthOf w)) (hno : ∀ j, ¬Sends s h w b j m) :
    sub (widthOf w) ((s.woken.pushGroup h w n a b c).laneV n.toNat (m / perReg (widthOf w))) (m % perReg (widthOf w))
      = sub (widthOf w) (s.curG.laneV n.toNat (m / perReg (widthOf w))) (m % perReg (widthOf w)) := by
  have hnone : winner (s.senders h w b) m = none :=
    winner_eq_none_iff.mpr fun j hj => hno j ((s.mem_senders h w b m j).mp hj)
  rw [State.sub_pushGroup _ _ _ _ _ _ _ hm, State.senders_woken hl, hnone, ← State.laneV_woken hl]
  rfl

theorem laneV_pushGroup_ne {r : Nat} (hr : r ≠ n.toNat) (l : Nat) :
    (s.woken.pushGroup h w n a b c).laneV r l = s.curG.laneV r l := by
  rw [State.laneV_pushGroup, Group.laneV_writeV_ne _ _ _ _ hr, State.laneV_woken hl]

/-- `C` tells the active lanes of which an element was dropped or lost. -/
theorem laneP_pushGroup_iff {q : BitVec 3} (hq : q ≠ 7) {l : Nat} (hact : l ∈ s.actLanes h) :
    (s.woken.pushGroup h w n a b (.p q)).laneP q.toNat l = true ↔ ∃ i < perReg (widthOf w), ∀ m,
      Sends s h w b (perReg (widthOf w) * l + i) m → ∃ j, perReg (widthOf w) * l + i < j ∧ Sends s h w b j m := by
  have hq7 : q.toNat ≠ 7 := fun he => hq (BitVec.eq_of_toNat_eq he)
  rw [State.laneP_pushGroup _ _ _ _ _ _ _ (State.mem_actLanes_lt hact), State.actLanes_woken hl,
    if_pos ⟨hq7, hact⟩, State.pushLost_woken hl]
  exact s.pushLost_iff h w b l

theorem laneP_pushGroup_stays {r l : Nat} (hlt : l < 32)
    (hout : c = .zero ∨ l ∉ s.actLanes h ∨ ∃ q : BitVec 3, c = .p q ∧ r ≠ q.toNat) :
    (s.woken.pushGroup h w n a b c).laneP r l = s.curG.laneP r l := by
  rw [← State.laneP_woken hl]
  by_cases hother : ∀ q : BitVec 3, c = .p q → r ≠ q.toNat
  · exact s.woken.laneP_pushGroup_other h w n a b c hother l
  · push Not at hother
    obtain ⟨q, rfl, rfl⟩ := hother
    have hact : l ∉ s.woken.actLanes h := by
      rw [State.actLanes_woken hl]
      rcases hout with hzero | hout | ⟨q', hq', hne⟩
      · cases hzero
      · exact hout
      · cases hq'
        exact absurd rfl hne
    rw [State.laneP_pushGroup _ _ _ _ _ _ _ hlt, if_neg fun hin => hact hin.2]

end

end Sys2Proof.Machine

open Sys2Proof Sys2Proof.Machine in
/-- Settles O11: a gather, a rearrangement and a read are arithmetic on elements found by index; a push and a write replace
lanes of the group itself, and the last of the ascending senders of an element is the highest. -/
theorem crossLaneMoves : Obligations.CrossLaneMoves := by
  unfold Obligations.CrossLaneMoves
  refine ⟨fun s h w z mode d a b c n => ⟨fun hf => shfl_gives hf fun l i hi => ?shfl,
    fun hf hc hr => perm_gives hf hc hr fun l i hi => ?perm⟩, ?push,
    fun s h w sgn d b a n q => ⟨fun hf hr => readl_gives hf hr fun l => ?readl, fun hr => ?writel⟩⟩
  case shfl =>
    rw [State.shuffled, sub_packInt w hi (State.gathered_lt ..)]
    have hmodes : ∀ r : BitVec 2, r = 0 ∨ r = 1 ∨ r = 2 ∨ r = 3 := by decide
    rcases hmodes mode with rfl | rfl | rfl | rfl
    · exact State.gathered_eq False nofun fun _ => rfl
    · refine State.gathered_eq _ (fun hlt => ?_) fun hge => ?_
      · exact sub_neg.mpr (Int.ofNat_lt.mpr hlt)
      · exact (Nat.cast_sub (not_lt.mp hge)).symm
    · exact State.gathered_eq False nofun fun _ => rfl
    · exact State.gathered_eq False nofun fun _ => rfl
  case perm =>
    refine sub_packInt w hi ?_
    dsimp only
    split_ifs
    · exact sub_lt ..
    · exact sub_lt ..
    · exact Nat.two_pow_pos _
  case readl => exact s.readElem_eq h w sgn (.v q) b (s.leadOf h d l)
  case push =>
    intro s h w n a b c hc hr e wd k sends
    have hl := hr.listed
    have hct : ∀ r, c ≠ .t r := by
      rcases hc with rfl | ⟨q, -, rfl⟩ <;> exact nofun
    obtain ⟨hk, hu, hended, hkept⟩ := s.pushed_keeps h w n a b c hl hct
    obtain ⟨hwent, hrest, hgroups, sl, ga, hg⟩ := hk.done h s.curPc
    obtain ⟨v, p, hvp⟩ := s.woken.pushGroup_eq h w n a b c
    have hexec := push_exec s h w n a b c hr
    refine ⟨_, hexec, fun m hm => ⟨fun j hj hmax => ?taken, fun hno => ?stays⟩, fun r l hne => ?others,
      fun q hq l hact => ?lost, fun r l hlt hout => ?preds, hwent, hrest, hgroups, hkept, hended, ?frame⟩
    case taken => rw [hk.laneV_done, hu, sub_pushGroup_of_sends hl hm hj hmax]
    case stays => rw [hk.laneV_done, hu, sub_pushGroup_of_not_sends hl hm hno]
    case others => rw [hk.laneV_done, hu, laneV_pushGroup_ne hl hne]
    case lost =>
      have hq7 : q ≠ 7 := by
        rcases hc with hc | ⟨q', hq', hc⟩
        · cases hc.symm.trans hq
        · cases hc.symm.trans hq
          exact hq'
      subst hq
      rw [hk.laneP_done, hu]
      exact laneP_pushGroup_iff hl hq7 hact
    case preds => rw [hk.laneP_done, hu, laneP_pushGroup_stays hl hlt hout]
    case frame =>
      rw [hg, hu, hvp, State.curG_woken hl]
      rfl
  case writel =>
    have hl := hr.listed
    obtain ⟨u, hexec, hk, hu, hbad⟩ := writel_exec hr
    obtain ⟨hwent, hrest, hgroups, sl, ga, hg⟩ := hk.done h s.curPc
    obtain ⟨v, hv⟩ := s.woken.writelGroup_eq h w n a b (s.actLanes h).head?
    refine ⟨_, hexec, fun lead hlead m hm => ?elem, fun hnone l => ?none, fun r l hne => ?other, hwent, ?rest, hgroups,
      ?frame⟩
    case elem =>
      obtain ⟨hnamed, hother⟩ := s.woken.sub_writelGroup h w n a b lead hm
      simp only [State.src_woken hl, State.laneV_woken hl, ← hlead, ← hu, ← hk.laneV_done h s.curPc] at hnamed hother
      split
      · exact hnamed ‹_›
      · exact hother ‹_›
    case none =>
      rw [hk.laneV_done, hu, hnone]
      exact State.laneV_woken hl n.toNat l
    case other => rw [hk.laneV_done, hu, State.laneV_writelGroup_ne _ _ _ _ _ _ hne, State.laneV_woken hl]
    case rest => rwa [hbad] at hrest
    case frame =>
      rw [hg, hu, hv, State.curG_woken hl]
      rfl
end

section
/-! PROOFS. O17: copies of names, dropped (R275) and asked for (R276). -/

namespace Sys2Proof.Machine

theorem Table.del_eq_filter {α : Type} (t : Table α) (k : Nat) : t.del k = t.filter fun p => p.1 != k := by
  induction t with
  | nil => rfl
  | cons p r ih =>
    obtain ⟨j, y⟩ := p
    simp only [Table.del, List.filter_cons, ih]
    by_cases hj : j = k <;> simp [hj]

theorem Table.get?_del {α : Type} (t : Table α) (k i : Nat) : (t.del k).get? i = if i = k then none else t.get? i := by
  rw [Table.del_eq_filter, Table.get?_filter t (· != k)]
  by_cases hi : i = k <;> simp [hi]

theorem State.curT_modTeam (s : State) (f : Team → Team) (ht : s.teams.get? s.curG.team ≠ none) :
    (s.modTeam s.curG.team f).curT = f s.curT := by
  obtain ⟨x, hx⟩ := Option.ne_none_iff_exists'.mp ht
  exact Table.getD_alter_self s.teams f _ hx

theorem Group.mem_slicesOn (g : Group) (m : BitVec 8) {i : Nat} (hi : i < 8) :
    i ∈ g.slicesOn m ↔ m.getLsbD i = true ∧ (g.slice i).am &&& (g.slice i).live ≠ 0 := by
  simp [Group.slicesOn, those, hi]

/-! ### A copy of a `g` name dropped (R275) -/

/-- The group without the copies of `gN` that the listed slices hold. -/
def Group.dropOn (g : Group) (n : Nat) (on : List Nat) : Group :=
  { g with gc := g.gc.filter fun p => !(p.1 / 8 == n && on.contains (p.1 % 8)) }

theorem Group.gc_dropOn (g : Group) (n : Nat) (on : List Nat) (r : Nat) {i : Nat} (hi : i < 8) :
    (g.dropOn n on).gc.get? (gKey r i) = if r = n ∧ i ∈ on then none else g.gc.get? (gKey r i) := by
  have hname : gKey r i / 8 = r := by unfold gKey; omega
  have hslice : gKey r i % 8 = i := by unfold gKey; omega
  rw [Group.dropOn, Table.get?_filter g.gc fun k => !(k / 8 == n && on.contains (k % 8)), hname, hslice]
  by_cases hdrop : r = n ∧ i ∈ on <;> simp [hdrop]

/-- Any registers of the group may change, so long as its slices and sub-gangs stay. -/
theorem GroupOnly.setGroup_of_kept {s u : State} (hk : GroupOnly s u) {g : Group} (hs : g.slices = u.curG.slices)
    (hg : g.gangs = u.curG.gangs) : GroupOnly s (u.setGroup u.cur.gid g) where
  rest := by
    have hrest := hk.rest
    rw [hrest]
    rfl
  listed := by
    show Table.get? (u.groups.set u.cur.gid g) u.cur.gid ≠ none
    rw [Table.get?_set_self]
    exact Option.some_ne_none _
  groups i hi := (Table.get?_set_ne _ _ (by rwa [hk.cur_eq])).trans (hk.groups i hi)
  slices := (congrArg Group.slices (State.curG_setGroup u g)).trans (hs.trans hk.slices)
  gangs := (congrArg Group.gangs (State.curG_setGroup u g)).trans (hg.trans hk.gangs)

section
variable {s : State} {h : Hdr}

/-- The machine after DROP of a `g` name, before its slices go on. -/
def State.droppedG (s : State) (n : Nat) : State :=
  s.setGroup s.cur.gid (s.curG.dropOn n (s.curG.slicesOn s.cur.slices))

theorem dropG_exec {n : BitVec 7} (hr : Ready h [.g n] [] s) (hu : s.uniform h = true)
    (hs : s.curG.shadowed n.toNat = false) :
    exec (.drop h (.g n)) s = .next ((Res.done (s.woken.droppedG n.toNat)).finish h s.curPc) := by
  have hsw : s.woken.curG.shadowed n.toNat = false := by
    rw [State.curG_woken hr.listed]
    exact hs
  show execDrop h (.g n) s = _
  rw [execDrop, issue_ready hr]
  simp only [State.uniform_woken hr.listed, hu, hsw, Bool.not_true, Bool.false_eq_true, if_false]
  rfl

/-! ### A group's copy of a `t` name dropped (R275) -/

/-- The team without the group's copy of `tN`. -/
def Team.dropCopy (t : Team) (n gi : Nat) : Team := { t with tc := t.tc.del (tKey n gi) }

/-- DROP of a `t` name changes the team alone, apart from how its slices go on. -/
theorem dropT_exec {q : BitVec 6} (hr : Ready h [.t q] [] s) (hu : s.uniform h = true)
    (hw : s.curG.whole s.cur.slices = true) (hon : s.curG.slicesOn s.cur.slices = s.curG.liveSlices) :
    exec (.drop h (.t q)) s = .next (((Res.done s.woken).finish h s.curPc).modTeam s.curG.team
      fun t => t.dropCopy q.toNat s.curG.idx) := by
  have hg := State.curG_woken hr.listed
  have hww : s.woken.curG.whole s.woken.cur.slices = true := by
    rw [hg]
    exact hw
  have honw : s.woken.curG.slicesOn s.woken.cur.slices = s.woken.curG.liveSlices := by
    rw [hg]
    exact hon
  show execDrop h (.t q) s = _
  rw [execDrop, issue_ready hr]
  simp only [State.uniform_woken hr.listed, hu, hww, honw, Bool.not_true, bne_self_eq_false, Bool.or_self,
    Bool.false_eq_true, if_false]
  rw [hg]
  rfl

/-! ### Whether a copy is held (R276) -/

/-- The slice of lane `l` holds a copy of a `g` name, or the group one of a `t` name. -/
def State.holdsCopy (s : State) (a : Spec) (l : Nat) : Bool :=
  match a with
  | .g n => !s.curG.shadowed n.toNat && (s.curG.gc.get? (gKey n.toNat (l / 4))).isSome
  | .t n => (s.curT.tc.get? (tKey n.toNat s.curG.idx)).isSome
  | _ => false

theorem State.holdsCopy_g_iff (s : State) (n : BitVec 7) (l : Nat) : s.holdsCopy (.g n) l = true ↔
    s.curG.shadowed n.toNat = false ∧ s.curG.gc.get? (gKey n.toNat (l / 4)) ≠ none := by
  simp [State.holdsCopy, Option.isSome_iff_ne_none]

theorem State.holdsCopy_t_iff (s : State) (q : BitVec 6) (l : Nat) :
    s.holdsCopy (.t q) l = true ↔ s.curT.tc.get? (tKey q.toNat s.curG.idx) ≠ none := Option.isSome_iff_ne_none

theorem State.holdsCopy_woken (hl : s.groups.get? s.cur.gid ≠ none) : s.woken.holdsCopy = s.holdsCopy := by
  funext a l
  unfold State.holdsCopy
  rw [State.curG_woken hl, State.curT_woken hl]
  rfl

/-- RANKQ writes its answers as an arithmetic instruction does (R170). -/
theorem exec_rankq_eq {d a : Spec} (hr : Ready h [d] [a] s) : exec (.rankq h d a) s
    = issue h [d] [a] s fun s => s.arith h d fun l => if s.holdsCopy a l then 1 else 0 := by
  show execRankq h d a s = _
  rw [execRankq, issue_ready hr, issue_ready hr]
  rfl

theorem rankq_gives {d a : Spec} {val : Nat → W64 → Prop} (hr : Ready h [d] [a] s) (hroom : Room h d s)
    (ha : ∀ n, d = .t n → ∀ l ∈ s.resultLanes h d, ∀ j ∈ s.resultLanes h d,
      (if s.holdsCopy a l then 1 else 0 : W64) = if s.holdsCopy a j then 1 else 0)
    (hv : ∀ l, val l (if s.holdsCopy a l then 1 else 0)) : Gives (.rankq h d a) h d s val :=
  .of_ready (fun s l => if s.holdsCopy a l then 1 else 0) hr hroom (exec_rankq_eq hr)
    (by rw [State.holdsCopy_woken hr.listed]) ha fun l _ => hv l

end

end Sys2Proof.Machine

open Sys2Proof Sys2Proof.Machine in
/-- Settles O17: DROP filters the group's split store, or deletes the group's key in the team's; RANKQ looks up the key of
the lane's own slice, or of the group, and no other. -/
theorem copiesOfNames : Obligations.CopiesOfNames := by
  unfold Obligations.CopiesOfNames
  intro s h n q d
  refine ⟨fun hr hu hs => ?dropG, fun hr hu hw hon ht => ?dropT, fun hr hroom halike => ?rankqG,
    fun hr hroom => ?rankqT⟩
  case dropG =>
    have hl := hr.listed
    have hk : GroupOnly s (s.woken.droppedG n.toNat) := (GroupOnly.woken hl).setGroup_of_kept rfl rfl
    obtain ⟨hwent, hrest, hgroups, sl, ga, hg⟩ := hk.done h s.curPc
    have hdropped : (s.woken.droppedG n.toNat).curG
        = (s.curG.setWait s.cur.slices .none).dropOn n.toNat (s.curG.slicesOn s.cur.slices) := by
      rw [State.droppedG, State.curG_setGroup, State.curG_woken hl]
      rfl
    rw [hdropped] at hg
    refine ⟨_, dropG_exec hr hu hs, hwent, hrest, hgroups, ?_, fun r i hi => ?_⟩
    · rw [hg]
      rfl
    · simp only [← s.curG.mem_slicesOn s.cur.slices hi]
      rw [hg]
      exact Group.gc_dropOn _ _ _ r hi
  case dropT =>
    obtain ⟨hwent, hrest, hgroups, sl, ga, hg⟩ := (GroupOnly.woken hr.listed).done h s.curPc
    have hexec := dropT_exec hr hu hw hon
    rw [State.curG_woken hr.listed] at hg
    generalize (Res.done s.woken).finish h s.curPc = u at *
    have hteams : u.teams = s.teams := by rw [hrest]
    have hteam : u.curG.team = s.curG.team := by
      rw [hg]
      rfl
    have hcurT : (u.modTeam s.curG.team fun t => t.dropCopy q.toNat s.curG.idx).curT
        = s.curT.dropCopy q.toNat s.curG.idx := by
      rw [← hteam, State.curT_modTeam _ _ (by rwa [hteams, hteam])]
      unfold State.curT State.team
      rw [hteams, hteam]
    refine ⟨_, hexec, hwent, ?_, hgroups, ?_, fun i hi => ?_, ?_, fun k => ?_⟩
    · rw [hrest]
      rfl
    · show u.curG = { s.curG with slices := u.curG.slices, gangs := u.curG.gangs }
      rw [hg]
      rfl
    · rw [← hteams]
      exact Table.get?_alter_ne _ _ hi
    · rw [hcurT]
      rfl
    · rw [hcurT]
      exact Table.get?_del _ _ k
  case rankqG =>
    simp only [← State.holdsCopy_g_iff] at halike ⊢
    exact rankq_gives hr hroom halike fun _ => rfl
  case rankqT =>
    simp only [← State.holdsCopy_t_iff s q 0]
    exact rankq_gives hr hroom (fun _ _ _ _ _ _ => rfl) fun _ => rfl
end
